-- ==== Sys2Proof/Word.lean ====
section
/-! DEFINITION. The byte and word types of the host line and the measurement links, and the fixed-size
tables in which the blocks keep one record per step, quantity, source or notice class. -/

namespace Sys2Proof

/-- One byte of a frame (R204). -/
abbrev Byte := BitVec 8

/-- A frame sequence number and any other two-byte field that wraps (R4). -/
abbrev Word16 := BitVec 16

/-- A four-byte field: a setting value as SETTING_WRITE carries it (R206). -/
abbrev Word32 := BitVec 32

/-- A step of the yard: value `i` stands for step `i + 1` (00_scope, 4.3). -/
abbrev StepIx := Fin 8

/-- A quantity of the Harmonic Supervisor: value `i` stands for quantity number `i + 1`, so 0 is THD and
`h - 1` is harmonic order `h`, 2 to 13 (R121, R188). -/
abbrev QtyIx := Fin 13

namespace Tab

/-- The table whose entry `i` is `f i`. -/
def build {α : Type} {n : Nat} (f : Fin n → α) : Vector α n :=
  ⟨⟨List.ofFn f⟩, by simp⟩

/-- The table with entry `i` replaced by `x`. -/
def put {α : Type} {n : Nat} (v : Vector α n) (i : Fin n) (x : α) : Vector α n :=
  v.set i x

/-- The table with entry `i` changed by `f`. -/
def upd {α : Type} {n : Nat} (v : Vector α n) (i : Fin n) (f : α → α) : Vector α n :=
  put v i (f (v.get i))

@[simp] theorem get_build {α : Type} {n : Nat} (f : Fin n → α) (i : Fin n) :
    (build f).get i = f i := by
  simp [build, Vector.get]
  rfl

@[simp] theorem get_put_self {α : Type} {n : Nat} (v : Vector α n) (i : Fin n) (x : α) :
    (put v i x).get i = x := by
  simp [put, Vector.get_eq_getElem]

theorem get_put_ne {α : Type} {n : Nat} (v : Vector α n) {i j : Fin n} (x : α) (h : j ≠ i) :
    (put v i x).get j = v.get j := by
  have : (i : Nat) ≠ j := fun e => h (Fin.ext e.symm)
  simp [put, Vector.get_eq_getElem, this]

theorem get_put {α : Type} {n : Nat} (v : Vector α n) (i j : Fin n) (x : α) :
    (put v i x).get j = if j = i then x else v.get j := by
  by_cases h : j = i
  · subst h; simp
  · simp [h, get_put_ne v x h]

@[simp] theorem get_upd_self {α : Type} {n : Nat} (v : Vector α n) (i : Fin n) (f : α → α) :
    (upd v i f).get i = f (v.get i) := get_put_self ..

theorem get_upd_ne {α : Type} {n : Nat} (v : Vector α n) {i j : Fin n} (f : α → α) (h : j ≠ i) :
    (upd v i f).get j = v.get j := get_put_ne v _ h

theorem get_upd {α : Type} {n : Nat} (v : Vector α n) (i j : Fin n) (f : α → α) :
    (upd v i f).get j = if j = i then f (v.get i) else v.get j := get_put ..

/-- Two tables with the same entries are the same table. -/
theorem ext_get {α : Type} {n : Nat} {v w : Vector α n} (h : ∀ i, v.get i = w.get i) : v = w := by
  apply Vector.ext
  intro i hi
  simpa [Vector.get_eq_getElem] using h ⟨i, hi⟩

end Tab

/-- The eight steps in ascending index. -/
def allSteps : List StepIx := [0, 1, 2, 3, 4, 5, 6, 7]

/-- The thirteen quantities in the order of R121. -/
def allQtys : List QtyIx := [0, 1, 2, 3, 4, 5, 6, 7, 8, 9, 10, 11, 12]

@[simp] theorem mem_allSteps (i : StepIx) : i ∈ allSteps := by
  revert i; decide

@[simp] theorem mem_allQtys (q : QtyIx) : q ∈ allQtys := by
  revert q; decide

/-- The number by which requests, replies and records name a step. -/
def stepNo (i : StepIx) : Nat := i.val + 1

end Sys2Proof
end

