-- ==== Sys2Proof/Syntax.lean ====
section
/-! DEFINITION. The commands the yard controller takes: one constructor of `Instr` per row of
spec/opcode_table.json, and the small enumerations that stand among their operands. -/

namespace Sys2Proof

/-- A measurement link: MLA carries acquisition unit A, MLB unit B (chapter 1). -/
inductive Link where
  | a
  | b
  deriving DecidableEq, Repr

/-- The link beside this one. -/
def Link.other : Link → Link
  | .a => .b
  | .b => .a

/-- A position contact input of a step: POS_C_s or POS_O_s (00_scope, 3). -/
inductive Contact where
  | closedContact
  | openContact
  deriving DecidableEq, Repr

/-- What began a full reset (R201). -/
inductive ResetCause where
  | powerOn
  | pin
  | supply
  deriving DecidableEq, Repr

/-- How a frame on a measurement link ended (R1): complete, with all its bytes from the marker to the
check value, or by a framing failure. -/
inductive FrameEnd where
  | complete (bytes : List Byte)
  | failed
  deriving DecidableEq, Repr

/-- An occurrence on a measurement link that may end MEAS_DISAGREE (R17): a frame that ends, or the
100 ms expiry of the silence time. -/
inductive LinkOccurrence where
  | frame (e : FrameEnd)
  | silence100
  deriving DecidableEq, Repr

/-- The two causes of HOST_FRAME_ABANDON (R171). -/
inductive AbandonCause where
  | lengthError
  | lineError
  deriving DecidableEq, Repr

/-- The four pulse sources, each with its hold timer (R160). -/
inductive PulseSource where
  | unbTrip
  | opFail
  | sourceSwitch
  | stationSilent
  deriving DecidableEq, Repr

/-- The two ends of a commit (R196). -/
inductive CommitResult where
  | complete
  | failed
  deriving DecidableEq, Repr

/-- A request of the catalogue (R206) with its operand bytes as the frame carries them. An operand
outside its range is a value like any other here: the request's own rule refuses it (R175). -/
inductive Request where
  | ident
  | yardStatus
  | stepRead (step : Byte)
  | measRead (record : Byte)
  | linkRead (link clear : Byte)
  | linkStats
  | harmRead
  | unbRead (step : Byte)
  | queueRead
  | noticeList
  | modeSet (mode : Byte)
  | orderStage (step kind : Byte)
  | orderExecute (step kind : Byte)
  | orderCancel
  | stepEnable (step : Byte)
  | stepDisable (step : Byte)
  | stepRelease (step confirm : Byte)
  | marksClear (step : Byte)
  | baselineCapture (step : Byte)
  | captureCancel
  | settingWrite (item index : Byte) (value : Word32)
  | settingRead (item index source : Byte)
  | settingsApply
  | settingsDiscard
  | routeSet (source destination : Byte)
  | routeRead
  | storeCommit
  | storeStatus
  | baselineUnlock
  | noticeFetch
  | noticeAck (cls : Byte)
  | noticeConfig (cls priority mask : Byte)
  | linkReset
  deriving DecidableEq, Repr

/-- The commands, one constructor per row of spec/opcode_table.json, in the table's order.

The rows are of four kinds. EVENTS AT THE PINS carry what arrived: the bytes of a frame, a contact level,
a strap reading. TIMER EXPIRIES carry the entity whose timer it is. OCCURRENCES ON A POSTING (LINK_LOCKED,
INSERT_DELAY_REACHED, HARM_MOVE_UP, UNB_TRIP and the like) carry the frame at which they come about.
REQUESTS carry their operand bytes (R206). -/
inductive Instr where
  /-- FULL_RESET: the reset ends; the straps BAUD1 and BAUD0 are read (R201, R202). -/
  | fullReset (cause : ResetCause) (baud1 baud0 : Bool)
  /-- MEAS_FRAME: bytes that arrive on the link; well formed, those of one complete frame, from the marker to the
  check value (R1, R208). -/
  | measFrame (link : Link) (bytes : List Byte)
  /-- MEAS_FRAMING_FAILURE: the step count byte of the frame in progress arrives and is 0 or above 8 (R1). -/
  | measFramingFailure (link : Link)
  /-- MEAS_BYTE_GAP_TIMEOUT: more than 5 ms have passed since the last byte of the frame in progress (R1). -/
  | measByteGapTimeout (link : Link)
  /-- LINK_LOCKED: the frame that raises the run count to 8 (R6). -/
  | linkLocked (link : Link) (bytes : List Byte)
  /-- LOCKED_BAD_FRAME_LIMIT: the fourth consecutive bad frame of a LOCKED link (R7). -/
  | lockedBadFrameLimit (link : Link) (frame : FrameEnd)
  /-- SILENCE_100MS (R7). -/
  | silence100ms (link : Link)
  /-- SILENCE_500MS (R8). -/
  | silence500ms (link : Link)
  /-- ACQUISITION_WINDOW_EXPIRY (R10). -/
  | acquisitionWindowExpiry
  /-- MEAS_DISAGREE_START: the frame whose posting brings the disagreement count to 50 (R17). -/
  | measDisagreeStart (link : Link) (bytes : List Byte)
  /-- MEAS_DISAGREE_END: the occurrence on a link at which MEAS_DISAGREE ends (R17). -/
  | measDisagreeEnd (link : Link) (what : LinkOccurrence)
  /-- CONTACT_LEVEL_CHANGE: the raw level of a contact input, made or not (R23). -/
  | contactLevelChange (step : StepIx) (contact : Contact) (made : Bool)
  /-- DEBOUNCE_EXPIRY (R23). -/
  | debounceExpiry (step : StepIx) (contact : Contact)
  /-- POSITION_DISAGREEMENT_EXPIRY (R24). -/
  | positionDisagreementExpiry (step : StepIx)
  /-- PULSE_EXPIRY (R61). -/
  | pulseExpiry (step : StepIx)
  /-- OPERATE_LIMIT_EXPIRY (R62, R67). -/
  | operateLimitExpiry (step : StepIx)
  /-- SETTLE_EXPIRY (R65). -/
  | settleExpiry (step : StepIx)
  /-- ORDER_STAGE_EXPIRY (R70). -/
  | orderStageExpiry
  /-- DISCHARGE_EXPIRY (R77). -/
  | dischargeExpiry (step : StepIx)
  /-- STARTUP_DISCHARGE_EXPIRY (R79). -/
  | startupDischargeExpiry
  /-- DUTY_EXPIRY (R82). -/
  | dutyExpiry (step : StepIx)
  /-- YARD_TIMER_EXPIRY (R87). -/
  | yardTimerExpiry
  /-- START_UP_HOLD_EXPIRY (R98). -/
  | startUpHoldExpiry
  /-- INSERT_DELAY_REACHED: the frame on whose posting below stands at Ti (R102). -/
  | insertDelayReached (link : Link) (bytes : List Byte)
  /-- REMOVE_DELAY_REACHED: the frame on whose posting above stands at Tr (R105). -/
  | removeDelayReached (link : Link) (bytes : List Byte)
  /-- OVERVOLTAGE_DELAY: the frame on whose posting OVERVOLTAGE becomes active (R112, R113). -/
  | overvoltageDelay (link : Link) (bytes : List Byte)
  /-- OVERVOLTAGE_REPEAT: the frame on whose posting the repeat accumulator reaches Tx (R113). -/
  | overvoltageRepeat (link : Link) (bytes : List Byte)
  /-- LOSS_OF_VOLTAGE_DELAY: the frame on whose posting LOSS_OF_VOLTAGE becomes active (R114, R115). -/
  | lossOfVoltageDelay (link : Link) (bytes : List Byte)
  /-- STATION_SILENCE_EXPIRY (R117). -/
  | stationSilenceExpiry
  /-- HARM_MOVE_UP: the frame on whose posting the quantity moves up one stage (R124, R125). -/
  | harmMoveUp (qty : QtyIx) (link : Link) (bytes : List Byte)
  /-- HARM_MOVE_DOWN: the frame on whose posting the quantity moves down one stage (R124, R125). -/
  | harmMoveDown (qty : QtyIx) (link : Link) (bytes : List Byte)
  /-- REMOVE_REPEAT_EXPIRY (R129). -/
  | removeRepeatExpiry (qty : QtyIx)
  /-- ARMING_EXPIRY (R140). -/
  | armingExpiry (step : StepIx)
  /-- UNB_ALARM: the frame on whose posting S1 of the step asserts (R143, R144). -/
  | unbAlarm (step : StepIx) (link : Link) (bytes : List Byte)
  /-- UNB_TRIP: the frame on whose posting S2 or S3 of the step asserts (R143, R145). -/
  | unbTrip (step : StepIx) (link : Link) (bytes : List Byte)
  /-- CAPTURE_COMPLETE: the frame whose posting brings the capture count to 16 (R153). -/
  | captureComplete (link : Link) (bytes : List Byte)
  /-- AUX_HOLD_EXPIRY (R160). -/
  | auxHoldExpiry (source : PulseSource)
  /-- HOST_FRAME: bytes that arrive on HRX with their stop bits high; well formed, those of one complete frame, from 0xA5
  to the check value (R171, R172, R205). -/
  | hostFrame (bytes : List Byte)
  /-- HOST_FRAME_ABANDON: the next byte of the frame in progress arrives and abandons it (R171). -/
  | hostFrameAbandon (cause : AbandonCause)
  /-- HOST_BYTE_GAP_TIMEOUT: more than 20 ms have passed since the last byte of the frame in progress (R171). -/
  | hostByteGapTimeout
  /-- REPLY_END: the last stop bit of a reply is sent (R173). -/
  | replyEnd
  /-- BREAK: HRX has been low for 50 ms (R186). -/
  | breakOnHrx
  /-- IDENT (R177). -/
  | ident
  /-- YARD_STATUS (R178). -/
  | yardStatus
  /-- STEP_READ (R44). -/
  | stepRead (step : Byte)
  /-- MEAS_READ (R19). -/
  | measRead (record : Byte)
  /-- LINK_READ (R18). -/
  | linkRead (link clear : Byte)
  /-- LINK_STATS (R174). -/
  | linkStats
  /-- HARM_READ (R136). -/
  | harmRead
  /-- UNB_READ (R156). -/
  | unbRead (step : Byte)
  /-- QUEUE_READ (R73). -/
  | queueRead
  /-- NOTICE_LIST (R185). -/
  | noticeList
  /-- MODE_SET (R92). -/
  | modeSet (mode : Byte)
  /-- ORDER_STAGE (R70). -/
  | orderStage (step kind : Byte)
  /-- ORDER_EXECUTE (R71). -/
  | orderExecute (step kind : Byte)
  /-- ORDER_CANCEL (R72). -/
  | orderCancel
  /-- STEP_ENABLE (R35). -/
  | stepEnable (step : Byte)
  /-- STEP_DISABLE (R34). -/
  | stepDisable (step : Byte)
  /-- STEP_RELEASE (R33). -/
  | stepRelease (step confirm : Byte)
  /-- MARKS_CLEAR (R135). -/
  | marksClear (step : Byte)
  /-- BASELINE_CAPTURE (R151). -/
  | baselineCapture (step : Byte)
  /-- CAPTURE_CANCEL (R155). -/
  | captureCancel
  /-- SETTING_WRITE (R189). -/
  | settingWrite (item index : Byte) (value : Word32)
  /-- SETTING_READ (R190). -/
  | settingRead (item index source : Byte)
  /-- SETTINGS_APPLY (R192, R193). -/
  | settingsApply
  /-- SETTINGS_DISCARD (R191). -/
  | settingsDiscard
  /-- ROUTE_SET (R167, R168). -/
  | routeSet (source destination : Byte)
  /-- ROUTE_READ (R170). -/
  | routeRead
  /-- STORE_COMMIT (R195, R196). -/
  | storeCommit
  /-- STORE_STATUS (R200). -/
  | storeStatus
  /-- BASELINE_UNLOCK (R198). -/
  | baselineUnlock
  /-- COMMIT_END (R197). -/
  | commitEnd (result : CommitResult)
  /-- NOTICE_FETCH (R183). -/
  | noticeFetch
  /-- NOTICE_ACK (R184). -/
  | noticeAck (cls : Byte)
  /-- NOTICE_CONFIG (R185). -/
  | noticeConfig (cls priority mask : Byte)
  /-- LINK_RESET (R186). -/
  | linkReset
  /-- DISCARDED_BYTE: a byte that arrives on HRX, and whether its stop bit is low; well formed, one that a hunting receiver
  discards (R171). -/
  | discardedByte (byte : Byte) (stopLow : Bool)
  /-- HRX_RETURNS_HIGH (R186). -/
  | hrxReturnsHigh
  /-- DEBOUNCE_TIME_FROM_RESET (R25, R43). -/
  | debounceTimeFromReset
  /-- FULL_RESET_HELD: a full reset begins (R201, R202). -/
  | fullResetHeld (cause : ResetCause)
  deriving DecidableEq, Repr

end Sys2Proof
end

