-- ==== Sys2Proof/Decode.lean ====
section
/-! DEFINITION. The command that a word spells by the bits of spec/opcode_table.json. No row of that table gives
any bits: the part's commands are events, and no word spells one. -/

namespace Sys2Proof

/-- The command that a word spells: none, since no row gives bits. -/
def decodeTableWord (_nbits _w : Nat) : Option Instr := none

end Sys2Proof
end

