-- ==== Sys2Proof/Config.lean ====
section
/-! DEFINITION. What the manual fixes once for the part (its constants), and the one value it leaves open. -/

namespace Sys2Proof.Config

/-- The longest gap between two bytes of a measurement frame, ms (R1). -/
def byteGap : Nat := 5
/-- The longest gap between two bytes of a host frame, ms (R171). -/
def hostByteGap : Nat := 20
/-- Silence time at which a LOCKED link moves to SEEKING, ms (R7). -/
def silenceLocked : Nat := 100
/-- Silence time at which a SEEKING link enters SILENT, ms (R8). -/
def silenceSeeking : Nat := 500
/-- Run count at which a SEEKING link enters LOCKED (R6). -/
def runToLock : Nat := 8
/-- Consecutive bad frames that take a link out of LOCKED, and the bad count's greatest value (R6, R7). -/
def badLimit : Nat := 4
/-- Greatest missing count that keeps a LOCKED link LOCKED (R7). -/
def missingKept : Nat := 2
/-- The acquisition window from full reset, ms (R10). -/
def acquisitionWindow : Nat := 2000
/-- The cap on the elapsed time of a posting, ms (R14). -/
def elapsedCap : Nat := 100
/-- The age up to which a record is used for a snapshot or a comparison, ms (R15, R16, R64). -/
def recordAge : Nat := 100
/-- Consecutive comparisons that start or end MEAS_DISAGREE (R16, R17). -/
def disagreeRun : Nat := 50
/-- Greatest value of a saturating two-byte count (R9, R21, R121, R174). -/
def count16 : Nat := 65535
/-- Greatest value of the operation count (R54). -/
def count32 : Nat := 4294967295
/-- Greatest value of a notice's occurrences (R179). -/
def count8 : Nat := 255
/-- Greatest duty level (R81). -/
def dutyMax : Nat := 31
/-- The margin of the duty check (R83) and of the duty level at reset (R85). -/
def dutyMargin : Nat := 2
/-- Records averaged by a baseline capture (R153). -/
def captureRecords : Nat := 16
/-- Stamps a trip history holds (R146). -/
def historySize : Nat := 4
/-- Family code of IDENT (R177). -/
def familyCode : Nat := 0x50
/-- Part code of IDENT (R177). -/
def partCode : Nat := 0x08
/-- Design revision of IDENT (R177). -/
def designRevision : Nat := 2
/-- The longest a commit lasts, ms (R196). -/
def commitLimit : Nat := 1500
/-- The longest a reply waits before it begins, ms (R176). -/
def replyStartLimit : Nat := 5
/-- Greatest payload size of a host frame (R171, R205). -/
def maxPayload : Nat := 240

/-- FREE VALUE (log entry 9). Whether the verification of the n-th accepted commit matches is a fact about
the storage that the manual leaves open (R196). It is read only where nobody has sent COMMIT_END by the end
of the 1.5 s; a COMMIT_END command carries its own result. -/
opaque commitVerifies : Nat → Bool

end Sys2Proof.Config
end

