-- ==== Sys2Proof/Machine/Values.lean ====
section
/-! DEFINITION. The enumerated values of the manual: states, modes, origins, results, causes, event
sources, notice classes and destinations, with the codes that R204 gives them on the host line. -/

namespace Sys2Proof.Machine

/-- The mode (R91). -/
inductive Mode where
  | auto
  | manual
  | off
  deriving DecidableEq, Repr

/-- The kind of a switching request (chapter 3.1). -/
inductive Kind where
  | close
  | opening
  deriving DecidableEq, Repr

/-- The origin of a switching request, in class order (00_scope, 4.4). -/
inductive Origin where
  | protection
  | guarding
  | station
  | regulation
  deriving DecidableEq, Repr

/-- The blocks that raise switching requests (R46). -/
inductive Requester where
  | regulator
  | overvoltageGuard
  | lossOfVoltageGuard
  | hsv
  | evr
  | ubp
  | swu
  | hlk
  deriving DecidableEq, Repr

/-- The result of a switching request (R46). -/
inductive OpResult where
  | success
  | failToOperate
  | aborted
  | already
  | notEligible
  | superseded
  | withdrawn
  | queueConflict
  deriving DecidableEq, Repr

/-- The state of a measurement link (chapter 1.2). -/
inductive LinkState where
  | silent
  | seeking
  | locked
  deriving DecidableEq, Repr

/-- The debounced value of a contact input (R23). -/
inductive Debounced where
  | made
  | notMade
  | undefined
  deriving DecidableEq, Repr

/-- The state of a step (chapter 2.3). -/
inductive StepState where
  | disabled
  | discharging
  | ready
  | closing
  | energized
  | opening
  | lockedOut
  deriving DecidableEq, Repr

/-- The position of a step's breaker (R24). -/
inductive Position where
  | opened
  | closed
  | travel
  | unknown
  deriving DecidableEq, Repr

/-- The discharge basis (R32). -/
inductive Basis where
  | own
  | startUp
  deriving DecidableEq, Repr

/-- The lockout cause (chapter 2.1). -/
inductive Cause where
  | unbalanceTrip
  | repeatedTrip
  | failToClose
  | failToOpen
  | positionUnknown
  | uncommandedClose
  | noCurrent
  deriving DecidableEq, Repr

/-- The phase of an operation record (R59). -/
inductive Phase where
  | pulsing
  | awaiting
  | settling
  deriving DecidableEq, Repr

/-- The state of the regulator (R94). -/
inductive RegState where
  | hold
  | watch
  | pending
  | settling
  deriving DecidableEq, Repr

/-- The state of a harmonic quantity (R121). -/
inductive HarmState where
  | normal
  | alarm
  | block
  | remove
  deriving DecidableEq, Repr

/-- The evaluation state of a step in UBP (R138). -/
inductive EvalState where
  | off
  | awaitHold
  | awaitSettle
  | armed
  deriving DecidableEq, Repr

/-- The state of an unbalance stage (R138). -/
inductive StageState where
  | inactive
  | pickedUp
  | asserted
  deriving DecidableEq, Repr

/-- The stage or stages that made a trip (R138). -/
inductive TripStage where
  | s2
  | s3
  | both
  deriving DecidableEq, Repr

/-- The two ends of a capture (R138). -/
inductive CaptureResult where
  | complete
  | aborted
  deriving DecidableEq, Repr

/-- The sixteen event sources, numbered 1 to 16 in this order (R158). -/
inductive Source where
  | unbTrip
  | unbAlarm
  | breakerFail
  | opFail
  | harmAlarm
  | harmBlock
  | harmRemove
  | overvoltage
  | lossOfVoltage
  | measLost
  | measDisagree
  | sourceSwitch
  | budgetExhausted
  | noCandidate
  | stationSilent
  | storeFault
  deriving DecidableEq, Repr

/-- The destinations of a route (R159). -/
inductive Destination where
  | none
  | aux (n : Fin 4)
  | freeze
  | blockInsert
  | removeNewest
  | removeAll
  deriving DecidableEq, Repr

/-- The fourteen notice classes, numbered 1 to 14 in this order (R179). -/
inductive NoticeClass where
  | trip
  | breakerFail
  | opFail
  | lockout
  | unbAlarm
  | harmAlarm
  | harmAction
  | measurement
  | sourceSwitch
  | regLimit
  | position
  | mode
  | longOp
  | store
  deriving DecidableEq, Repr

/-- The hold causes of the regulator (R95). -/
inductive HoldCause where
  | noSource
  | switchover
  | disagree
  | freeze
  | startUp
  | lossOfVoltage
  deriving DecidableEq, Repr

/-- What caused a link reset (R174, R186). -/
inductive LinkResetCause where
  | request
  | lineBreak
  deriving DecidableEq, Repr

/-- Whether the host receiver takes what arrives: it hunts for a start byte or is inside a frame, or, after a break,
it ignores HRX until the line has returned high (R171, R186). -/
inductive Receiver where
  | hunting
  | ignoring
  deriving DecidableEq, Repr

/-- The reply codes (R176). -/
inductive ReplyCode where
  | ok
  | accepted
  | unknownRequest
  | badLength
  | outOfRange
  | wrongMode
  | wrongState
  | notStaged
  | mismatch
  | stageHeld
  | notEligible
  | busy
  | protected_
  | invalidSettings
  | queueConflict
  deriving DecidableEq, Repr

/-- The class number of an origin; a lower number outranks a higher one (00_scope, 4.4). -/
def Origin.cls : Origin → Nat
  | .protection => 0
  | .guarding => 1
  | .station => 2
  | .regulation => 3

/-- The origin a requester's requests carry (R46). -/
def Requester.origin : Requester → Origin
  | .regulator => .regulation
  | .overvoltageGuard => .guarding
  | .lossOfVoltageGuard => .protection
  | .hsv => .guarding
  | .evr => .guarding
  | .ubp => .protection
  | .swu => .protection
  | .hlk => .station

/-- The target position of an operation (R54). -/
def Kind.target : Kind → Position
  | .close => .closed
  | .opening => .opened

/-- The place of a source in the tables of EVR. -/
def Source.ix : Source → Fin 16
  | .unbTrip => 0
  | .unbAlarm => 1
  | .breakerFail => 2
  | .opFail => 3
  | .harmAlarm => 4
  | .harmBlock => 5
  | .harmRemove => 6
  | .overvoltage => 7
  | .lossOfVoltage => 8
  | .measLost => 9
  | .measDisagree => 10
  | .sourceSwitch => 11
  | .budgetExhausted => 12
  | .noCandidate => 13
  | .stationSilent => 14
  | .storeFault => 15

/-- The sixteen sources in number order. -/
def allSources : List Source :=
  [.unbTrip, .unbAlarm, .breakerFail, .opFail, .harmAlarm, .harmBlock, .harmRemove, .overvoltage,
   .lossOfVoltage, .measLost, .measDisagree, .sourceSwitch, .budgetExhausted, .noCandidate,
   .stationSilent, .storeFault]

/-- Whether a source is a pulse (R158). -/
def Source.isPulse : Source → Bool
  | .unbTrip => true
  | .opFail => true
  | .sourceSwitch => true
  | .stationSilent => true
  | _ => false

end Sys2Proof.Machine

namespace Sys2Proof

/-- The event source that a hold timer belongs to (R160). -/
def PulseSource.source : PulseSource → Machine.Source
  | .unbTrip => .unbTrip
  | .opFail => .opFail
  | .sourceSwitch => .sourceSwitch
  | .stationSilent => .stationSilent

end Sys2Proof

namespace Sys2Proof.Machine

/-- The place of a notice class in the notice table. -/
def NoticeClass.ix : NoticeClass → Fin 14
  | .trip => 0
  | .breakerFail => 1
  | .opFail => 2
  | .lockout => 3
  | .unbAlarm => 4
  | .harmAlarm => 5
  | .harmAction => 6
  | .measurement => 7
  | .sourceSwitch => 8
  | .regLimit => 9
  | .position => 10
  | .mode => 11
  | .longOp => 12
  | .store => 13

/-- The fourteen classes in number order. -/
def allClasses : List NoticeClass :=
  [.trip, .breakerFail, .opFail, .lockout, .unbAlarm, .harmAlarm, .harmAction, .measurement,
   .sourceSwitch, .regLimit, .position, .mode, .longOp, .store]

/-- Whether a notice class is a condition class (R179). -/
def NoticeClass.isCondition : NoticeClass → Bool
  | .breakerFail => true
  | .unbAlarm => true
  | .harmAlarm => true
  | .harmAction => true
  | .measurement => true
  | .regLimit => true
  | .store => true
  | _ => false

/-! ### Codes on the host line (R204) -/

/-- NO/YES, OFF/ON, INACTIVE/ACTIVE: 0 and 1. -/
def flagCode (b : Bool) : Nat := if b then 1 else 0

def linkCode : Link → Nat
  | .a => 0
  | .b => 1

def linkOfCode : Nat → Option Link
  | 0 => some .a
  | 1 => some .b
  | _ => none

def Mode.code : Mode → Nat
  | .auto => 0
  | .manual => 1
  | .off => 2

def Mode.ofCode : Nat → Option Mode
  | 0 => some .auto
  | 1 => some .manual
  | 2 => some .off
  | _ => none

def Kind.code : Kind → Nat
  | .close => 0
  | .opening => 1

def Kind.ofCode : Nat → Option Kind
  | 0 => some .close
  | 1 => some .opening
  | _ => none

/-- A NO/YES operand. -/
def flagOfCode : Nat → Option Bool
  | 0 => some false
  | 1 => some true
  | _ => none

/-- A step operand, 1 to 8. -/
def stepOfCode (n : Nat) : Option StepIx :=
  if h : 1 ≤ n ∧ n ≤ 8 then some ⟨n - 1, by omega⟩ else none

def OpResult.code : OpResult → Nat
  | .success => 0
  | .failToOperate => 1
  | .aborted => 2
  | .already => 3
  | .notEligible => 4
  | .superseded => 5
  | .withdrawn => 6
  | .queueConflict => 7

def LinkState.code : LinkState → Nat
  | .silent => 0
  | .seeking => 1
  | .locked => 2

def Debounced.code : Debounced → Nat
  | .made => 0
  | .notMade => 1
  | .undefined => 2

def StepState.code : StepState → Nat
  | .disabled => 0
  | .discharging => 1
  | .ready => 2
  | .closing => 3
  | .energized => 4
  | .opening => 5
  | .lockedOut => 6

def Position.code : Position → Nat
  | .opened => 0
  | .closed => 1
  | .travel => 2
  | .unknown => 3

def Basis.code : Basis → Nat
  | .own => 0
  | .startUp => 1

def Cause.code : Cause → Nat
  | .unbalanceTrip => 0
  | .repeatedTrip => 1
  | .failToClose => 2
  | .failToOpen => 3
  | .positionUnknown => 4
  | .uncommandedClose => 5
  | .noCurrent => 6

def Phase.code : Phase → Nat
  | .pulsing => 0
  | .awaiting => 1
  | .settling => 2

def RegState.code : RegState → Nat
  | .hold => 0
  | .watch => 1
  | .pending => 2
  | .settling => 3

def HarmState.code : HarmState → Nat
  | .normal => 0
  | .alarm => 1
  | .block => 2
  | .remove => 3

def EvalState.code : EvalState → Nat
  | .off => 0
  | .awaitHold => 1
  | .awaitSettle => 2
  | .armed => 3

def StageState.code : StageState → Nat
  | .inactive => 0
  | .pickedUp => 1
  | .asserted => 2

def TripStage.code : TripStage → Nat
  | .s2 => 0
  | .s3 => 1
  | .both => 2

def CaptureResult.code : CaptureResult → Nat
  | .complete => 0
  | .aborted => 1

def LinkResetCause.code : LinkResetCause → Nat
  | .request => 0
  | .lineBreak => 1

def Destination.code : Destination → Nat
  | .none => 0
  | .aux n => n.val + 1
  | .freeze => 5
  | .blockInsert => 6
  | .removeNewest => 7
  | .removeAll => 8

def Destination.ofCode : Nat → Option Destination
  | 0 => some .none
  | 1 => some (.aux 0)
  | 2 => some (.aux 1)
  | 3 => some (.aux 2)
  | 4 => some (.aux 3)
  | 5 => some .freeze
  | 6 => some .blockInsert
  | 7 => some .removeNewest
  | 8 => some .removeAll
  | _ => Option.none

/-- A source operand, 1 to 16 (R158). -/
def Source.ofCode (n : Nat) : Option Source :=
  if n = 0 then none else allSources[n - 1]?

/-- The number of a source, 1 to 16 (R158). -/
def Source.number (src : Source) : Nat := src.ix.val + 1

/-- A notice class operand, 1 to 14 (R179). -/
def NoticeClass.ofCode (n : Nat) : Option NoticeClass :=
  if n = 0 then none else allClasses[n - 1]?

/-- The number of a notice class, 1 to 14 (R179). -/
def NoticeClass.number (c : NoticeClass) : Nat := c.ix.val + 1

/-- The rank of a harmonic state: NORMAL 0 up to REMOVE 3. -/
def HarmState.rank (h : HarmState) : Nat := h.code

/-- The number of a quantity: THD 1, orders 2 to 13 by their order (R188, R204). -/
def qtyNo (q : QtyIx) : Nat := q.val + 1

def ReplyCode.code : ReplyCode → Nat
  | .ok => 0
  | .accepted => 1
  | .unknownRequest => 2
  | .badLength => 3
  | .outOfRange => 4
  | .wrongMode => 5
  | .wrongState => 6
  | .notStaged => 7
  | .mismatch => 8
  | .stageHeld => 9
  | .notEligible => 10
  | .busy => 11
  | .protected_ => 12
  | .invalidSettings => 13
  | .queueConflict => 14

/-- The reset causes in the order of their owner's rule (R201, R204). -/
def resetCauseCode : ResetCause → Nat
  | .powerOn => 0
  | .supply => 1
  | .pin => 2

def commitResultCode : CommitResult → Nat
  | .complete => 0
  | .failed => 1

end Sys2Proof.Machine
end

