-- ==== Sys2Proof/Machine/Settings.lean ====
section
/-! DEFINITION. The settings table (R188): the 139 settings by item and index, their ranges and factory
defaults, the settings in force as plain tables, and the cross-checks of R192. -/

namespace Sys2Proof.Machine

/-- The 39 yard-wide items of R188, in item order. -/
inductive YardItem where
  | preferredLink
  | disagreeLimit
  | debounceTime
  | disagreementTime
  | closePulse
  | tripPulse
  | closeLimit
  | openLimit
  | settleWindow
  | presenceLevel
  | tripRetries
  | stageTimeout
  | dischargeTime
  | dutyLimit
  | dutyInterval
  | yardLimit
  | yardInterval
  | vl
  | vh
  | ti
  | tr
  | vx
  | tx
  | vu
  | tlov
  | startUpHold
  | fallbackInterval
  | startUpMode
  | pUp
  | pDown
  | amplification
  | removeRepeat
  | d1
  | d2
  | d3
  | repeatWindow
  | repeatCount
  | auxHold
  | baselineLock
  deriving DecidableEq, Repr

/-- The six per-step items of R188. -/
inductive StepItem where
  | installed
  | rating
  | expectedRise
  | l1
  | l2
  | l3
  deriving DecidableEq, Repr

/-- The four per-quantity items of R188. -/
inductive QtyItem where
  | la
  | lb
  | lr
  | hyst
  deriving DecidableEq, Repr

/-- A setting: an item and its index (R188). -/
inductive SettingKey where
  | yard (item : YardItem)
  | step (item : StepItem) (s : StepIx)
  | qty (item : QtyItem) (q : QtyIx)
  deriving DecidableEq, Repr

/-- The active value of every setting, in the unit of its item; an enumerated setting holds its code
(R206). The tables are in the order of the item types above. -/
structure Settings where
  yard : Vector Nat 39
  step : Vector (Vector Nat 8) 6
  qty  : Vector (Vector Nat 13) 4
  deriving DecidableEq, Repr

def YardItem.ix : YardItem → Fin 39
  | .preferredLink => 0
  | .disagreeLimit => 1
  | .debounceTime => 2
  | .disagreementTime => 3
  | .closePulse => 4
  | .tripPulse => 5
  | .closeLimit => 6
  | .openLimit => 7
  | .settleWindow => 8
  | .presenceLevel => 9
  | .tripRetries => 10
  | .stageTimeout => 11
  | .dischargeTime => 12
  | .dutyLimit => 13
  | .dutyInterval => 14
  | .yardLimit => 15
  | .yardInterval => 16
  | .vl => 17
  | .vh => 18
  | .ti => 19
  | .tr => 20
  | .vx => 21
  | .tx => 22
  | .vu => 23
  | .tlov => 24
  | .startUpHold => 25
  | .fallbackInterval => 26
  | .startUpMode => 27
  | .pUp => 28
  | .pDown => 29
  | .amplification => 30
  | .removeRepeat => 31
  | .d1 => 32
  | .d2 => 33
  | .d3 => 34
  | .repeatWindow => 35
  | .repeatCount => 36
  | .auxHold => 37
  | .baselineLock => 38

def allYardItems : List YardItem :=
  [.preferredLink, .disagreeLimit, .debounceTime, .disagreementTime, .closePulse, .tripPulse,
   .closeLimit, .openLimit, .settleWindow, .presenceLevel, .tripRetries, .stageTimeout,
   .dischargeTime, .dutyLimit, .dutyInterval, .yardLimit, .yardInterval, .vl, .vh, .ti, .tr, .vx,
   .tx, .vu, .tlov, .startUpHold, .fallbackInterval, .startUpMode, .pUp, .pDown, .amplification,
   .removeRepeat, .d1, .d2, .d3, .repeatWindow, .repeatCount, .auxHold, .baselineLock]

def StepItem.ix : StepItem → Fin 6
  | .installed => 0
  | .rating => 1
  | .expectedRise => 2
  | .l1 => 3
  | .l2 => 4
  | .l3 => 5

def allStepItems : List StepItem := [.installed, .rating, .expectedRise, .l1, .l2, .l3]

def QtyItem.ix : QtyItem → Fin 4
  | .la => 0
  | .lb => 1
  | .lr => 2
  | .hyst => 3

def allQtyItems : List QtyItem := [.la, .lb, .lr, .hyst]

/-- The 139 settings. -/
def allSettings : List SettingKey :=
  allYardItems.map .yard
    ++ allStepItems.flatMap (fun i => allSteps.map (.step i))
    ++ allQtyItems.flatMap (fun i => allQtys.map (.qty i))

/-- Item number, least value, greatest value and factory default of a yard-wide item (R188). -/
def YardItem.row : YardItem → Nat × Nat × Nat × Nat
  | .preferredLink    => (1, 0, 1, 0)
  | .disagreeLimit    => (2, 50, 500, 200)
  | .debounceTime     => (3, 5, 50, 10)
  | .disagreementTime => (4, 20, 2000, 200)
  | .closePulse       => (7, 20, 250, 100)
  | .tripPulse        => (8, 20, 250, 60)
  | .closeLimit       => (9, 30, 500, 200)
  | .openLimit        => (10, 30, 500, 120)
  | .settleWindow     => (11, 1, 30, 5)
  | .presenceLevel    => (12, 5, 50, 20)
  | .tripRetries      => (13, 0, 2, 1)
  | .stageTimeout     => (14, 5, 60, 15)
  | .dischargeTime    => (15, 60, 900, 300)
  | .dutyLimit        => (16, 2, 20, 6)
  | .dutyInterval     => (17, 60, 3600, 900)
  | .yardLimit        => (18, 4, 60, 12)
  | .yardInterval     => (19, 60, 1800, 300)
  | .vl               => (20, 8500, 10000, 9800)
  | .vh               => (21, 10000, 11500, 10350)
  | .ti               => (22, 5, 600, 60)
  | .tr               => (23, 5, 600, 60)
  | .vx               => (25, 10200, 12000, 11000)
  | .tx               => (26, 100, 10000, 2000)
  | .vu               => (27, 1000, 8000, 3000)
  | .tlov             => (28, 100, 5000, 500)
  | .startUpHold      => (29, 10, 600, 60)
  | .fallbackInterval => (30, 0, 3600, 0)
  | .startUpMode      => (31, 0, 2, 0)
  | .pUp              => (32, 1, 600, 30)
  | .pDown            => (33, 1, 600, 60)
  | .amplification    => (34, 120, 500, 150)
  | .removeRepeat     => (35, 30, 600, 120)
  | .d1               => (43, 1, 600, 10)
  | .d2               => (44, 100, 60000, 500)
  | .d3               => (45, 0, 500, 40)
  | .repeatWindow     => (46, 1, 72, 24)
  | .repeatCount      => (47, 2, 4, 3)
  | .auxHold          => (48, 100, 5000, 1000)
  | .baselineLock     => (49, 0, 1, 1)

/-- Item number, range and factory default of a per-step item (R188). -/
def StepItem.row : StepItem → Nat × Nat × Nat × Nat
  | .installed    => (5, 0, 1, 0)
  | .rating       => (6, 100, 50000, 1000)
  | .expectedRise => (24, 10, 2000, 150)
  | .l1           => (40, 10, 60000, 300)
  | .l2           => (41, 10, 60000, 900)
  | .l3           => (42, 10, 60000, 4000)

/-- Item number and range of a per-quantity item (R188). -/
def QtyItem.row : QtyItem → Nat × Nat × Nat
  | .la   => (36, 0, 10000)
  | .lb   => (37, 0, 10000)
  | .lr   => (38, 0, 10000)
  | .hyst => (39, 0, 2000)

/-- The factory defaults of La, Lb, Lr and H by quantity (R120). -/
def qtyDefaults (q : QtyIx) : Nat × Nat × Nat × Nat :=
  match qtyNo q with
  | 1 => (500, 800, 1200, 50)
  | 3 => (300, 500, 800, 30)
  | 9 => (300, 500, 800, 30)
  | 5 => (400, 600, 900, 40)
  | 7 => (400, 600, 900, 40)
  | 11 => (250, 400, 600, 30)
  | 13 => (250, 400, 600, 30)
  | _ => (150, 250, 400, 20)

/-- Item number of a setting (R188). -/
def SettingKey.item : SettingKey → Nat
  | .yard i => i.row.1
  | .step i _ => i.row.1
  | .qty i _ => i.row.1

/-- Index of a setting: 0, the step number or the quantity number (R188). -/
def SettingKey.index : SettingKey → Nat
  | .yard _ => 0
  | .step _ s => stepNo s
  | .qty _ q => qtyNo q

/-- The factory default of a setting (R188). -/
def SettingKey.factory : SettingKey → Nat
  | .yard i => i.row.2.2.2
  | .step i _ => i.row.2.2.2
  | .qty .la q => (qtyDefaults q).1
  | .qty .lb q => (qtyDefaults q).2.1
  | .qty .lr q => (qtyDefaults q).2.2.1
  | .qty .hyst q => (qtyDefaults q).2.2.2

/-- Whether a value lies within the range of its item; 1 to 59 are outside the range of the fallback
interval (R188, R189). -/
def SettingKey.inRange (k : SettingKey) (v : Nat) : Bool :=
  match k with
  | .yard i =>
    decide (i.row.2.1 ≤ v) && decide (v ≤ i.row.2.2.1)
      && (decide (i ≠ .fallbackInterval) || decide (v = 0) || decide (60 ≤ v))
  | .step i _ => decide (i.row.2.1 ≤ v) && decide (v ≤ i.row.2.2.1)
  | .qty i _ => decide (i.row.2.1 ≤ v) && decide (v ≤ i.row.2.2)

/-- The setting an item number and an index name, if they name one (R189). -/
def SettingKey.ofItem (item index : Nat) : Option SettingKey :=
  match allYardItems.find? (fun i => i.row.1 == item) with
  | some i => if index = 0 then some (.yard i) else none
  | none =>
    match allStepItems.find? (fun i => i.row.1 == item) with
    | some i => (stepOfCode index).map (.step i)
    | none =>
      match allQtyItems.find? (fun i => i.row.1 == item) with
      | some i => if h : 1 ≤ index ∧ index ≤ 13 then some (.qty i ⟨index - 1, by omega⟩) else none
      | none => none

/-- The value of a setting. -/
def Settings.get (c : Settings) : SettingKey → Nat
  | .yard i => c.yard.get i.ix
  | .step i s => (c.step.get i.ix).get s
  | .qty i q => (c.qty.get i.ix).get q

/-- The settings with one value replaced. -/
def Settings.put (c : Settings) (k : SettingKey) (v : Nat) : Settings :=
  match k with
  | .yard i => { c with yard := Tab.put c.yard i.ix v }
  | .step i s => { c with step := Tab.upd c.step i.ix (fun t => Tab.put t s v) }
  | .qty i q => { c with qty := Tab.upd c.qty i.ix (fun t => Tab.put t q v) }

/-- The value of a yard-wide setting. -/
def Settings.y (c : Settings) (i : YardItem) : Nat := c.yard.get i.ix

/-- A yard-wide setting in seconds, as milliseconds. -/
def Settings.ySec (c : Settings) (i : YardItem) : Nat := c.y i * 1000

/-- Whether a step's installed setting is YES. -/
def Settings.installed (c : Settings) (s : StepIx) : Bool := (c.step.get StepItem.installed.ix).get s == 1

def Settings.rating (c : Settings) (s : StepIx) : Nat := (c.step.get StepItem.rating.ix).get s

def Settings.expectedRise (c : Settings) (s : StepIx) : Nat := (c.step.get StepItem.expectedRise.ix).get s

def Settings.l1 (c : Settings) (s : StepIx) : Nat := (c.step.get StepItem.l1.ix).get s

def Settings.l2 (c : Settings) (s : StepIx) : Nat := (c.step.get StepItem.l2.ix).get s

def Settings.l3 (c : Settings) (s : StepIx) : Nat := (c.step.get StepItem.l3.ix).get s

def Settings.la (c : Settings) (q : QtyIx) : Nat := (c.qty.get QtyItem.la.ix).get q

def Settings.lb (c : Settings) (q : QtyIx) : Nat := (c.qty.get QtyItem.lb.ix).get q

def Settings.lr (c : Settings) (q : QtyIx) : Nat := (c.qty.get QtyItem.lr.ix).get q

def Settings.hyst (c : Settings) (q : QtyIx) : Nat := (c.qty.get QtyItem.hyst.ix).get q

/-- The preferred link in force (chapter 1.3). -/
def Settings.preferred (c : Settings) : Link := if c.y .preferredLink = 0 then .a else .b

/-- The start-up mode (R91). -/
def Settings.startMode (c : Settings) : Mode := (Mode.ofCode (c.y .startUpMode)).getD .off

/-- Whether the baseline lock is ON (R195). -/
def Settings.lockOn (c : Settings) : Bool := c.y .baselineLock == 1

/-- The number of installed steps (R2, R177). -/
def Settings.installedCount (c : Settings) : Nat := (allSteps.filter c.installed).length

/-- The factory defaults (R188, R120). -/
def Settings.factory : Settings where
  yard := Tab.build (fun i => ((allYardItems[i.val]?).getD .preferredLink).row.2.2.2)
  step := Tab.build (fun i => Tab.build (fun s =>
    SettingKey.factory (.step ((allStepItems[i.val]?).getD .installed) s)))
  qty := Tab.build (fun i => Tab.build (fun q =>
    SettingKey.factory (.qty ((allQtyItems[i.val]?).getD .la) q)))

/-! ### Stages of a harmonic quantity (R122) -/

def Settings.alarmEnabled (c : Settings) (q : QtyIx) : Bool := c.la q != 0

def Settings.blockEnabled (c : Settings) (q : QtyIx) : Bool := c.la q != 0 && c.lb q != 0

def Settings.removeEnabled (c : Settings) (q : QtyIx) : Bool := c.la q != 0 && c.lb q != 0 && c.lr q != 0

/-! ### The cross-checks of R192 -/

/-- Check 1: VU < VL < VH < VX. -/
def Settings.check1 (c : Settings) : Bool :=
  decide (c.y .vu < c.y .vl) && decide (c.y .vl < c.y .vh) && decide (c.y .vh < c.y .vx)

/-- Check 2 for one step: the band is at least as wide as the expected rise of an installed step. -/
def Settings.check2Step (c : Settings) (s : StepIx) : Bool :=
  !c.installed s || decide (c.expectedRise s + c.y .vl ≤ c.y .vh)

/-- Check 3: no pulse is longer than its limit. -/
def Settings.check3 (c : Settings) : Bool :=
  decide (c.y .closePulse ≤ c.y .closeLimit) && decide (c.y .tripPulse ≤ c.y .openLimit)

/-- Check 4 for one quantity: H below the lowest enabled level, and the enabled levels do not decrease. -/
def Settings.check4Qty (c : Settings) (q : QtyIx) : Bool :=
  !c.alarmEnabled q
    || (decide (c.hyst q < c.la q)
        && (!c.blockEnabled q || decide (c.la q ≤ c.lb q))
        && (!c.removeEnabled q || decide (c.lb q ≤ c.lr q)))

/-- Check 5 for one step: L1 < L2 < L3. -/
def Settings.check5Step (c : Settings) (s : StepIx) : Bool :=
  decide (c.l1 s < c.l2 s) && decide (c.l2 s < c.l3 s)

/-- The first of checks 1 to 5 that fails, with the index R192 reports for it (0 where it has none). -/
def Settings.firstFailure (c : Settings) : Option (Nat × Nat) :=
  if !c.check1 then some (1, 0)
  else match allSteps.find? (fun s => !c.check2Step s) with
  | some s => some (2, stepNo s)
  | none =>
    if !c.check3 then some (3, 0)
    else match allQtys.find? (fun q => !c.check4Qty q) with
    | some q => some (4, qtyNo q)
    | none =>
      match allSteps.find? (fun s => !c.check5Step s) with
      | some s => some (5, stepNo s)
      | none => none

/-- Every value within its range (R188, R194). -/
def Settings.inRange (c : Settings) : Bool := allSettings.all (fun k => k.inRange (c.get k))

end Sys2Proof.Machine
end

