-- ==== Sys2Proof/Machine/State.lean ====
section
/-! DEFINITION. The state of the yard controller, block by block, as plain data, and the state right after
reset. A timer that the manual loads and counts down is held as the reading of the timebase at which it
reaches 0 (`none` while it is stopped); its remaining time is that reading less the present one. A time
that the manual accumulates on the timebase is held as the reading from which it runs. -/

namespace Sys2Proof.Machine

/-! ### Measurement Intake (chapter 1) -/

/-- The measurement of one installed step in a record (R3): currents of phases 1 to 3 and the two
neutral components. -/
structure StepMeas where
  i1 : Nat
  i2 : Nat
  i3 : Nat
  inPhase : Int
  quad : Int
  deriving DecidableEq, Repr

/-- A record (R3): the content of one good frame. `harm` holds THD at 0 and order h at h - 1; `time` is
the completion time, which is the posting time of a posted frame. -/
structure MeasRecord where
  link : Link
  sequence : Word16
  status : Byte
  frequency : Nat
  v1 : Nat
  v2 : Nat
  v3 : Nat
  harm : Vector Nat 13
  blocks : Vector (Option StepMeas) 8
  time : Nat
  deriving DecidableEq, Repr

/-- The five counters of a link (R9). -/
structure LinkCounters where
  accepted : Nat
  corrupt : Nat
  format : Nat
  unitFault : Nat
  gaps : Nat
  deriving DecidableEq, Repr

/-- What a receiver holds of the bytes received: on a measurement link those of the frame in progress from the
marker on, or a first marker byte alone (R1); on the host line those from 0xA5 on (R171). `gapDue` is the reading of
the timebase at which the gap after the last of them has lasted longer than a frame allows. -/
structure FrameInProgress where
  bytes : List Byte
  gapDue : Nat
  deriving DecidableEq, Repr

/-- One measurement link (R1, R4 to R9, R15). `rx` is absent while the receiver hunts and holds no marker byte.
`lastGood` is the completion of the last good frame, from which the silence time runs; it is absent while the
link is SILENT. -/
structure LinkRec where
  rx : Option FrameInProgress
  state : LinkState
  lastSeq : Option Word16
  run : Nat
  bad : Nat
  lastGood : Option Nat
  counters : LinkCounters
  latest : Option MeasRecord
  deriving DecidableEq, Repr

/-- Measurement Intake. `freshStart` marks the next posting as following no posting (R10, R14);
`waiting` holds the good frames of a link that has entered LOCKED in this millisecond with no active source and is not
the preferred one, which may still enter LOCKED in it (R10, log entry 6). -/
structure Intake where
  linkA : LinkRec
  linkB : LinkRec
  active : Option Link
  posted : Option MeasRecord
  freshStart : Bool
  waiting : List MeasRecord
  lost : Bool
  window : Option Nat
  disagree : Bool
  disagreeCount : Nat
  agreeCount : Nat
  deriving DecidableEq, Repr

/-! ### Step Table (chapter 2) -/

/-- A contact input with its debounce filter (R23): raw level, since when it has been steady, and the
debounced value. -/
structure ContactIn where
  raw : Bool
  since : Nat
  value : Debounced
  deriving DecidableEq, Repr

/-- The fields of a step's record that ST owns (chapter 2.1). `disagreeFrom` is the reading from which the
disagreement time runs, absent while it does not. -/
structure StepRec where
  state : StepState
  closedIn : ContactIn
  openIn : ContactIn
  position : Position
  lastDefinite : Option Position
  disagreeFrom : Option Nat
  basis : Option Basis
  cause : Option Cause
  energizedAt : Option Nat
  deriving DecidableEq, Repr

/-- The Step Table: the step records, the two lists, whether the start-up rebuild has been made (R43) and
whether the debounce time from the full reset has passed (R25). -/
structure StepTable where
  steps : Vector StepRec 8
  ring : List StepIx
  service : List StepIx
  rebuilt : Bool
  debounceEnded : Bool
  deriving DecidableEq, Repr

/-! ### Switching Unit (chapter 3) -/

/-- A snapshot (R64): control voltage, the thirteen harmonic values, and the step's phase currents. -/
structure Snapshot where
  voltage : Nat
  harm : Vector Nat 13
  currents : Option (Nat × Nat × Nat)
  deriving DecidableEq, Repr

/-- An operation record (R59). The three timers of its phases are held as readings of the timebase;
`settleDue` has its meaning in SETTLING only. -/
structure OpRecord where
  kind : Kind
  origin : Origin
  requesters : List Requester
  protMerged : Bool
  phase : Phase
  start : Nat
  holdsSlot : Bool
  pre : Option Snapshot
  pulseDue : Nat
  limitDue : Nat
  settleDue : Nat
  deriving DecidableEq, Repr

/-- What SWU keeps for a step: the operation record, the coil outputs CLOSE_s, TRIPA_s and TRIPB_s, the
retries used, BREAKER_FAIL, the operation count and the last result. -/
structure SwuStep where
  op : Option OpRecord
  closeCoil : Bool
  tripA : Bool
  tripB : Bool
  retries : Option Nat
  breakerFail : Bool
  opCount : Nat
  lastResult : Option OpResult
  deriving DecidableEq, Repr

/-- An entry of the request queue (R47). -/
structure Entry where
  step : StepIx
  kind : Kind
  origin : Origin
  requesters : List Requester
  enqueued : Nat
  deriving DecidableEq, Repr

/-- The staged order with its stage timer (R70). -/
structure StagedOrder where
  step : StepIx
  kind : Kind
  due : Nat
  deriving DecidableEq, Repr

/-- The station result record (R46). -/
structure StationResult where
  step : StepIx
  kind : Kind
  result : OpResult
  uptime : Nat
  deriving DecidableEq, Repr

/-- The Switching Unit. `slot` is the step whose record holds the yard switching slot, absent when the
slot is free (R50). -/
structure Switching where
  queue : List Entry
  slot : Option StepIx
  steps : Vector SwuStep 8
  staged : Option StagedOrder
  stationResult : Option StationResult
  deriving DecidableEq, Repr

/-! ### Cooldown Unit (chapter 4) -/

/-- What CDU keeps for a step: discharge timer and flag (R75), duty level and duty timer (R81). -/
structure CduStep where
  discharge : Option Nat
  discharged : Bool
  duty : Nat
  dutyTimer : Option Nat
  deriving DecidableEq, Repr

/-- A timer that runs once: the start-up discharge timer (R79: NOT_STARTED, RUNNING, EXPIRED) and the
start-up hold (R98: NOT_STARTED, RUNNING, ENDED). -/
inductive OneShot where
  | notStarted
  | running (due : Nat)
  | over
  deriving DecidableEq, Repr

/-- The Cooldown Unit. -/
structure Cooldown where
  steps : Vector CduStep 8
  startUp : OneShot
  budget : Nat
  yardTimer : Option Nat
  deriving DecidableEq, Repr

/-! ### Voltage Regulator (chapter 5) -/

/-- The regulator's target (R94). -/
structure Target where
  step : StepIx
  kind : Kind
  deriving DecidableEq, Repr

/-- The set of hold causes standing (R95). -/
structure HoldSet where
  noSource : Bool
  switchover : Bool
  disagree : Bool
  freeze : Bool
  startUp : Bool
  lossOfVoltage : Bool
  deriving DecidableEq, Repr

/-- What VRG keeps for a step (R109, R110). -/
structure VrgStep where
  rise : Option Nat
  rejected : Nat
  deriving DecidableEq, Repr

/-- The Voltage Regulator. -/
structure Regulator where
  mode : Mode
  reg : RegState
  target : Option Target
  holds : HoldSet
  below : Nat
  above : Nat
  noCandidate : Bool
  startHold : OneShot
  ovAcc : Nat
  repeatAcc : Nat
  lovAcc : Nat
  overvoltage : Bool
  lossOfVoltage : Bool
  silence : Option Nat
  steps : Vector VrgStep 8
  deriving DecidableEq, Repr

/-! ### Harmonic Supervisor (chapter 6) -/

/-- The last removal of a quantity (R121, R129). -/
structure Removal where
  step : Option StepIx
  uptime : Nat
  result : Option OpResult
  deriving DecidableEq, Repr

/-- A quantity record (R121). -/
structure Quantity where
  state : HarmState
  up : Nat
  down : Nat
  repeatDue : Option Nat
  last : Option Nat
  removal : Option Removal
  deriving DecidableEq, Repr

/-- The Harmonic Supervisor. `marks` holds for each step its set of resonance marks, as one flag per
quantity place (place h - 1 for order h; place 0, THD, is never set) (R132). -/
structure Harmonics where
  qtys : Vector Quantity 13
  skipped : Nat
  marks : Vector (Vector Bool 13) 8
  deriving DecidableEq, Repr

/-! ### Unbalance Protection (chapter 7) -/

/-- A stage record (R138). -/
structure Stage where
  state : StageState
  timer : Nat
  deriving DecidableEq, Repr

/-- A baseline (R138). -/
structure Baseline where
  inPhase : Int
  quad : Int
  uncommitted : Bool
  deriving DecidableEq, Repr

/-- The last trip (R138). -/
structure TripRec where
  uptime : Nat
  stage : TripStage
  magnitude : Nat
  cause : Cause
  deriving DecidableEq, Repr

/-- The unbalance record of a step (R138). -/
structure UbpStep where
  eval : EvalState
  arming : Option Nat
  s1 : Stage
  s2 : Stage
  s3 : Stage
  lastMag : Option Nat
  baseline : Option Baseline
  history : List Nat
  lastTrip : Option TripRec
  deriving DecidableEq, Repr

/-- The capture record (R138). -/
structure Capture where
  step : StepIx
  count : Nat
  sumI : Int
  sumQ : Int
  deriving DecidableEq, Repr

/-- The last capture (R138). -/
structure CaptureRec where
  step : StepIx
  result : CaptureResult
  uptime : Nat
  deriving DecidableEq, Repr

/-- Unbalance Protection. -/
structure Unbalance where
  steps : Vector UbpStep 8
  capture : Option Capture
  lastCapture : Option CaptureRec
  deriving DecidableEq, Repr

/-! ### Event Router (chapter 8) -/

/-- The last removal record of EVR (R166). -/
structure RouteRemoval where
  uptime : Nat
  source : Source
  destination : Destination
  steps : List (StepIx × Option OpResult)
  deriving DecidableEq, Repr

/-- The Event Router: the route table, the source states of the condition sources, the hold timers of the
pulse sources (both by source number less one), and the last removal record. The AUX outputs and the two
contributions are functions of these (Machine/Flags.lean). -/
structure Router where
  routes : Vector Destination 16
  active : Vector Bool 16
  hold : Vector (Option Nat) 16
  removal : Option RouteRemoval
  deriving DecidableEq, Repr

/-! ### Host Link (chapter 9) -/

/-- The detail of a notice (R179), with its two codes as R204 encodes them (0 where a class has none). -/
structure Detail where
  uptime : Nat
  step : Option StepIx
  code1 : Nat
  code2 : Nat
  deriving DecidableEq, Repr

/-- A notice class's record (R179). `condition` is read for a condition class only. -/
structure Notice where
  pending : Bool
  priority : Nat
  masked : Bool
  occurrences : Nat
  detail : Option Detail
  condition : Bool
  deriving DecidableEq, Repr

/-- The seven host link counters (R174). -/
structure HostCounters where
  good : Nat
  badChecks : Nat
  overruns : Nat
  timeouts : Nat
  lengthErrors : Nat
  lineErrors : Nat
  discarded : Nat
  deriving DecidableEq, Repr

/-- A reply as its owner forms it (R176): the code, and the bytes after it. -/
structure Reply where
  code : ReplyCode
  body : List Byte
  deriving DecidableEq, Repr

/-- The Host Link. `rx` is what the receiver holds of a frame in progress, absent while it hunts (R171). `sending` is the reply frame on HTX and `sendDue` the latest reading at which its last
stop bit has been sent; `answer` is the last reply formed. ATTN is a function of the notice table. -/
structure HostLink where
  receiver : Receiver
  rx : Option FrameInProgress
  busy : Bool
  sending : Option (List Byte)
  sendDue : Option Nat
  answer : Option Reply
  counters : HostCounters
  linkResets : Nat
  lastLinkReset : Option LinkResetCause
  baud1 : Bool
  baud0 : Bool
  notices : Vector Notice 14
  deriving DecidableEq, Repr

/-! ### Settings Unit (chapter 10) -/

/-- The contents of a valid store image (R194), which are also those of a commit's snapshot (R196). -/
structure StoreImage where
  settings : Settings
  routes : Vector Destination 16
  notices : Vector (Nat × Bool) 14
  baselines : Vector (Option (Int × Int)) 8
  rises : Vector (Option Nat) 8
  opCounts : Vector Nat 8
  deriving DecidableEq, Repr

/-- The store state, with the acceptance and the snapshot of the commit in progress (R195, R196). -/
inductive StoreState where
  | idle
  | committing (since : Nat) (snapshot : StoreImage)
  deriving DecidableEq, Repr

/-- The Settings Unit. `image` is the store image, absent when its integrity value does not match its
contents; `commits` counts the accepted commits and is the model's own (log entry 9). -/
structure SettingsUnit where
  active : Settings
  pendingSet : List (SettingKey × Nat)
  image : Option StoreImage
  store : StoreState
  unlock : Bool
  lastCommit : Option (CommitResult × Nat)
  fault : Bool
  resetCause : ResetCause
  imageValidAtReset : Bool
  commits : Nat
  deriving DecidableEq, Repr

/-! ### The machine -/

/-- The state of the yard controller. `now` is the timebase in milliseconds from the end of the last full
reset (R202, 4.2), `resetHeld` is the cause of a reset that is being held (R201), and `pending` is the
queue of commands that wait, first in, first out. -/
structure State where
  now : Nat
  resetHeld : Option ResetCause
  mi : Intake
  st : StepTable
  swu : Switching
  cdu : Cooldown
  vrg : Regulator
  hsv : Harmonics
  ubp : Unbalance
  evr : Router
  hlk : HostLink
  su : SettingsUnit
  pending : List Instr
  deriving DecidableEq, Repr

/-- No command of this block ends in a fault: the manual gives every row of the table an effect, and an
event whose condition does not stand has none. -/
inductive Fault where
  deriving DecidableEq, Repr

/-- Why a command is refused. -/
inductive Refusal where
  /-- Raised by an arm of `exec` whose row has no meaning yet. No arm uses it. Safe. -/
  | notModelled (mnemonic : String)
  deriving DecidableEq, Repr

/-! ### The reset state -/

namespace Reset

/-- A link after full reset (R20). -/
def link : LinkRec where
  rx := none
  state := .silent
  lastSeq := none
  run := 0
  bad := 0
  lastGood := none
  counters := ⟨0, 0, 0, 0, 0⟩
  latest := none

/-- Measurement Intake after full reset (R20). -/
def intake : Intake where
  linkA := link
  linkB := link
  active := none
  posted := none
  freshStart := true
  waiting := []
  lost := false
  window := some Config.acquisitionWindow
  disagree := false
  disagreeCount := 0
  agreeCount := 0

/-- A contact input after full reset: undefined, and steady from the reset (R23). The level at the pin is
the outside's; not made is the model's (log entry 2). -/
def contact : ContactIn where
  raw := false
  since := 0
  value := .undefined

/-- The record of a step that is not installed, after full reset (R42, R45). -/
def step : StepRec where
  state := .disabled
  closedIn := contact
  openIn := contact
  position := .travel
  lastDefinite := none
  disagreeFrom := none
  basis := none
  cause := none
  energizedAt := none

/-- The Step Table after full reset (R45). -/
def stepTable : StepTable where
  steps := Tab.build (fun _ => step)
  ring := []
  service := []
  rebuilt := false
  debounceEnded := false

/-- SWU's record of a step after full reset (R74). -/
def swuStep : SwuStep where
  op := none
  closeCoil := false
  tripA := false
  tripB := false
  retries := none
  breakerFail := false
  opCount := 0
  lastResult := none

/-- The Switching Unit after full reset (R74). -/
def switching : Switching where
  queue := []
  slot := none
  steps := Tab.build (fun _ => swuStep)
  staged := none
  stationResult := none

/-- CDU's record of a step after full reset with the factory settings (R85, R90). -/
def cduStep : CduStep where
  discharge := none
  discharged := false
  duty := 4
  dutyTimer := some 900000

/-- The Cooldown Unit after full reset (R90). -/
def cooldown : Cooldown where
  steps := Tab.build (fun _ => cduStep)
  startUp := .notStarted
  budget := 0
  yardTimer := none

/-- The Voltage Regulator after full reset with an invalid image: mode OFF (R119). -/
def regulator : Regulator where
  mode := .off
  reg := .hold
  target := none
  holds := ⟨true, false, false, false, true, false⟩
  below := 0
  above := 0
  noCandidate := false
  startHold := .notStarted
  ovAcc := 0
  repeatAcc := 0
  lovAcc := 0
  overvoltage := false
  lossOfVoltage := false
  silence := none
  steps := Tab.build (fun _ => ⟨none, 0⟩)

/-- A quantity after full reset (R137). -/
def quantity : Quantity where
  state := .normal
  up := 0
  down := 0
  repeatDue := none
  last := none
  removal := none

/-- The Harmonic Supervisor after full reset (R137). -/
def harmonics : Harmonics where
  qtys := Tab.build (fun _ => quantity)
  skipped := 0
  marks := Tab.build (fun _ => Tab.build (fun _ => false))

/-- The unbalance record of a step after full reset (R157). -/
def ubpStep : UbpStep where
  eval := .off
  arming := none
  s1 := ⟨.inactive, 0⟩
  s2 := ⟨.inactive, 0⟩
  s3 := ⟨.inactive, 0⟩
  lastMag := none
  baseline := none
  history := []
  lastTrip := none

/-- Unbalance Protection after full reset (R157). -/
def unbalance : Unbalance where
  steps := Tab.build (fun _ => ubpStep)
  capture := none
  lastCapture := none

/-- The Event Router after full reset with an invalid image: every route NONE, STORE_FAULT active (R170). -/
def router : Router where
  routes := Tab.build (fun _ => .none)
  active := Tab.build (fun i => i == Source.storeFault.ix)
  hold := Tab.build (fun _ => none)
  removal := none

/-- A notice class after full reset with the factory priority (R179). -/
def notice (i : Fin 14) : Notice where
  pending := false
  priority := if i.val < 4 then 0 else 1
  masked := false
  occurrences := 0
  detail := none
  condition := false

/-- The STORE class after full reset with an invalid image: its rising edge with cause INVALID_IMAGE has
been taken (R179, R199). -/
def storeNotice : Notice where
  pending := true
  priority := 1
  masked := false
  occurrences := 1
  detail := some ⟨0, none, 0, 0⟩
  condition := true

/-- The Host Link after full reset with an invalid image (R187). Both straps low is the model's (log
entry 2). -/
def hostLink : HostLink where
  receiver := .hunting
  rx := none
  busy := false
  sending := none
  sendDue := none
  answer := none
  counters := ⟨0, 0, 0, 0, 0, 0, 0⟩
  linkResets := 0
  lastLinkReset := none
  baud1 := false
  baud0 := false
  notices := Tab.build (fun i => if i = NoticeClass.store.ix then storeNotice else notice i)

/-- The Settings Unit after a power-on that found the image invalid (R203). That the store of a part
that has never committed is invalid is the model's (log entry 1). -/
def settingsUnit : SettingsUnit where
  active := Settings.factory
  pendingSet := []
  image := none
  store := .idle
  unlock := false
  lastCommit := none
  fault := true
  resetCause := .powerOn
  imageValidAtReset := false
  commits := 0

end Reset

/-- The machine right after the full reset of a power-on, the store image being invalid (log entry 1). -/
def State.reset : State where
  now := 0
  resetHeld := none
  mi := Reset.intake
  st := Reset.stepTable
  swu := Reset.switching
  cdu := Reset.cooldown
  vrg := Reset.regulator
  hsv := Reset.harmonics
  ubp := Reset.unbalance
  evr := Reset.router
  hlk := Reset.hostLink
  su := Reset.settingsUnit
  pending := []

end Sys2Proof.Machine
end

