-- ==== Sys2Proof/Machine/Flags.lean ====
section
/-! DEFINITION. What is computed from the state and held nowhere: uptime and remaining times, the yard
conditions, the AUX outputs, the two route contributions, ATTN and the notice counts. -/

namespace Sys2Proof.Machine

/-- The uptime in whole seconds from the last full reset (4.2). -/
def State.uptime (s : State) : Nat := s.now / 1000

/-- The value of a yard-wide setting in force. -/
def State.y (s : State) (i : YardItem) : Nat := s.su.active.y i

/-- A yard-wide setting in force that is given in seconds, in milliseconds. -/
def State.ySec (s : State) (i : YardItem) : Nat := s.su.active.ySec i

/-- The remaining time in ms of a timer that reaches 0 at `due`. -/
def remaining (s : State) (due : Nat) : Nat := due - s.now

/-- The remaining time in ms of a timer that may be stopped: 0 when it is. -/
def remainingMs (s : State) : Option Nat → Nat
  | none => 0
  | some due => remaining s due

/-- Milliseconds as whole seconds, rounded up. -/
def secondsUp (ms : Nat) : Nat := (ms + 999) / 1000

/-- The whole seconds, rounded up, that a running timer shows, at least 1: a request that is taken before an expiry
of its millisecond finds the timer still running (R75; for the other timers log entry 13). -/
def runningSeconds (ms : Nat) : Nat := max 1 (secondsUp ms)

/-- The whole seconds that a timer shows: 0 when it is stopped (R75). -/
def State.shownSeconds (s : State) : Option Nat → Nat
  | none => 0
  | some due => runningSeconds (remaining s due)

/-- Whether a timer is running and has reached 0. -/
def expired (s : State) : Option Nat → Bool
  | none => false
  | some due => decide (due ≤ s.now)

/-- The time since a reading of the timebase. -/
def age (s : State) (t : Nat) : Nat := s.now - t

/-! ### Measurement Intake -/

/-- The record of a measurement link. -/
def State.link (s : State) : Link → LinkRec
  | .a => s.mi.linkA
  | .b => s.mi.linkB

/-- Whether a link is LOCKED. -/
def State.locked (s : State) (l : Link) : Bool := (s.link l).state == .locked

/-- The silence time of a link, absent in SILENT (R5). -/
def State.silenceTime (s : State) (l : Link) : Option Nat := (s.link l).lastGood.map (age s)

/-- The condition of the MEASUREMENT class (R13). -/
def State.measurementCondition (s : State) : Bool := s.mi.lost || s.mi.disagree

/-! ### Step Table -/

/-- ST's record of a step. -/
def State.step (s : State) (i : StepIx) : StepRec := s.st.steps.get i

/-- SWU's record of a step. -/
def State.sw (s : State) (i : StepIx) : SwuStep := s.swu.steps.get i

/-- CDU's record of a step. -/
def State.cd (s : State) (i : StepIx) : CduStep := s.cdu.steps.get i

/-- UBP's record of a step. -/
def State.ub (s : State) (i : StepIx) : UbpStep := s.ubp.steps.get i

/-- The record of a quantity. -/
def State.qty (s : State) (q : QtyIx) : Quantity := s.hsv.qtys.get q

/-- The inserted rating (R22): the sum of the ratings of the steps in ENERGIZED. -/
def State.insertedRating (s : State) : Nat :=
  ((allSteps.filter (fun i => (s.step i).state == .energized)).map s.su.active.rating).sum

/-- Whether an operation is in flight on the step: a record in PULSING or AWAITING (R59). -/
def State.inFlight (s : State) (i : StepIx) : Bool :=
  match (s.sw i).op with
  | none => false
  | some r => r.phase != .settling

/-- Whether the step's pair of debounced values is valid, and which position it gives (R24). -/
def pairPosition (r : StepRec) : Option Position :=
  match r.closedIn.value, r.openIn.value with
  | .made, .notMade => some .closed
  | .notMade, .made => some .opened
  | _, _ => none

/-! ### Switching Unit -/

/-- Whether BREAKER_FAIL is active for any step (R69). -/
def State.breakerFailAny (s : State) : Bool := allSteps.any (fun i => (s.sw i).breakerFail)

/-- Whether the queue holds an entry for the step. -/
def State.queued (s : State) (i : StepIx) : Bool := s.swu.queue.any (fun e => e.step == i)

/-! ### Cooldown Unit -/

/-- The duty check: the level is at most the duty limit less two (R83). -/
def State.dutyOk (s : State) (i : StepIx) : Bool :=
  decide ((s.cd i).duty + Config.dutyMargin ≤ s.y .dutyLimit)

/-- BUDGET_EXHAUSTED: the yard budget level equals the yard limit (R88). -/
def State.budgetExhausted (s : State) : Bool := decide (s.y .yardLimit ≤ s.cdu.budget)

/-- The condition of the REG_LIMIT class (R88). -/
def State.regLimitCondition (s : State) : Bool := s.budgetExhausted || s.vrg.noCandidate

/-! ### Voltage Regulator -/

/-- Whether some hold cause stands (R95). -/
def HoldSet.any (h : HoldSet) : Bool :=
  h.noSource || h.switchover || h.disagree || h.freeze || h.startUp || h.lossOfVoltage

/-- The hold set with one cause started or ended. -/
def HoldSet.put (h : HoldSet) (c : HoldCause) (b : Bool) : HoldSet :=
  match c with
  | .noSource => { h with noSource := b }
  | .switchover => { h with switchover := b }
  | .disagree => { h with disagree := b }
  | .freeze => { h with freeze := b }
  | .startUp => { h with startUp := b }
  | .lossOfVoltage => { h with lossOfVoltage := b }

/-- Whether one cause stands. -/
def HoldSet.has (h : HoldSet) : HoldCause → Bool
  | .noSource => h.noSource
  | .switchover => h.switchover
  | .disagree => h.disagree
  | .freeze => h.freeze
  | .startUp => h.startUp
  | .lossOfVoltage => h.lossOfVoltage

/-- The rise of a step: its learned rise if present, or its expected-rise setting (R103). -/
def State.rise (s : State) (i : StepIx) : Nat :=
  ((s.vrg.steps.get i).rise).getD (s.su.active.expectedRise i)

/-! ### Harmonic Supervisor -/

/-- The lowest quantity, in the order of R121, that stands at a stage of at least the given rank. -/
def State.firstAtRank (s : State) (r : Nat) : Option QtyIx :=
  allQtys.find? (fun q => decide (r ≤ (s.qty q).state.rank))

/-- HARM_ALARM (R126). -/
def State.harmAlarm (s : State) : Bool := (s.firstAtRank 1).isSome

/-- HARM_BLOCK (R126). -/
def State.harmBlock (s : State) : Bool := (s.firstAtRank 2).isSome

/-- HARM_REMOVE (R126). -/
def State.harmRemove (s : State) : Bool := (s.firstAtRank 3).isSome

/-- Whether a step's resonance marks include a quantity's order (R132). -/
def State.marked (s : State) (i : StepIx) (q : QtyIx) : Bool := (s.hsv.marks.get i).get q

/-- Whether a step has a mark for an order whose quantity stands at ALARM, BLOCK or REMOVE (R103). -/
def State.resonanceHit (s : State) (i : StepIx) : Bool :=
  allQtys.any (fun q => s.marked i q && decide (1 ≤ (s.qty q).state.rank))

/-! ### Unbalance Protection -/

/-- A stage is active while PICKED_UP or ASSERTED (R138). -/
def Stage.active (g : Stage) : Bool := g.state != .inactive

/-- Whether a stage of the step is active (R33, R151). -/
def State.anyStageActive (s : State) (i : StepIx) : Bool :=
  (s.ub i).s1.active || (s.ub i).s2.active || (s.ub i).s3.active

/-- UNB_ALARM: S1 of some step is ASSERTED (R144). -/
def State.unbAlarm (s : State) : Bool := allSteps.any (fun i => (s.ub i).s1.state == .asserted)

/-- The three conditions under which a step is evaluated (R142). -/
def State.evaluated (s : State) (i : StepIx) : Bool :=
  (s.ub i).eval == .armed && (s.step i).position == .closed && !s.inFlight i

/-! ### Event Router -/

/-- The route of a source. -/
def State.route (s : State) (src : Source) : Destination := s.evr.routes.get src.ix

/-- The source state of a condition source (R158). -/
def State.sourceActive (s : State) (src : Source) : Bool := s.evr.active.get src.ix

/-- Whether a condition source routed to a destination is active. -/
def State.contribution (s : State) (d : Destination) : Bool :=
  allSources.any (fun src => !src.isPulse && decide (s.route src = d) && s.sourceActive src)

/-- The FREEZE contribution (R162). -/
def State.freeze (s : State) : Bool := s.contribution .freeze

/-- The BLOCK_INSERT contribution (R163). -/
def State.blockInsert (s : State) : Bool := s.contribution .blockInsert

/-- An AUX output is asserted while a condition source routed to it is active or the hold timer of a pulse
source routed to it is running (R160); it is de-asserted during a full reset (R202). -/
def State.aux (s : State) (n : Fin 4) : Bool :=
  s.resetHeld.isNone
    && (s.contribution (.aux n)
        || allSources.any (fun src =>
            src.isPulse && decide (s.route src = .aux n) && (s.evr.hold.get src.ix).isSome))

/-! ### Host Link -/

/-- The record of a notice class. -/
def State.notice (s : State) (c : NoticeClass) : Notice := s.hlk.notices.get c.ix

/-- The classes with pending YES and masked NO. -/
def State.unmaskedPending (s : State) : List NoticeClass :=
  allClasses.filter (fun c => (s.notice c).pending && !(s.notice c).masked)

/-- The classes with pending YES and masked YES. -/
def State.maskedPending (s : State) : List NoticeClass :=
  allClasses.filter (fun c => (s.notice c).pending && (s.notice c).masked)

/-- ATTN: some class is pending and not masked (R182). R182 has it de-asserted at full reset without saying whether
from the beginning or from the end of a reset that is held; that it follows the notice table until FULL_RESET is the
model's choice (log entry 12). -/
def State.attn (s : State) : Bool := !s.unmaskedPending.isEmpty

/-- The baud rate the straps select (chapter 9). -/
def HostLink.baud (h : HostLink) : Nat :=
  match h.baud1, h.baud0 with
  | false, false => 9600
  | false, true => 38400
  | true, false => 115200
  | true, true => 460800

/-! ### Settings Unit -/

/-- A baseline's two components. -/
def Baseline.components (b : Baseline) : Int × Int := (b.inPhase, b.quad)

/-- The baseline the image holds for a step; an invalid image is taken to hold none (R194). -/
def State.imageBaseline (s : State) (i : StepIx) : Option (Int × Int) :=
  match s.su.image with
  | none => none
  | some img => img.baselines.get i

/-- Whether a step's baseline in force differs from the image's (R195). -/
def State.baselineDiffers (s : State) (i : StepIx) : Bool :=
  decide ((s.ub i).baseline.map Baseline.components ≠ s.imageBaseline i)

/-- Whether a commit is in progress (R195). -/
def State.committing (s : State) : Bool :=
  match s.su.store with
  | .idle => false
  | .committing _ _ => true

end Sys2Proof.Machine
end

