-- ==== Sys2Proof/Machine/Ops.lean ====
section
/-! DEFINITION. The named operations over the state: one update per block and per record, the notice
table, the two lists and the step state, and the operations of one block that read no other. -/

namespace Sys2Proof.Machine

/-! ### Updates of one block -/

def State.onMi (s : State) (f : Intake → Intake) : State := { s with mi := f s.mi }
def State.onSt (s : State) (f : StepTable → StepTable) : State := { s with st := f s.st }
def State.onSwu (s : State) (f : Switching → Switching) : State := { s with swu := f s.swu }
def State.onCdu (s : State) (f : Cooldown → Cooldown) : State := { s with cdu := f s.cdu }
def State.onVrg (s : State) (f : Regulator → Regulator) : State := { s with vrg := f s.vrg }
def State.onHsv (s : State) (f : Harmonics → Harmonics) : State := { s with hsv := f s.hsv }
def State.onUbp (s : State) (f : Unbalance → Unbalance) : State := { s with ubp := f s.ubp }
def State.onEvr (s : State) (f : Router → Router) : State := { s with evr := f s.evr }
def State.onHlk (s : State) (f : HostLink → HostLink) : State := { s with hlk := f s.hlk }
def State.onSu (s : State) (f : SettingsUnit → SettingsUnit) : State := { s with su := f s.su }

/-! ### Updates of one record -/

def State.onLink (s : State) (l : Link) (f : LinkRec → LinkRec) : State :=
  match l with
  | .a => s.onMi (fun m => { m with linkA := f m.linkA })
  | .b => s.onMi (fun m => { m with linkB := f m.linkB })

def State.onStep (s : State) (i : StepIx) (f : StepRec → StepRec) : State :=
  s.onSt (fun t => { t with steps := Tab.upd t.steps i f })

def State.onSw (s : State) (i : StepIx) (f : SwuStep → SwuStep) : State :=
  s.onSwu (fun t => { t with steps := Tab.upd t.steps i f })

def State.onCd (s : State) (i : StepIx) (f : CduStep → CduStep) : State :=
  s.onCdu (fun t => { t with steps := Tab.upd t.steps i f })

def State.onVr (s : State) (i : StepIx) (f : VrgStep → VrgStep) : State :=
  s.onVrg (fun t => { t with steps := Tab.upd t.steps i f })

def State.onUb (s : State) (i : StepIx) (f : UbpStep → UbpStep) : State :=
  s.onUbp (fun t => { t with steps := Tab.upd t.steps i f })

def State.onQty (s : State) (q : QtyIx) (f : Quantity → Quantity) : State :=
  s.onHsv (fun t => { t with qtys := Tab.upd t.qtys q f })

def State.onNotice (s : State) (c : NoticeClass) (f : Notice → Notice) : State :=
  s.onHlk (fun t => { t with notices := Tab.upd t.notices c.ix f })

/-! ### Counts -/

/-- One more, holding at the greatest value. -/
def satInc (top n : Nat) : Nat := if n < top then n + 1 else n

/-! ### The notice table (R180, R181) -/

/-- A notice detail with the present uptime. -/
def State.detail (s : State) (step : Option StepIx) (code1 code2 : Nat) : Detail :=
  { uptime := s.uptime, step := step, code1 := code1, code2 := code2 }

/-- An occurrence or a rising edge: pending, counted, with its detail (R180, R181). -/
def Notice.raise (n : Notice) (d : Detail) : Notice :=
  { n with pending := true, occurrences := satInc Config.count8 n.occurrences, detail := some d }

/-- An occurrence of a pulse class (R180). -/
def raiseNotice (c : NoticeClass) (step : Option StepIx) (code1 code2 : Nat) (s : State) : State :=
  s.onNotice c (fun n => n.raise (s.detail step code1 code2))

/-- The owner's report of a class condition: a start while INACTIVE is a rising edge, an end makes the
condition INACTIVE and changes nothing else (R181). -/
def reportClass (c : NoticeClass) (active : Bool) (step : Option StepIx) (code1 code2 : Nat) (s : State) :
    State :=
  s.onNotice c (fun n =>
    if active then
      if n.condition then n else { n.raise (s.detail step code1 code2) with condition := true }
    else { n with condition := false })

/-- A report of a detail alone (R181). -/
def reportDetail (c : NoticeClass) (step : Option StepIx) (code1 code2 : Nat) (s : State) : State :=
  s.onNotice c (fun n => { n with detail := some (s.detail step code1 code2) })

/-! ### The baseline capture (R154) -/

/-- The capture in progress ends ABORTED, with its LONG_OP notice; nothing when none is running. -/
def abortCapture (s : State) : State :=
  match s.ubp.capture with
  | none => s
  | some c =>
    raiseNotice .longOp (some c.step) 0 1
      (s.onUbp (fun u =>
        { u with capture := none, lastCapture := some ⟨c.step, .aborted, s.uptime⟩ }))

/-- The capture is aborted if it is of this step. -/
def abortCaptureOf (i : StepIx) (s : State) : State :=
  match s.ubp.capture with
  | none => s
  | some c => if c.step = i then abortCapture s else s

/-! ### The step state and the two lists (R21, R39 to R41) -/

/-- A step's index leaves the lists of the state it is in. -/
def StepTable.leave (t : StepTable) (i : StepIx) (old : StepState) : StepTable :=
  { t with
    ring := if old = .ready then t.ring.filter (· ≠ i) else t.ring
    service := if old = .energized then t.service.filter (· ≠ i) else t.service }

/-- A step's index is appended to the list of the state it enters. -/
def StepTable.enter (t : StepTable) (i : StepIx) (new : StepState) : StepTable :=
  { t with
    ring := if new = .ready then t.ring ++ [i] else t.ring
    service := if new = .energized then t.service ++ [i] else t.service }

/-- A step's record in a new state: the discharge basis, lockout cause and time of energization are
present exactly in the states that have them (R21). -/
def StepRec.move (r : StepRec) (new : StepState) (basis : Basis) (cause : Cause) (uptime : Nat) : StepRec :=
  { r with
    state := new
    basis := if new = .discharging then some basis else none
    cause := if new = .lockedOut then some cause else none
    energizedAt := if new = .energized then some uptime else none }

/-- The step goes to another state, in the Step Table alone. `basis` and `cause` are used only where the
new state has them. Every change of a step's state is made here. -/
def StepTable.move (t : StepTable) (i : StepIx) (new : StepState) (basis : Basis) (cause : Cause)
    (uptime : Nat) : StepTable :=
  let u := (t.leave i (t.steps.get i).state).enter i new
  { u with steps := Tab.upd u.steps i (fun r => r.move new basis cause uptime) }

/-- The step goes to another state: leaving ENERGIZED aborts a capture of the step (R154), and the retries
used become absent; a lockout with FAIL_TO_OPEN sets them after it (R28, R68). -/
def moveStep (i : StepIx) (new : StepState) (basis : Basis) (cause : Cause) (s : State) : State :=
  let wasEnergized := (s.step i).state = .energized
  let s1 := (s.onSt (fun t => t.move i new basis cause s.uptime)).onSw i (fun r => { r with retries := none })
  if wasEnergized then abortCaptureOf i s1 else s1

/-- To DISCHARGING with the basis given (R32). -/
def toDischarging (i : StepIx) (b : Basis) (s : State) : State := moveStep i .discharging b .failToClose s

/-- To READY, at the tail of the ready ring (R39). -/
def toReady (i : StepIx) (s : State) : State := moveStep i .ready .own .failToClose s

/-- To ENERGIZED, at the tail of the service list (R40). -/
def toEnergized (i : StepIx) (s : State) : State := moveStep i .energized .own .failToClose s

/-- The state a step enters at STEP_RELEASE or STEP_ENABLE, by the timers at that moment (R32). -/
def toReadyOrDischarging (i : StepIx) (s : State) : State :=
  if (s.cd i).discharge.isSome then toDischarging i .own s
  else match s.cdu.startUp with
  | .running _ => toDischarging i .startUp s
  | _ => toReady i s

/-! ### The Cooldown Unit (R75, R76, R81) -/

/-- The step's discharge timer is loaded with the discharge time in force (R75). -/
def loadDischarge (i : StepIx) (s : State) : State :=
  s.onCd i (fun c =>
    { c with discharge := some (s.now + s.ySec .dischargeTime), discharged := false })

/-- One pulse start on the step's duty level (R81). -/
def dutyPulse (i : StepIx) (s : State) : State :=
  s.onCd i (fun c =>
    { c with
      duty := satInc Config.dutyMax c.duty
      dutyTimer := if c.duty = 0 then some (s.now + s.ySec .dutyInterval) else c.dutyTimer })

/-- One pulse start on the yard budget, without the report of BUDGET_EXHAUSTED (R86). -/
def budgetPulse (s : State) : State :=
  s.onCdu (fun c =>
    { c with
      budget := c.budget + 1
      yardTimer := if c.budget = 0 then some (s.now + s.ySec .yardInterval) else c.yardTimer })

/-! ### Coils (R60) -/

/-- The close coil of the step alone is energized. -/
def closeCoilOn (i : StepIx) (s : State) : State :=
  s.onSw i (fun r => { r with closeCoil := true, tripA := false, tripB := false })

/-- The close coil is de-energized and both trip coils are energized. -/
def tripCoilsOn (i : StepIx) (s : State) : State :=
  s.onSw i (fun r => { r with closeCoil := false, tripA := true, tripB := true })

/-- Every coil of the step is de-energized. -/
def coilsOff (i : StepIx) (s : State) : State :=
  s.onSw i (fun r => { r with closeCoil := false, tripA := false, tripB := false })

/-! ### Snapshots (R64) -/

/-- The mean of three phase voltages, rounded down: the control voltage (chapter 5). -/
def MeasRecord.mean (m : MeasRecord) : Nat := (m.v1 + m.v2 + m.v3) / 3

/-- The highest of the three phase voltages (R112). -/
def MeasRecord.highest (m : MeasRecord) : Nat := max m.v1 (max m.v2 m.v3)

/-- The snapshot of a step from the latest posted record, absent if that is absent or older than 100 ms. A record
that holds no block for the step gives a snapshot without its phase currents, on which the no-current check finds
nothing: R64 does not speak of such a record, and this is the model's choice (log entry 17). -/
def State.snapshot (s : State) (i : StepIx) : Option Snapshot :=
  match s.mi.posted with
  | none => none
  | some m =>
    if age s m.time ≤ Config.recordAge then
      some ⟨m.mean, m.harm, (m.blocks.get i).map (fun b => (b.i1, b.i2, b.i3))⟩
    else none

end Sys2Proof.Machine
end

