-- ==== Sys2Proof/Machine/Requests.lean ====
section
/-! DEFINITION. The request path and the event path between the blocks: delivery of results (R46), the
queue (R47 to R49), the hold causes of the regulator (R95 to R97), the routing of event sources (R158 to
R166) and the station-wide conditions reported through it. Nothing here starts an operation: that is
Machine/Dispatcher.lean. -/

namespace Sys2Proof.Machine

/-! ### Results (R46) -/

/-- The regulator back in WATCH with both accumulators at 0 and no target (R97, R107, R108). -/
def Regulator.toWatch (v : Regulator) : Regulator :=
  { v with reg := .watch, target := none, below := 0, above := 0 }

/-- The regulator in HOLD (R96). -/
def Regulator.toHold (v : Regulator) : Regulator :=
  { v with reg := .hold, target := none, below := 0, above := 0 }

/-- The regulator where the mode and the hold causes put it (R95 to R97): in HOLD unless the mode is AUTO and
no hold cause stands, and out of HOLD then. -/
def Regulator.settled (v : Regulator) : Regulator :=
  if v.mode = .auto ∧ v.holds.any = false then if v.reg = .hold then v.toWatch else v
  else if v.reg = .hold then v else v.toHold

/-- The regulator takes a result in PENDING, where it is the result of its target (R107). -/
def regulatorResult (i : StepIx) (k : Kind) (r : OpResult) (s : State) : State :=
  s.onVrg (fun v =>
    if v.reg = .pending ∧ v.target = some ⟨i, k⟩ then
      if r = .success then { v with reg := .settling } else v.toWatch
    else v)

/-- A removal record takes a result for its step while its own is absent (R129). -/
def Removal.take (m : Removal) (i : StepIx) (r : OpResult) : Removal :=
  if m.step = some i ∧ m.result = none then { m with result := some r } else m

/-- HSV writes a result into the last removals it concerns (R129). -/
def hsvResult (i : StepIx) (r : OpResult) (s : State) : State :=
  s.onHsv (fun h =>
    { h with qtys := Tab.build (fun q =>
        { h.qtys.get q with removal := (h.qtys.get q).removal.map (fun m => m.take i r) }) })

/-- EVR writes a result against the step in its last removal record (R166). -/
def evrResult (i : StepIx) (r : OpResult) (s : State) : State :=
  s.onEvr (fun e =>
    { e with removal := e.removal.map (fun m =>
        { m with steps := m.steps.map (fun p =>
            if p.1 = i ∧ p.2 = none then (p.1, some r) else p) }) })

/-- One requester receives one result (R46). -/
def deliver (i : StepIx) (k : Kind) (r : OpResult) (q : Requester) (s : State) : State :=
  match q with
  | .regulator => regulatorResult i k r s
  | .hsv => hsvResult i r s
  | .evr => evrResult i r s
  | .hlk => s.onSwu (fun w => { w with stationResult := some ⟨i, k, r, s.uptime⟩ })
  | .overvoltageGuard => s
  | .lossOfVoltageGuard => s
  | .ubp => s
  | .swu => s

/-- Each requester receives the result. -/
def deliverAll (i : StepIx) (k : Kind) (r : OpResult) (qs : List Requester) (s : State) : State :=
  qs.foldl (fun t q => deliver i k r q t) s

/-! ### The request queue (R47 to R49) -/

/-- A requester is added unless it is already among them (R46). -/
def addRequester (q : Requester) (qs : List Requester) : List Requester :=
  if q ∈ qs then qs else qs ++ [q]

/-- The place of an entry: behind every entry of a lower class and every entry of its own class that is
not later (R47). -/
def insertEntry (e : Entry) : List Entry → List Entry
  | [] => [e]
  | x :: xs =>
    if x.origin.cls < e.origin.cls ∨ (x.origin.cls = e.origin.cls ∧ x.enqueued ≤ e.enqueued) then
      x :: insertEntry e xs
    else e :: x :: xs

/-- The outranking origin of two (R48). -/
def outranking (a b : Origin) : Origin := if b.cls < a.cls then b else a

/-- The entry with a request of the same kind merged into it (R48). -/
def Entry.merge (e : Entry) (q : Requester) : Entry :=
  { e with requesters := addRequester q e.requesters, origin := outranking e.origin q.origin }

/-- The queue without the entries of a step. -/
def dropStep (i : StepIx) (es : List Entry) : List Entry := es.filter (fun e => e.step ≠ i)

/-- The queue with a request merged into an entry: the entry keeps its place where its class is
unchanged, and goes to its place for the new class otherwise (R48). -/
def mergeEntry (e : Entry) (q : Requester) (es : List Entry) : List Entry :=
  if (e.merge q).origin = e.origin then es.map (fun x => if x.step = e.step then x.merge q else x)
  else insertEntry (e.merge q) (dropStep e.step es)

/-- The queue entry of a step. -/
def State.entryOf (s : State) (i : StepIx) : Option Entry := s.swu.queue.find? (fun e => e.step == i)

/-- A new entry of one requester, with the present reading (R47). -/
def State.newEntry (s : State) (i : StepIx) (k : Kind) (q : Requester) : Entry :=
  { step := i, kind := k, origin := q.origin, requesters := [q], enqueued := s.now }

/-- The operation record of a step with a requester joined to it (R47, R55). -/
def joinOp (i : StepIx) (q : Requester) (s : State) : State :=
  s.onSw i (fun r => { r with
    op := r.op.map (fun o => { o with requesters := addRequester q o.requesters }) })

/-- Whether an operation of a kind is in flight on a step. -/
def State.inFlightKind (s : State) (i : StepIx) (k : Kind) : Bool :=
  match (s.sw i).op with
  | none => false
  | some o => o.phase != .settling && o.kind == k

/-- Whether a request would be refused with QUEUE_CONFLICT (R48): a CLOSE that meets a queued OPEN and
joins no operation. -/
def State.queueConflict (s : State) (i : StepIx) (k : Kind) : Bool :=
  !s.inFlightKind i k &&
    match s.entryOf i with
    | none => false
    | some e => k == .close && e.kind == .opening

/-- SWU takes a request of GUARD, STATION or REGULATION origin (R47, R48), before its dispatcher acts. -/
def takeRequest (i : StepIx) (k : Kind) (q : Requester) (s : State) : State :=
  if s.inFlightKind i k then joinOp i q s
  else match s.entryOf i with
  | none => s.onSwu (fun w => { w with queue := insertEntry (s.newEntry i k q) w.queue })
  | some e =>
    if e.kind = k then s.onSwu (fun w => { w with queue := mergeEntry e q w.queue })
    else if k = .opening then
      (deliverAll i e.kind .superseded e.requesters s).onSwu (fun w =>
        { w with queue := insertEntry (s.newEntry i k q) (dropStep i w.queue) })
    else deliver i k .queueConflict q s

/-- The queue entry of a step, if any, is withdrawn (R49). -/
def withdrawStep (i : StepIx) (s : State) : State :=
  match s.entryOf i with
  | none => s
  | some e =>
    deliverAll i e.kind .withdrawn e.requesters
      (s.onSwu (fun w => { w with queue := dropStep i w.queue }))

/-- One entry as the regulator's withdrawal leaves it: gone where its origin is REGULATION, without the
regulator where it was merged into another (R49). -/
def Entry.withoutRegulator (e : Entry) : Option Entry :=
  if e.origin = .regulation then none
  else some { e with requesters := e.requesters.filter (· ≠ .regulator) }

/-- The regulator's requests are withdrawn from the queue (R49). -/
def withdrawRegulation (s : State) : State :=
  (s.swu.queue.filter (fun e => decide (.regulator ∈ e.requesters))).foldl
    (fun t e => regulatorResult e.step e.kind .withdrawn t)
    (s.onSwu (fun w => { w with queue := w.queue.filterMap Entry.withoutRegulator }))

/-! ### The regulator's hold (R95 to R97) -/

/-- The report to EVR of the end of NO_CANDIDATE. Its route is an AUX output, a removal or NONE (R159), and
none of these acts at an end beyond the source state. -/
def endNoCandidate (s : State) : State :=
  if s.vrg.noCandidate then
    let s1 := (s.onVrg (fun v => { v with noCandidate := false })).onEvr (fun e =>
      { e with active := Tab.put e.active Source.noCandidate.ix false })
    if s1.regLimitCondition then s1 else reportClass .regLimit false none 0 0 s1
  else s

/-- What the regulator's entry into HOLD brings with it (R96): NO_CANDIDATE ends, and SWU withdraws its
requests. -/
def dropRegulation (s : State) : State := withdrawRegulation (endNoCandidate s)

/-- A hold cause starts or ends, and the regulator follows (R95 to R97). -/
def setHold (c : HoldCause) (b : Bool) (s : State) : State :=
  let s1 := s.onVrg (fun v => ({ v with holds := v.holds.put c b }).settled)
  if s.vrg.reg ≠ .hold ∧ s1.vrg.reg = .hold then dropRegulation s1 else s1

/-! ### Routing (R158 to R166) -/

/-- The steps a removal destination takes at a trigger, in the order requested (R164, R165). -/
def State.removalSteps (s : State) (d : Destination) : List StepIx :=
  match d with
  | .removeNewest => s.st.service.getLast?.toList
  | .removeAll => s.st.service
  | _ => []

/-- A REMOVE_NEWEST or REMOVE_ALL trigger: the last removal record is replaced and a GUARD OPEN is raised
for each step taken (R164 to R166). The dispatcher acts after it. -/
def trigger (src : Source) (d : Destination) (s : State) : State :=
  let steps := s.removalSteps d
  let s1 := s.onEvr (fun e =>
    { e with removal := some ⟨s.uptime, src, d, steps.map (fun i => (i, none))⟩ })
  steps.foldl (fun t i => takeRequest i .opening .evr t) s1

/-- Whether a destination is one of the two removal actions. -/
def Destination.removes : Destination → Bool
  | .removeNewest => true
  | .removeAll => true
  | _ => false

/-- VRG's hold cause FREEZE follows the contribution (R162). -/
def syncFreeze (s : State) : State :=
  if s.vrg.holds.freeze = s.freeze then s else setHold .freeze s.freeze s

/-- EVR takes the report of a condition source (R158): its state, the FREEZE contribution, and a removal
trigger at a rising edge. The dispatcher has not yet acted. -/
def routeCondition (src : Source) (active : Bool) (s : State) : State :=
  if s.sourceActive src = active then s
  else
    let s1 := syncFreeze (s.onEvr (fun e => { e with active := Tab.put e.active src.ix active }))
    if active && (s1.route src).removes then trigger src (s1.route src) s1 else s1

/-- EVR takes one pulse of a pulse source (R160, R164, R165). The dispatcher has not yet acted. -/
def routePulse (src : Source) (s : State) : State :=
  match s.route src with
  | .aux _ => s.onEvr (fun e =>
      { e with hold := Tab.put e.hold src.ix (some (s.now + s.y .auxHold)) })
  | .removeNewest => trigger src .removeNewest s
  | .removeAll => trigger src .removeAll s
  | _ => s

/-- BUDGET_EXHAUSTED is reported to EVR and to REG_LIMIT as it stands (R88). The dispatcher has not yet
acted. -/
def reportBudget (s : State) : State :=
  routeCondition .budgetExhausted s.budgetExhausted
    (reportClass .regLimit s.regLimitCondition none 0 0 s)

end Sys2Proof.Machine
end

