-- ==== Sys2Proof/Machine/Dispatcher.lean ====
section
/-! DEFINITION. The start of operations and their success (R54, R61, R63), the dispatcher (R51 to R53),
PROTECTION opens (R55 to R58), lockouts (R30, R31) and the requests and reports that are occasions for the
dispatcher. -/

namespace Sys2Proof.Machine

/-! ### Success (R63) -/

/-- The state a step enters when its operation succeeds: CLOSING to ENERGIZED, OPENING to DISCHARGING with
basis OWN; a LOCKED_OUT step keeps its state (R27, R28). -/
def stSuccess (i : StepIx) (s : State) : State :=
  match (s.step i).state with
  | .closing => toEnergized i s
  | .opening => toDischarging i .own s
  | _ => s

/-- The target of the step's operation in flight is observed (R63): the coils are de-energized, SUCCESS is
delivered and becomes the last result, ST takes the success, and the record enters SETTLING. -/
def opSuccess (i : StepIx) (s : State) : State :=
  match (s.sw i).op with
  | none => s
  | some o =>
    let s1 := (coilsOff i s).onSw i (fun r =>
      { r with
        op := some { o with phase := .settling, settleDue := s.now + s.ySec .settleWindow }
        lastResult := some .success })
    deliverAll i o.kind .success o.requesters (stSuccess i s1)

/-! ### Dispatch (R54) -/

/-- The operation record a dispatch creates (R54, R59). -/
def State.newOp (s : State) (i : StepIx) (k : Kind) (g : Origin) (qs : List Requester) : OpRecord :=
  { kind := k
    origin := g
    requesters := qs
    protMerged := false
    phase := .pulsing
    start := s.now
    holdsSlot := g ≠ .protection
    pre := s.snapshot i
    pulseDue := s.now + (match k with | .close => s.y .closePulse | .opening => s.y .tripPulse)
    limitDue := s.now + (match k with | .close => s.y .closeLimit | .opening => s.y .openLimit)
    settleDue := 0 }

/-- ST's part in a dispatch: READY to CLOSING; ENERGIZED, or CLOSING after an abort, to OPENING; a
LOCKED_OUT step keeps its state (R27, R28). -/
def stDispatch (i : StepIx) (k : Kind) (s : State) : State :=
  match k, (s.step i).state with
  | .close, .ready => moveStep i .closing .own .failToClose s
  | .opening, .energized => moveStep i .opening .own .failToClose s
  | .opening, .closing => moveStep i .opening .own .failToClose s
  | _, _ => s

/-- The coils of a dispatch, the close coil off before a trip coil is on (R60). -/
def coilsOn (i : StepIx) (k : Kind) (s : State) : State :=
  match k with
  | .close => closeCoilOn i s
  | .opening => tripCoilsOn i s

/-- An operation is started on a step (R54): the record, the slot for an origin other than PROTECTION,
the state, the coils, the duty level and for REGULATION the yard budget, the operation count, the abort of
a capture of the step (R154), and the first comparison with the target (R61). R54 leaves the claims of a dispatch
without an order; that ST's state is claimed before the budget pulse and its BUDGET_EXHAUSTED report, so that a removal
which that report triggers reads the service list without the step, is the model's choice (log entry 8). -/
def dispatchOp (i : StepIx) (k : Kind) (g : Origin) (qs : List Requester) (s : State) : State :=
  let s1 := s.onSw i (fun r =>
    { r with op := some (s.newOp i k g qs), opCount := satInc Config.count32 r.opCount })
  let s2 := if g = .protection then s1 else s1.onSwu (fun w => { w with slot := some i })
  let s3 := dutyPulse i (coilsOn i k (stDispatch i k s2))
  let s4 := abortCaptureOf i s3
  let s5 := if (s4.step i).position = k.target then opSuccess i s4 else s4
  if g = .regulation then reportBudget (budgetPulse s5) else s5

/-! ### The dispatcher (R51 to R53) -/

/-- The dispatch checks of a CLOSE entry (R52). -/
def State.closePasses (s : State) (e : Entry) : Bool :=
  (s.step e.step).state == .ready && s.dutyOk e.step &&
    match e.origin with
    | .regulation => s.vrg.mode == .auto && !s.budgetExhausted
    | .station => s.vrg.mode != .auto
    | _ => true

/-- The dispatch check of an OPEN entry beyond the budget: the position is CLOSED, and the step is
ENERGIZED, or LOCKED_OUT with a station order among the requesters (R53). -/
def State.openPasses (s : State) (e : Entry) : Bool :=
  (s.step e.step).position == .closed &&
    ((s.step e.step).state == .energized ||
      ((s.step e.step).state == .lockedOut && decide (.hlk ∈ e.requesters)))

/-- The result of an entry's dispatch checks: none where it passes (R52, R53). -/
def State.dispatchFailure (s : State) (e : Entry) : Option OpResult :=
  match e.kind with
  | .close => if s.closePasses e then none else some .notEligible
  | .opening =>
    if e.origin = .regulation ∧ s.budgetExhausted then some .notEligible
    else if s.openPasses e then none
    else some .already

/-- The first entry in queue order whose step has no operation record (R51). -/
def State.nextEntry (s : State) : Option Entry :=
  s.swu.queue.find? (fun e => (s.sw e.step).op.isNone)

/-- The dispatcher's search: entries that fail are answered and left behind, until one is dispatched or
none is left (R51). Each round takes one entry out of the queue, so as many rounds as the queue has entries
are enough. -/
def dispatchRounds : Nat → State → State
  | 0, s => s
  | n + 1, s =>
    match s.nextEntry with
    | none => s
    | some e =>
      let s1 := s.onSwu (fun w => { w with queue := dropStep e.step w.queue })
      match s1.dispatchFailure e with
      | none => dispatchOp e.step e.kind e.origin e.requesters s1
      | some r => dispatchRounds n (deliverAll e.step e.kind r e.requesters s1)

/-- An occasion for the dispatcher: it acts while the slot is free (R51). -/
def dispatcher (s : State) : State :=
  if s.swu.slot.isSome then s else dispatchRounds s.swu.queue.length s

/-- A request of GUARD, STATION or REGULATION origin reaches SWU (R47, R48, R51). -/
def request (i : StepIx) (k : Kind) (q : Requester) (s : State) : State :=
  dispatcher (takeRequest i k q s)

/-- A condition source reports its state to EVR, and what it raises is taken (R158). -/
def condition (src : Source) (active : Bool) (s : State) : State :=
  if s.sourceActive src = active then s else dispatcher (routeCondition src active s)

/-- A pulse source pulses (R158). -/
def pulse (src : Source) (s : State) : State := dispatcher (routePulse src s)

/-- BUDGET_EXHAUSTED and REG_LIMIT follow the yard budget (R88). -/
def budgetCondition (s : State) : State :=
  condition .budgetExhausted s.budgetExhausted
    (reportClass .regLimit s.regLimitCondition none 0 0 s)

/-! ### Lockout (R30, R31) -/

/-- A step enters LOCKED_OUT (R31): the cause, the lists, the withdrawal of its queue entry, the abort of a
capture of it, and the LOCKOUT notice. -/
def lockOut (i : StepIx) (c : Cause) (s : State) : State :=
  raiseNotice .lockout (some i) c.code 0
    (abortCaptureOf i (withdrawStep i (moveStep i .lockedOut .own c s)))

/-- A lockout claim of UBP or of the no-current check: it moves an ENERGIZED step alone (R30). -/
def lockoutClaim (i : StepIx) (c : Cause) (s : State) : State :=
  if (s.step i).state = .energized then lockOut i c s else s

/-! ### PROTECTION opens (R55 to R58) -/

/-- The slot is released if the step's record holds it. -/
def releaseSlot (i : StepIx) (o : OpRecord) (s : State) : State :=
  if o.holdsSlot ∧ s.swu.slot = some i then s.onSwu (fun w => { w with slot := none }) else s

/-- The step's operation record is removed, and the slot released if it held it (R50, R59). -/
def removeOp (i : StepIx) (s : State) : State :=
  match (s.sw i).op with
  | none => s
  | some o => releaseSlot i o (s.onSw i (fun r => { r with op := none }))

/-- The regulator is told that the settle of its operation was overtaken, or that its settled event came:
SETTLING ends (R108). -/
def regulatorSettled (i : StepIx) (o : OpRecord) (s : State) : State :=
  s.onVrg (fun v =>
    if v.reg = .settling ∧ v.target = some ⟨i, o.kind⟩ ∧ .regulator ∈ o.requesters then v.toWatch else v)

/-- The settle of a step is overtaken (R57). -/
def overtake (i : StepIx) (s : State) : State :=
  match (s.sw i).op with
  | none => s
  | some o => if o.phase = .settling then regulatorSettled i o (removeOp i s) else s

/-- The requesters of the step's queued OPEN, who join the PROTECTION open that is dispatched (R58). -/
def State.joiners (s : State) (i : StepIx) : List Requester :=
  match s.entryOf i with
  | none => []
  | some e => if e.kind = .opening then e.requesters else []

/-- The step's queue entry at the dispatch of a PROTECTION open: a CLOSE is superseded, an OPEN is taken in
(R58). -/
def absorbEntry (i : StepIx) (s : State) : State :=
  match s.entryOf i with
  | none => s
  | some e =>
    let s1 := s.onSwu (fun w => { w with queue := dropStep i w.queue })
    if e.kind = .close then deliverAll i .close .superseded e.requesters s1 else s1

/-- A PROTECTION open is dispatched on the step, without the slot (R54, R58). -/
def dispatchProtection (i : StepIx) (q : Requester) (s : State) : State :=
  dispatchOp i .opening .protection (q :: (s.joiners i).filter (· ≠ q)) (absorbEntry i s)

/-- The close in flight on the step is ended ABORTED (R56). -/
def abortClose (i : StepIx) (o : OpRecord) (s : State) : State :=
  let s1 := (coilsOff i s).onSw i (fun r => { r with lastResult := some .aborted })
  loadDischarge i (removeOp i (deliverAll i o.kind .aborted o.requesters s1))

/-- Whether a PROTECTION open is dispatched on a step that has no operation in flight (R55, third row). -/
def State.protectionDispatches (s : State) (i : StepIx) : Bool :=
  (s.step i).state == .energized
    || ((s.step i).state == .lockedOut && (s.step i).position != .opened)

/-- A PROTECTION open merges into an open in flight (R55). -/
def mergeProtection (i : StepIx) (q : Requester) (s : State) : State :=
  s.onSw i (fun r => { r with
    op := r.op.map (fun o =>
      { o with requesters := addRequester q o.requesters, protMerged := true }) })

/-- A PROTECTION open is taken against its step, before the dispatcher acts on a released slot (R55). -/
def takeProtection (i : StepIx) (q : Requester) (s : State) : State :=
  match (s.sw i).op with
  | some o =>
    if o.phase = .settling then
      if s.protectionDispatches i then dispatchProtection i q (overtake i s)
      else deliver i .opening .already q s
    else if o.kind = .opening then mergeProtection i q s
    else dispatchProtection i q (abortClose i o s)
  | none =>
    if s.protectionDispatches i then dispatchProtection i q s
    else deliver i .opening .already q s

/-- A PROTECTION open is raised (R55), with the dispatcher's occasion that a released slot is. -/
def protectionOpen (i : StepIx) (q : Requester) (s : State) : State := dispatcher (takeProtection i q s)

end Sys2Proof.Machine
end

