-- ==== Sys2Proof/Machine/Monitor.lean ====
section
/-! DEFINITION. The position monitor and the start-up rebuild of the Step Table (R23 to R26, R37, R38, R42,
R43), what UBP, CDU and SWU do with a position change, and the commands CONTACT_LEVEL_CHANGE,
DEBOUNCE_EXPIRY, POSITION_DISAGREEMENT_EXPIRY and DEBOUNCE_TIME_FROM_RESET. -/

namespace Sys2Proof.Machine

/-! ### Commands while a reset is held -/

/-- A command's effect where the part is running. While a full reset is held nothing is taken: requests
and events are taken from the end of the full reset on (chapter 9.3, R201). -/
def live (s : State) (f : State → State) : Host.Outcome State Fault Refusal :=
  if s.resetHeld.isSome then .next s else .next (f s)

/-- A command that acts only where the occurrence it names stands; elsewhere the occurrence does not take
place and nothing changes (log entry 5). -/
def onlyIf (b : Bool) (f : State → State) (s : State) : State := if b then f s else s

/-! ### The unbalance alarm and the breaker failure as yard conditions -/

/-- UNB_ALARM is reported as it stands, with the step whose S1 made the edge (R144). -/
def unbCondition (i : Option StepIx) (s : State) : State :=
  condition .unbAlarm s.unbAlarm (reportClass .unbAlarm s.unbAlarm i 0 0 s)

/-- BREAKER_FAIL is reported as it stands, with the step whose entry made the edge (R69). -/
def breakerCondition (i : Option StepIx) (s : State) : State :=
  condition .breakerFail s.breakerFailAny (reportClass .breakerFail s.breakerFailAny i 0 0 s)

/-! ### The consumers of a position change (R26) -/

/-- The three stages of a step INACTIVE with their timers at 0 (R141). -/
def UbpStep.resetStages (u : UbpStep) : UbpStep :=
  { u with s1 := ⟨.inactive, 0⟩, s2 := ⟨.inactive, 0⟩, s3 := ⟨.inactive, 0⟩ }

/-- A step in OFF begins its arming delay (R140). -/
def startArming (i : StepIx) (s : State) : State :=
  if (s.ub i).eval = .off then
    s.onUb i (fun u => { u with eval := .awaitSettle, arming := some (s.now + s.ySec .settleWindow) })
  else s

/-- A step ARMED, its arming timer stopped (R140). -/
def arm (i : StepIx) (s : State) : State := s.onUb i (fun u => { u with eval := .armed, arming := none })

/-- UBP takes a position change whose stages have been reset (R140, R141, R154): UNB_ALARM as it then stands,
the abort of a capture, OFF at OPEN, and the arming delay. `arms` says that it is an OPEN-to-CLOSED change
taken while no operation is in flight on the step. -/
def ubpPosition (i : StepIx) (old new : Position) (arms : Bool) (s : State) : State :=
  let s1 := if old = .closed then abortCaptureOf i (unbCondition none s) else s
  let s2 :=
    if new = .opened then s1.onUb i (fun u => { u with eval := .off, arming := none }) else s1
  if arms && s2.st.rebuilt && decide ((s2.step i).state ≠ .disabled) then startArming i s2 else s2

/-- The executor of the step takes a position change (R61, R62, R69). -/
def swuPosition (i : StepIx) (new : Position) (s : State) : State :=
  let s1 :=
    if new = .opened ∧ (s.sw i).breakerFail then
      breakerCondition none (s.onSw i (fun r => { r with breakerFail := false }))
    else s
  match (s1.sw i).op with
  | none => s1
  | some o => if o.phase ≠ .settling ∧ o.kind.target = new then opSuccess i s1 else s1

/-- The POSITION notice (R38). -/
def positionNotice (i : StepIx) (p : Position) (s : State) : State :=
  raiseNotice .position (some i) p.code 0 s

/-- ST takes an uncommanded position change (R38); a settle that it moves the step out of is overtaken
(R37, R57). R37 speaks of a step that leaves the state its settling operation left it in; that a settle is also
overtaken where a STEP_RELEASE had moved the step out of that state before is the model's choice (log entry 17). -/
def uncommanded (i : StepIx) (new : Position) (s : State) : State :=
  let moved (t : State) : State := dispatcher (overtake i t)
  match (s.step i).state, new with
  | .energized, .opened => moved (positionNotice i new (toDischarging i .own s))
  | .ready, .closed => moved (startArming i (positionNotice i new (toEnergized i s)))
  | .discharging, .closed => moved (lockOut i .uncommandedClose (positionNotice i new s))
  | .ready, .unknown => moved (lockOut i .positionUnknown (positionNotice i new s))
  | .discharging, .unknown => moved (lockOut i .positionUnknown (positionNotice i new s))
  | .energized, .unknown => moved (lockOut i .positionUnknown (positionNotice i new s))
  | _, _ => s

/-! ### The start-up rebuild (R42, R43) -/

/-- One installed step at the rebuild (R43, R140). -/
def rebuildStep (i : StepIx) (s : State) : State :=
  if s.su.active.installed i then
    match (s.step i).position with
    | .closed =>
      (toEnergized i s).onUb i (fun u =>
        { u with
          eval := match s.vrg.startHold with | .over => .armed | _ => .awaitHold
          arming := none })
    | .unknown => lockOut i .positionUnknown s
    | _ => if (s.step i).state = .discharging then s else toDischarging i .startUp s
  else s

/-- The point of the rebuild: every installed step has a position other than TRAVEL, or, with no step
installed, the debounce time from the reset has passed (R43). -/
def State.rebuildDue (s : State) : Bool :=
  !s.st.rebuilt
    && allSteps.all (fun i => !s.su.active.installed i || (s.step i).position != .travel)
    && (allSteps.any s.su.active.installed || s.st.debounceEnded)

/-- The rebuild, taken once for all steps; it starts the start-up discharge timer (R43, R79). The steps are taken
in ascending index: for several lockouts R180 leaves the order open, and it decides the LOCKOUT detail left; the
order is the model's choice (log entry 8). -/
def rebuild (s : State) : State :=
  let s1 := allSteps.foldl (fun t i => rebuildStep i t) (s.onSt (fun t => { t with rebuilt := true }))
  s1.onCdu (fun c => { c with startUp := .running (s.now + s.ySec .dischargeTime) })

/-- The rebuild where its point has been reached. -/
def rebuildIfDue (s : State) : State := if s.rebuildDue then rebuild s else s

/-! ### Position changes (R24 to R26) -/

/-- ST's record with a new position (R26). -/
def StepRec.takePosition (r : StepRec) (p : Position) : StepRec :=
  { r with
    position := p
    lastDefinite := if p = .opened ∨ p = .closed then some p else r.lastDefinite }

/-- The step has a new position, and its three stages are reset where it leaves CLOSED (R26, R141). -/
def putPosition (i : StepIx) (new : Position) (s : State) : State :=
  let s1 := if (s.step i).position = .closed then s.onUb i UbpStep.resetStages else s
  s1.onStep i (fun r => r.takePosition new)

/-- A step's position value changes, and the change is handed to CDU, UBP, SWU and ST (R26, R37). -/
def positionChange (i : StepIx) (new : Position) (s : State) : State :=
  let r := s.step i
  if r.position = new then s
  else
    let flying := s.inFlight i
    let closedToOpen := decide (new = .opened ∧ r.lastDefinite = some .closed)
    let openToClosed := decide (new = .closed ∧ r.lastDefinite = some .opened)
    let s1 := putPosition i new s
    let s2 := if closedToOpen then loadDischarge i s1 else s1
    let s3 := ubpPosition i r.position new (openToClosed && !flying) s2
    let s4 := swuPosition i new s3
    let s5 := if !flying && s4.st.rebuilt then uncommanded i new s4 else s4
    rebuildIfDue s5

/-- The decoder after a change of a debounced value (R24). -/
def decodePosition (i : StepIx) (s : State) : State :=
  let r := s.step i
  match pairPosition r with
  | some p => positionChange i p (s.onStep i (fun r => { r with disagreeFrom := none }))
  | none =>
    if r.position = .opened ∨ r.position = .closed then
      positionChange i .travel (s.onStep i (fun r => { r with disagreeFrom := some s.now }))
    else s

/-- The position of a step whose disagreement time has reached the setting becomes UNKNOWN (R24). -/
def toUnknown (i : StepIx) (s : State) : State :=
  positionChange i .unknown (s.onStep i (fun r => { r with disagreeFrom := none }))

/-! ### The debounce filters (R23) -/

/-- The debounced value that a level gives. -/
def levelValue (made : Bool) : Debounced := if made then .made else .notMade

/-- The contact input of a step. -/
def StepRec.contact (r : StepRec) : Contact → ContactIn
  | .closedContact => r.closedIn
  | .openContact => r.openIn

/-- The record with one contact input changed. -/
def StepRec.onContact (r : StepRec) (c : Contact) (f : ContactIn → ContactIn) : StepRec :=
  match c with
  | .closedContact => { r with closedIn := f r.closedIn }
  | .openContact => { r with openIn := f r.openIn }

/-- An input has been steady for the debounce time at a level that its debounced value does not show. -/
def State.debounceDue (s : State) (i : StepIx) (c : Contact) : Bool :=
  let x := (s.step i).contact c
  levelValue x.raw != x.value && decide (s.y .debounceTime ≤ age s x.since)

/-- A contact input of a step, its debounced value at the level where the filter is due to take it (R23). -/
def State.filtered (s : State) (i : StepIx) (c : Contact) : ContactIn :=
  let x := (s.step i).contact c
  if s.debounceDue i c then { x with value := levelValue x.raw } else x

/-- The debounced values of a step take their levels (R23). Both filters that are due are taken before the decoder reads
the pair: a change from one disagreeing pair to another then passes through no valid pair, and changes neither the
position nor a running disagreement time (R24). -/
def takeLevels (i : StepIx) (s : State) : State :=
  decodePosition i
    (s.onStep i (fun r => { r with closedIn := s.filtered i .closedContact, openIn := s.filtered i .openContact }))

/-- The disagreement time of the step has reached the setting (R24). -/
def State.disagreementDue (s : State) (i : StepIx) : Bool :=
  (s.step i).position == .travel &&
    match (s.step i).disagreeFrom with
    | none => false
    | some t => decide (s.y .disagreementTime ≤ age s t)

/-- The debounce time from the full reset has passed: the disagreement time of every step that has no
valid pair begins, and with no step installed the rebuild is made (R25, R43). -/
def endDebounce (s : State) : State :=
  rebuildIfDue (s.onSt (fun t =>
    { t with
      debounceEnded := true
      steps := Tab.build (fun i =>
        let r := t.steps.get i
        if r.position = .travel ∧ r.disagreeFrom = none then { r with disagreeFrom := some s.now } else r) }))

/-! ### The commands -/

/-- CONTACT_LEVEL_CHANGE (R23): the count restarts from the change. The pin's level is followed while a
reset is held too; its count begins at the end of the reset. -/
def execContactLevelChange (i : StepIx) (c : Contact) (made : Bool) (s : State) :
    Host.Outcome State Fault Refusal :=
  .next (if ((s.step i).contact c).raw = made then s
    else s.onStep i (fun r => r.onContact c (fun x => { x with raw := made, since := s.now })))

/-- DEBOUNCE_EXPIRY (R23). Where the other contact of the step is due with the one named, its filter is taken with it,
and its own expiry then finds nothing to take. -/
def execDebounceExpiry (i : StepIx) (c : Contact) (s : State) : Host.Outcome State Fault Refusal :=
  live s (onlyIf (s.debounceDue i c) (takeLevels i))

/-- POSITION_DISAGREEMENT_EXPIRY (R24). -/
def execPositionDisagreementExpiry (i : StepIx) (s : State) : Host.Outcome State Fault Refusal :=
  live s (onlyIf (s.disagreementDue i) (toUnknown i))

/-- Whether the debounce time from the full reset has passed and has not yet been taken (R25). -/
def State.debounceEndDue (s : State) : Bool :=
  !s.st.debounceEnded && decide (s.y .debounceTime ≤ s.now)

/-- DEBOUNCE_TIME_FROM_RESET (R25, R43). -/
def execDebounceTimeFromReset (s : State) : Host.Outcome State Fault Refusal :=
  live s (onlyIf s.debounceEndDue endDebounce)

end Sys2Proof.Machine
end

