-- ==== Sys2Proof/Machine/Cooldown.lean ====
section
/-! DEFINITION. The expiries of the Cooldown Unit (chapter 4) and what it takes from an apply. The commands
DISCHARGE_EXPIRY, STARTUP_DISCHARGE_EXPIRY, DUTY_EXPIRY, YARD_TIMER_EXPIRY. -/

namespace Sys2Proof.Machine

/-! ### Discharge (R77, R79) -/

/-- The step's discharge timer has run out. -/
def State.dischargeOver (s : State) (i : StepIx) : Bool := expired s (s.cd i).discharge

/-- The expiry of a step's discharge timer (R77): it stops with the flag YES, and a step DISCHARGING with
basis OWN goes to READY (R32). -/
def dischargeEnds (i : StepIx) (s : State) : State :=
  let s1 := s.onCd i (fun c => { c with discharge := none, discharged := true })
  if (s.step i).state = .discharging ∧ (s.step i).basis = some .own then toReady i s1 else s1

/-- The start-up discharge timer has run out. -/
def State.startUpOver (s : State) : Bool :=
  match s.cdu.startUp with
  | .running due => decide (due ≤ s.now)
  | _ => false

/-- A step that waits for the start-up discharge timer goes to READY (R79). -/
def releaseStartUp (i : StepIx) (s : State) : State :=
  if (s.step i).state = .discharging ∧ (s.step i).basis = some .startUp then toReady i s else s

/-- The expiry of the start-up discharge timer (R79): the flag YES for every step whose own timer is
stopped, and the steps that wait for it go to READY in ascending index. -/
def startUpEnds (s : State) : State :=
  allSteps.foldl (fun t i => releaseStartUp i t)
    (s.onCdu (fun c =>
      { c with
        startUp := .over
        steps := Tab.build (fun i =>
          let x := c.steps.get i
          { x with discharged := if x.discharge = none then true else x.discharged }) }))

/-! ### Duty and the yard budget (R82, R84, R87, R89) -/

/-- The step's duty timer has run out. -/
def State.dutyOver (s : State) (i : StepIx) : Bool := expired s (s.cd i).dutyTimer

/-- The expiry of a duty timer (R82). -/
def dutyEnds (i : StepIx) (s : State) : State :=
  s.onCd i (fun c =>
    { c with
      duty := c.duty - 1
      dutyTimer := if 1 < c.duty then some (s.now + s.ySec .dutyInterval) else none })

/-- The yard timer has run out. -/
def State.yardOver (s : State) : Bool := expired s s.cdu.yardTimer

/-- The yard budget level one lower (R87), with BUDGET_EXHAUSTED as it then stands (R88). -/
def yardEnds (s : State) : State :=
  budgetCondition (s.onCdu (fun c =>
    { c with
      budget := c.budget - 1
      yardTimer := if 1 < c.budget then some (s.now + s.ySec .yardInterval) else none }))

/-- Every level above the duty limit in force is set to it: what a lowered limit does (R84). -/
def clampDuty (s : State) : State :=
  s.onCdu (fun c =>
    { c with
      steps := Tab.build (fun i =>
        let x := c.steps.get i
        { x with duty := min x.duty (s.y .dutyLimit) }) })

/-- A changed yard limit clamps the level, and BUDGET_EXHAUSTED follows (R89). -/
def clampBudget (s : State) : State :=
  budgetCondition (s.onCdu (fun c => { c with budget := min c.budget (s.y .yardLimit) }))

/-! ### The commands -/

/-- DISCHARGE_EXPIRY (R77). -/
def execDischargeExpiry (i : StepIx) (s : State) : Host.Outcome State Fault Refusal :=
  live s (onlyIf (s.dischargeOver i) (dischargeEnds i))

/-- STARTUP_DISCHARGE_EXPIRY (R79). -/
def execStartupDischargeExpiry (s : State) : Host.Outcome State Fault Refusal :=
  live s (onlyIf s.startUpOver startUpEnds)

/-- DUTY_EXPIRY (R82). -/
def execDutyExpiry (i : StepIx) (s : State) : Host.Outcome State Fault Refusal :=
  live s (onlyIf (s.dutyOver i) (dutyEnds i))

/-- YARD_TIMER_EXPIRY (R87). -/
def execYardTimerExpiry (s : State) : Host.Outcome State Fault Refusal :=
  live s (onlyIf s.yardOver yardEnds)

end Sys2Proof.Machine
end

