-- ==== Sys2Proof/Machine/Operands.lean ====
section
/-! DEFINITION. The operand forms of the pins: the integer, absence, set and list encodings of R204, the
CRC-16, the measurement frame (R208) with the range limits of R3, the host frame (R205), and the requests
with their types and payloads (R206). -/

namespace Sys2Proof.Machine

/-! ### Integers (R204) -/

/-- A field of one byte. -/
def u8 (n : Nat) : List Byte := [BitVec.ofNat 8 n]

/-- A field of two bytes, most significant first. -/
def u16 (n : Nat) : List Byte := [BitVec.ofNat 8 (n / 256), BitVec.ofNat 8 n]

/-- A field of four bytes, most significant first. -/
def u32 (n : Nat) : List Byte :=
  [BitVec.ofNat 8 (n / 16777216), BitVec.ofNat 8 (n / 65536), BitVec.ofNat 8 (n / 256), BitVec.ofNat 8 n]

/-- A signed field of two bytes, two's complement. -/
def i16 (z : Int) : List Byte := u16 (BitVec.ofInt 16 z).toNat

/-- A signed field of four bytes, two's complement. -/
def i32 (z : Int) : List Byte := u32 (BitVec.ofInt 32 z).toNat

/-- A flag (R204: NO/YES, OFF/ON, INACTIVE/ACTIVE). -/
def flag (b : Bool) : List Byte := u8 (flagCode b)

/-- The number that bytes spell, most significant first. -/
def readBytes (bs : List Byte) : Nat := bs.foldl (fun a b => a * 256 + b.toNat) 0

/-- The unsigned field of `n` bytes at an offset of a frame. -/
def field (bs : List Byte) (off n : Nat) : Nat := readBytes ((bs.drop off).take n)

/-- The signed field of two bytes at an offset of a frame. -/
def signedField (bs : List Byte) (off : Nat) : Int := (BitVec.ofNat 16 (field bs off 2)).toInt

/-! ### Absence (R204) -/

/-- A one-byte field whose absence is 0xFF. -/
def opt8 : Option Nat → List Byte
  | none => u8 0xFF
  | some n => u8 n

/-- A two-byte field whose absence is 0xFFFF. -/
def opt16 : Option Nat → List Byte
  | none => u16 0xFFFF
  | some n => u16 n

/-- A field of `width` bytes preceded by its presence byte; the bytes of an absent one are 0. -/
def present {α : Type} (width : Nat) (f : α → List Byte) : Option α → List Byte
  | none => u8 0 ++ List.replicate width 0#8
  | some x => u8 1 ++ f x

/-! ### Sets and lists (R204) -/

/-- The number whose bit `i` is set for each `i` of the list. -/
def bitSet (is : List Nat) : Nat := is.foldl (fun a i => a ||| 1 <<< i) 0

/-- A set of steps: bit s - 1 for step s. -/
def stepSet (f : StepIx → Bool) : List Byte := u8 (bitSet ((allSteps.filter f).map Fin.val))

/-- A set of harmonic orders: bit h for order h. -/
def orderSet (m : Vector Bool 13) : List Byte := u16 (bitSet ((allQtys.filter m.get).map qtyNo))

/-- A set of origins: bit c for class c. -/
def originSet (qs : List Requester) : List Byte := u8 (bitSet (qs.map (fun q => q.origin.cls)))

/-- The set of hold causes. -/
def holdSet (h : HoldSet) : List Byte :=
  u8 (flagCode h.noSource + 2 * flagCode h.switchover + 4 * flagCode h.disagree + 8 * flagCode h.freeze
    + 16 * flagCode h.startUp + 32 * flagCode h.lossOfVoltage)

/-- A list: a count byte and the entries in order. -/
def listOf {α : Type} (f : α → List Byte) (xs : List α) : List Byte := u8 xs.length ++ xs.flatMap f

/-! ### The check value (R204) -/

/-- One bit of the CRC-16 with generator x^16 + x^12 + x^5 + 1. -/
def crcBit (r : Word16) : Word16 := if r.msb then (r <<< 1) ^^^ 0x1021#16 else r <<< 1

/-- One byte of the CRC-16, most significant bit first. -/
def crcByte (r : Word16) (b : Byte) : Word16 :=
  crcBit (crcBit (crcBit (crcBit (crcBit (crcBit (crcBit (crcBit
    (r ^^^ (b.setWidth 16 <<< 8)))))))))

/-- The CRC-16 of some bytes: the register starts at 0xFFFF, and the result is not inverted. -/
def crc16 (bs : List Byte) : Word16 := bs.foldl crcByte 0xFFFF#16

/-! ### The measurement frame (R208) -/

/-- A value limited to the range of its quantity (R3). -/
def limit (lo hi n : Nat) : Nat := max lo (min hi n)

/-- The step count byte. -/
def measCount (bs : List Byte) : Nat := field bs 6 1

/-- Bytes that are a complete measurement frame: the marker, a step count from 1 to 8, and the length that
the count fixes (R1). -/
def measComplete (bs : List Byte) : Bool :=
  decide (field bs 0 2 = 0x5AC3 ∧ 7 ≤ bs.length ∧ 1 ≤ measCount bs ∧ measCount bs ≤ 8
    ∧ bs.length = 43 + 10 * measCount bs)

/-- The bytes that a receiver holds. -/
def bytesHeld (rx : Option FrameInProgress) : List Byte :=
  match rx with
  | none => []
  | some x => x.bytes

/-- What a receiver holds of the bytes left over, with the reading at which their gap will be over. -/
def inProgress (bytes : List Byte) (due : Nat) : Option FrameInProgress :=
  if bytes = [] then none else some ⟨bytes, due⟩

/-- Whether the gap after the last byte of a frame is over at a reading; a frame has begun with `begun` bytes. -/
def gapLasted (begun now : Nat) (rx : Option FrameInProgress) : Bool :=
  match rx with
  | none => false
  | some x => decide (begun ≤ x.bytes.length ∧ x.gapDue ≤ now)

/-- One byte arrives at a measurement receiver that holds some bytes (R1, R208): whether a frame ends with it,
and what is held after it. Outside a frame the receiver hunts for the marker, and what does not form it is
discarded. A step count out of range ends the frame as failed, and the last byte of the check value completes it. -/
def receiveByte (held : List Byte) (b : Byte) : Option FrameEnd × List Byte :=
  let bytes := held ++ [b]
  match held with
  | [] => (none, if b = 0x5A#8 then bytes else [])
  | [_] => (none, if b = 0xC3#8 then bytes else if b = 0x5A#8 then [b] else [])
  | _ =>
    if bytes.length = 7 ∧ (measCount bytes = 0 ∨ 8 < measCount bytes) then (some .failed, [])
    else if 7 ≤ bytes.length ∧ bytes.length = 43 + 10 * measCount bytes then (some (.complete bytes), [])
    else (none, bytes)

/-- Bytes arrive one after another (R1): the frames that end among them in order, and what is held at last. -/
def receiveBytes : List Byte → List Byte → List FrameEnd × List Byte
  | held, [] => ([], held)
  | held, b :: bs =>
    let x := receiveByte held b
    let y := receiveBytes x.2 bs
    (x.1.toList ++ y.1, y.2)

/-- Whether the check value covers the bytes after the marker (R2, check 1). -/
def measCheckOk (bs : List Byte) : Bool :=
  decide (field bs (41 + 10 * measCount bs) 2
    = (crc16 ((bs.drop 2).take (39 + 10 * measCount bs))).toNat)

/-- The unit byte of a link's acquisition unit. -/
def unitOf : Link → Nat
  | .a => 0x01
  | .b => 0x02

def measUnit (bs : List Byte) : Nat := field bs 2 1

def measSeq (bs : List Byte) : Word16 := BitVec.ofNat 16 (field bs 3 2)

def measStatus (bs : List Byte) : Byte := BitVec.ofNat 8 (field bs 5 1)

/-- The self-check-failed flag, bit 0 of the unit status byte. -/
def selfCheckFailed (st : Byte) : Bool := st.getLsbD 0

/-- The frequency-out-of-range flag, bit 1 of the unit status byte. -/
def freqOutOfRange (st : Byte) : Bool := st.getLsbD 1

/-- Step block j, counted from 0. -/
def measBlock (bs : List Byte) (j : Nat) : StepMeas :=
  let o := 41 + 10 * j
  { i1 := limit 0 3000 (field bs o 2)
    i2 := limit 0 3000 (field bs (o + 2) 2)
    i3 := limit 0 3000 (field bs (o + 4) 2)
    inPhase := signedField bs (o + 6)
    quad := signedField bs (o + 8) }

/-- How many installed steps stand below a step: its block's place (R3). -/
def Settings.blockPlace (c : Settings) (s : StepIx) : Nat :=
  (allSteps.filter (fun i => c.installed i && decide (i < s))).length

/-- The record of a good frame (R3). THD stands at offset 15 and order h at 17 + 2(h - 2), so quantity place
q stands at 15 + 2q. -/
def measRecord (c : Settings) (l : Link) (bs : List Byte) (time : Nat) : MeasRecord where
  link := l
  sequence := measSeq bs
  status := measStatus bs
  frequency := limit 40000 70000 (field bs 7 2 + 10000)
  v1 := limit 0 20000 (field bs 9 2)
  v2 := limit 0 20000 (field bs 11 2)
  v3 := limit 0 20000 (field bs 13 2)
  harm := Tab.build (fun q => limit 0 10000 (field bs (15 + 2 * q.val) 2))
  blocks := Tab.build (fun s => if c.installed s then some (measBlock bs (c.blockPlace s)) else none)
  time := time

/-! ### The host frame (R205) -/

/-- Bytes that are a complete host frame: 0xA5, a length of at most 240, and as many bytes as it gives. -/
def hostComplete (bs : List Byte) : Bool :=
  decide (field bs 0 1 = 0xA5 ∧ field bs 1 1 ≤ Config.maxPayload ∧ bs.length = field bs 1 1 + 6)

/-- What the host receiver makes of a byte besides holding it (R171): a byte discarded while hunting, a length byte
above 240, or the last check byte of a complete frame. -/
inductive HostEvent where
  | discarded
  | lengthError
  | complete (bytes : List Byte)
  deriving DecidableEq, Repr

/-- One byte with its stop bit high arrives at a host receiver that holds some bytes (R171, R205): what comes of it,
and what is held after it. -/
def receiveHostByte (held : List Byte) (b : Byte) : Option HostEvent × List Byte :=
  let bytes := held ++ [b]
  match held with
  | [] => if b = 0xA5#8 then (none, bytes) else (some .discarded, [])
  | [_] => if Config.maxPayload < b.toNat then (some .lengthError, []) else (none, bytes)
  | _ => if bytes.length = field bytes 1 1 + 6 then (some (.complete bytes), []) else (none, bytes)

def hostType (bs : List Byte) : Nat := field bs 2 1

def hostTag (bs : List Byte) : Byte := BitVec.ofNat 8 (field bs 3 1)

def hostPayload (bs : List Byte) : List Byte := (bs.drop 4).take (field bs 1 1)

/-- Whether the check value covers offsets 1 to 3 + n. -/
def hostCheckOk (bs : List Byte) : Bool :=
  decide (field bs (4 + field bs 1 1) 2 = (crc16 ((bs.drop 1).take (3 + field bs 1 1))).toNat)

/-- A host frame of a type, a tag and a payload. -/
def hostFrameOf (ty : Nat) (tag : Byte) (payload : List Byte) : List Byte :=
  let body := u8 payload.length ++ u8 ty ++ [tag] ++ payload
  u8 0xA5 ++ body ++ u16 (crc16 body).toNat

/-- The type of the reply to a request of a type (R176). -/
def replyType (ty : Nat) : Nat := if ty < 0x80 then ty + 0x80 else ty

/-- The reply frame (R176): the reply code and the fields after it. -/
def replyFrame (ty : Nat) (tag : Byte) (r : Reply) : List Byte :=
  hostFrameOf (replyType ty) tag (u8 r.code.code ++ r.body)

/-! ### Requests (R206) -/

/-- The type byte of a request. -/
def requestType : Request → Nat
  | .ident => 0x01
  | .yardStatus => 0x02
  | .stepRead _ => 0x03
  | .measRead _ => 0x04
  | .linkRead _ _ => 0x05
  | .linkStats => 0x06
  | .harmRead => 0x07
  | .unbRead _ => 0x08
  | .queueRead => 0x09
  | .noticeList => 0x0A
  | .modeSet _ => 0x10
  | .orderStage _ _ => 0x11
  | .orderExecute _ _ => 0x12
  | .orderCancel => 0x13
  | .stepEnable _ => 0x14
  | .stepDisable _ => 0x15
  | .stepRelease _ _ => 0x16
  | .marksClear _ => 0x17
  | .baselineCapture _ => 0x18
  | .captureCancel => 0x19
  | .settingWrite _ _ _ => 0x20
  | .settingRead _ _ _ => 0x21
  | .settingsApply => 0x22
  | .settingsDiscard => 0x23
  | .routeSet _ _ => 0x24
  | .routeRead => 0x25
  | .storeCommit => 0x28
  | .storeStatus => 0x29
  | .baselineUnlock => 0x2A
  | .noticeFetch => 0x30
  | .noticeAck _ => 0x31
  | .noticeConfig _ _ _ => 0x32
  | .linkReset => 0x3F

/-- The payload of a request: its operands in order. -/
def requestPayload : Request → List Byte
  | .stepRead a => [a]
  | .measRead a => [a]
  | .linkRead a b => [a, b]
  | .unbRead a => [a]
  | .modeSet a => [a]
  | .orderStage a b => [a, b]
  | .orderExecute a b => [a, b]
  | .stepEnable a => [a]
  | .stepDisable a => [a]
  | .stepRelease a b => [a, b]
  | .marksClear a => [a]
  | .baselineCapture a => [a]
  | .settingWrite a b v =>
    [a, b, v.extractLsb' 24 8, v.extractLsb' 16 8, v.extractLsb' 8 8, v.extractLsb' 0 8]
  | .settingRead a b c => [a, b, c]
  | .routeSet a b => [a, b]
  | .noticeAck a => [a]
  | .noticeConfig a b c => [a, b, c]
  | _ => []

/-- A request without operands: no payload byte. -/
def operands0 (r : Request) : List Byte → Option Request
  | [] => some r
  | _ => none

/-- A request of one operand byte. -/
def operands1 (f : Byte → Request) : List Byte → Option Request
  | [a] => some (f a)
  | _ => none

/-- A request of two operand bytes. -/
def operands2 (f : Byte → Byte → Request) : List Byte → Option Request
  | [a, b] => some (f a b)
  | _ => none

/-- A request of three operand bytes. -/
def operands3 (f : Byte → Byte → Byte → Request) : List Byte → Option Request
  | [a, b, c] => some (f a b c)
  | _ => none

/-- SETTING_WRITE: item, index and the four bytes of the value. -/
def operandsWrite : List Byte → Option Request
  | [a, b, v3, v2, v1, v0] => some (.settingWrite a b (v3 ++ v2 ++ v1 ++ v0))
  | _ => none

/-- The request of a type and a payload: none where no request has the type, and none inside where the
payload's length is another than the request's (R175, checks 1 and 2). -/
def decodeRequest (ty : Nat) (p : List Byte) : Option (Option Request) :=
  match ty with
  | 0x01 => some (operands0 .ident p)
  | 0x02 => some (operands0 .yardStatus p)
  | 0x03 => some (operands1 .stepRead p)
  | 0x04 => some (operands1 .measRead p)
  | 0x05 => some (operands2 .linkRead p)
  | 0x06 => some (operands0 .linkStats p)
  | 0x07 => some (operands0 .harmRead p)
  | 0x08 => some (operands1 .unbRead p)
  | 0x09 => some (operands0 .queueRead p)
  | 0x0A => some (operands0 .noticeList p)
  | 0x10 => some (operands1 .modeSet p)
  | 0x11 => some (operands2 .orderStage p)
  | 0x12 => some (operands2 .orderExecute p)
  | 0x13 => some (operands0 .orderCancel p)
  | 0x14 => some (operands1 .stepEnable p)
  | 0x15 => some (operands1 .stepDisable p)
  | 0x16 => some (operands2 .stepRelease p)
  | 0x17 => some (operands1 .marksClear p)
  | 0x18 => some (operands1 .baselineCapture p)
  | 0x19 => some (operands0 .captureCancel p)
  | 0x20 => some (operandsWrite p)
  | 0x21 => some (operands3 .settingRead p)
  | 0x22 => some (operands0 .settingsApply p)
  | 0x23 => some (operands0 .settingsDiscard p)
  | 0x24 => some (operands2 .routeSet p)
  | 0x25 => some (operands0 .routeRead p)
  | 0x28 => some (operands0 .storeCommit p)
  | 0x29 => some (operands0 .storeStatus p)
  | 0x2A => some (operands0 .baselineUnlock p)
  | 0x30 => some (operands0 .noticeFetch p)
  | 0x31 => some (operands1 .noticeAck p)
  | 0x32 => some (operands3 .noticeConfig p)
  | 0x3F => some (operands0 .linkReset p)
  | _ => none

/-- The request frame of a request with a tag (R205, R206). -/
def requestFrame (r : Request) (tag : Byte) : List Byte := hostFrameOf (requestType r) tag (requestPayload r)

end Sys2Proof.Machine
end

