-- ==== Sys2Proof/Machine/Switching.lean ====
section
/-! DEFINITION. The Switching Unit (chapter 3): the pulse, the operate limit, failure and trip retries, the
settle window with the consumers of the settled event, and the station orders. The commands PULSE_EXPIRY,
OPERATE_LIMIT_EXPIRY, SETTLE_EXPIRY, ORDER_STAGE_EXPIRY, ORDER_STAGE, ORDER_EXECUTE, ORDER_CANCEL. -/

namespace Sys2Proof.Machine

/-! ### Replies -/

/-- A reply of a code alone (R176). -/
def Reply.just (c : ReplyCode) : Reply := ⟨c, []⟩

/-- A reply OK with the bytes after the code (R207). -/
def Reply.okay (body : List Byte) : Reply := ⟨.ok, body⟩

/-- A request as its owner takes it: the state it leaves and the reply. -/
abbrev Taken := State × Reply

/-- A request refused with a code changes no state of any block (R175). -/
def refuse (c : ReplyCode) (s : State) : Taken := (s, .just c)

/-- The reply of the last request is recorded. -/
def Taken.answered (t : Taken) : State := t.1.onHlk (fun h => { h with answer := some t.2 })

/-- A request as a command by itself: its owner's rule, and the reply it forms (log entry 4). -/
def serve (s : State) (f : State → Taken) : Host.Outcome State Fault Refusal :=
  live s (fun t => (f t).answered)

/-! ### The pulse and the operate limit (R61, R62, R67) -/

/-- ST takes the failure of an operation (R27 to R29). -/
def stFailure (i : StepIx) (o : OpRecord) (s : State) : State :=
  match o.kind, (s.step i).state with
  | .close, .closing => lockOut i .failToClose s
  | .opening, .opening =>
    (lockOut i .failToOpen s).onSw i (fun r => { r with retries := some 0 })
  | .opening, .lockedOut =>
    if (o.origin = .protection ∨ o.protMerged) ∧ (s.step i).cause ≠ some .failToOpen then
      raiseNotice .lockout (some i) Cause.failToOpen.code 0
        ((s.onStep i (fun r => { r with cause := some .failToOpen })).onSw i (fun r =>
          { r with retries := some 0 }))
    else s
  | _, _ => s

/-- The trip-retry rule after ST has taken the failure of an open (R68). `wasOpening` says that the failed
operation had moved the step from OPENING. -/
def tripRetry (i : StepIx) (o : OpRecord) (wasOpening : Bool) (s : State) : State :=
  if o.kind = .opening ∧ (s.step i).state = .lockedOut ∧ (s.step i).cause = some .failToOpen
      ∧ (o.origin = .protection ∨ o.protMerged ∨ wasOpening) then
    let used := ((s.sw i).retries).getD 0
    if used < s.y .tripRetries then
      takeProtection i .swu (s.onSw i (fun r => { r with retries := some (used + 1) }))
    else
      breakerCondition (some i) (s.onSw i (fun r => { r with breakerFail := true }))
  else s

/-- The operation in flight on the step ends with FAIL_TO_OPERATE (R67). -/
def opFail (i : StepIx) (s : State) : State :=
  match (s.sw i).op with
  | none => s
  | some o =>
    let wasOpening := decide ((s.step i).state = .opening)
    let s1 := (coilsOff i s).onSw i (fun r => { r with lastResult := some .failToOperate })
    let s2 := deliverAll i o.kind .failToOperate o.requesters s1
    let s3 := pulse .opFail (raiseNotice .opFail (some i) o.kind.code 0 s2)
    let s4 := stFailure i o (removeOp i s3)
    let s5 := if o.kind = .close then loadDischarge i s4 else s4
    dispatcher (tripRetry i o wasOpening s5)

/-- The operation in flight on the step has reached its operate limit. -/
def State.limitReached (s : State) (i : StepIx) : Bool :=
  match (s.sw i).op with
  | none => false
  | some o => o.phase != .settling && decide (o.limitDue ≤ s.now)

/-- The operation on the step is in PULSING and its pulse has run out. -/
def State.pulseOver (s : State) (i : StepIx) : Bool :=
  match (s.sw i).op with
  | none => false
  | some o => o.phase == .pulsing && decide (o.pulseDue ≤ s.now)

/-- The pulse timer expires: the coil is de-energized and the phase becomes AWAITING; where the limit
expires with it, the operation fails without passing through AWAITING (R61, R62). -/
def pulseEnds (i : StepIx) (s : State) : State :=
  if s.limitReached i then opFail i s
  else (coilsOff i s).onSw i (fun r => { r with op := r.op.map (fun o => { o with phase := .awaiting }) })

/-! ### The settled event (R65, R66, R109, R133) -/

/-- The measured rise of an operation: what the bus voltage gained by the step (R109). -/
def measuredRise (k : Kind) (pre post : Snapshot) : Int :=
  match k with
  | .close => (post.voltage : Int) - pre.voltage
  | .opening => (pre.voltage : Int) - post.voltage

/-- VRG's record of a step after a learning (R109). -/
def VrgStep.learn (v : VrgStep) (expected : Nat) (m : Int) : VrgStep :=
  if 0 < m ∧ m ≤ 4 * (expected : Int) then
    { v with rise := some (match v.rise with
        | none => m.toNat
        | some old => (3 * old + m.toNat) / 4) }
  else { v with rejected := satInc Config.count16 v.rejected }

/-- The learning from a settled event (R109). -/
def learn (i : StepIx) (o : OpRecord) (post : Option Snapshot) (s : State) : State :=
  match o.pre, post with
  | some a, some b =>
    if o.origin = .station ∨ o.origin = .regulation then
      s.onVr i (fun v => v.learn (s.su.active.expectedRise i) (measuredRise o.kind a b))
    else s
  | _, _ => s

/-- The mark of one order after the attribution (R133). Place 0 is THD, which takes no part. -/
def attributeOrder (c : Settings) (a b : Snapshot) (q : QtyIx) (old : Bool) : Bool :=
  if q = 0 ∨ c.la q = 0 then old
  else if b.harm.get q * 100 < a.harm.get q * c.y .amplification then false
  else if c.la q ≤ b.harm.get q * 2 then true
  else old

/-- The resonance attribution of a settled close (R133). -/
def attribute_ (i : StepIx) (o : OpRecord) (post : Option Snapshot) (s : State) : State :=
  match o.kind, o.pre, post with
  | .close, some a, some b =>
    s.onHsv (fun h =>
      { h with marks := Tab.upd h.marks i (fun m =>
          Tab.build (fun q => attributeOrder s.su.active a b q (m.get q))) })
  | _, _, _ => s

/-- Whether the no-current check of a settled close finds a phase below the presence level (R66). -/
def State.noCurrentFound (s : State) (k : Kind) (post : Option Snapshot) : Bool :=
  match k, post with
  | .close, some b =>
    match b.currents with
    | some (x, y, z) =>
      let level := s.y .presenceLevel * 10
      decide (x < level ∨ y < level ∨ z < level)
    | none => false
  | _, _ => false

/-- The no-current check (R66). That OP_FAIL pulses, with what its route raises, before the dispatcher acts on the
released slot is the model's choice (log entry 8). -/
def noCurrentCheck (i : StepIx) (k : Kind) (post : Option Snapshot) (s : State) : State :=
  if s.noCurrentFound k post then
    let s1 := takeProtection i .swu (lockoutClaim i .noCurrent s)
    pulse .opFail (raiseNotice .opFail (some i) Kind.close.code 1 s1)
  else s

/-- The settle window of the step ends (R65): the post snapshot, the removal of the record with the slot,
and the settled event with its four consumers; then the dispatcher. -/
def settleEnds (i : StepIx) (s : State) : State :=
  match (s.sw i).op with
  | none => s
  | some o =>
    let post := s.snapshot i
    let s1 := regulatorSettled i o (removeOp i s)
    let s2 := attribute_ i o post (learn i o post s1)
    let s3 := if o.kind = .close then arm i s2 else s2
    dispatcher (noCurrentCheck i o.kind post s3)

/-- The operation on the step is in SETTLING and its settle window has run out. -/
def State.settleOver (s : State) (i : StepIx) : Bool :=
  match (s.sw i).op with
  | none => false
  | some o => o.phase == .settling && decide (o.settleDue ≤ s.now)

/-! ### The staged order (R70 to R72) -/

/-- The staged order becomes absent. -/
def clearStaged (s : State) : State := s.onSwu (fun w => { w with staged := none })

/-- The order is staged with its timer loaded. -/
def stageOrder (i : StepIx) (k : Kind) (s : State) : State :=
  s.onSwu (fun w => { w with staged := some ⟨i, k, s.now + s.ySec .stageTimeout⟩ })

/-- The stage timer has run out. -/
def State.stageOver (s : State) : Bool := expired s (s.swu.staged.map (·.due))

/-- ORDER_STAGE (R70). -/
def takeOrderStage (step kind : Byte) (s : State) : Taken :=
  match stepOfCode step.toNat, Kind.ofCode kind.toNat with
  | some i, some k =>
    match s.swu.staged with
    | none => (stageOrder i k s, .just .ok)
    | some g => if g.step = i ∧ g.kind = k then (stageOrder i k s, .just .ok) else refuse .stageHeld s
  | _, _ => refuse .outOfRange s

/-- Rows 3 to 7 of R71, for an order that names the staged step and kind. -/
def executeReply (i : StepIx) (k : Kind) (s : State) : ReplyCode :=
  if k = .close ∧ s.vrg.mode = .auto then .wrongMode
  else if k = .close ∧ ((s.step i).state ≠ .ready ∨ s.dutyOk i = false) then .notEligible
  else if k = .opening ∧ (s.step i).position ≠ .closed then .notEligible
  else if s.queueConflict i k then .queueConflict
  else .ok

/-- ORDER_EXECUTE (R71). In rows 6 and 7 the request is passed to SWU. -/
def takeOrderExecute (step kind : Byte) (s : State) : Taken :=
  match stepOfCode step.toNat, Kind.ofCode kind.toNat with
  | some i, some k =>
    match s.swu.staged with
    | none => refuse .notStaged s
    | some g =>
      let s1 := clearStaged s
      if g.step = i ∧ g.kind = k then
        let code := executeReply i k s
        if code = .ok ∨ code = .queueConflict then (request i k .hlk s1, .just code)
        else (s1, .just code)
      else (s1, .just .mismatch)
  | _, _ => refuse .outOfRange s

/-- ORDER_CANCEL (R72). -/
def takeOrderCancel (s : State) : Taken := (clearStaged s, .just .ok)

/-! ### The commands -/

/-- PULSE_EXPIRY (R61). -/
def execPulseExpiry (i : StepIx) (s : State) : Host.Outcome State Fault Refusal :=
  live s (onlyIf (s.pulseOver i) (pulseEnds i))

/-- OPERATE_LIMIT_EXPIRY (R62, R67). -/
def execOperateLimitExpiry (i : StepIx) (s : State) : Host.Outcome State Fault Refusal :=
  live s (onlyIf (s.limitReached i) (opFail i))

/-- SETTLE_EXPIRY (R65). -/
def execSettleExpiry (i : StepIx) (s : State) : Host.Outcome State Fault Refusal :=
  live s (onlyIf (s.settleOver i) (settleEnds i))

/-- ORDER_STAGE_EXPIRY (R70). -/
def execOrderStageExpiry (s : State) : Host.Outcome State Fault Refusal :=
  live s (onlyIf s.stageOver clearStaged)

/-- ORDER_STAGE (R70). -/
def execOrderStage (step kind : Byte) (s : State) : Host.Outcome State Fault Refusal :=
  serve s (takeOrderStage step kind)

/-- ORDER_EXECUTE (R71). -/
def execOrderExecute (step kind : Byte) (s : State) : Host.Outcome State Fault Refusal :=
  serve s (takeOrderExecute step kind)

/-- ORDER_CANCEL (R72). -/
def execOrderCancel (s : State) : Host.Outcome State Fault Refusal := serve s takeOrderCancel

end Sys2Proof.Machine
end

