-- ==== Sys2Proof/Machine/Harmonic.lean ====
section
/-! DEFINITION. The Harmonic Supervisor (chapter 6): the counts and moves of the quantities on a posting, the
yard conditions, the removal choice and its repeat, and what an apply does. The commands
REMOVE_REPEAT_EXPIRY and MARKS_CLEAR. -/

namespace Sys2Proof.Machine

/-! ### Thresholds and moves (R122, R124) -/

/-- The up threshold of a quantity in a state (R122). -/
def Settings.upThreshold (c : Settings) (q : QtyIx) : HarmState → Option Nat
  | .normal => if c.alarmEnabled q then some (c.la q) else none
  | .alarm => if c.blockEnabled q then some (c.lb q) else none
  | .block => if c.removeEnabled q then some (c.lr q) else none
  | .remove => none

/-- The down threshold of a quantity in a state (R122). -/
def Settings.downThreshold (c : Settings) (q : QtyIx) : HarmState → Option Nat
  | .normal => none
  | .alarm => some (c.la q - c.hyst q)
  | .block => some (c.lb q - c.hyst q)
  | .remove => some (c.lr q - c.hyst q)

/-- A value calls for a move up when it is at or above the up threshold. -/
def callsUp (v : Nat) : Option Nat → Bool
  | none => false
  | some t => decide (t ≤ v)

/-- A value calls for a move down when it is below the down threshold. -/
def callsDown (v : Nat) : Option Nat → Bool
  | none => false
  | some t => decide (v < t)

/-- One stage up. -/
def HarmState.up : HarmState → HarmState
  | .normal => .alarm
  | .alarm => .block
  | .block => .remove
  | .remove => .remove

/-- One stage down. -/
def HarmState.down : HarmState → HarmState
  | .normal => .normal
  | .alarm => .normal
  | .block => .alarm
  | .remove => .block

/-- The quantity in another state: counts at 0, the remove-repeat timer loaded on entry into REMOVE and
stopped outside it (R124, R125). `due` is the reading at which a timer loaded now reaches 0. -/
def Quantity.moveTo (r : Quantity) (h : HarmState) (due : Nat) : Quantity :=
  { r with state := h, up := 0, down := 0, repeatDue := if h = .remove then some due else none }

/-- A value applied to a quantity record (R123, R124). -/
def Quantity.apply (c : Settings) (q : QtyIx) (due v : Nat) (r : Quantity) : Quantity :=
  let up := if callsUp v (c.upThreshold q r.state) then r.up + 1 else 0
  let down := if callsDown v (c.downThreshold q r.state) then r.down + 1 else 0
  let r1 := { r with last := some v }
  if c.y .pUp ≤ up then r1.moveTo r.state.up due
  else if c.y .pDown ≤ down then r1.moveTo r.state.down due
  else { r1 with up := up, down := down }

/-! ### The yard conditions (R126) -/

/-- The quantity code of a rising edge: the lowest quantity at the stage. -/
def edgeCode : Option QtyIx → Nat
  | none => 0
  | some q => qtyNo q

/-- HARM_ALARM, HARM_BLOCK and HARM_REMOVE are reported as they stand (R126): the two classes, then EVR's three sources
in this order, which is the model's choice (log entry 8). -/
def harmConditions (s : State) : State :=
  let s1 := reportClass .harmAlarm s.harmAlarm none (edgeCode (s.firstAtRank 1)) 0 s
  let s2 := reportClass .harmAction s.harmBlock none (edgeCode (s.firstAtRank 2)) HarmState.block.code s1
  condition .harmRemove s.harmRemove
    (condition .harmBlock s.harmBlock (condition .harmAlarm s.harmAlarm s2))

/-! ### Forced removal (R128, R129) -/

/-- Whether a step's marks qualify it for a quantity: its order, or any order for THD (R128). -/
def State.markQualifies (s : State) (q : QtyIx) (i : StepIx) : Bool :=
  if q = 0 then allQtys.any (fun h => s.marked i h) else s.marked i q

/-- The removal choice (R128). -/
def State.removalChoice (s : State) (q : QtyIx) : Option StepIx :=
  match s.st.service.reverse.find? (fun i => s.markQualifies q i) with
  | some i => some i
  | none => s.st.service.getLast?

/-- A choice is recorded as the last removal of its quantity (R129). -/
def recordRemoval (q : QtyIx) (choice : Option StepIx) (s : State) : State :=
  s.onQty q (fun r => { r with removal := some ⟨choice, s.uptime, none⟩ })

/-- The GUARD OPEN of a quantity's recorded choice is raised, where a step was chosen (R128). -/
def raiseRemoval (choice : Option StepIx) (s : State) : State :=
  match choice with
  | none => s
  | some i => request i .opening .hsv s

/-- A removal (R128, R129): the record of its choice, and directly after it the request, so that a record without a
result always stands for the request it was made for. -/
def takeRemoval (q : QtyIx) (choice : Option StepIx) (s : State) : State :=
  raiseRemoval choice (recordRemoval q choice s)

/-- The choices of some quantities, all made on the marks and the service list as they stand (R128). -/
def State.removalChoices (s : State) (qs : List QtyIx) : List (QtyIx × Option StepIx) :=
  qs.map (fun q => (q, s.removalChoice q))

/-- The removals of the quantities that enter REMOVE together, one after another (R128). -/
def takeRemovals (cs : List (QtyIx × Option StepIx)) (s : State) : State :=
  cs.foldl (fun t p => takeRemoval p.1 p.2 t) s

/-! ### A posting (R123) -/

/-- The quantity tables after a posting that is not set aside. -/
def Harmonics.takeRecord (h : Harmonics) (c : Settings) (due : Nat) (m : MeasRecord) : Harmonics :=
  { h with qtys := Tab.build (fun q => (h.qtys.get q).apply c q due (m.harm.get q)) }

/-- The quantities that entered REMOVE between two states. -/
def enteredRemove (s t : State) : List QtyIx :=
  allQtys.filter (fun q => (s.qty q).state != .remove && (t.qty q).state == .remove)

/-- HSV acts on a posting (R123 to R126, R128). That the quantities move together, with the conditions recomputed
once, and that the choices are made before the conditions are reported and the requests raised after it, is the model's
choice (log entry 8). -/
def hsvPosting (m : MeasRecord) (s : State) : State :=
  if freqOutOfRange m.status then
    s.onHsv (fun h => { h with skipped := satInc Config.count16 h.skipped })
  else
    let s1 := s.onHsv (fun h => h.takeRecord s.su.active (s.now + s.ySec .removeRepeat) m)
    takeRemovals (s1.removalChoices (enteredRemove s s1)) (harmConditions s1)

/-- A quantity's remove-repeat timer has run out in REMOVE (R129). -/
def State.repeatOver (s : State) (q : QtyIx) : Bool :=
  (s.qty q).state == .remove && expired s (s.qty q).repeatDue

/-- The expiry of a remove-repeat timer (R129): the choice again, and the timer loaded again. -/
def repeatEnds (q : QtyIx) (s : State) : State :=
  let t := s.onQty q (fun r => { r with repeatDue := some (s.now + s.ySec .removeRepeat) })
  takeRemoval q (t.removalChoice q) t

/-! ### Settings and marks (R130, R132, R135) -/

/-- The highest stage of a quantity that is enabled (R122). -/
def Settings.highestStage (c : Settings) (q : QtyIx) : HarmState :=
  if c.removeEnabled q then .remove
  else if c.blockEnabled q then .block
  else if c.alarmEnabled q then .alarm
  else .normal

/-- A quantity whose levels or hysteresis changed (R130): counts at 0, and a fall from a stage that is no
longer enabled. -/
def Quantity.relevel (c : Settings) (q : QtyIx) (r : Quantity) : Quantity :=
  if (c.highestStage q).rank < r.state.rank then r.moveTo (c.highestStage q) 0
  else { r with up := 0, down := 0 }

/-- The quantities for which `changed` holds take their new levels (R130). -/
def relevelQuantities (changed : QtyIx → Bool) (s : State) : State :=
  harmConditions (s.onHsv (fun h =>
    { h with qtys := Tab.build (fun q =>
        if changed q then (h.qtys.get q).relevel s.su.active q else h.qtys.get q) }))

/-- A step's resonance marks are emptied (R132, R135). -/
def clearMarks (i : StepIx) (s : State) : State :=
  s.onHsv (fun h => { h with marks := Tab.put h.marks i (Tab.build (fun _ => false)) })

/-- MARKS_CLEAR (R135). -/
def takeMarksClear (step : Byte) (s : State) : Taken :=
  match stepOfCode step.toNat with
  | none => refuse .outOfRange s
  | some i => (clearMarks i s, .just .ok)

/-! ### The commands -/

/-- REMOVE_REPEAT_EXPIRY (R129). -/
def execRemoveRepeatExpiry (q : QtyIx) (s : State) : Host.Outcome State Fault Refusal :=
  live s (onlyIf (s.repeatOver q) (repeatEnds q))

/-- MARKS_CLEAR (R135). -/
def execMarksClear (step : Byte) (s : State) : Host.Outcome State Fault Refusal :=
  serve s (takeMarksClear step)

end Sys2Proof.Machine
end

