-- ==== Sys2Proof/Machine/Voltage.lean ====
section
/-! DEFINITION. The Voltage Regulator (chapter 5): what it does on a posting (switchover, start-up hold,
guards, band step, insertion, removal), the modes, the start-up hold and station silence. The commands
START_UP_HOLD_EXPIRY, STATION_SILENCE_EXPIRY and MODE_SET. -/

namespace Sys2Proof.Machine

/-! ### NO_CANDIDATE (R106) -/

/-- NO_CANDIDATE becomes active: REG_LIMIT and the event source (R106, R88). -/
def startNoCandidate (s : State) : State :=
  if s.vrg.noCandidate then s
  else condition .noCandidate true
    (reportClass .regLimit true none 1 0 (s.onVrg (fun v => { v with noCandidate := true })))

/-! ### The overvoltage guard (R112, R113) -/

/-- A GUARD OPEN of the newest step by the overvoltage guard, where the service list holds one (R113). -/
def guardNewest (s : State) : State :=
  match s.st.service.getLast? with
  | none => s
  | some i => request i .opening .overvoltageGuard s

/-- OVERVOLTAGE becomes active (R112, R113). -/
def startOvervoltage (s : State) : State :=
  condition .overvoltage true
    (guardNewest (s.onVrg (fun v => { v with overvoltage := true, repeatAcc := 0 })))

/-- OVERVOLTAGE ends (R112, R113). -/
def endOvervoltage (s : State) : State :=
  if s.vrg.overvoltage then
    condition .overvoltage false (s.onVrg (fun v => { v with overvoltage := false, repeatAcc := 0 }))
  else s

/-- The highest phase voltage of a record exceeds VX. -/
def State.aboveVx (s : State) (m : MeasRecord) : Bool := decide (s.y .vx < m.highest)

/-- The repeat accumulator reaches Tx on a posting on which OVERVOLTAGE stands (R113). -/
def State.repeatReached (s : State) (m : MeasRecord) (e : Nat) : Bool :=
  s.vrg.overvoltage && s.aboveVx m && decide (s.y .tx ≤ s.vrg.repeatAcc + e)

/-- The overvoltage guard on a posting (R112, R113). -/
def overvoltageGuard (m : MeasRecord) (e : Nat) (s : State) : State :=
  if s.aboveVx m then
    let acc := min (s.vrg.ovAcc + e) (s.y .tx)
    let s1 := s.onVrg (fun v => { v with ovAcc := acc })
    if s.vrg.overvoltage then
      if s.repeatReached m e then guardNewest (s1.onVrg (fun v => { v with repeatAcc := 0 }))
      else s1.onVrg (fun v => { v with repeatAcc := v.repeatAcc + e })
    else if acc = s.y .tx then startOvervoltage s1
    else s1
  else endOvervoltage (s.onVrg (fun v => { v with ovAcc := 0 }))

/-! ### The loss-of-voltage guard (R114, R115) -/

/-- The steps the loss-of-voltage guard opens (R115). -/
def State.lovSteps (s : State) : List StepIx :=
  allSteps.filter (fun i => (s.step i).state == .energized || (s.step i).state == .closing)

/-- LOSS_OF_VOLTAGE becomes active (R114, R115): the hold, then the opens together, then the report to EVR
(log entry 8). R115 gives no order among the opens of several steps; ascending index is the model's choice (log
entry 8). -/
def startLossOfVoltage (s : State) : State :=
  let s1 := setHold .lossOfVoltage true (s.onVrg (fun v => { v with lossOfVoltage := true }))
  let s2 := s.lovSteps.foldl (fun t i => takeProtection i .lossOfVoltageGuard t) s1
  condition .lossOfVoltage true (dispatcher s2)

/-- LOSS_OF_VOLTAGE ends (R114). -/
def endLossOfVoltage (s : State) : State :=
  if s.vrg.lossOfVoltage then
    condition .lossOfVoltage false
      (setHold .lossOfVoltage false (s.onVrg (fun v => { v with lossOfVoltage := false })))
  else s

/-- The loss-of-voltage guard on a posting (R114). -/
def lossOfVoltageGuard (m : MeasRecord) (e : Nat) (s : State) : State :=
  let acc := if m.mean < s.y .vu then min (s.vrg.lovAcc + e) (s.y .tlov) else 0
  let s1 := s.onVrg (fun v => { v with lovAcc := acc })
  if s.vrg.lossOfVoltage then
    if s.y .vl < m.mean then endLossOfVoltage s1 else s1
  else if m.mean < s.y .vu ∧ acc = s.y .tlov then startLossOfVoltage s1
  else s1

/-- Both guards, where the mode evaluates them (R111). R111 allows either order; the overvoltage guard first is the
model's choice (log entry 8). -/
def guards (m : MeasRecord) (e : Nat) (s : State) : State :=
  if s.vrg.mode = .off then s else lossOfVoltageGuard m e (overvoltageGuard m e s)

/-! ### The band (R100 to R105) -/

/-- The regulator's two accumulators after a posting (R100). -/
def Regulator.band (v : Regulator) (c : Settings) (volts e : Nat) : Regulator :=
  if volts < c.y .vl then { v with below := min (v.below + e) (c.ySec .ti), above := 0 }
  else if c.y .vh < volts then { v with below := 0, above := min (v.above + e) (c.ySec .tr) }
  else { v with below := v.below - e, above := v.above - e }

/-- Insertion is wanted after a band step (R102). -/
def State.insertWanted (s : State) : Bool := decide (s.vrg.below = s.ySec .ti)

/-- Removal is wanted after a band step (R105). -/
def State.removeWanted (s : State) : Bool := decide (s.vrg.above = s.ySec .tr)

/-- Insertion is suppressed (R102). -/
def State.insertSuppressed (s : State) : Bool := s.harmBlock || s.blockInsert || s.budgetExhausted

/-- The four tests of the insertion search (R103). -/
def State.insertable (s : State) (volts : Nat) (i : StepIx) : Bool :=
  !s.queued i && s.dutyOk i && !s.resonanceHit i && decide (volts + s.rise i ≤ s.y .vh)

/-- The step the insertion search finds (R103). -/
def State.insertChoice (s : State) (volts : Nat) : Option StepIx :=
  s.st.ring.find? (fun i => s.insertable volts i)

/-- The step the removal search finds (R105). -/
def State.removeChoice (s : State) (volts : Nat) : Option StepIx :=
  s.st.service.find? (fun i => decide (s.y .vl + s.rise i ≤ volts))

/-- The regulator raises its request (R104, R105). -/
def regulate (i : StepIx) (k : Kind) (s : State) : State :=
  request i k .regulator (endNoCandidate (s.onVrg (fun v =>
    { v with reg := .pending, target := some ⟨i, k⟩, below := 0, above := 0 })))

/-- What follows a search: the request, or NO_CANDIDATE (R104 to R106). -/
def afterSearch (k : Kind) (choice : Option StepIx) (s : State) : State :=
  match choice with
  | some i => regulate i k s
  | none => startNoCandidate s

/-- The decision after a band step (R102 to R106). -/
def decide_ (volts : Nat) (s : State) : State :=
  if s.insertWanted then
    if s.insertSuppressed then s else afterSearch .close (s.insertChoice volts) s
  else if s.removeWanted then
    if s.budgetExhausted then s else afterSearch .opening (s.removeChoice volts) s
  else endNoCandidate s

/-- The band step advances the accumulators in WATCH (R100). -/
def bandAdvance (m : MeasRecord) (e : Nat) (s : State) : State :=
  s.onVrg (fun v => v.band s.su.active m.mean e)

/-- The band step on a posting, taken in WATCH (R100). -/
def bandStep (m : MeasRecord) (e : Nat) (s : State) : State :=
  if s.vrg.reg = .watch then decide_ m.mean (bandAdvance m e s) else s

/-! ### A posting (R97 to R100, R111) -/

/-- The first posting of a new source ends SWITCHOVER, and the first posting after a full reset starts the
start-up hold (R98, R99). -/
def vrgArrival (s : State) : State :=
  let s1 := if s.vrg.holds.switchover then setHold .switchover false s else s
  if s1.vrg.startHold = .notStarted then
    s1.onVrg (fun v => { v with startHold := .running (s.now + s.ySec .startUpHold) })
  else s1

/-- VRG on a posting, before the band step. -/
def vrgGuards (m : MeasRecord) (e : Nat) (s : State) : State := guards m e (vrgArrival s)

/-- VRG acts on a posting. -/
def vrgPosting (m : MeasRecord) (e : Nat) (s : State) : State := bandStep m e (vrgGuards m e s)

/-! ### The start-up hold (R98, R140) -/

/-- The start-up hold has run out. -/
def State.startHoldOver (s : State) : Bool :=
  match s.vrg.startHold with
  | .running due => decide (due ≤ s.now)
  | _ => false

/-- A step in AWAIT_HOLD becomes ARMED (R140). -/
def armAwaiting (i : StepIx) (s : State) : State :=
  if (s.ub i).eval = .awaitHold then arm i s else s

/-- The end of the start-up hold (R98): UBP arms the steps that await it, and START_UP ends. -/
def startHoldEnds (s : State) : State :=
  setHold .startUp false
    (allSteps.foldl (fun t i => armAwaiting i t) (s.onVrg (fun v => { v with startHold := .over })))

/-! ### Station silence (R116) -/

/-- The station-silence timer loaded with the fallback interval, or stopped where that is 0. -/
def loadSilence (s : State) : State :=
  s.onVrg (fun v =>
    { v with silence :=
        if s.y .fallbackInterval = 0 then none else some (s.now + s.ySec .fallbackInterval) })

/-- What a good host frame and a changed fallback interval do to the station-silence timer (R116). -/
def refreshSilence (s : State) : State := if s.vrg.mode = .manual then loadSilence s else s

/-! ### The mode (R91 to R93) -/

/-- The guards stop at the entry into OFF (R93). -/
def stopGuards (s : State) : State :=
  (endLossOfVoltage (endOvervoltage s)).onVrg (fun v => { v with ovAcc := 0, repeatAcc := 0, lovAcc := 0 })

/-- The station-silence timer at the entry into a mode (R93, R116). -/
def State.silenceIn (s : State) (m : Mode) : Option Nat :=
  if m = .manual ∧ s.y .fallbackInterval ≠ 0 then some (s.now + s.ySec .fallbackInterval) else none

/-- A change of mode (R93): the mode with the station-silence timer, the regulator in or out of HOLD, the
withdrawal of its requests on leaving AUTO, and the guards stopped in OFF, in the model's order (log entry 8). A mode
that is already in force changes nothing (R92). -/
def changeMode (m : Mode) (s : State) : State :=
  if s.vrg.mode = m then s
  else
    let s1 := s.onVrg (fun v => ({ v with mode := m, silence := s.silenceIn m }).settled)
    let s2 := if s.vrg.mode = .auto then dropRegulation s1 else s1
    if m = .off then stopGuards s2 else s2

/-- MODE_SET (R92). -/
def takeModeSet (mode : Byte) (s : State) : Taken :=
  match Mode.ofCode mode.toNat with
  | none => refuse .outOfRange s
  | some m => (changeMode m s, .just .ok)

/-- The station-silence timer has run out. -/
def State.silenceOver (s : State) : Bool := expired s s.vrg.silence

/-- The station-silence fallback (R117). -/
def fallback (s : State) : State :=
  pulse .stationSilent
    (raiseNotice .mode none 0 Mode.auto.code (clearStaged (changeMode .auto s)))

/-! ### The commands -/

/-- START_UP_HOLD_EXPIRY (R98). -/
def execStartUpHoldExpiry (s : State) : Host.Outcome State Fault Refusal :=
  live s (onlyIf s.startHoldOver startHoldEnds)

/-- STATION_SILENCE_EXPIRY (R117). -/
def execStationSilenceExpiry (s : State) : Host.Outcome State Fault Refusal :=
  live s (onlyIf s.silenceOver fallback)

/-- MODE_SET (R92, R93). -/
def execModeSet (mode : Byte) (s : State) : Host.Outcome State Fault Refusal := serve s (takeModeSet mode)

end Sys2Proof.Machine
end

