-- ==== Sys2Proof/Machine/Unbalance.lean ====
section
/-! DEFINITION. Unbalance Protection (chapter 7): the compensated magnitude, the stages, the alarm and the
trips on a posting, the baseline capture, a loss or switch of the source, and what an apply does. The
commands ARMING_EXPIRY, BASELINE_CAPTURE and CAPTURE_CANCEL. -/

namespace Sys2Proof.Machine

/-! ### The compensated magnitude (R139) -/

/-- The square root rounded down, bit by bit: `b` further bits below the root `r` found so far. -/
def rootBits : Nat → Nat → Nat → Nat
  | 0, _, r => r
  | b + 1, n, r => rootBits b n (if (r + 2 ^ b) * (r + 2 ^ b) ≤ n then r + 2 ^ b else r)

/-- The square root rounded down, of a number below 2 to the 34. -/
def root (n : Nat) : Nat := rootBits 17 n 0

/-- The compensated magnitude U (R139): an absent baseline counts as 0, 0. -/
def compensated (b : Option Baseline) (x : StepMeas) : Nat :=
  let bi := (b.map (·.inPhase)).getD 0
  let bq := (b.map (·.quad)).getD 0
  let di := x.inPhase - bi
  let dq := x.quad - bq
  root (di * di + dq * dq).toNat

/-! ### The stages (R143) -/

/-- A stage whose timer has been advanced: ASSERTED where it stands at the delay. -/
def Stage.advance (g : Stage) (delay e : Nat) : Stage :=
  let t := min (g.timer + e) delay
  ⟨if t = delay then .asserted else .pickedUp, t⟩

/-- A stage on a posting (R143). -/
def Stage.update (g : Stage) (level delay u e : Nat) : Stage :=
  if level ≤ u then
    if g.state = .asserted then g else g.advance delay e
  else if level * 95 ≤ u * 100 then g
  else ⟨.inactive, 0⟩

/-- The delays D1, D2 and D3 in ms. -/
def Settings.d1ms (c : Settings) : Nat := c.ySec .d1
def Settings.d2ms (c : Settings) : Nat := c.y .d2
def Settings.d3ms (c : Settings) : Nat := c.y .d3

/-- The unbalance record of an evaluated step after its three stages have been updated (R142, R143). -/
def UbpStep.evaluate (r : UbpStep) (c : Settings) (i : StepIx) (u e : Nat) : UbpStep :=
  { r with
    lastMag := some u
    s1 := r.s1.update (c.l1 i) c.d1ms u e
    s2 := r.s2.update (c.l2 i) c.d2ms u e
    s3 := r.s3.update (c.l3 i) c.d3ms u e }

/-- The unbalance record of a step after a posting (R142). A step without a block in the record has no
measurement and is left as it is. -/
def State.evaluatedRecord (s : State) (m : MeasRecord) (e : Nat) (i : StepIx) : UbpStep :=
  match m.blocks.get i with
  | none => s.ub i
  | some x =>
    if s.evaluated i then
      (s.ub i).evaluate s.su.active i (compensated (s.ub i).baseline x) e
    else s.ub i

/-- Every step evaluated on a posting. -/
def evaluateSteps (m : MeasRecord) (e : Nat) (s : State) : State :=
  s.onUbp (fun u => { u with steps := Tab.build (fun i => s.evaluatedRecord m e i) })

/-! ### Trips (R145 to R147) -/

/-- A stamp appended to a trip history, the oldest leaving a full one (R146). -/
def appendStamp (h : List Nat) (t : Nat) : List Nat :=
  (if Config.historySize ≤ h.length then h.drop 1 else h) ++ [t]

/-- The repeat window in force, in seconds. -/
def State.repeatWindow (s : State) : Nat := s.y .repeatWindow * 3600

/-- The stamps of a history that lie within the repeat window (R145). -/
def State.stampsInWindow (s : State) (h : List Nat) : Nat :=
  (h.filter (fun t => decide (s.uptime - t ≤ s.repeatWindow))).length

/-- The cause of a trip, from the history with its own stamp (R145). -/
def State.tripCause (s : State) (h : List Nat) : Cause :=
  if s.y .repeatCount ≤ s.stampsInWindow h then .repeatedTrip else .unbalanceTrip

/-- Steps 1 to 3 of a trip (R145): the stamp, the cause, and the last trip. -/
def recordTrip (i : StepIx) (g : TripStage) (s : State) : State :=
  let h := appendStamp (s.ub i).history s.uptime
  s.onUb i (fun u =>
    { u with history := h, lastTrip := some ⟨s.uptime, g, u.lastMag.getD 0, s.tripCause h⟩ })

/-- The cause in a step's last trip. -/
def State.lastTripCause (s : State) (i : StepIx) : Cause :=
  match (s.ub i).lastTrip with
  | none => .unbalanceTrip
  | some r => r.cause

/-- Step 4 of a trip (R145): the claim of the lockout, with the cause recorded. -/
def claimTrip (i : StepIx) (s : State) : State := lockoutClaim i (s.lastTripCause i) s

/-- Step 6 of a trip (R145): the TRIP notice and the pulse of UNB_TRIP. -/
def announceTrip (i : StepIx) (s : State) : State :=
  pulse .unbTrip (raiseNotice .trip (some i) (s.lastTripCause i).code 0 s)

/-- Steps 1 to 5 of the trips of one posting (R145). The trips are independent of one another, so each of these
steps is taken for all of them before the next one: every claim finds its step as the posting found it, and every
open finds its step LOCKED_OUT. The dispatcher acts after the last open (log entry 8). -/
def takeTrips (ps : List (StepIx × TripStage)) (s : State) : State :=
  let recorded := ps.foldl (fun t p => recordTrip p.1 p.2 t) s
  let claimed := ps.foldl (fun t p => claimTrip p.1 t) recorded
  if ps = [] then s else dispatcher (ps.foldl (fun t p => takeProtection p.1 .ubp t) claimed)

/-- Step 6 of the trips of one posting (R145). -/
def announceTrips (ps : List (StepIx × TripStage)) (s : State) : State :=
  ps.foldl (fun t p => announceTrip p.1 t) s

/-- A stage asserted between two records. -/
def newlyAsserted (a b : Stage) : Bool := a.state != .asserted && b.state == .asserted

/-- The trip a step's stages make between two records (R145). -/
def tripStage (a b : UbpStep) : Option TripStage :=
  match newlyAsserted a.s2 b.s2, newlyAsserted a.s3 b.s3 with
  | true, true => some .both
  | true, false => some .s2
  | false, true => some .s3
  | false, false => none

/-- The trips that the stages make between two states, in ascending index (log entry 8). -/
def tripsBetween (s t : State) : List (StepIx × TripStage) :=
  allSteps.filterMap (fun i => (tripStage (s.ub i) (t.ub i)).map (fun g => (i, g)))

/-- The lowest step whose S1 is asserted (R144). -/
def State.lowestAlarm (s : State) : Option StepIx := allSteps.find? (fun i => (s.ub i).s1.state == .asserted)

/-! ### The capture (R151 to R153) -/

/-- The sixteenth record completes the capture (R153). -/
def completeCapture (c : Capture) (s : State) : State :=
  let b : Baseline := ⟨Int.tdiv c.sumI Config.captureRecords, Int.tdiv c.sumQ Config.captureRecords, true⟩
  raiseNotice .longOp (some c.step) 0 0
    ((s.onUb c.step (fun u => { u with baseline := some b })).onUbp (fun u =>
      { u with capture := none, lastCapture := some ⟨c.step, .complete, s.uptime⟩ }))

/-- A record is taken into a capture (R152). -/
def Capture.add (c : Capture) (x : StepMeas) : Capture :=
  { c with count := c.count + 1, sumI := c.sumI + x.inPhase, sumQ := c.sumQ + x.quad }

/-- The capture advances on a posting (R152, R153). -/
def advanceCapture (m : MeasRecord) (s : State) : State :=
  match s.ubp.capture with
  | none => s
  | some c =>
    match m.blocks.get c.step with
    | none => s
    | some x =>
      if c.count + 1 = Config.captureRecords then completeCapture (c.add x) s
      else s.onUbp (fun u => { u with capture := some (c.add x) })

/-- The trips and the alarm of a posting, between the evaluated stages and the capture (R144, R145). What EVR makes
of UNB_ALARM and of UNB_TRIP comes after every step that trips has been claimed and opened (log entry 8). -/
def protect (ps : List (StepIx × TripStage)) (t : State) : State :=
  announceTrips ps (unbCondition t.lowestAlarm (takeTrips ps t))

/-- UBP acts on a posting (R142 to R145, R152). -/
def ubpPosting (m : MeasRecord) (e : Nat) (s : State) : State :=
  let t := evaluateSteps m e s
  advanceCapture m (protect (tripsBetween s t) t)

/-! ### The source (R148, R154) -/

/-- Source lost (R148): every stage INACTIVE, UNB_ALARM as it then stands, the capture aborted. -/
def ubpSourceLost (s : State) : State :=
  abortCapture (unbCondition none (s.onUbp (fun u =>
    { u with steps := Tab.build (fun i => (u.steps.get i).resetStages) })))

/-! ### Settings (R149) -/

/-- A stage reset where its level or its delay changed. -/
def Stage.resetIf (g : Stage) (b : Bool) : Stage := if b then ⟨.inactive, 0⟩ else g

/-- The stages whose level or delay changed are set INACTIVE (R149). -/
def resetStages (c1 c2 c3 : StepIx → Bool) (s : State) : State :=
  unbCondition none (s.onUbp (fun u =>
    { u with steps := Tab.build (fun i =>
        let r := u.steps.get i
        { r with s1 := r.s1.resetIf (c1 i), s2 := r.s2.resetIf (c2 i), s3 := r.s3.resetIf (c3 i) }) }))

/-! ### Requests (R151, R155) -/

/-- Checks 3 to 7 of BASELINE_CAPTURE (R151). -/
def State.captureAllowed (s : State) (i : StepIx) : Bool :=
  s.mi.active.isSome && (s.step i).state == .energized && (s.sw i).op.isNone
    && (s.ub i).eval == .armed && (s.step i).position == .closed && !s.anyStageActive i

/-- BASELINE_CAPTURE (R151). -/
def takeBaselineCapture (step : Byte) (s : State) : Taken :=
  match stepOfCode step.toNat with
  | none => refuse .outOfRange s
  | some i =>
    if s.ubp.capture.isSome then refuse .busy s
    else if s.captureAllowed i then
      (s.onUbp (fun u => { u with capture := some ⟨i, 0, 0, 0⟩ }), .just .accepted)
    else refuse .wrongState s

/-- CAPTURE_CANCEL (R155). -/
def takeCaptureCancel (s : State) : Taken :=
  match s.ubp.capture with
  | none => refuse .wrongState s
  | some _ => (abortCapture s, .just .ok)

/-- The arming timer of the step has run out in AWAIT_SETTLE (R140). -/
def State.armingOver (s : State) (i : StepIx) : Bool :=
  (s.ub i).eval == .awaitSettle && expired s (s.ub i).arming

/-! ### The commands -/

/-- ARMING_EXPIRY (R140). -/
def execArmingExpiry (i : StepIx) (s : State) : Host.Outcome State Fault Refusal :=
  live s (onlyIf (s.armingOver i) (arm i))

/-- BASELINE_CAPTURE (R151). -/
def execBaselineCapture (step : Byte) (s : State) : Host.Outcome State Fault Refusal :=
  serve s (takeBaselineCapture step)

/-- CAPTURE_CANCEL (R155). -/
def execCaptureCancel (s : State) : Host.Outcome State Fault Refusal := serve s takeCaptureCancel

end Sys2Proof.Machine
end

