-- ==== Sys2Proof/Machine/Intake.lean ====
section
/-! DEFINITION. Measurement Intake (chapter 1): frame classification, the link state machine, the source
selector, the disagreement comparison, the posting, the silence expiries and the acquisition window. The
commands that a measurement link brings, among them the occurrences of chapters 5 to 7 that come about on a
posting, each with the frame at which it does. -/

namespace Sys2Proof.Machine

/-! ### Announcements of the selector (R10, R11, R13) -/

/-- The MEASUREMENT class and a MI condition follow their state (R13, R17). `code` names the condition. The class before
EVR is the model's choice (log entry 8). -/
def measCondition (src : Source) (code : Nat) (b : Bool) (s : State) : State :=
  condition src b (reportClass .measurement s.measurementCondition none code 0 s)

/-- Source gained (R10): the link is active, the window stopped, MEAS_LOST ended, NO_SOURCE ended. That the report of
the end of MEAS_LOST comes before the end of the hold is the model's choice (log entry 8). -/
def sourceGained (l : Link) (s : State) : State :=
  let s1 := s.onMi (fun m =>
    { m with active := some l, window := none, freshStart := true, waiting := [], lost := false })
  setHold .noSource false (measCondition .measLost 0 false s1)

/-- Source switched (R11, R12): the role moves, VRG holds on SWITCHOVER, a capture is aborted, SOURCE_SWITCH
is raised and pulses. R11 gives no order among them: that the hold withdraws the REGULATION entries before the pulse
reaches EVR, so that a removal of its route makes a new entry, is the model's choice (log entry 8). -/
def sourceSwitched (l : Link) (s : State) : State :=
  let s1 := abortCapture (setHold .switchover true (s.onMi (fun m => { m with active := some l })))
  pulse .sourceSwitch (raiseNotice .sourceSwitch none (linkCode l) 0 s1)

/-- Source lost (R11): no active source, MEAS_LOST, NO_SOURCE in the place of SWITCHOVER, UBP's reset. R11 gives no
order among them: that the hold withdraws the REGULATION entries, and UBP is reset, before MEAS_LOST is reported to EVR,
is the model's choice (log entry 8). -/
def sourceLost (s : State) : State :=
  let s1 := s.onMi (fun m => { m with active := none, freshStart := true, lost := true })
  measCondition .measLost 0 true (ubpSourceLost (setHold .switchover false (setHold .noSource true s1)))

/-- MEAS_DISAGREE starts (R17). R17 gives no order between VRG's hold and the report to EVR: that the hold withdraws the
REGULATION entries first, so that a removal that the report triggers makes a new entry, is the model's choice (log
entry 8). -/
def startDisagree (s : State) : State :=
  measCondition .measDisagree 1 true
    (setHold .disagree true (s.onMi (fun m => { m with disagree := true })))

/-- MEAS_DISAGREE ends, where it is active (R17). The end of the hold before the report is the model's choice (log
entry 8). -/
def endDisagree (s : State) : State :=
  if s.mi.disagree then
    measCondition .measDisagree 1 false
      (setHold .disagree false (s.onMi (fun m => { m with disagree := false })))
  else s

/-! ### The source selector (R10, R11, R17) -/

/-- Fewer than two links are LOCKED: both counts at 0 and MEAS_DISAGREE ended (R17). -/
def dropComparison (s : State) : State :=
  endDisagree (s.onMi (fun m => { m with disagreeCount := 0, agreeCount := 0 }))

/-- A link that waits for the selector waits no longer (R10). -/
def stopWaiting (l : Link) (s : State) : State :=
  s.onMi (fun m => { m with waiting := m.waiting.filter (fun r => r.link != l) })

/-- A link has left LOCKED (R11, R17). R11 has the selector act at once, and R10 has it take the link state changes of
one millisecond whole: where the other link changes in the same millisecond, that each change is acted on by itself, in
the order in which the commands come, is the model's choice (log entry 18). -/
def leftLocked (l : Link) (s : State) : State :=
  dropComparison
    (if s.mi.active = some l then
      if s.locked l.other then sourceSwitched l.other s else sourceLost s
    else stopWaiting l s)

/-- A link has entered LOCKED (R10). With no active source the preferred link becomes it at once. The other waits for
the end of the millisecond: the selector takes the changes of one millisecond whole, and the preferred link may
still enter LOCKED in it (log entry 6). Where the active link leaves LOCKED in the millisecond in which the other enters,
the order of the commands decides (log entry 18). -/
def enteredLocked (l : Link) (s : State) : State :=
  if s.mi.active = none ∧ s.su.active.preferred = l then sourceGained l s else s

/-! ### The checks of a frame (R2) -/

/-- The class of a frame (R2). -/
inductive FrameClass where
  | good
  | corrupt
  | format
  | unitFault
  deriving DecidableEq, Repr

/-- The four checks (R2). The receiver hands over as complete only what is a complete frame (R1). -/
def classify (c : Settings) (l : Link) : FrameEnd → FrameClass
  | .failed => .corrupt
  | .complete bs =>
    if !measComplete bs || !measCheckOk bs then .corrupt
    else if measUnit bs ≠ unitOf l then .format
    else if measCount bs ≠ c.installedCount then .format
    else if selfCheckFailed (measStatus bs) then .unitFault
    else .good

/-- The link counters after a frame of a class (R2, R9). -/
def LinkCounters.count (k : LinkCounters) : FrameClass → LinkCounters
  | .good => { k with accepted := satInc Config.count16 k.accepted }
  | .corrupt => { k with corrupt := satInc Config.count16 k.corrupt }
  | .format => { k with format := satInc Config.count16 k.format }
  | .unitFault => { k with unitFault := satInc Config.count16 k.unitFault }

/-! ### The link state machine (R4 to R8) -/

/-- The missing count of a good frame (R4): 0 where the last sequence is absent. -/
def LinkRec.missing (r : LinkRec) (seq : Word16) : Nat :=
  match r.lastSeq with
  | none => 0
  | some q => (seq - q - 1#16).toNat

/-- The link after a bad frame of a class (R6, R7). -/
def LinkRec.bad_ (r : LinkRec) (k : FrameClass) : LinkRec :=
  let r1 := { r with counters := r.counters.count k, bad := min (r.bad + 1) Config.badLimit }
  match r.state with
  | .silent => r1
  | .seeking => { r1 with run := 0 }
  | .locked => if r.bad + 1 < Config.badLimit then r1 else { r1 with state := .seeking, run := 0 }

/-- The link state and run count after a good frame with a missing count (R6, R7). -/
def LinkRec.advance (r : LinkRec) (missing : Nat) : LinkState × Nat :=
  match r.state with
  | .silent => (.seeking, 1)
  | .seeking =>
    if missing = 0 then
      if r.run + 1 < Config.runToLock then (.seeking, r.run + 1) else (.locked, Config.runToLock)
    else (.seeking, 1)
  | .locked => if missing ≤ Config.missingKept then (.locked, r.run) else (.seeking, 1)

/-- The link after a good frame, before its latest record is replaced (R4 to R7, R9). -/
def LinkRec.good (r : LinkRec) (seq : Word16) (now : Nat) : LinkRec :=
  let missing := r.missing seq
  let k := r.counters.count .good
  { r with
    state := (r.advance missing).1
    run := (r.advance missing).2
    bad := 0
    lastSeq := some seq
    lastGood := some now
    counters := if missing = 0 then k else { k with gaps := satInc Config.count16 k.gaps } }

/-! ### The disagreement comparison (R16, R17) -/

/-- The two means differ by more than the disagree limit. -/
def meansDisagree (limit a b : Nat) : Bool := decide (limit < (a - b) + (b - a))

/-- The counts after a comparison (R16). -/
def Intake.compare (m : Intake) (disagreement : Bool) : Intake :=
  if disagreement then
    { m with disagreeCount := min (m.disagreeCount + 1) Config.disagreeRun, agreeCount := 0 }
  else
    { m with agreeCount := min (m.agreeCount + 1) Config.disagreeRun, disagreeCount := 0 }

/-- MEAS_DISAGREE after a comparison (R17). -/
def followCounts (s : State) : State :=
  if s.mi.disagreeCount = Config.disagreeRun ∧ s.mi.disagree = false then startDisagree s
  else if s.mi.agreeCount = Config.disagreeRun ∧ s.mi.disagree = true then endDisagree s
  else s

/-- The comparison of a posting (R16): made when both links are LOCKED and the standby record is at most
100 ms old. -/
def compareUnits (m : MeasRecord) (s : State) : State :=
  if s.locked .a ∧ s.locked .b then
    match (s.link m.link.other).latest with
    | none => s
    | some x =>
      if age s x.time ≤ Config.recordAge then
        followCounts (s.onMi (fun i => i.compare (meansDisagree (s.y .disagreeLimit) m.mean x.mean)))
      else s
  else s

/-! ### The posting (R14, R15) -/

/-- The elapsed time of a posting (R14). -/
def State.elapsed (s : State) : Nat :=
  if s.mi.freshStart then 0
  else match s.mi.posted with
  | none => 0
  | some p => min (age s p.time) Config.elapsedCap

/-- The record is the latest posted one. -/
def setPosted (m : MeasRecord) (s : State) : State :=
  s.onMi (fun i => { i with posted := some m, freshStart := false })

/-- The three consumers of a posting, in the model's order VRG, HSV, UBP (log entry 8). -/
def consumers (m : MeasRecord) (e : Nat) (s : State) : State :=
  ubpPosting m e (hsvPosting m (vrgPosting m e s))

/-- A good frame up to its posting (R14): sequence and link state, the selector, the comparison, and the
latest link record. -/
def intake (m : MeasRecord) (s : State) : State :=
  let old := (s.link m.link).state
  let s1 := s.onLink m.link (fun r => r.good m.sequence s.now)
  let new := (s1.link m.link).state
  let s2 :=
    if old ≠ .locked ∧ new = .locked then enteredLocked m.link s1
    else if old = .locked ∧ new ≠ .locked then leftLocked m.link s1
    else s1
  let s3 := if s2.mi.active = some m.link then compareUnits m s2 else s2
  s3.onLink m.link (fun r => { r with latest := some m })

/-- A record is posted (R14, R15). -/
def postRecord (s : State) (m : MeasRecord) : State := consumers m s.elapsed (setPosted m s)

/-- A good frame (R14): it is posted when its link is active after it. An active link is LOCKED. Where there is no
active source, a frame of a LOCKED link waits with its link for the end of the millisecond (R10). -/
def goodFrame (m : MeasRecord) (s : State) : State :=
  let t := intake m s
  if t.mi.active = some m.link then postRecord t m
  else if t.mi.active = none ∧ t.locked m.link then t.onMi (fun i => { i with waiting := i.waiting ++ [m] })
  else t

/-- A bad frame (R6, R7). -/
def badFrame (l : Link) (k : FrameClass) (s : State) : State :=
  let s1 := s.onLink l (fun r => r.bad_ k)
  if s.locked l ∧ s1.locked l = false then leftLocked l s1 else s1

/-- A frame ends on a link (R2). -/
def frameEnds (l : Link) (e : FrameEnd) (s : State) : State :=
  match classify s.su.active l e, e with
  | .good, .complete bs => goodFrame (measRecord s.su.active l bs s.now) s
  | k, _ => badFrame l k s

/-! ### The receiver (R1) -/

/-- The bytes that the receiver of a link holds. -/
def LinkRec.held (r : LinkRec) : List Byte := bytesHeld r.rx

/-- The frames that end among bytes arriving on a link, in order (R1). -/
def State.framesAmong (s : State) (l : Link) (bs : List Byte) : List FrameEnd :=
  (receiveBytes (s.link l).held bs).1

/-- The state in which the receiver of a link holds what is left of the bytes that have arrived. -/
def received (l : Link) (bs : List Byte) (s : State) : State :=
  if bs = [] then s
  else s.onLink l (fun r => { r with rx := inProgress (receiveBytes r.held bs).2 (s.now + Config.byteGap + 1) })

/-- Bytes arrive on a link within the gap that a frame in progress allows (R1): each frame that ends among them is
handled. -/
def bytesArrive (l : Link) (bs : List Byte) (s : State) : State :=
  (s.framesAmong l bs).foldl (fun t e => frameEnds l e t) (received l bs s)

/-- A frame in progress on a link ends as a framing failure (R1): the receiver hunts again. -/
def frameFails (l : Link) (s : State) : State :=
  frameEnds l .failed (s.onLink l (fun r => { r with rx := none }))

/-- The gap after the last byte of a frame in progress has lasted more than 5 ms (R1); a frame has begun with its
marker. -/
def State.gapOver (s : State) (l : Link) : Bool := gapLasted 2 s.now (s.link l).rx

/-- A gap that is over fails its frame before what arrives after it is taken (R1). -/
def gapTaken (l : Link) (s : State) : State := if s.gapOver l then frameFails l s else s

/-- The next byte of the frame in progress is its step count byte (R1, R208). -/
def State.countNext (s : State) (l : Link) : Bool := decide ((s.link l).held.length = 6)

/-- The step count byte of the frame in progress arrives and is out of range (R1). -/
def stepCountFails (l : Link) (s : State) : State :=
  let t := gapTaken l s
  if t.countNext l then frameFails l t else t

/-- What a command that names a frame brings: the bytes of one, or the failure of the frame in progress by its gap or
by its step count byte; with neither, no frame fails. -/
def frameArrives (l : Link) (e : FrameEnd) (s : State) : State :=
  match e with
  | .complete bs => bytesArrive l bs (gapTaken l s)
  | .failed => if s.gapOver l || s.countNext l then frameFails l s else s

/-! ### The end of a millisecond (R10) -/

/-- The selector takes a waiting link at the end of its millisecond (R10): it becomes the active source, and its
frames from the one that locked it on are posted in order. -/
def selectWaiting (s : State) : State :=
  match s.mi.waiting with
  | [] => s
  | m :: _ =>
    if s.mi.active = none ∧ s.locked m.link then s.mi.waiting.foldl postRecord (sourceGained m.link s)
    else s.onMi (fun i => { i with waiting := [] })

/-- The preferred link was in the pending set of an apply (R12). Where it waits for the selector, it waits for no other
link any longer (R10). -/
def preferApplied (s : State) : State :=
  let l := s.su.active.preferred
  match s.mi.active with
  | some k => if s.locked l ∧ k ≠ l then sourceSwitched l s else s
  | none => if s.mi.waiting.any (fun m => m.link == l) then selectWaiting s else s

/-! ### Expiries (R7, R8, R10) -/

/-- The silence time of a LOCKED link has reached 100 ms (R7). -/
def State.silence100 (s : State) (l : Link) : Bool :=
  s.locked l && decide (Config.silenceLocked ≤ (s.silenceTime l).getD 0)

/-- A LOCKED link moves to SEEKING at 100 ms of silence (R7). -/
def silenceLocked (l : Link) (s : State) : State :=
  leftLocked l (s.onLink l (fun r => { r with state := .seeking, run := 0 }))

/-- The silence time of a SEEKING link has reached 500 ms (R8). -/
def State.silence500 (s : State) (l : Link) : Bool :=
  (s.link l).state == .seeking && decide (Config.silenceSeeking ≤ (s.silenceTime l).getD 0)

/-- A SEEKING link enters SILENT (R8). -/
def silenceSeeking (l : Link) (s : State) : State :=
  s.onLink l (fun r => { r with state := .silent, lastSeq := none, run := 0, lastGood := none })

/-- The acquisition window has run out (R10). A link that waits for the selector has entered LOCKED before. -/
def State.windowOver (s : State) : Bool := s.mi.waiting.isEmpty && expired s s.mi.window

/-- The window ends (R10): MEAS_LOST where there is no active source. -/
def windowEnds (s : State) : State :=
  let s1 := s.onMi (fun m => { m with window := none })
  if s.mi.active = none then measCondition .measLost 0 true (s1.onMi (fun m => { m with lost := true }))
  else s1

/-! ### Occurrences on a frame -/

/-- The state in which a command that names a frame finds its link: bytes come after a gap that is over, and a failure
is the failure of what is in progress. -/
def frameFinds (l : Link) (e : FrameEnd) (s : State) : State :=
  match e with
  | .complete _ => gapTaken l s
  | .failed => s

/-- The frame is handled where the occurrence named takes place in its handling, between the state before
it and the state after it; elsewhere nothing takes place but the end of a gap before it (log entry 5). -/
def onFrame (l : Link) (e : FrameEnd) (occurs : State → State → Bool) (s : State) : State :=
  let t := frameFinds l e s
  onlyIf (occurs t (frameArrives l e t)) (frameArrives l e) t

/-- The record that the one frame among bytes arriving within the gap posts, with its elapsed time and the state in
which it is posted, if it is posted. -/
def State.posting (s : State) (l : Link) (bs : List Byte) : Option (MeasRecord × Nat × State) :=
  match if s.gapOver l then [] else s.framesAmong l bs with
  | [.complete frame] =>
    if classify s.su.active l (.complete frame) = .good then
      let m := measRecord s.su.active l frame s.now
      let t := intake m (received l bs s)
      if t.mi.active = some l then some (m, t.elapsed, setPosted m t) else none
    else none
  | _ => none

/-- The band step of a posting, where it is taken: the state after the accumulators have advanced. -/
def State.bandTaken (s : State) (l : Link) (bs : List Byte) : Option State :=
  match s.posting l bs with
  | none => none
  | some (m, e, t) =>
    let u := vrgGuards m e t
    if u.vrg.reg = .watch then some (bandAdvance m e u) else none

/-- The state in which the overvoltage guard is evaluated on a posting. -/
def State.guardTaken (s : State) (l : Link) (bs : List Byte) : Bool :=
  match s.posting l bs with
  | none => false
  | some (m, e, t) =>
    let u := vrgArrival t
    decide (u.vrg.mode ≠ .off) && u.repeatReached m e

/-- The frame is handled where the occurrence named takes place on its posting; elsewhere nothing takes place but the
end of a gap before it (log entry 5). -/
def onPosting (l : Link) (bs : List Byte) (occurs : State → Bool) (s : State) : State :=
  let t := gapTaken l s
  onlyIf (occurs t) (frameArrives l (.complete bs)) t

/-- The link enters LOCKED. -/
def locks (l : Link) (s t : State) : Bool := !s.locked l && t.locked l

/-- The link leaves LOCKED on its fourth bad frame: a good frame would have left its bad count at 0 (R7). -/
def badLimitHit (l : Link) (s t : State) : Bool :=
  s.locked l && !t.locked l && decide ((t.link l).bad = Config.badLimit)

/-- MEAS_DISAGREE starts. -/
def disagreeStarts (s t : State) : Bool := !s.mi.disagree && t.mi.disagree

/-- MEAS_DISAGREE ends. -/
def disagreeEnds (s t : State) : Bool := s.mi.disagree && !t.mi.disagree

/-- A quantity moves up. -/
def movesUp (q : QtyIx) (s t : State) : Bool := decide ((s.qty q).state.rank < (t.qty q).state.rank)

/-- A quantity moves down. -/
def movesDown (q : QtyIx) (s t : State) : Bool := decide ((t.qty q).state.rank < (s.qty q).state.rank)

/-- S1 of a step asserts. -/
def alarmAsserts (i : StepIx) (s t : State) : Bool := newlyAsserted (s.ub i).s1 (t.ub i).s1

/-- S2 or S3 of a step asserts. -/
def tripAsserts (i : StepIx) (s t : State) : Bool := (tripStage (s.ub i) (t.ub i)).isSome

/-- The capture in progress completes. -/
def captureCompletes (s t : State) : Bool :=
  match s.ubp.capture with
  | none => false
  | some c =>
    decide (c.count + 1 = Config.captureRecords ∧ t.ubp.capture = none
      ∧ t.ubp.lastCapture = some ⟨c.step, .complete, s.uptime⟩)

/-! ### The commands -/

/-- MEAS_FRAME (R2). -/
def execMeasFrame (l : Link) (bs : List Byte) (s : State) : Host.Outcome State Fault Refusal :=
  live s (frameArrives l (.complete bs))

/-- MEAS_FRAMING_FAILURE (R1): the step count byte of the frame in progress is 0 or above 8. -/
def execMeasFramingFailure (l : Link) (s : State) : Host.Outcome State Fault Refusal :=
  live s (stepCountFails l)

/-- MEAS_BYTE_GAP_TIMEOUT (R1). -/
def execMeasByteGapTimeout (l : Link) (s : State) : Host.Outcome State Fault Refusal :=
  live s (gapTaken l)

/-- LINK_LOCKED (R6). -/
def execLinkLocked (l : Link) (bs : List Byte) (s : State) : Host.Outcome State Fault Refusal :=
  live s (onFrame l (.complete bs) (locks l))

/-- LOCKED_BAD_FRAME_LIMIT (R7). -/
def execLockedBadFrameLimit (l : Link) (e : FrameEnd) (s : State) : Host.Outcome State Fault Refusal :=
  live s (onFrame l e (badLimitHit l))

/-- SILENCE_100MS (R7). -/
def execSilence100ms (l : Link) (s : State) : Host.Outcome State Fault Refusal :=
  live s (onlyIf (s.silence100 l) (silenceLocked l))

/-- SILENCE_500MS (R8). -/
def execSilence500ms (l : Link) (s : State) : Host.Outcome State Fault Refusal :=
  live s (onlyIf (s.silence500 l) (silenceSeeking l))

/-- ACQUISITION_WINDOW_EXPIRY (R10). -/
def execAcquisitionWindowExpiry (s : State) : Host.Outcome State Fault Refusal :=
  live s (onlyIf s.windowOver windowEnds)

/-- MEAS_DISAGREE_START (R17). -/
def execMeasDisagreeStart (l : Link) (bs : List Byte) (s : State) : Host.Outcome State Fault Refusal :=
  live s (onFrame l (.complete bs) disagreeStarts)

/-- The end of MEAS_DISAGREE at an occurrence on a link (R17). -/
def disagreeEndAt (l : Link) (what : LinkOccurrence) (s : State) : State :=
  match what with
  | .frame e => onFrame l e disagreeEnds s
  | .silence100 => onlyIf (s.silence100 l && disagreeEnds s (silenceLocked l s)) (silenceLocked l) s

/-- MEAS_DISAGREE_END (R17). -/
def execMeasDisagreeEnd (l : Link) (what : LinkOccurrence) (s : State) :
    Host.Outcome State Fault Refusal :=
  live s (disagreeEndAt l what)

/-- INSERT_DELAY_REACHED (R102). -/
def execInsertDelayReached (l : Link) (bs : List Byte) (s : State) : Host.Outcome State Fault Refusal :=
  live s (onPosting l bs (fun t => (t.bandTaken l bs).any State.insertWanted))

/-- REMOVE_DELAY_REACHED (R105). -/
def execRemoveDelayReached (l : Link) (bs : List Byte) (s : State) : Host.Outcome State Fault Refusal :=
  live s (onPosting l bs (fun t => (t.bandTaken l bs).any State.removeWanted))

/-- OVERVOLTAGE_DELAY (R112, R113). -/
def execOvervoltageDelay (l : Link) (bs : List Byte) (s : State) : Host.Outcome State Fault Refusal :=
  live s (onFrame l (.complete bs) (fun a b => !a.vrg.overvoltage && b.vrg.overvoltage))

/-- OVERVOLTAGE_REPEAT (R113). -/
def execOvervoltageRepeat (l : Link) (bs : List Byte) (s : State) : Host.Outcome State Fault Refusal :=
  live s (onPosting l bs (fun t => t.guardTaken l bs))

/-- LOSS_OF_VOLTAGE_DELAY (R114, R115). -/
def execLossOfVoltageDelay (l : Link) (bs : List Byte) (s : State) : Host.Outcome State Fault Refusal :=
  live s (onFrame l (.complete bs) (fun a b => !a.vrg.lossOfVoltage && b.vrg.lossOfVoltage))

/-- HARM_MOVE_UP (R124, R125). -/
def execHarmMoveUp (q : QtyIx) (l : Link) (bs : List Byte) (s : State) :
    Host.Outcome State Fault Refusal :=
  live s (onFrame l (.complete bs) (movesUp q))

/-- HARM_MOVE_DOWN (R124, R125). -/
def execHarmMoveDown (q : QtyIx) (l : Link) (bs : List Byte) (s : State) :
    Host.Outcome State Fault Refusal :=
  live s (onFrame l (.complete bs) (movesDown q))

/-- UNB_ALARM (R143, R144). -/
def execUnbAlarm (i : StepIx) (l : Link) (bs : List Byte) (s : State) : Host.Outcome State Fault Refusal :=
  live s (onFrame l (.complete bs) (alarmAsserts i))

/-- UNB_TRIP (R143, R145). -/
def execUnbTrip (i : StepIx) (l : Link) (bs : List Byte) (s : State) : Host.Outcome State Fault Refusal :=
  live s (onFrame l (.complete bs) (tripAsserts i))

/-- CAPTURE_COMPLETE (R153). -/
def execCaptureComplete (l : Link) (bs : List Byte) (s : State) : Host.Outcome State Fault Refusal :=
  live s (onFrame l (.complete bs) captureCompletes)

end Sys2Proof.Machine
end

