-- ==== Sys2Proof/Machine/StepRequests.lean ====
section
/-! DEFINITION. The station requests on a step (R33 to R35). The commands STEP_ENABLE, STEP_DISABLE and
STEP_RELEASE. -/

namespace Sys2Proof.Machine

/-- A trip history is emptied (R146). -/
def clearHistory (i : StepIx) (s : State) : State := s.onUb i (fun u => { u with history := [] })

/-- Checks 2 to 7 of STEP_RELEASE (R33). -/
def State.releaseAllowed (s : State) (i : StepIx) (confirm : Bool) : Bool :=
  s.st.rebuilt && (s.step i).state == .lockedOut && !s.inFlight i && (s.step i).position == .opened
    && !s.anyStageActive i && (decide ((s.step i).cause ≠ some .repeatedTrip) || confirm)

/-- STEP_RELEASE (R33). -/
def takeStepRelease (step confirm : Byte) (s : State) : Taken :=
  match stepOfCode step.toNat, flagOfCode confirm.toNat with
  | some i, some c =>
    if s.releaseAllowed i c then
      let s1 := toReadyOrDischarging i s
      (if c then clearHistory i s1 else s1, .just .ok)
    else refuse .wrongState s
  | _, _ => refuse .outOfRange s

/-- A step goes to DISABLED: SWU withdraws its queue entry (R34, R49). -/
def disableStep (i : StepIx) (s : State) : State :=
  withdrawStep i (moveStep i .disabled .own .failToClose s)

/-- The checks of STEP_DISABLE (R34). -/
def State.disableAllowed (s : State) (i : StepIx) : Bool :=
  s.st.rebuilt
    && ((s.step i).state == .ready || (s.step i).state == .discharging || (s.step i).state == .lockedOut)
    && (s.step i).position == .opened && !s.inFlight i

/-- STEP_DISABLE (R34). -/
def takeStepDisable (step : Byte) (s : State) : Taken :=
  match stepOfCode step.toNat with
  | none => refuse .outOfRange s
  | some i => if s.disableAllowed i then (disableStep i s, .just .ok) else refuse .wrongState s

/-- The checks of STEP_ENABLE (R35). -/
def State.enableAllowed (s : State) (i : StepIx) : Bool :=
  s.st.rebuilt && (s.step i).state == .disabled && s.su.active.installed i
    && (s.step i).position == .opened

/-- STEP_ENABLE (R35). -/
def takeStepEnable (step : Byte) (s : State) : Taken :=
  match stepOfCode step.toNat with
  | none => refuse .outOfRange s
  | some i =>
    if s.enableAllowed i then (toReadyOrDischarging i s, .just .ok) else refuse .wrongState s

/-- STEP_ENABLE (R35). -/
def execStepEnable (step : Byte) (s : State) : Host.Outcome State Fault Refusal :=
  serve s (takeStepEnable step)

/-- STEP_DISABLE (R34). -/
def execStepDisable (step : Byte) (s : State) : Host.Outcome State Fault Refusal :=
  serve s (takeStepDisable step)

/-- STEP_RELEASE (R33). -/
def execStepRelease (step confirm : Byte) (s : State) : Host.Outcome State Fault Refusal :=
  serve s (takeStepRelease step confirm)

end Sys2Proof.Machine
end

