-- ==== Sys2Proof/Machine/Routing.lean ====
section
/-! DEFINITION. The Event Router's requests and timers (chapter 8): the route change (R167, R168), the hold
timers (R160) and ROUTE_READ (R170). The commands AUX_HOLD_EXPIRY, ROUTE_SET and ROUTE_READ. -/

namespace Sys2Proof.Machine

/-- A pulse source's hold timer is stopped (R160, R168). -/
def stopHold (src : Source) (s : State) : State :=
  s.onEvr (fun e => { e with hold := Tab.put e.hold src.ix none })

/-- The hold timer of a pulse source has run out (R160). -/
def State.auxOver (s : State) (p : PulseSource) : Bool := expired s (s.evr.hold.get p.source.ix)

/-- An entry of the route table takes a destination. -/
def putRoute (src : Source) (d : Destination) (s : State) : State :=
  s.onEvr (fun e => { e with routes := Tab.put e.routes src.ix d })

/-- The delivery to a new destination (R168, part 3): an active condition gives a removal destination its
trigger. What it gives an AUX output or a contribution follows from the table. -/
def deliverRoute (src : Source) (d : Destination) (s : State) : State :=
  if !src.isPulse && s.sourceActive src && d.removes then trigger src d s else s

/-- A route change (R168): the withdrawal with its hold timer and the end of a contribution, the entry, and
the delivery with the start of a contribution. An entry of NONE stands between the two parts. -/
def changeRoute (src : Source) (d : Destination) (s : State) : State :=
  if s.route src = d then s
  else
    let s1 := syncFreeze (putRoute src .none (if src.isPulse then stopHold src s else s))
    dispatcher (deliverRoute src d (syncFreeze (putRoute src d s1)))

/-- FREEZE and BLOCK_INSERT are refused for a pulse source and for NO_CANDIDATE (R167, checks 2 and 3). -/
def routeAllowed (src : Source) (d : Destination) : Bool :=
  !(decide (d = .freeze) || decide (d = .blockInsert))
    || (!src.isPulse && decide (src ≠ .noCandidate))

/-- The source state of a reply: 0xFF for a pulse source (R207). -/
def State.sourceState (s : State) (src : Source) : Option Nat :=
  if src.isPulse then none else some (flagCode (s.sourceActive src))

/-- ROUTE_SET (R167). -/
def takeRouteSet (source destination : Byte) (s : State) : Taken :=
  match Source.ofCode source.toNat, Destination.ofCode destination.toNat with
  | some src, some d =>
    if routeAllowed src d then
      let s1 := changeRoute src d s
      (s1, .okay (opt8 (s1.sourceState src) ++ u8 (s1.route src).code))
    else refuse .outOfRange s
  | _, _ => refuse .outOfRange s

/-! ### ROUTE_READ (R170) -/

/-- One source in ROUTE_READ: destination, kind (condition 0, pulse 1; log entry 13), and the source state or
the remaining time of the hold timer. -/
def State.routeBytes (s : State) (src : Source) : List Byte :=
  u8 (s.route src).code ++ flag src.isPulse
    ++ if src.isPulse then u32 (remainingMs s (s.evr.hold.get src.ix)) else flag (s.sourceActive src)

/-- The last removal record in ROUTE_READ. -/
def RouteRemoval.bytes (m : RouteRemoval) : List Byte :=
  u32 m.uptime ++ u8 m.source.number ++ u8 m.destination.code
    ++ listOf (fun p => u8 (stepNo p.1) ++ opt8 (p.2.map OpResult.code)) m.steps

/-- The reply of ROUTE_READ (R170). That an asserted AUX output is 1 and a de-asserted one 0 is the model's choice
(log entry 13). -/
def State.routeRead (s : State) : List Byte :=
  allSources.flatMap s.routeBytes
    ++ flag (s.aux 0) ++ flag (s.aux 1) ++ flag (s.aux 2) ++ flag (s.aux 3)
    ++ flag s.freeze ++ flag s.blockInsert
    ++ present 7 RouteRemoval.bytes s.evr.removal

/-- ROUTE_READ (R170). -/
def takeRouteRead (s : State) : Taken := (s, .okay s.routeRead)

/-! ### The commands -/

/-- AUX_HOLD_EXPIRY (R160). -/
def execAuxHoldExpiry (p : PulseSource) (s : State) : Host.Outcome State Fault Refusal :=
  live s (onlyIf (s.auxOver p) (stopHold p.source))

/-- ROUTE_SET (R167, R168). -/
def execRouteSet (source destination : Byte) (s : State) : Host.Outcome State Fault Refusal :=
  serve s (takeRouteSet source destination)

/-- ROUTE_READ (R170). -/
def execRouteRead (s : State) : Host.Outcome State Fault Refusal := serve s takeRouteRead

end Sys2Proof.Machine
end

