-- ==== Sys2Proof/Machine/Notices.lean ====
section
/-! DEFINITION. The requests on the notice table (R183 to R185) with their replies (R207). The commands
NOTICE_FETCH, NOTICE_ACK, NOTICE_CONFIG and NOTICE_LIST. -/

namespace Sys2Proof.Machine

/-- The eight bytes of a detail: presence, uptime, step or 0xFF, first and second code (R207). -/
def detailBytes (d : Option Detail) : List Byte :=
  present 7 (fun d => u32 d.uptime ++ opt8 (d.step.map stepNo) ++ u8 d.code1 ++ u8 d.code2) d

/-- The condition byte of a class: 0xFF for a pulse class (R207). -/
def conditionByte (c : NoticeClass) (n : Notice) : List Byte :=
  opt8 (if c.isCondition then some (flagCode n.condition) else none)

/-- The 14 bytes of a class's record (R207). -/
def noticeRecord (c : NoticeClass) (n : Notice) : List Byte :=
  u8 c.number ++ flag n.pending ++ u8 n.priority ++ flag n.masked ++ u8 n.occurrences
    ++ conditionByte c n ++ detailBytes n.detail

/-- The class that NOTICE_FETCH selects: the lowest priority number, then the lowest class number (R183). -/
def State.fetched (s : State) : Option NoticeClass :=
  s.unmaskedPending.find? (fun c =>
    s.unmaskedPending.all (fun d => decide ((s.notice c).priority ≤ (s.notice d).priority)))

/-- The reply of NOTICE_FETCH (R183, R207). -/
def State.fetchBytes (s : State) : List Byte :=
  (match s.fetched with
    | none => u8 0xFF ++ List.replicate 11 0#8
    | some c =>
      let n := s.notice c
      u8 c.number ++ u8 n.priority ++ u8 n.occurrences ++ conditionByte c n ++ detailBytes n.detail)
    ++ u8 s.unmaskedPending.length

/-- NOTICE_FETCH (R183). -/
def takeNoticeFetch (s : State) : Taken := (s, .okay s.fetchBytes)

/-- The record of a class after an acknowledgement (R184). -/
def Notice.acknowledge (n : Notice) : Notice := { n with pending := false, occurrences := 0 }

/-- NOTICE_ACK (R184). -/
def takeNoticeAck (cls : Byte) (s : State) : Taken :=
  match NoticeClass.ofCode cls.toNat with
  | none => refuse .outOfRange s
  | some c =>
    (s.onNotice c Notice.acknowledge,
     .okay (u8 (s.notice c).occurrences ++ detailBytes (s.notice c).detail))

/-- The record of a class with a priority and a mask (R185). -/
def Notice.configure (n : Notice) (priority : Nat) (masked : Bool) : Notice :=
  { n with priority := priority, masked := masked }

/-- NOTICE_CONFIG (R185). R207 gives its reply no layout; that the class's record is sent as the fourteen bytes of
NOTICE_LIST, with the class number first, is the model's choice (log entry 13). -/
def takeNoticeConfig (cls priority mask : Byte) (s : State) : Taken :=
  match NoticeClass.ofCode cls.toNat, flagOfCode mask.toNat with
  | some c, some m =>
    if priority.toNat ≤ 3 then
      let s1 := s.onNotice c (fun n => n.configure priority.toNat m)
      (s1, .okay (noticeRecord c (s1.notice c)))
    else refuse .outOfRange s
  | _, _ => refuse .outOfRange s

/-- The reply of NOTICE_LIST (R185, R207). -/
def State.noticeListBytes (s : State) : List Byte :=
  allClasses.flatMap (fun c => noticeRecord c (s.notice c)) ++ flag s.attn

/-- NOTICE_LIST (R185). -/
def takeNoticeList (s : State) : Taken := (s, .okay s.noticeListBytes)

/-! ### The commands -/

/-- NOTICE_LIST (R185). -/
def execNoticeList (s : State) : Host.Outcome State Fault Refusal := serve s takeNoticeList

/-- NOTICE_FETCH (R183). -/
def execNoticeFetch (s : State) : Host.Outcome State Fault Refusal := serve s takeNoticeFetch

/-- NOTICE_ACK (R184). -/
def execNoticeAck (cls : Byte) (s : State) : Host.Outcome State Fault Refusal :=
  serve s (takeNoticeAck cls)

/-- NOTICE_CONFIG (R185). -/
def execNoticeConfig (cls priority mask : Byte) (s : State) : Host.Outcome State Fault Refusal :=
  serve s (takeNoticeConfig cls priority mask)

end Sys2Proof.Machine
end

