-- ==== Sys2Proof/Machine/SettingsUnit.lean ====
section
/-! DEFINITION. The Settings Unit (chapter 10): the pending set, the apply with its effects in every block,
the commit and its end, the unlock and the status. The commands SETTING_WRITE, SETTING_READ, SETTINGS_APPLY,
SETTINGS_DISCARD, STORE_COMMIT, STORE_STATUS, BASELINE_UNLOCK and COMMIT_END. -/

namespace Sys2Proof.Machine

/-! ### The pending set (R189 to R191) -/

/-- The pending set with an entry written (R189). -/
def writeEntry (k : SettingKey) (v : Nat) : List (SettingKey × Nat) → List (SettingKey × Nat)
  | [] => [(k, v)]
  | p :: ps => if p.1 = k then (k, v) :: ps else p :: writeEntry k v ps

/-- The entry of a setting in a pending set. -/
def readEntry (k : SettingKey) (ps : List (SettingKey × Nat)) : Option Nat :=
  (ps.find? (fun p => decide (p.1 = k))).map (·.2)

/-- SETTING_WRITE (R189). Every range lies below 2 to the 31, so a negative value, which reads as an
unsigned number of at least that, is outside it. -/
def takeSettingWrite (item index : Byte) (value : Word32) (s : State) : Taken :=
  match SettingKey.ofItem item.toNat index.toNat with
  | none => refuse .outOfRange s
  | some k =>
    if k.inRange value.toNat then
      let ps := writeEntry k value.toNat s.su.pendingSet
      (s.onSu (fun u => { u with pendingSet := ps }), .okay (u8 ps.length))
    else refuse .outOfRange s

/-- SETTING_READ (R190): presence, value, entries in the pending set. -/
def takeSettingRead (item index source : Byte) (s : State) : Taken :=
  match SettingKey.ofItem item.toNat index.toNat, flagOfCode source.toNat with
  | some k, some pending =>
    let v := if pending then readEntry k s.su.pendingSet else some (s.su.active.get k)
    (s, .okay (present 4 u32 v ++ u8 s.su.pendingSet.length))
  | _, _ => refuse .outOfRange s

/-- The pending set is emptied (R186, R191). -/
def emptyPending (s : State) : State := s.onSu (fun u => { u with pendingSet := [] })

/-- SETTINGS_DISCARD (R191). -/
def takeSettingsDiscard (s : State) : Taken := (emptyPending s, .okay (u8 s.su.pendingSet.length))

/-! ### The apply (R192, R193) -/

/-- The candidate: the active settings with each pending entry put in its place (R192). -/
def State.candidate (s : State) : Settings :=
  s.su.pendingSet.foldl (fun c p => c.put p.1 p.2) s.su.active

/-- Check 6 for one step: its installed setting does not change, or it is DISABLED. -/
def State.check6Step (s : State) (c : Settings) (i : StepIx) : Bool :=
  c.installed i == s.su.active.installed i || (s.step i).state == .disabled

/-- The first check that fails, with the index reported (R192). -/
def State.applyFailure (s : State) (c : Settings) : Option (Nat × Nat) :=
  match c.firstFailure with
  | some f => some f
  | none => (allSteps.find? (fun i => !s.check6Step c i)).map (fun i => (6, stepNo i))

/-- Whether a setting differs between two sets of values (R193). -/
def changed (a b : Settings) (k : SettingKey) : Bool := a.get k != b.get k

/-- Whether a yard-wide setting differs. -/
def changedY (a b : Settings) (i : YardItem) : Bool := changed a b (.yard i)

/-- A state change made where a setting has changed. -/
def whenB (b : Bool) (f : State → State) (s : State) : State := if b then f s else s

/-- The filters of a step whose input has been steady for the debounce time in force take their levels (R23). -/
def takeIfSteady (i : StepIx) (s : State) : State :=
  if s.debounceDue i .closedContact || s.debounceDue i .openContact then takeLevels i s else s

/-- A decoder whose disagreement time has reached the setting in force goes to UNKNOWN (R24). -/
def unknownIfDue (i : StepIx) (s : State) : State := if s.disagreementDue i then toUnknown i s else s

/-- The filters and the decoders compare their running times with the new settings (R23 to R25). That every
filter is taken before any decoder goes to UNKNOWN is the model's choice where both times change, R24 giving no
order between them, and so are the steps in ascending index (log entry 8). -/
def applyMonitor (a b : Settings) (s : State) : State :=
  let s1 := whenB (changedY a b .debounceTime) (fun t =>
    let u := allSteps.foldl (fun r i => takeIfSteady i r) t
    if u.debounceEndDue then endDebounce u else u) s
  whenB (changedY a b .disagreementTime) (fun t => allSteps.foldl (fun r i => unknownIfDue i r) t) s1

/-- A step's learned rise and marks after a change of its rating or expected rise (R101, R110, R132). -/
def applyStep (a b : Settings) (i : StepIx) (s : State) : State :=
  let rating := changed a b (.step .rating i)
  let s1 := whenB (rating || changed a b (.step .expectedRise i))
    (fun t => t.onVr i (fun v => { v with rise := none })) s
  whenB rating (clearMarks i) s1

/-- The band accumulators at 0 (R101). -/
def zeroBand (s : State) : State := s.onVrg (fun v => { v with below := 0, above := 0 })

/-- What VRG takes from an apply (R101, R116). -/
def applyRegulator (a b : Settings) (s : State) : State :=
  whenB (changedY a b .fallbackInterval) refreshSilence
    (whenB (changedY a b .vl || changedY a b .vh || changedY a b .ti || changedY a b .tr) zeroBand s)

/-- Whether a level or the hysteresis of a quantity changed (R130). -/
def levelsChanged (a b : Settings) (q : QtyIx) : Bool :=
  changed a b (.qty .la q) || changed a b (.qty .lb q) || changed a b (.qty .lr q)
    || changed a b (.qty .hyst q)

/-- What UBP takes from an apply (R149). -/
def applyUnbalance (a b : Settings) (s : State) : State :=
  resetStages
    (fun i => changed a b (.step .l1 i) || changedY a b .d1)
    (fun i => changed a b (.step .l2 i) || changedY a b .d2)
    (fun i => changed a b (.step .l3 i) || changedY a b .d3) s

/-- Each changed setting is handed to the blocks that use it (R193), in the model's order of the blocks (log
entry 8). Of the duty limit only a lowering has an effect (R84). R84 and R89 give no order between the clamp of the
duty levels and that of the yard budget, whose report can dispatch an open: that the duty levels come first is the
model's choice (log entry 8). `a` were the values in force, `b` are. -/
def applyBlocks (a b : Settings) (s : State) : State :=
  let s1 := rebuildIfDue (applyMonitor a b s)
  let s2 := allSteps.foldl (fun t i => applyStep a b i t) s1
  let s3 := whenB (changedY a b .yardLimit) clampBudget (whenB (decide (b.y .dutyLimit < a.y .dutyLimit)) clampDuty s2)
  applyUnbalance a b (relevelQuantities (levelsChanged a b) (applyRegulator a b s3))

/-- The effects of an apply: those of the changed settings, and as soon as they are complete the preferred link acts on
the selector (R12). A frame that the selector then posts meets every block with the new settings in it. -/
def applyEffects (a b : Settings) (preferred : Bool) (s : State) : State :=
  whenB preferred preferApplied (applyBlocks a b s)

/-- SETTINGS_APPLY (R192, R193). -/
def takeSettingsApply (s : State) : Taken :=
  if s.su.pendingSet = [] then (s, .okay (u8 0))
  else
    let a := s.su.active
    let b := s.candidate
    match s.applyFailure b with
    | some (check, index) => (s, ⟨.invalidSettings, u8 check ++ u8 index⟩)
    | none =>
      let preferred := (readEntry (.yard .preferredLink) s.su.pendingSet).isSome
      let s1 := s.onSu (fun u => { u with active := b, pendingSet := [] })
      (applyEffects a b preferred s1, .okay (u8 (allSettings.filter (changed a b)).length))

/-! ### The commit (R195 to R199) -/

/-- The contents of the store image as they are in force (R194, R196). -/
def State.snapshotImage (s : State) : StoreImage where
  settings := s.su.active
  routes := s.evr.routes
  notices := Tab.build (fun c => ((s.hlk.notices.get c).priority, (s.hlk.notices.get c).masked))
  baselines := Tab.build (fun i => (s.ub i).baseline.map Baseline.components)
  rises := Tab.build (fun i => (s.vrg.steps.get i).rise)
  opCounts := Tab.build (fun i => (s.sw i).opCount)

/-- Row 2 of STORE_COMMIT: the baseline lock refuses it (R195). -/
def State.commitLocked (s : State) : Bool :=
  s.su.active.lockOn && !s.su.unlock && allSteps.any s.baselineDiffers

/-- An accepted commit (R196): the snapshot, COMMITTING, and the image invalid. -/
def startCommit (s : State) : State :=
  s.onSu (fun u =>
    { u with store := .committing s.now s.snapshotImage, image := none, commits := u.commits + 1 })

/-- STORE_COMMIT (R195). The STORE causes are INVALID_IMAGE 0, COMMIT_FAILED 1, PROTECTED 2 (R204). -/
def takeStoreCommit (s : State) : Taken :=
  if s.committing then refuse .busy s
  else if s.commitLocked then (reportDetail .store none 2 0 s, .just .protected_)
  else (startCommit s, .just .accepted)

/-- BASELINE_UNLOCK (R198). -/
def takeBaselineUnlock (s : State) : Taken :=
  if s.committing then refuse .busy s
  else (s.onSu (fun u => { u with unlock := true }), .just .ok)

/-- A baseline loses its uncommitted flag where it equals the snapshot's (R197). -/
def Baseline.commit (b : Baseline) (stored : Option (Int × Int)) : Baseline :=
  if stored = some b.components then { b with uncommitted := false } else b

/-- What every end of a commit takes (R197): IDLE, the last commit record, the unlock NO, and LONG_OP. R197 takes the
effects of an end together: that LONG_OP comes before the STORE class, and that before STORE_FAULT at EVR, is the model's
choice (log entry 8). -/
def closeCommit (r : CommitResult) (s : State) : State :=
  raiseNotice .longOp none 1 (match r with | .complete => 0 | .failed => 2)
    (s.onSu (fun u => { u with store := .idle, lastCommit := some (r, s.uptime), unlock := false }))

/-- STORE_FAULT and the STORE class (R199). -/
def storeFault (active : Bool) (cause : Nat) (s : State) : State :=
  condition .storeFault active
    (reportClass .store active none cause 0 (s.onSu (fun u => { u with fault := active })))

/-- A commit that ends COMPLETE (R197). -/
def completeCommit (img : StoreImage) (s : State) : State :=
  let s1 := (closeCommit .complete s).onSu (fun u => { u with image := some img })
  storeFault false 0 (s1.onUbp (fun u =>
    { u with steps := Tab.build (fun i =>
        let r := u.steps.get i
        { r with baseline := r.baseline.map (fun b => b.commit (img.baselines.get i)) }) }))

/-- A commit that ends FAILED (R197, R199). -/
def failCommit (s : State) : State :=
  let s1 := closeCommit .failed s
  if s.su.fault then reportDetail .store none 1 0 s1 else storeFault true 1 s1

/-- The end of a commit (R197); nothing where none is in progress. -/
def endCommit (r : CommitResult) (s : State) : State :=
  match s.su.store with
  | .idle => s
  | .committing _ img =>
    match r with
    | .complete => completeCommit img s
    | .failed => failCommit s

/-! ### STORE_STATUS (R200) -/

/-- The reply of STORE_STATUS (R200). VALID is 0 and INVALID is 1 (log entry 13). -/
def State.storeStatusBytes (s : State) : List Byte :=
  (match s.su.store with
    | .idle => u8 0 ++ present 4 u32 none
    | .committing since _ => u8 1 ++ present 4 u32 (some (age s since)))
    ++ flag s.su.image.isNone
    ++ present 5 (fun p => u8 (commitResultCode p.1) ++ u32 p.2) s.su.lastCommit
    ++ flag s.su.fault ++ opt8 ((s.notice .store).detail.map (·.code1))
    ++ flag s.su.active.lockOn ++ flag s.su.unlock
    ++ stepSet (fun i => match (s.ub i).baseline with | none => false | some b => b.uncommitted)
    ++ stepSet s.baselineDiffers

/-- STORE_STATUS (R200). -/
def takeStoreStatus (s : State) : Taken := (s, .okay s.storeStatusBytes)

/-! ### The commands -/

/-- SETTING_WRITE (R189). -/
def execSettingWrite (item index : Byte) (value : Word32) (s : State) : Host.Outcome State Fault Refusal :=
  serve s (takeSettingWrite item index value)

/-- SETTING_READ (R190). -/
def execSettingRead (item index source : Byte) (s : State) : Host.Outcome State Fault Refusal :=
  serve s (takeSettingRead item index source)

/-- SETTINGS_APPLY (R192, R193). -/
def execSettingsApply (s : State) : Host.Outcome State Fault Refusal := serve s takeSettingsApply

/-- SETTINGS_DISCARD (R191). -/
def execSettingsDiscard (s : State) : Host.Outcome State Fault Refusal := serve s takeSettingsDiscard

/-- STORE_COMMIT (R195, R196). -/
def execStoreCommit (s : State) : Host.Outcome State Fault Refusal := serve s takeStoreCommit

/-- STORE_STATUS (R200). -/
def execStoreStatus (s : State) : Host.Outcome State Fault Refusal := serve s takeStoreStatus

/-- BASELINE_UNLOCK (R198). -/
def execBaselineUnlock (s : State) : Host.Outcome State Fault Refusal := serve s takeBaselineUnlock

/-- COMMIT_END (R197). -/
def execCommitEnd (r : CommitResult) (s : State) : Host.Outcome State Fault Refusal :=
  live s (endCommit r)

end Sys2Proof.Machine
end

