-- ==== Sys2Proof/Machine/Replies.lean ====
section
/-! DEFINITION. The read requests and their replies, byte by byte in the order of their owners' tables and in
the encodings of R204 (the forms R204 leaves open are log entry 13). The commands IDENT, YARD_STATUS,
STEP_READ, MEAS_READ, LINK_READ, LINK_STATS, HARM_READ, UNB_READ and QUEUE_READ. -/

namespace Sys2Proof.Machine

/-- The whole seconds left on a timer in a field of four bytes (R75). -/
def State.secondsLeft (s : State) (due : Option Nat) : List Byte := u32 (s.shownSeconds due)

/-- A step field that may be absent. -/
def optStep (i : Option StepIx) : List Byte := opt8 (i.map stepNo)

/-- The state of a timer that runs once, with its remaining seconds while it runs. -/
def State.oneShotBytes (s : State) (t : OneShot) : List Byte :=
  match t with
  | .notStarted => u8 0 ++ present 4 u32 none
  | .running due => u8 1 ++ present 4 u32 (some (runningSeconds (remaining s due)))
  | .over => u8 2 ++ present 4 u32 none

/-- A baseline in a reply. -/
def baselineBytes (b : Option Baseline) : List Byte :=
  present 5 (fun b => i16 b.inPhase ++ i16 b.quad ++ flag b.uncommitted) b

/-! ### IDENT (R177) and YARD_STATUS (R178) -/

/-- The reply of IDENT (R177). -/
def State.identBytes (s : State) : List Byte :=
  u8 Config.familyCode ++ u8 Config.partCode ++ u8 Config.designRevision
    ++ u8 s.su.active.installedCount ++ u8 (resetCauseCode s.su.resetCause)
    ++ flag (!s.su.imageValidAtReset) ++ u32 s.uptime ++ u16 s.hlk.linkResets

/-- IDENT (R177). -/
def takeIdent (s : State) : Taken := (s, .okay s.identBytes)

/-- The Voltage Regulator's part of YARD_STATUS (R118). -/
def State.regulatorBytes (s : State) : List Byte :=
  u8 s.vrg.mode.code ++ u8 s.vrg.reg.code
    ++ present 2 (fun t : Target => u8 (stepNo t.step) ++ u8 t.kind.code) s.vrg.target
    ++ holdSet s.vrg.holds ++ u32 s.vrg.below ++ u32 s.vrg.above
    ++ flag s.vrg.noCandidate ++ flag s.vrg.overvoltage ++ flag s.vrg.lossOfVoltage
    ++ s.oneShotBytes s.vrg.startHold ++ s.secondsLeft s.vrg.silence

/-- The reply of YARD_STATUS (R178). -/
def State.yardStatusBytes (s : State) : List Byte :=
  u32 s.uptime ++ flag s.st.rebuilt
    ++ u32 s.insertedRating ++ listOf (fun i => u8 (stepNo i)) s.st.ring
    ++ listOf (fun i => u8 (stepNo i)) s.st.service
    ++ u8 s.cdu.budget ++ u8 (s.y .yardLimit) ++ s.secondsLeft s.cdu.yardTimer
    ++ flag s.budgetExhausted ++ s.oneShotBytes s.cdu.startUp
    ++ s.regulatorBytes
    ++ opt8 (s.mi.active.map linkCode) ++ flag s.mi.lost ++ flag s.mi.disagree
    ++ flag s.harmAlarm ++ flag s.harmBlock ++ flag s.harmRemove
    ++ flag s.unbAlarm ++ optStep (s.ubp.capture.map (·.step))
    ++ optStep s.swu.slot ++ stepSet (fun i => (s.sw i).breakerFail) ++ flag s.swu.staged.isSome
    ++ flag s.committing ++ flag s.su.fault ++ flag s.su.pendingSet.isEmpty
    ++ flag s.attn ++ u8 s.unmaskedPending.length ++ u8 s.maskedPending.length

/-- YARD_STATUS (R178). -/
def takeYardStatus (s : State) : Taken := (s, .okay s.yardStatusBytes)

/-! ### STEP_READ (R44) -/

/-- The place of a step in a list, counted from 1 at the head. -/
def placeIn (i : StepIx) (xs : List StepIx) : Option Nat :=
  if i ∈ xs then some (xs.findIdx (· == i) + 1) else none

/-- The operation item of STEP_READ: NONE 0, then the phase (log entry 13). -/
def operationCode (o : Option OpRecord) : Nat :=
  match o with
  | none => 0
  | some r => r.phase.code + 1

/-- The reply of STEP_READ (R44). R44 does not say which contact's debounced value comes first; the closed-position
contact does by the model's choice (log entry 13). -/
def State.stepBytes (s : State) (i : StepIx) : List Byte :=
  let r := s.step i
  let w := s.sw i
  let c := s.cd i
  let v := s.vrg.steps.get i
  u8 (stepNo i) ++ flag (s.su.active.installed i) ++ u16 (s.su.active.rating i)
    ++ u8 r.state.code ++ opt8 (r.cause.map Cause.code) ++ opt8 w.retries
    ++ u8 r.position.code ++ opt8 (r.lastDefinite.map Position.code)
    ++ u8 r.closedIn.value.code ++ u8 r.openIn.value.code
    ++ present 4 u32 r.energizedAt ++ opt8 (r.basis.map Basis.code)
    ++ s.secondsLeft c.discharge ++ flag c.discharged ++ u8 c.duty
    ++ opt16 v.rise ++ u16 v.rejected ++ orderSet (s.hsv.marks.get i)
    ++ baselineBytes (s.ub i).baseline ++ listOf u32 (s.ub i).history
    ++ u32 w.opCount ++ opt8 (w.lastResult.map OpResult.code) ++ u8 (operationCode w.op)
    ++ opt8 (placeIn i s.st.ring) ++ opt8 (placeIn i s.st.service) ++ flag s.st.rebuilt

/-- STEP_READ (R44). -/
def takeStepRead (step : Byte) (s : State) : Taken :=
  match stepOfCode step.toNat with
  | none => refuse .outOfRange s
  | some i => (s, .okay (s.stepBytes i))

/-! ### MEAS_READ (R19) -/

/-- A step block in MEAS_READ, labelled by its step. -/
def blockBytes (p : StepIx × StepMeas) : List Byte :=
  u8 (stepNo p.1) ++ u16 p.2.i1 ++ u16 p.2.i2 ++ u16 p.2.i3 ++ i16 p.2.inPhase ++ i16 p.2.quad

/-- The blocks of a record by ascending step, as its frame carries them (R3). -/
def MeasRecord.blockList (m : MeasRecord) : List (StepIx × StepMeas) :=
  allSteps.filterMap (fun i => (m.blocks.get i).map (fun x => (i, x)))

/-- A record in MEAS_READ (R19, R3). R19 gives no order among the record's own fields: that they come in the order in
which the frame carries them is the model's choice (log entry 13). -/
def State.recordBytes (s : State) (m : MeasRecord) : List Byte :=
  u32 (min (age s m.time) Config.count16) ++ u8 (linkCode m.link) ++ u16 m.sequence.toNat ++ [m.status]
    ++ u32 m.frequency ++ u16 m.v1 ++ u16 m.v2 ++ u16 m.v3
    ++ allQtys.flatMap (fun q => u16 (m.harm.get q))
    ++ listOf blockBytes m.blockList

/-- The bytes of a record up to and with the count of its blocks. -/
def recordWidth : Nat := 45

/-- The record MEAS_READ names: POSTED 0, LINK_A 1, LINK_B 2 (R204). -/
def State.namedRecord (s : State) : Nat → Option (Option MeasRecord)
  | 0 => some s.mi.posted
  | 1 => some s.mi.linkA.latest
  | 2 => some s.mi.linkB.latest
  | _ => none

/-- MEAS_READ (R19). -/
def takeMeasRead (record : Byte) (s : State) : Taken :=
  match s.namedRecord record.toNat with
  | none => refuse .outOfRange s
  | some m => (s, .okay (present recordWidth s.recordBytes m))

/-! ### LINK_READ (R18) and LINK_STATS (R174) -/

/-- The role of a link: ACTIVE 0, STANDBY 1, NONE 2 (R18). -/
def State.roleCode (s : State) (l : Link) : Nat :=
  if s.mi.active = some l then 0 else if s.locked l then 1 else 2

/-- The run count as LINK_READ shows it: 8 in LOCKED (R7, R18). -/
def LinkRec.shownRun (r : LinkRec) : Nat := if r.state = .locked then Config.runToLock else r.run

/-- The reply of LINK_READ (R18). -/
def State.linkBytes (s : State) (l : Link) : List Byte :=
  let r := s.link l
  u8 r.state.code ++ u8 (s.roleCode l) ++ present 2 (fun q : Word16 => u16 q.toNat) r.lastSeq
    ++ u8 r.shownRun ++ u8 r.bad
    ++ present 4 u32 ((s.silenceTime l).map (fun t => min t Config.count16))
    ++ u16 r.counters.accepted ++ u16 r.counters.corrupt ++ u16 r.counters.format
    ++ u16 r.counters.unitFault ++ u16 r.counters.gaps
    ++ u8 (linkCode s.su.active.preferred) ++ flag s.mi.lost ++ flag s.mi.disagree
    ++ u8 s.mi.agreeCount ++ u8 s.mi.disagreeCount

/-- A link's five counters at 0 (R9). -/
def clearLinkCounters (l : Link) (s : State) : State :=
  s.onLink l (fun r => { r with counters := ⟨0, 0, 0, 0, 0⟩ })

/-- LINK_READ (R18). -/
def takeLinkRead (link clear : Byte) (s : State) : Taken :=
  match linkOfCode link.toNat, flagOfCode clear.toNat with
  | some l, some c => (if c then clearLinkCounters l s else s, .okay (s.linkBytes l))
  | _, _ => refuse .outOfRange s

/-- The reply of LINK_STATS (R174). -/
def State.linkStatsBytes (s : State) : List Byte :=
  let k := s.hlk.counters
  u16 k.good ++ u16 k.badChecks ++ u16 k.overruns ++ u16 k.timeouts ++ u16 k.lengthErrors
    ++ u16 k.lineErrors ++ u16 k.discarded
    ++ u16 s.hlk.linkResets ++ opt8 (s.hlk.lastLinkReset.map LinkResetCause.code)
    ++ u32 s.hlk.baud ++ flag s.attn

/-- LINK_STATS (R174). -/
def takeLinkStats (s : State) : Taken := (s, .okay s.linkStatsBytes)

/-! ### HARM_READ (R136) and UNB_READ (R156) -/

/-- A last removal in HARM_READ: step 0 for NONE (R136). -/
def Removal.bytes (m : Removal) : List Byte :=
  u32 m.uptime ++ u8 ((m.step.map stepNo).getD 0) ++ opt8 (m.result.map OpResult.code)

/-- The 16 bytes of a quantity record (R136). -/
def State.quantityBytes (s : State) (r : Quantity) : List Byte :=
  u8 r.state.code ++ u16 r.up ++ u16 r.down ++ opt16 r.last
    ++ u16 (s.shownSeconds r.repeatDue) ++ present 6 Removal.bytes r.removal

/-- The reply of HARM_READ (R136). -/
def State.harmBytes (s : State) : List Byte :=
  allQtys.flatMap (fun q => s.quantityBytes (s.qty q))
    ++ flag s.harmAlarm ++ flag s.harmBlock ++ flag s.harmRemove ++ u16 s.hsv.skipped
    ++ allSteps.flatMap (fun i => orderSet (s.hsv.marks.get i))

/-- HARM_READ (R136). -/
def takeHarmRead (s : State) : Taken := (s, .okay s.harmBytes)

/-- A stage in UNB_READ. -/
def stageBytes (g : Stage) : List Byte := u8 g.state.code ++ u32 g.timer

/-- A stamp of a trip history, within (0) or outside (1) the repeat window in force (R156). -/
def State.stampBytes (s : State) (t : Nat) : List Byte :=
  u32 t ++ flag (decide (s.repeatWindow < s.uptime - t))

/-- A last trip in UNB_READ. -/
def TripRec.bytes (t : TripRec) : List Byte :=
  u32 t.uptime ++ u8 t.stage.code ++ u32 t.magnitude ++ u8 t.cause.code

/-- The reply of UNB_READ (R156). -/
def State.unbBytes (s : State) (i : StepIx) : List Byte :=
  let r := s.ub i
  u8 r.eval.code
    ++ present 4 u32 (if r.eval = .awaitSettle then some (remainingMs s r.arming) else none)
    ++ flag (s.evaluated i) ++ stageBytes r.s1 ++ stageBytes r.s2 ++ stageBytes r.s3
    ++ present 4 u32 r.lastMag
    ++ u16 (s.su.active.l1 i) ++ u16 (s.su.active.l2 i) ++ u16 (s.su.active.l3 i)
    ++ baselineBytes r.baseline ++ listOf s.stampBytes r.history
    ++ present 10 TripRec.bytes r.lastTrip ++ flag s.unbAlarm
    ++ present 2 (fun c : Capture => u8 (stepNo c.step) ++ u8 c.count) s.ubp.capture
    ++ present 6 (fun c : CaptureRec => u8 (stepNo c.step) ++ u8 c.result.code ++ u32 c.uptime)
        s.ubp.lastCapture

/-- UNB_READ (R156). -/
def takeUnbRead (step : Byte) (s : State) : Taken :=
  match stepOfCode step.toNat with
  | none => refuse .outOfRange s
  | some i => (s, .okay (s.unbBytes i))

/-! ### QUEUE_READ (R73) -/

/-- The eight bytes of a queue entry. -/
def Entry.bytes (e : Entry) : List Byte :=
  u8 (stepNo e.step) ++ u8 e.kind.code ++ u8 e.origin.cls ++ u32 e.enqueued ++ originSet e.requesters

/-- The reading at which the timer of the present phase reaches 0 (R59). -/
def OpRecord.phaseDue (o : OpRecord) : Nat :=
  match o.phase with
  | .pulsing => o.pulseDue
  | .awaiting => o.limitDue
  | .settling => o.settleDue

/-- The sixteen bytes of an operation record. -/
def State.opBytes (s : State) (p : StepIx × OpRecord) : List Byte :=
  u8 (stepNo p.1) ++ u8 p.2.kind.code ++ u8 p.2.origin.cls ++ u8 p.2.phase.code ++ u32 p.2.start
    ++ u32 (remaining s p.2.phaseDue) ++ flag p.2.pre.isSome ++ flag p.2.holdsSlot
    ++ flag p.2.protMerged ++ originSet p.2.requesters

/-- The operation records by ascending step. R73 gives no order among them: this one is the model's choice (log
entry 13). -/
def State.opList (s : State) : List (StepIx × OpRecord) :=
  allSteps.filterMap (fun i => ((s.sw i).op).map (fun o => (i, o)))

/-- The reply of QUEUE_READ (R73). -/
def State.queueBytes (s : State) : List Byte :=
  listOf Entry.bytes s.swu.queue ++ optStep s.swu.slot ++ listOf s.opBytes s.opList
    ++ present 6 (fun g : StagedOrder => u8 (stepNo g.step) ++ u8 g.kind.code ++ u32 (remaining s g.due))
        s.swu.staged
    ++ stepSet (fun i => (s.sw i).breakerFail)
    ++ allSteps.flatMap (fun i => opt8 (s.sw i).retries)
    ++ present 7 (fun r : StationResult =>
        u8 (stepNo r.step) ++ u8 r.kind.code ++ u8 r.result.code ++ u32 r.uptime) s.swu.stationResult

/-- QUEUE_READ (R73). -/
def takeQueueRead (s : State) : Taken := (s, .okay s.queueBytes)

/-! ### The commands -/

/-- IDENT (R177). -/
def execIdent (s : State) : Host.Outcome State Fault Refusal := serve s takeIdent

/-- YARD_STATUS (R178). -/
def execYardStatus (s : State) : Host.Outcome State Fault Refusal := serve s takeYardStatus

/-- STEP_READ (R44). -/
def execStepRead (step : Byte) (s : State) : Host.Outcome State Fault Refusal := serve s (takeStepRead step)

/-- MEAS_READ (R19). -/
def execMeasRead (record : Byte) (s : State) : Host.Outcome State Fault Refusal :=
  serve s (takeMeasRead record)

/-- LINK_READ (R18). -/
def execLinkRead (link clear : Byte) (s : State) : Host.Outcome State Fault Refusal :=
  serve s (takeLinkRead link clear)

/-- LINK_STATS (R174). -/
def execLinkStats (s : State) : Host.Outcome State Fault Refusal := serve s takeLinkStats

/-- HARM_READ (R136). -/
def execHarmRead (s : State) : Host.Outcome State Fault Refusal := serve s takeHarmRead

/-- UNB_READ (R156). -/
def execUnbRead (step : Byte) (s : State) : Host.Outcome State Fault Refusal := serve s (takeUnbRead step)

/-- QUEUE_READ (R73). -/
def execQueueRead (s : State) : Host.Outcome State Fault Refusal := serve s takeQueueRead

end Sys2Proof.Machine
end

