-- ==== Sys2Proof/Machine/HostLink.lean ====
section
/-! DEFINITION. The Host Link (chapter 9): the request dispatcher (R175), complete frames (R172, R173), the
reply (R176), the receiver byte by byte with its gap and its abandonments (R171), and the link reset (R186). The
commands HOST_FRAME, HOST_FRAME_ABANDON, HOST_BYTE_GAP_TIMEOUT, REPLY_END, BREAK, HRX_RETURNS_HIGH, DISCARDED_BYTE
and LINK_RESET. -/

namespace Sys2Proof.Machine

/-! ### The link reset (R186) -/

/-- The effects of a link reset. `receiver` is the receiver's state after it. -/
def linkReset (cause : LinkResetCause) (receiver : Receiver) (s : State) : State :=
  (emptyPending (clearStaged s)).onHlk (fun h =>
    { h with
      receiver := receiver
      rx := none
      busy := false
      sending := none
      sendDue := none
      counters := ⟨0, 0, 0, 0, 0, 0, 0⟩
      linkResets := satInc Config.count16 h.linkResets
      lastLinkReset := some cause })

/-- LINK_RESET (R186). -/
def takeLinkReset (s : State) : Taken := (linkReset .request .hunting s, .just .ok)

/-! ### The request dispatcher (R175) -/

/-- A request is taken by its owner (R175, check 3). -/
def takeOwner (r : Request) (s : State) : Taken :=
  match r with
  | .ident => takeIdent s
  | .yardStatus => takeYardStatus s
  | .stepRead i => takeStepRead i s
  | .measRead r => takeMeasRead r s
  | .linkRead l c => takeLinkRead l c s
  | .linkStats => takeLinkStats s
  | .harmRead => takeHarmRead s
  | .unbRead i => takeUnbRead i s
  | .queueRead => takeQueueRead s
  | .noticeList => takeNoticeList s
  | .modeSet m => takeModeSet m s
  | .orderStage i k => takeOrderStage i k s
  | .orderExecute i k => takeOrderExecute i k s
  | .orderCancel => takeOrderCancel s
  | .stepEnable i => takeStepEnable i s
  | .stepDisable i => takeStepDisable i s
  | .stepRelease i c => takeStepRelease i c s
  | .marksClear i => takeMarksClear i s
  | .baselineCapture i => takeBaselineCapture i s
  | .captureCancel => takeCaptureCancel s
  | .settingWrite i x v => takeSettingWrite i x v s
  | .settingRead i x c => takeSettingRead i x c s
  | .settingsApply => takeSettingsApply s
  | .settingsDiscard => takeSettingsDiscard s
  | .routeSet x d => takeRouteSet x d s
  | .routeRead => takeRouteRead s
  | .storeCommit => takeStoreCommit s
  | .storeStatus => takeStoreStatus s
  | .baselineUnlock => takeBaselineUnlock s
  | .noticeFetch => takeNoticeFetch s
  | .noticeAck c => takeNoticeAck c s
  | .noticeConfig c p m => takeNoticeConfig c p m s
  | .linkReset => takeLinkReset s

/-- The three checks of R175 on the type and the payload of a good frame. -/
def takeRequestFrame (ty : Nat) (payload : List Byte) (s : State) : Taken :=
  match decodeRequest ty payload with
  | none => refuse .unknownRequest s
  | some none => refuse .badLength s
  | some (some r) => takeOwner r s

/-! ### Frames and replies (R172, R173, R176) -/

/-- The time in ms that a frame of `n` bytes takes on HTX at a baud rate, ten bits a byte, rounded up. -/
def frameTime (baud n : Nat) : Nat := (n * 10000 + baud - 1) / baud

/-- The reply goes to HTX: the link is busy until its last stop bit (R173, R176). It is sent at the latest
5 ms and its own length from now (log entry 14). -/
def sendReply (ty : Nat) (tag : Byte) (t : Taken) : State :=
  t.answered.onHlk (fun h =>
    { h with
      busy := true
      sending := some (replyFrame ty tag t.2)
      sendDue := some (t.1.now + Config.replyStartLimit
        + frameTime h.baud (replyFrame ty tag t.2).length) })

/-- The host link counters with one of them counted (R171, R172, R174). -/
def countHost (f : HostCounters → HostCounters) (s : State) : State :=
  s.onHlk (fun h => { h with counters := f h.counters })

/-- A good frame before its request: counted, busy, and VRG told (R172). -/
def goodHostFrame (s : State) : State :=
  refreshSilence ((countHost (fun k => { k with good := satInc Config.count16 k.good }) s).onHlk
    (fun h => { h with busy := true }))

/-- A complete frame (R172): an overrun, a bad check, or a good frame whose request is taken and answered. -/
def hostFrameEnds (bs : List Byte) (s : State) : State :=
  if s.hlk.busy then countHost (fun k => { k with overruns := satInc Config.count16 k.overruns }) s
  else if !hostCheckOk bs then
    countHost (fun k => { k with badChecks := satInc Config.count16 k.badChecks }) s
  else
    sendReply (hostType bs) (hostTag bs)
      (takeRequestFrame (hostType bs) (hostPayload bs) (goodHostFrame s))

/-- Whether the receiver takes what arrives on HRX (R186). -/
def State.receiving (s : State) : Bool := s.hlk.receiver == .hunting

/-- The bytes that the host receiver holds. -/
def State.hostHeld (s : State) : List Byte := bytesHeld s.hlk.rx

/-- The host receiver holds some bytes, the last of which has arrived now (R171). -/
def holdHost (bytes : List Byte) (s : State) : State :=
  s.onHlk (fun h => { h with rx := inProgress bytes (s.now + Config.hostByteGap + 1) })

/-- The gap after the last byte of a host frame in progress has lasted more than 20 ms (R171). -/
def State.hostGapOver (s : State) : Bool := s.receiving && gapLasted 1 s.now s.hlk.rx

/-- A gap that is over abandons its frame as a timeout, before what arrives after it is taken (R171). -/
def hostGapTaken (s : State) : State :=
  if s.hostGapOver then
    countHost (fun k => { k with timeouts := satInc Config.count16 k.timeouts }) (holdHost [] s)
  else s

/-- The counter of an abandoned frame (R171). -/
def abandonCount (cause : AbandonCause) (k : HostCounters) : HostCounters :=
  match cause with
  | .lengthError => { k with lengthErrors := satInc Config.count16 k.lengthErrors }
  | .lineError => { k with lineErrors := satInc Config.count16 k.lineErrors }

/-- The receiver abandons what it holds and hunts with the next byte, with the cause counted (R171). -/
def abandonHost (cause : AbandonCause) (s : State) : State := countHost (abandonCount cause) (holdHost [] s)

/-- Whether a frame in progress can be abandoned for a cause: by its length byte where that is the next one, and by a
stop bit at any byte (R171). -/
def State.abandons (s : State) (cause : AbandonCause) : Bool :=
  match cause with
  | .lengthError => decide (s.hostHeld.length = 1)
  | .lineError => decide (s.hostHeld ≠ [])

/-- What comes of a byte is handled (R171, R172). -/
def hostEvent (e : Option HostEvent) (s : State) : State :=
  match e with
  | none => s
  | some .discarded => countHost (fun k => { k with discarded := satInc Config.count16 k.discarded }) s
  | some .lengthError => countHost (abandonCount .lengthError) s
  | some (.complete bs) => hostFrameEnds bs s

/-- A byte with its stop bit high arrives within the gap that a frame in progress allows (R171). -/
def hostByte (s : State) (b : Byte) : State :=
  let x := receiveHostByte s.hostHeld b
  hostEvent x.1 (holdHost x.2 s)

/-- Bytes arrive on HRX one after another (R171). -/
def hostBytes (bs : List Byte) (s : State) : State := bs.foldl hostByte (hostGapTaken s)

/-- A byte arrives on HRX with its stop bit (R171): a low one is a line error alone, whatever the byte, and abandons a
frame in progress. -/
def lineByte (b : Byte) (stopLow : Bool) (s : State) : State :=
  if stopLow then abandonHost .lineError (hostGapTaken s) else hostByte (hostGapTaken s) b

/-- A frame in progress is abandoned where it can be (R171). -/
def hostAbandon (cause : AbandonCause) (s : State) : State :=
  let t := hostGapTaken s
  onlyIf (t.abandons cause) (abandonHost cause) t

/-- The end of a reply (R173). -/
def endReply (s : State) : State :=
  s.onHlk (fun h => { h with busy := false, sending := none, sendDue := none })

/-- The receiver hunts (R186). -/
def huntAgain (s : State) : State := s.onHlk (fun h => { h with receiver := .hunting })

/-! ### The commands -/

/-- HOST_FRAME (R171, R172): the bytes of one or of any part of the line arrive. -/
def execHostFrame (bs : List Byte) (s : State) : Host.Outcome State Fault Refusal :=
  live s (onlyIf s.receiving (hostBytes bs))

/-- HOST_FRAME_ABANDON (R171). -/
def execHostFrameAbandon (cause : AbandonCause) (s : State) : Host.Outcome State Fault Refusal :=
  live s (onlyIf s.receiving (hostAbandon cause))

/-- HOST_BYTE_GAP_TIMEOUT (R171). -/
def execHostByteGapTimeout (s : State) : Host.Outcome State Fault Refusal :=
  live s hostGapTaken

/-- REPLY_END (R173). -/
def execReplyEnd (s : State) : Host.Outcome State Fault Refusal :=
  live s (onlyIf s.hlk.sending.isSome endReply)

/-- BREAK (R186): a line held low for longer causes one link reset. -/
def execBreakOnHrx (s : State) : Host.Outcome State Fault Refusal :=
  live s (onlyIf s.receiving (linkReset .lineBreak .ignoring))

/-- HRX_RETURNS_HIGH (R186). -/
def execHrxReturnsHigh (s : State) : Host.Outcome State Fault Refusal := live s huntAgain

/-- DISCARDED_BYTE (R171). -/
def execDiscardedByte (b : Byte) (stopLow : Bool) (s : State) : Host.Outcome State Fault Refusal :=
  live s (onlyIf s.receiving (lineByte b stopLow))

/-- LINK_RESET (R186). -/
def execLinkReset (s : State) : Host.Outcome State Fault Refusal := serve s takeLinkReset

end Sys2Proof.Machine
end

