-- ==== Sys2Proof/Machine/Reset.lean ====
section
/-! DEFINITION. The full reset (R201 to R203): the work lost when it begins, the image check, and what every
block is loaded with when it ends. The commands FULL_RESET and FULL_RESET_HELD. -/

namespace Sys2Proof.Machine

/-! ### The image check (R194, R202) -/

/-- A baseline component fits its field. -/
def componentOk (z : Int) : Bool := decide (-32768 ≤ z) && decide (z ≤ 32767)

/-- Every value of an image lies within its range, and its settings pass checks 1 to 5 (R194). That its
integrity value matches its contents is what the presence of the image says. -/
def StoreImage.valid (img : StoreImage) : Bool :=
  img.settings.inRange && img.settings.firstFailure.isNone
    && allSources.all (fun src => routeAllowed src (img.routes.get src.ix))
    && allClasses.all (fun c => decide ((img.notices.get c.ix).1 ≤ 3))
    && allSteps.all (fun i =>
        ((img.baselines.get i).all (fun b => componentOk b.1 && componentOk b.2))
          && ((img.rises.get i).all (fun r => decide (r ≤ 20000)))
          && decide (img.opCounts.get i ≤ Config.count32))

/-- The image that a full reset loads from, absent where it is invalid. -/
def State.loadedImage (s : State) : Option StoreImage := s.su.image.filter StoreImage.valid

/-! ### What each block is loaded with (R202) -/

/-- The settings loaded. -/
def loadedSettings (img : Option StoreImage) : Settings :=
  match img with
  | none => Settings.factory
  | some x => x.settings

/-- The mode after a full reset (R91, R202). -/
def loadedMode (img : Option StoreImage) : Mode :=
  match img with
  | none => .off
  | some x => x.settings.startMode

/-- A contact input after a full reset: the pin keeps its level, steady from the reset (R23). -/
def ContactIn.restart (x : ContactIn) : ContactIn := { raw := x.raw, since := 0, value := .undefined }

/-- A step's record after a full reset (R42, R45). -/
def StepRec.restart (r : StepRec) (installed : Bool) : StepRec :=
  { Reset.step with
    state := if installed then .discharging else .disabled
    basis := if installed then some .startUp else none
    closedIn := r.closedIn.restart
    openIn := r.openIn.restart }

/-- The Step Table after a full reset (R45). -/
def StepTable.restart (t : StepTable) (c : Settings) : StepTable :=
  { Reset.stepTable with steps := Tab.build (fun i => (t.steps.get i).restart (c.installed i)) }

/-- The Switching Unit after a full reset (R74). -/
def loadedSwitching (img : Option StoreImage) : Switching :=
  { Reset.switching with
    steps := Tab.build (fun i =>
      { Reset.swuStep with
        opCount := match img with | none => 0 | some x => x.opCounts.get i }) }

/-- The Cooldown Unit after a full reset (R85, R90). -/
def loadedCooldown (c : Settings) : Cooldown :=
  let level := c.y .dutyLimit - Config.dutyMargin
  { Reset.cooldown with
    steps := Tab.build (fun _ =>
      { discharge := none
        discharged := false
        duty := level
        dutyTimer := if level = 0 then none else some (c.ySec .dutyInterval) }) }

/-- The Voltage Regulator after a full reset (R116, R119). -/
def loadedRegulator (img : Option StoreImage) : Regulator :=
  let c := loadedSettings img
  { Reset.regulator with
    mode := loadedMode img
    silence :=
      if loadedMode img = .manual ∧ c.y .fallbackInterval ≠ 0 then some (c.ySec .fallbackInterval)
      else none
    steps := Tab.build (fun i => ⟨match img with | none => none | some x => x.rises.get i, 0⟩) }

/-- Unbalance Protection after a full reset (R150, R157). -/
def loadedUnbalance (img : Option StoreImage) : Unbalance :=
  { Reset.unbalance with
    steps := Tab.build (fun i =>
      { Reset.ubpStep with
        baseline := match img with
          | none => none
          | some x => (x.baselines.get i).map (fun b => ⟨b.1, b.2, false⟩) }) }

/-- The Event Router after a full reset (R159, R170). -/
def loadedRouter (img : Option StoreImage) : Router :=
  match img with
  | none => Reset.router
  | some x => { Reset.router with routes := x.routes, active := Tab.build (fun _ => false) }

/-- The notice table after a full reset, with the STORE class raised by an invalid image (R179, R199). -/
def loadedNotices (img : Option StoreImage) : Vector Notice 14 :=
  match img with
  | none => Reset.hostLink.notices
  | some x => Tab.build (fun c =>
      { Reset.notice c with priority := (x.notices.get c).1, masked := (x.notices.get c).2 })

/-- The Host Link after a full reset with the straps read (R187). -/
def loadedHostLink (img : Option StoreImage) (baud1 baud0 : Bool) : HostLink :=
  { Reset.hostLink with baud1 := baud1, baud0 := baud0, notices := loadedNotices img }

/-- The Settings Unit after a full reset (R203). -/
def loadedSettingsUnit (img : Option StoreImage) (cause : ResetCause) (commits : Nat) : SettingsUnit :=
  { Reset.settingsUnit with
    active := loadedSettings img
    image := img
    fault := img.isNone
    resetCause := cause
    imageValidAtReset := img.isSome
    commits := commits }

/-- The part at the end of a full reset (R202). The cause recorded is the one that began the reset (R201). -/
def restart (cause : ResetCause) (baud1 baud0 : Bool) (s : State) : State :=
  let img := s.loadedImage
  let c := loadedSettings img
  { now := 0
    resetHeld := none
    mi := Reset.intake
    st := s.st.restart c
    swu := loadedSwitching img
    cdu := loadedCooldown c
    vrg := loadedRegulator img
    hsv := Reset.harmonics
    ubp := loadedUnbalance img
    evr := loadedRouter img
    hlk := loadedHostLink img baud1 baud0
    su := loadedSettingsUnit img (s.resetHeld.getD cause) s.su.commits
    pending := s.pending }

/-! ### A reset begins (R60, R74, R201, R202) -/

/-- SWU when a full reset begins: no coil is energized, and operations, queue and staged order are lost. -/
def Switching.lose (w : Switching) : Switching :=
  { w with
    queue := []
    slot := none
    staged := none
    steps := Tab.build (fun i =>
      { w.steps.get i with op := none, closeCoil := false, tripA := false, tripB := false }) }

/-- The work in flight that a full reset loses: operations, a reply, a capture, a commit, the hold timers. -/
def loseWork (s : State) : State :=
  ((((s.onSwu Switching.lose).onUbp (fun u => { u with capture := none })).onEvr
      (fun e => { e with hold := Tab.build (fun _ => none) })).onHlk
      (fun h => { h with busy := false, sending := none, sendDue := none })).onSu
      (fun u => { u with store := .idle })

/-- A full reset begins; a cause that arises while one is held belongs to that one (R201). -/
def holdReset (cause : ResetCause) (s : State) : State :=
  { loseWork s with resetHeld := some (s.resetHeld.getD cause) }

/-! ### The commands -/

/-- FULL_RESET (R201 to R203). -/
def execFullReset (cause : ResetCause) (baud1 baud0 : Bool) (s : State) :
    Host.Outcome State Fault Refusal :=
  .next (restart cause baud1 baud0 s)

/-- FULL_RESET_HELD (R201, R202). -/
def execFullResetHeld (cause : ResetCause) (s : State) : Host.Outcome State Fault Refusal :=
  .next (holdReset cause s)

end Sys2Proof.Machine
end

