-- ==== Sys2Proof/Machine/Timebase.lean ====
section
/-! DEFINITION. The timebase (4.2): which timer has run out, in the model's fixed order, and the tick of one
millisecond. On an empty queue a step takes the first timer that has run out, and else ticks (log entry 3). -/

namespace Sys2Proof.Machine

/-- The expiries of one step's timers, each with whether it is due. -/
def State.stepDue (s : State) (i : StepIx) : List (Bool × Instr) :=
  [(s.limitReached i, .operateLimitExpiry i),
   (s.pulseOver i, .pulseExpiry i),
   (s.settleOver i, .settleExpiry i),
   (s.dischargeOver i, .dischargeExpiry i),
   (s.dutyOver i, .dutyExpiry i),
   (s.armingOver i, .armingExpiry i)]

/-- The expiries of the position monitor: the filters, then the end of the debounce time from the full
reset, then the decoders. -/
def State.monitorDue (s : State) : List (Bool × Instr) :=
  allSteps.flatMap (fun i =>
      [(s.debounceDue i .closedContact, Instr.debounceExpiry i .closedContact),
       (s.debounceDue i .openContact, .debounceExpiry i .openContact)])
    ++ [(s.debounceEndDue, .debounceTimeFromReset)]
    ++ allSteps.map (fun i => (s.disagreementDue i, .positionDisagreementExpiry i))

/-- The expiries of the measurement links and of the acquisition window. -/
def State.intakeDue (s : State) : List (Bool × Instr) :=
  [(s.silence100 .a, .silence100ms .a), (s.silence100 .b, .silence100ms .b),
   (s.silence500 .a, .silence500ms .a), (s.silence500 .b, .silence500ms .b),
   (s.gapOver .a, .measByteGapTimeout .a), (s.gapOver .b, .measByteGapTimeout .b),
   (s.windowOver, .acquisitionWindowExpiry)]

/-- Whether the part's latest time for the end of a reply has come (R176). -/
def State.replyDue (s : State) : Bool := s.hlk.sending.isSome && expired s s.hlk.sendDue

/-- Whether the commit in progress has lasted as long as a commit may (R196). -/
def State.commitDue (s : State) : Bool :=
  match s.su.store with
  | .idle => false
  | .committing since _ => decide (since + Config.commitLimit ≤ s.now)

/-- The result of a commit that nobody has ended: the free value (log entry 9). -/
def State.commitResult (s : State) : CommitResult :=
  if Config.commitVerifies s.su.commits then .complete else .failed

/-- The yard-wide expiries. -/
def State.yardDue (s : State) : List (Bool × Instr) :=
  [(s.startUpOver, .startupDischargeExpiry), (s.yardOver, .yardTimerExpiry),
   (s.startHoldOver, .startUpHoldExpiry), (s.silenceOver, .stationSilenceExpiry),
   (s.stageOver, .orderStageExpiry),
   (s.auxOver .unbTrip, .auxHoldExpiry .unbTrip), (s.auxOver .opFail, .auxHoldExpiry .opFail),
   (s.auxOver .sourceSwitch, .auxHoldExpiry .sourceSwitch),
   (s.auxOver .stationSilent, .auxHoldExpiry .stationSilent),
   (s.hostGapOver, .hostByteGapTimeout), (s.replyDue, .replyEnd), (s.commitDue, .commitEnd s.commitResult)]

/-- Every expiry, in the model's order, each with whether it is due. -/
def State.expiries (s : State) : List (Bool × Instr) :=
  s.monitorDue ++ allSteps.flatMap s.stepDue ++ s.intakeDue ++ s.yardDue
    ++ allQtys.map (fun q => (s.repeatOver q, .removeRepeatExpiry q))

/-- The expiry that is taken first, where one is due. -/
def State.dueCommand (s : State) : Option Instr := (s.expiries.find? (·.1)).map (·.2)

/-- One millisecond passes (4.2). -/
def tick (s : State) : State := { s with now := s.now + 1 }

end Sys2Proof.Machine
end

