-- ==== Sys2Proof/Machine/Dispatch.lean ====
section
/-! DEFINITION. The dispatch: one arm for each command, each a direct call of its meaning. -/

namespace Sys2Proof.Machine

/-- The effect of a command on everything but the queue. -/
def exec (i : Instr) (s : State) : Host.Outcome State Fault Refusal :=
  match i with
  | .fullReset cause baud1 baud0 => Sys2Proof.Machine.execFullReset cause baud1 baud0 s
  | .measFrame link bs => Sys2Proof.Machine.execMeasFrame link bs s
  | .measFramingFailure link => Sys2Proof.Machine.execMeasFramingFailure link s
  | .measByteGapTimeout link => Sys2Proof.Machine.execMeasByteGapTimeout link s
  | .linkLocked link bs => Sys2Proof.Machine.execLinkLocked link bs s
  | .lockedBadFrameLimit link frame => Sys2Proof.Machine.execLockedBadFrameLimit link frame s
  | .silence100ms link => Sys2Proof.Machine.execSilence100ms link s
  | .silence500ms link => Sys2Proof.Machine.execSilence500ms link s
  | .acquisitionWindowExpiry => Sys2Proof.Machine.execAcquisitionWindowExpiry s
  | .measDisagreeStart link bs => Sys2Proof.Machine.execMeasDisagreeStart link bs s
  | .measDisagreeEnd link what => Sys2Proof.Machine.execMeasDisagreeEnd link what s
  | .contactLevelChange step contact made => Sys2Proof.Machine.execContactLevelChange step contact made s
  | .debounceExpiry step contact => Sys2Proof.Machine.execDebounceExpiry step contact s
  | .positionDisagreementExpiry step => Sys2Proof.Machine.execPositionDisagreementExpiry step s
  | .pulseExpiry step => Sys2Proof.Machine.execPulseExpiry step s
  | .operateLimitExpiry step => Sys2Proof.Machine.execOperateLimitExpiry step s
  | .settleExpiry step => Sys2Proof.Machine.execSettleExpiry step s
  | .orderStageExpiry => Sys2Proof.Machine.execOrderStageExpiry s
  | .dischargeExpiry step => Sys2Proof.Machine.execDischargeExpiry step s
  | .startupDischargeExpiry => Sys2Proof.Machine.execStartupDischargeExpiry s
  | .dutyExpiry step => Sys2Proof.Machine.execDutyExpiry step s
  | .yardTimerExpiry => Sys2Proof.Machine.execYardTimerExpiry s
  | .startUpHoldExpiry => Sys2Proof.Machine.execStartUpHoldExpiry s
  | .insertDelayReached link bs => Sys2Proof.Machine.execInsertDelayReached link bs s
  | .removeDelayReached link bs => Sys2Proof.Machine.execRemoveDelayReached link bs s
  | .overvoltageDelay link bs => Sys2Proof.Machine.execOvervoltageDelay link bs s
  | .overvoltageRepeat link bs => Sys2Proof.Machine.execOvervoltageRepeat link bs s
  | .lossOfVoltageDelay link bs => Sys2Proof.Machine.execLossOfVoltageDelay link bs s
  | .stationSilenceExpiry => Sys2Proof.Machine.execStationSilenceExpiry s
  | .harmMoveUp qty link bs => Sys2Proof.Machine.execHarmMoveUp qty link bs s
  | .harmMoveDown qty link bs => Sys2Proof.Machine.execHarmMoveDown qty link bs s
  | .removeRepeatExpiry qty => Sys2Proof.Machine.execRemoveRepeatExpiry qty s
  | .armingExpiry step => Sys2Proof.Machine.execArmingExpiry step s
  | .unbAlarm step link bs => Sys2Proof.Machine.execUnbAlarm step link bs s
  | .unbTrip step link bs => Sys2Proof.Machine.execUnbTrip step link bs s
  | .captureComplete link bs => Sys2Proof.Machine.execCaptureComplete link bs s
  | .auxHoldExpiry source => Sys2Proof.Machine.execAuxHoldExpiry source s
  | .hostFrame bs => Sys2Proof.Machine.execHostFrame bs s
  | .hostFrameAbandon cause => Sys2Proof.Machine.execHostFrameAbandon cause s
  | .hostByteGapTimeout => Sys2Proof.Machine.execHostByteGapTimeout s
  | .replyEnd => Sys2Proof.Machine.execReplyEnd s
  | .breakOnHrx => Sys2Proof.Machine.execBreakOnHrx s
  | .ident => Sys2Proof.Machine.execIdent s
  | .yardStatus => Sys2Proof.Machine.execYardStatus s
  | .stepRead step => Sys2Proof.Machine.execStepRead step s
  | .measRead record => Sys2Proof.Machine.execMeasRead record s
  | .linkRead link clear => Sys2Proof.Machine.execLinkRead link clear s
  | .linkStats => Sys2Proof.Machine.execLinkStats s
  | .harmRead => Sys2Proof.Machine.execHarmRead s
  | .unbRead step => Sys2Proof.Machine.execUnbRead step s
  | .queueRead => Sys2Proof.Machine.execQueueRead s
  | .noticeList => Sys2Proof.Machine.execNoticeList s
  | .modeSet mode => Sys2Proof.Machine.execModeSet mode s
  | .orderStage step kind => Sys2Proof.Machine.execOrderStage step kind s
  | .orderExecute step kind => Sys2Proof.Machine.execOrderExecute step kind s
  | .orderCancel => Sys2Proof.Machine.execOrderCancel s
  | .stepEnable step => Sys2Proof.Machine.execStepEnable step s
  | .stepDisable step => Sys2Proof.Machine.execStepDisable step s
  | .stepRelease step confirm => Sys2Proof.Machine.execStepRelease step confirm s
  | .marksClear step => Sys2Proof.Machine.execMarksClear step s
  | .baselineCapture step => Sys2Proof.Machine.execBaselineCapture step s
  | .captureCancel => Sys2Proof.Machine.execCaptureCancel s
  | .settingWrite item index value => Sys2Proof.Machine.execSettingWrite item index value s
  | .settingRead item index source => Sys2Proof.Machine.execSettingRead item index source s
  | .settingsApply => Sys2Proof.Machine.execSettingsApply s
  | .settingsDiscard => Sys2Proof.Machine.execSettingsDiscard s
  | .routeSet source destination => Sys2Proof.Machine.execRouteSet source destination s
  | .routeRead => Sys2Proof.Machine.execRouteRead s
  | .storeCommit => Sys2Proof.Machine.execStoreCommit s
  | .storeStatus => Sys2Proof.Machine.execStoreStatus s
  | .baselineUnlock => Sys2Proof.Machine.execBaselineUnlock s
  | .commitEnd result => Sys2Proof.Machine.execCommitEnd result s
  | .noticeFetch => Sys2Proof.Machine.execNoticeFetch s
  | .noticeAck cls => Sys2Proof.Machine.execNoticeAck cls s
  | .noticeConfig cls priority mask => Sys2Proof.Machine.execNoticeConfig cls priority mask s
  | .linkReset => Sys2Proof.Machine.execLinkReset s
  | .discardedByte byte stopLow => Sys2Proof.Machine.execDiscardedByte byte stopLow s
  | .hrxReturnsHigh => Sys2Proof.Machine.execHrxReturnsHigh s
  | .debounceTimeFromReset => Sys2Proof.Machine.execDebounceTimeFromReset s
  | .fullResetHeld cause => Sys2Proof.Machine.execFullResetHeld cause s

end Sys2Proof.Machine
end

