-- ==== Sys2Proof/Machine/Idle.lean ====
section
/-! DEFINITION. What a step does on an empty queue. -/

namespace Sys2Proof.Machine

/-- A step on an empty queue (log entry 3): nothing while a reset is held; else the first timer that has run out
is taken; where none has, the selector takes a link that waits for the end of the millisecond (R10, log entry 6);
and else one millisecond passes. -/
def idle (s : State) : Host.Outcome State Fault Refusal :=
  if s.resetHeld.isSome then .next s
  else match s.dueCommand with
  | some c => exec c s
  | none => .next (if s.mi.waiting ≠ [] then selectWaiting s else tick s)

end Sys2Proof.Machine
end

