-- ==== Sys2Proof/Machine/Step.lean ====
section
/-! DEFINITION. One step of the block, and the placing of a command in front of its queue. -/

namespace Sys2Proof.Machine

/-- One step: the command at the front of the queue is taken on the state with the queue's
rest; an empty queue is `idle`. -/
def step (s : State) : Host.Outcome State Fault Refusal :=
  match s.pending with
  | c :: rest => exec c { s with pending := rest }
  | [] => idle s

/-- The state with the command that a word spells put at the front of the queue. -/
def State.withFetchWord (s : State) (nbits w : Nat) : State :=
  match decodeTableWord nbits w with
  | none => s
  | some c => { s with pending := c :: s.pending }

end Sys2Proof.Machine
end

