-- ==== Sys2Proof/Safety.lean ====
section
/-! DEFINITION. What counts as a sound state, in the terms the statements use: one predicate for each property
that the manual says holds at every moment. -/

/-- The command that a request is when it is sent by itself (R175, R206). -/
def Sys2Proof.Request.command : Sys2Proof.Request → Sys2Proof.Instr
  | .ident => .ident
  | .yardStatus => .yardStatus
  | .stepRead i => .stepRead i
  | .measRead r => .measRead r
  | .linkRead l c => .linkRead l c
  | .linkStats => .linkStats
  | .harmRead => .harmRead
  | .unbRead i => .unbRead i
  | .queueRead => .queueRead
  | .noticeList => .noticeList
  | .modeSet m => .modeSet m
  | .orderStage i k => .orderStage i k
  | .orderExecute i k => .orderExecute i k
  | .orderCancel => .orderCancel
  | .stepEnable i => .stepEnable i
  | .stepDisable i => .stepDisable i
  | .stepRelease i c => .stepRelease i c
  | .marksClear i => .marksClear i
  | .baselineCapture i => .baselineCapture i
  | .captureCancel => .captureCancel
  | .settingWrite i x v => .settingWrite i x v
  | .settingRead i x c => .settingRead i x c
  | .settingsApply => .settingsApply
  | .settingsDiscard => .settingsDiscard
  | .routeSet x d => .routeSet x d
  | .routeRead => .routeRead
  | .storeCommit => .storeCommit
  | .storeStatus => .storeStatus
  | .baselineUnlock => .baselineUnlock
  | .noticeFetch => .noticeFetch
  | .noticeAck c => .noticeAck c
  | .noticeConfig c p m => .noticeConfig c p m
  | .linkReset => .linkReset

namespace Sys2Proof.Machine

/-- The state with a reply as its last answer, and nothing else changed. -/
def State.replied (s : State) (r : Reply) : State := { s with hlk := { s.hlk with answer := some r } }

/-- Coil interlock (R60): no step has its close coil and a trip coil energized together, and its two trip
coils are energized and de-energized together. -/
def State.coilsSafe (s : State) : Prop :=
  ∀ i, ¬((s.sw i).closeCoil = true ∧ ((s.sw i).tripA = true ∨ (s.sw i).tripB = true))
    ∧ (s.sw i).tripA = (s.sw i).tripB

/-- The two lists agree with the states (R41): the ring holds exactly the steps in READY and the service list
exactly the steps in ENERGIZED, and neither holds a step twice. -/
def State.listsAgree (s : State) : Prop :=
  s.st.ring.Nodup ∧ s.st.service.Nodup
    ∧ (∀ i, i ∈ s.st.ring ↔ (s.step i).state = .ready)
    ∧ (∀ i, i ∈ s.st.service ↔ (s.step i).state = .energized)

/-- The fields that follow the state field (R21, R68): the cause is present in LOCKED_OUT alone, the time of
energization in ENERGIZED alone, the basis in DISCHARGING alone, and the retries used in LOCKED_OUT with
cause FAIL_TO_OPEN alone. -/
def State.fieldsFollow (s : State) : Prop :=
  ∀ i, ((s.step i).cause.isSome = true ↔ (s.step i).state = .lockedOut)
    ∧ ((s.step i).energizedAt.isSome = true ↔ (s.step i).state = .energized)
    ∧ ((s.step i).basis.isSome = true ↔ (s.step i).state = .discharging)
    ∧ ((s.sw i).retries.isSome = true → (s.step i).cause = some .failToOpen)

/-- One entry stands before another: by class, and within a class by enqueue time (R47). -/
def Entry.before (a b : Entry) : Prop :=
  a.origin.cls < b.origin.cls ∨ (a.origin.cls = b.origin.cls ∧ a.enqueued ≤ b.enqueued)

/-- The queue holds no step twice and no entry of PROTECTION origin, and is in its order (R47). -/
def State.queueSound (s : State) : Prop :=
  (s.swu.queue.map (·.step)).Nodup ∧ (∀ e ∈ s.swu.queue, e.origin ≠ .protection)
    ∧ s.swu.queue.Pairwise Entry.before

/-- The slot (R50): a record holds it exactly when its origin is not PROTECTION, and the step of a record
that holds it is the step the slot names. -/
def State.slotSound (s : State) : Prop :=
  ∀ i o, (s.sw i).op = some o →
    (o.holdsSlot = true ↔ o.origin ≠ .protection) ∧ (o.holdsSlot = true → s.swu.slot = some i)

/-- The regulator is in HOLD exactly while the mode is not AUTO or a hold cause stands (R94, R95). -/
def State.holdSound (s : State) : Prop :=
  s.vrg.reg = .hold ↔ (s.vrg.mode ≠ .auto ∨ s.vrg.holds.any = true)

/-- The sources (R10, R17): the active link is LOCKED, and where fewer than two links are LOCKED,
MEAS_DISAGREE is inactive and both counts are 0. -/
def State.sourcesSound (s : State) : Prop :=
  (∀ l, s.mi.active = some l → s.locked l = true)
    ∧ ((s.locked .a && s.locked .b) = false →
        s.mi.disagree = false ∧ s.mi.disagreeCount = 0 ∧ s.mi.agreeCount = 0)

/-- Every unbalance stage of a step is INACTIVE with its timer at 0 while the position is not CLOSED
(R141). -/
def State.stagesSound (s : State) : Prop :=
  ∀ i, (s.step i).position ≠ .closed →
    (s.ub i).s1 = ⟨.inactive, 0⟩ ∧ (s.ub i).s2 = ⟨.inactive, 0⟩ ∧ (s.ub i).s3 = ⟨.inactive, 0⟩

/-- The levels of the Cooldown Unit stay in their ranges (R81, R86). -/
def State.levelsSound (s : State) : Prop :=
  (∀ i, (s.cd i).duty ≤ Config.dutyMax) ∧ s.cdu.budget ≤ s.y .yardLimit

end Sys2Proof.Machine
end

