-- ==== Sys2Proof/Certificates/Slice0/Obligations.lean ====
section
/-! DEFINITION. The statements for the provers. Each is a closed proposition about the model; OBLIGATIONS.json
says of each in words what it states and on which rules it rests. `s.replied r` is `s` with `r` as its last
answer and nothing else changed. -/

section Slice0Obligations

open Sys2Proof Sys2Proof.Machine

/-! ### The step and its queue -/

/-- A step takes the command at the front of the queue on the state with the queue's rest. -/
def Obligations.StepTakesTheFrontCommand : Prop :=
  ∀ (c : Instr) (rest : List Instr) (s : State),
    step { s with pending := c :: rest } = exec c { s with pending := rest }

/-- The model's choice (log entries 3 and 6): on an empty queue nothing happens while a reset is held; else the
first timer that has run out is taken; else a link that waits for the end of its millisecond is taken by the
selector; else one millisecond passes. -/
def Obligations.EmptyQueueTakesAnExpiryOrTicks : Prop :=
  ∀ s : State, s.pending = [] →
    (s.resetHeld.isSome = true → step s = .next s)
    ∧ (s.resetHeld = none → ∀ c, s.dueCommand = some c → step s = exec c s)
    ∧ (s.resetHeld = none → s.dueCommand = none → s.mi.waiting ≠ [] → step s = .next (selectWaiting s))
    ∧ (s.resetHeld = none → s.dueCommand = none → s.mi.waiting = [] →
        step s = .next { s with now := s.now + 1 })

/-- Every command in every state answers a next state, and leaves the queue of commands as it is. -/
def Obligations.EveryCommandAnswersNextAndKeepsTheQueue : Prop :=
  ∀ (c : Instr) (s : State), ∃ t, exec c s = .next t ∧ t.pending = s.pending

/-- While a reset is held nothing is taken but the reset itself and the levels of the contacts (R201, R202,
log entry 12). -/
def Obligations.NothingIsTakenWhileAResetIsHeld : Prop :=
  ∀ (c : Instr) (s : State), s.resetHeld.isSome = true →
    match c with
    | .fullReset .. => True
    | .fullResetHeld _ => True
    | .contactLevelChange .. => True
    | _ => exec c s = .next s

/-! ### The full reset -/

/-- What a full reset loads from the store image, or from the factory defaults where it is invalid (R202),
and what it records of itself (R201). -/
def Obligations.FullResetLoadsTheStoreImage : Prop :=
  ∀ (cause : ResetCause) (b1 b0 : Bool) (s : State), ∃ t,
    exec (.fullReset cause b1 b0) s = .next t
    ∧ (∀ img, s.su.image = some img → img.valid = true →
        t.su.active = img.settings ∧ t.vrg.mode = img.settings.startMode ∧ t.evr.routes = img.routes
        ∧ (∀ c, (t.notice c).priority = (img.notices.get c.ix).1
            ∧ (t.notice c).masked = (img.notices.get c.ix).2)
        ∧ (∀ i, (t.ub i).baseline = (img.baselines.get i).map (fun b => ⟨b.1, b.2, false⟩)
            ∧ (t.vrg.steps.get i).rise = img.rises.get i ∧ (t.sw i).opCount = img.opCounts.get i)
        ∧ t.su.image = some img ∧ t.su.imageValidAtReset = true
        ∧ t.su.fault = false ∧ t.sourceActive .storeFault = false
        ∧ (∀ c, (t.notice c).pending = false ∧ (t.notice c).occurrences = 0
            ∧ (t.notice c).detail = none ∧ (t.notice c).condition = false))
    ∧ ((∀ img, s.su.image = some img → img.valid = false) →
        t.su.active = Settings.factory ∧ t.vrg.mode = .off ∧ (∀ src, t.route src = .none)
        ∧ (∀ c, (t.notice c).priority = (if c.number ≤ 4 then 0 else 1) ∧ (t.notice c).masked = false)
        ∧ (∀ i, (t.ub i).baseline = none ∧ (t.vrg.steps.get i).rise = none ∧ (t.sw i).opCount = 0)
        ∧ t.su.image = none ∧ t.su.imageValidAtReset = false
        ∧ t.su.fault = true ∧ t.sourceActive .storeFault = true
        ∧ t.notice .store = ⟨true, 1, false, 1, some ⟨0, none, 0, 0⟩, true⟩
        ∧ (∀ c, c ≠ .store → (t.notice c).pending = false ∧ (t.notice c).occurrences = 0
            ∧ (t.notice c).detail = none ∧ (t.notice c).condition = false))
    ∧ t.su.pendingSet = [] ∧ t.su.store = .idle ∧ t.su.unlock = false ∧ t.su.lastCommit = none
    ∧ t.su.resetCause = s.resetHeld.getD cause ∧ t.resetHeld = none ∧ t.now = 0
    ∧ t.hlk.baud1 = b1 ∧ t.hlk.baud0 = b0

/-- What each block holds after a full reset, beside what it loads (R20, R45, R74, R85, R90, R119, R137, R157,
R170, R187). -/
def Obligations.FullResetLeavesEveryBlockInItsResetState : Prop :=
  ∀ (cause : ResetCause) (b1 b0 : Bool) (s : State), ∃ t,
    exec (.fullReset cause b1 b0) s = .next t
    ∧ ((∀ l, t.link l = ⟨none, .silent, none, 0, 0, none, ⟨0, 0, 0, 0, 0⟩, none⟩)
        ∧ t.mi.active = none ∧ t.mi.posted = none ∧ t.mi.freshStart = true ∧ t.mi.waiting = []
        ∧ t.mi.lost = false ∧ t.mi.window = some 2000 ∧ t.mi.disagree = false ∧ t.mi.disagreeCount = 0
        ∧ t.mi.agreeCount = 0)
    ∧ ((∀ i, (t.step i).state = (if t.su.active.installed i then .discharging else .disabled)
          ∧ (t.step i).basis = (if t.su.active.installed i then some .startUp else none)
          ∧ (t.step i).position = .travel ∧ (t.step i).lastDefinite = none ∧ (t.step i).cause = none
          ∧ (t.step i).energizedAt = none ∧ (t.step i).closedIn.value = .undefined
          ∧ (t.step i).openIn.value = .undefined)
        ∧ t.st.ring = [] ∧ t.st.service = [] ∧ t.insertedRating = 0 ∧ t.st.rebuilt = false)
    ∧ (t.swu.queue = [] ∧ t.swu.slot = none ∧ t.swu.staged = none ∧ t.swu.stationResult = none
        ∧ (∀ i, (t.sw i).op = none ∧ (t.sw i).closeCoil = false ∧ (t.sw i).tripA = false
          ∧ (t.sw i).tripB = false ∧ (t.sw i).retries = none ∧ (t.sw i).breakerFail = false
          ∧ (t.sw i).lastResult = none))
    ∧ ((∀ i, (t.cd i).discharge = none ∧ (t.cd i).discharged = false
          ∧ (t.cd i).duty = t.y .dutyLimit - 2
          ∧ (t.cd i).dutyTimer = (if 2 < t.y .dutyLimit then some (t.ySec .dutyInterval) else none))
        ∧ t.cdu.startUp = .notStarted ∧ t.cdu.budget = 0 ∧ t.cdu.yardTimer = none)
    ∧ (t.vrg.reg = .hold ∧ t.vrg.target = none ∧ t.vrg.holds = ⟨true, false, false, false, true, false⟩
        ∧ t.vrg.below = 0 ∧ t.vrg.above = 0 ∧ t.vrg.noCandidate = false ∧ t.vrg.startHold = .notStarted
        ∧ t.vrg.ovAcc = 0 ∧ t.vrg.repeatAcc = 0 ∧ t.vrg.lovAcc = 0 ∧ t.vrg.overvoltage = false
        ∧ t.vrg.lossOfVoltage = false
        ∧ t.vrg.silence = (if t.vrg.mode = .manual ∧ t.y .fallbackInterval ≠ 0
            then some (t.ySec .fallbackInterval) else none)
        ∧ (∀ i, (t.vrg.steps.get i).rejected = 0))
    ∧ ((∀ q, t.qty q = ⟨.normal, 0, 0, none, none, none⟩) ∧ t.hsv.skipped = 0
        ∧ (∀ i q, t.marked i q = false) ∧ t.harmAlarm = false ∧ t.harmBlock = false
        ∧ t.harmRemove = false)
    ∧ ((∀ i, (t.ub i).eval = .off ∧ (t.ub i).arming = none ∧ (t.ub i).s1 = ⟨.inactive, 0⟩
          ∧ (t.ub i).s2 = ⟨.inactive, 0⟩ ∧ (t.ub i).s3 = ⟨.inactive, 0⟩ ∧ (t.ub i).lastMag = none
          ∧ (t.ub i).history = [] ∧ (t.ub i).lastTrip = none)
        ∧ t.unbAlarm = false ∧ t.ubp.capture = none ∧ t.ubp.lastCapture = none)
    ∧ ((∀ src, src ≠ .storeFault → t.sourceActive src = false) ∧ (∀ i, t.evr.hold.get i = none)
        ∧ (∀ n, t.aux n = false) ∧ t.evr.removal = none)
    ∧ (t.hlk.receiver = .hunting ∧ t.hlk.rx = none ∧ t.hlk.busy = false ∧ t.hlk.counters = ⟨0, 0, 0, 0, 0, 0, 0⟩
        ∧ t.hlk.linkResets = 0 ∧ t.hlk.lastLinkReset = none)

/-- A full reset that begins: every coil and AUX output off, and the work in flight lost (R60, R74, R154, R196,
R201, R202); which cause is recorded where one is held already is R201's. -/
def Obligations.HeldResetLosesTheWorkInFlight : Prop :=
  ∀ (cause : ResetCause) (s : State), ∃ t,
    exec (.fullResetHeld cause) s = .next t
    ∧ t.resetHeld = some (s.resetHeld.getD cause)
    ∧ (∀ i, t.sw i = { s.sw i with op := none, closeCoil := false, tripA := false, tripB := false })
    ∧ t.swu.queue = [] ∧ t.swu.slot = none ∧ t.swu.staged = none
    ∧ t.swu.stationResult = s.swu.stationResult
    ∧ (∀ n, t.aux n = false) ∧ (∀ i, t.evr.hold.get i = none)
    ∧ t.evr.routes = s.evr.routes ∧ t.evr.active = s.evr.active ∧ t.evr.removal = s.evr.removal
    ∧ t.ubp = { s.ubp with capture := none }
    ∧ t.hlk = { s.hlk with busy := false, sending := none, sendDue := none }
    ∧ t.su = { s.su with store := .idle }
    ∧ t.now = s.now ∧ t.mi = s.mi ∧ t.st = s.st ∧ t.cdu = s.cdu ∧ t.vrg = s.vrg ∧ t.hsv = s.hsv
    ∧ t.pending = s.pending

/-- The reset state is sound, and it is what the full reset of a power-on leaves of itself. -/
def Obligations.ResetStateIsSoundAndItsOwnReset : Prop :=
  State.reset.coilsSafe ∧ State.reset.listsAgree ∧ State.reset.queueSound ∧ State.reset.slotSound
    ∧ State.reset.fieldsFollow ∧ State.reset.holdSound ∧ State.reset.sourcesSound
    ∧ State.reset.stagesSound ∧ State.reset.levelsSound
    ∧ exec (.fullReset .powerOn false false) State.reset = .next State.reset

/-! ### Invariants -/

/-- Coil interlock: no step ever has its close coil and a trip coil energized together, and the two trip coils
go together (R60). -/
def Obligations.CoilInterlockIsKept : Prop :=
  ∀ s t : State, s.coilsSafe → step s = .next t → t.coilsSafe

/-- The ready ring and the service list agree with the step states (R41). -/
def Obligations.ListsAgreeWithTheStates : Prop :=
  ∀ s t : State, s.listsAgree → step s = .next t → t.listsAgree

/-- The queue holds no step twice and no PROTECTION entry, and stands in its order (R47). -/
def Obligations.QueueStaysInOrder : Prop :=
  ∀ s t : State, s.queueSound → step s = .next t → t.queueSound

/-- The slot names the step of the record that holds it (R50). -/
def Obligations.SlotNamesItsHolder : Prop :=
  ∀ s t : State, s.slotSound → step s = .next t → t.slotSound

/-- Cause, time of energization, basis and retries follow the state field (R21, R68). -/
def Obligations.FieldsFollowTheStepState : Prop :=
  ∀ s t : State, s.fieldsFollow → step s = .next t → t.fieldsFollow

/-- The regulator is in HOLD exactly while the mode is not AUTO or a hold cause stands (R94, R95). -/
def Obligations.RegulatorHoldsExactlyWithACause : Prop :=
  ∀ s t : State, s.holdSound → step s = .next t → t.holdSound

/-- The active link is LOCKED, and MEAS_DISAGREE with its counts needs two LOCKED links (R10, R11, R17). -/
def Obligations.ActiveLinkIsLocked : Prop :=
  ∀ s t : State, s.sourcesSound → step s = .next t → t.sourcesSound

/-- Every unbalance stage timer of a step is 0 while the step's position is not CLOSED (R141). -/
def Obligations.StageTimersAreZeroUnlessClosed : Prop :=
  ∀ s t : State, s.stagesSound → step s = .next t → t.stagesSound

/-- The duty levels and the yard budget level stay in their ranges (R81, R86, R89). -/
def Obligations.LevelsStayInTheirRanges : Prop :=
  ∀ s t : State, s.levelsSound → step s = .next t → t.levelsSound

/-! ### The host line -/

/-- The frame that spells a request is read back as that request, with every operand at every value, and with
its tag (R204, R205, R206). -/
def Obligations.RequestFramesSpellTheirRequests : Prop :=
  ∀ (r : Request) (tag : Byte),
    hostComplete (requestFrame r tag) = true ∧ hostCheckOk (requestFrame r tag) = true
    ∧ hostType (requestFrame r tag) = requestType r ∧ hostTag (requestFrame r tag) = tag
    ∧ hostPayload (requestFrame r tag) = requestPayload r
    ∧ decodeRequest (requestType r) (requestPayload r) = some (some r)

/-- A good frame is counted, makes the link busy and loads the station-silence timer in MANUAL; its request is
taken by its owner, who does what the request's own command does and gives the answer that one gives; and the
reply carries the type plus 0x80, the tag and the code before the fields (R116, R172, R173, R175, R176). The time
by which it has been sent is the model's (log entry 14). -/
def Obligations.HostFrameOfARequestIsAnswered : Prop :=
  ∀ (r : Request) (tag : Byte) (s : State),
    s.resetHeld = none → s.hlk.receiver = .hunting → s.hlk.rx = none → s.hlk.busy = false →
    let g : State := { s with
      hlk := { s.hlk with
        busy := true
        counters := { s.hlk.counters with good := satInc 65535 s.hlk.counters.good } }
      vrg := { s.vrg with
        silence :=
          if s.vrg.mode = .manual then
            if s.y .fallbackInterval = 0 then none else some (s.now + s.ySec .fallbackInterval)
          else s.vrg.silence } }
    let taken := takeOwner r g
    exec r.command g = .next (taken.1.replied taken.2)
    ∧ ∃ due, exec (.hostFrame (requestFrame r tag)) s
      = .next { taken.1 with
          hlk := { taken.1.hlk with
            busy := true
            answer := some taken.2
            sending := some (hostFrameOf (requestType r + 0x80) tag (u8 taken.2.code.code ++ taken.2.body))
            sendDue := some due } }

/-- A frame that completes while the link is busy is an overrun, and a frame whose check value is wrong a bad
check; neither gets a reply nor changes anything else. A good frame of an unknown type or of a wrong length
is refused with the code alone, is counted, and loads the station-silence timer in MANUAL (R116, R172, R175,
R176). -/
def Obligations.DiscardedAndRefusedHostFrames : Prop :=
  ∀ (bs : List Byte) (s : State),
    s.resetHeld = none → s.hlk.receiver = .hunting → s.hlk.rx = none → hostComplete bs = true →
    (s.hlk.busy = true → exec (.hostFrame bs) s
        = .next { s with hlk := { s.hlk with
            counters := { s.hlk.counters with overruns := satInc 65535 s.hlk.counters.overruns } } })
    ∧ (s.hlk.busy = false → hostCheckOk bs = false → exec (.hostFrame bs) s
        = .next { s with hlk := { s.hlk with
            counters := { s.hlk.counters with badChecks := satInc 65535 s.hlk.counters.badChecks } } })
    ∧ (s.hlk.busy = false → hostCheckOk bs = true → ∀ code,
        (decodeRequest (hostType bs) (hostPayload bs) = none ∧ code = ReplyCode.unknownRequest
          ∨ decodeRequest (hostType bs) (hostPayload bs) = some none ∧ code = ReplyCode.badLength) →
        ∃ t, exec (.hostFrame bs) s = .next t
          ∧ t.hlk.busy = true ∧ t.hlk.answer = some ⟨code, []⟩
          ∧ t.hlk.sending = some (hostFrameOf (if hostType bs < 0x80 then hostType bs + 0x80 else hostType bs)
              (hostTag bs) (u8 code.code))
          ∧ t.hlk.counters = { s.hlk.counters with good := satInc 65535 s.hlk.counters.good }
          ∧ t.mi = s.mi ∧ t.st = s.st ∧ t.swu = s.swu ∧ t.cdu = s.cdu
          ∧ t.vrg = { s.vrg with
              silence :=
                if s.vrg.mode = .manual then
                  if s.y .fallbackInterval = 0 then none else some (s.now + s.ySec .fallbackInterval)
                else s.vrg.silence }
          ∧ t.hsv = s.hsv ∧ t.ubp = s.ubp
          ∧ t.evr = s.evr ∧ t.su = s.su ∧ t.hlk.notices = s.hlk.notices)

/-- A link reset by request and by break: the reply abandoned, the staged order and the pending set empty, the seven
counters at 0, the reset counted with its cause, a frame in progress discarded uncounted, and every other state kept
(R186); the receiver byte by byte: what hunting discards, what begins a frame, what it holds, a length byte above 240,
a low stop bit and a gap of more than 20 ms, each with the one counter it counts, and that nothing is abandoned with
no frame in progress (R171); the end of a reply (R173) and the return of the line (R186). That a LINK_RESET by itself
leaves the link not busy and its OK in the last answer, R186 keeping it busy until the reply has been sent, is the
model's form of a bare request (log entry 4); what an ignoring receiver takes, and that a gap that is over is taken
before what arrives with it, is the model's (log entry 11). -/
def Obligations.LinkResetsAndLineEvents : Prop :=
  ∀ s : State, s.resetHeld = none →
    (let reset (cause : LinkResetCause) (receiver : Receiver) (answer : Option Reply) : State := { s with
       swu := { s.swu with staged := none }
       su := { s.su with pendingSet := [] }
       hlk := { s.hlk with
         receiver := receiver
         rx := none
         busy := false
         sending := none
         sendDue := none
         answer := answer
         counters := ⟨0, 0, 0, 0, 0, 0, 0⟩
         linkResets := satInc 65535 s.hlk.linkResets
         lastLinkReset := some cause } }
     exec .linkReset s = .next (reset .request .hunting (some ⟨.ok, []⟩))
     ∧ (s.hlk.receiver = .hunting → exec .breakOnHrx s = .next (reset .lineBreak .ignoring s.hlk.answer))
     ∧ (s.hlk.receiver = .ignoring → exec .breakOnHrx s = .next s))
    ∧ (let k := s.hlk.counters
       let held : List Byte := match s.hlk.rx with | none => [] | some x => x.bytes
       let line (bytes : List Byte) (c : HostCounters) : State := { s with hlk := { s.hlk with
         rx := if bytes = [] then none else some ⟨bytes, s.now + 21⟩
         counters := c } }
       let late := ∃ x, s.hlk.rx = some x ∧ 1 ≤ x.bytes.length ∧ x.gapDue ≤ s.now
       let timedOut := line [] { k with timeouts := satInc 65535 k.timeouts }
       let lineError := line [] { k with lineErrors := satInc 65535 k.lineErrors }
       let lengthError := line [] { k with lengthErrors := satInc 65535 k.lengthErrors }
       (s.hlk.receiver = .hunting → late → exec .hostByteGapTimeout s = .next timedOut
         ∧ (∀ bs, exec (.hostFrame bs) s = exec (.hostFrame bs) timedOut)
         ∧ (∀ b low, exec (.discardedByte b low) s = exec (.discardedByte b low) timedOut)
         ∧ ∀ cause, exec (.hostFrameAbandon cause) s = exec (.hostFrameAbandon cause) timedOut)
       ∧ (s.hlk.receiver = .hunting → ¬late → exec .hostByteGapTimeout s = .next s
         ∧ (∀ b, (held = [] → exec (.hostFrame [b]) s = .next (if b = 0xA5#8 then line [b] k
               else line [] { k with discarded := satInc 65535 k.discarded }))
             ∧ (held.length = 1 →
               exec (.hostFrame [b]) s = .next (if 240 < b.toNat then lengthError else line (held ++ [b]) k))
             ∧ (2 ≤ held.length → (∀ n : Byte, held[1]? = some n → held.length + 1 ≠ n.toNat + 6 →
               exec (.hostFrame [b]) s = .next (line (held ++ [b]) k))
               ∧ (hostComplete (held ++ [b]) = true →
                 exec (.hostFrame [b]) s = exec (.hostFrame (held ++ [b])) (line [] k)))
             ∧ exec (.hostFrame [b]) s = .next (hostByte s b)
             ∧ exec (.discardedByte b false) s = exec (.hostFrame [b]) s
             ∧ exec (.discardedByte b true) s = .next lineError)
         ∧ (∀ bs, exec (.hostFrame bs) s = .next (bs.foldl hostByte s))
         ∧ (held.length = 1 → exec (.hostFrameAbandon .lengthError) s = .next lengthError)
         ∧ (held.length ≠ 1 → exec (.hostFrameAbandon .lengthError) s = .next s)
         ∧ (held ≠ [] → exec (.hostFrameAbandon .lineError) s = .next lineError)
         ∧ (held = [] → exec (.hostFrameAbandon .lineError) s = .next s))
       ∧ (s.hlk.receiver = .ignoring → exec .hostByteGapTimeout s = .next s
         ∧ (∀ bs, exec (.hostFrame bs) s = .next s) ∧ (∀ b low, exec (.discardedByte b low) s = .next s)
         ∧ ∀ cause, exec (.hostFrameAbandon cause) s = .next s)
       ∧ (s.hlk.sending.isSome = true → exec .replyEnd s
           = .next { s with hlk := { s.hlk with busy := false, sending := none, sendDue := none } })
       ∧ exec .hrxReturnsHigh s = .next { s with hlk := { s.hlk with receiver := .hunting } })

/-! ### Reads -/

/-- IDENT reports the part's identity, the installed count, the reset record, the uptime and the link reset
count, and changes no state (R177). -/
def Obligations.IdentReportsPartAndResetRecord : Prop :=
  ∀ s : State, s.resetHeld = none →
    exec .ident s = .next (s.replied ⟨.ok,
      [0x50#8, 0x08#8, 2#8, BitVec.ofNat 8 (allSteps.filter s.su.active.installed).length,
        BitVec.ofNat 8 (match s.su.resetCause with | .powerOn => 0 | .supply => 1 | .pin => 2),
        if s.su.imageValidAtReset then 0#8 else 1#8]
      ++ u32 (s.now / 1000) ++ u16 s.hlk.linkResets⟩)

/-- The read requests change no state but the counters that LINK_READ clears, and answer OK with the items of
their owners' tables in that order (R9, R18, R19, R44, R73, R90, R118, R136, R156, R170, R174, R178, R185, R200,
R207); an operand out of range is OUT_OF_RANGE. The last two clauses say the encodings of sets and the codes of the
values that R204 lists or has numbered by their owner's order. The forms that R204 leaves open (a value absent in one
state of an item, an item of several fields, the order of the contacts, an AUX output's code, a timer that is due) are
the model's (log entry 13). -/
def Obligations.ReadRequestsReportTheState : Prop :=
  (∀ s : State, s.resetHeld = none →
    let fl (b : Bool) : List Byte := [if b then 1#8 else 0#8]
    let o8 (x : Option Nat) : List Byte := match x with | none => [0xFF#8] | some n => u8 n
    let o16 (x : Option Nat) : List Byte := match x with | none => [0xFF#8, 0xFF#8] | some n => u16 n
    let p32 (x : Option Nat) : List Byte := match x with | none => List.replicate 5 0#8 | some n => 1#8 :: u32 n
    let seconds (due : Option Nat) : Nat := match due with
      | none => 0
      | some d => max 1 ((d - s.now + 999) / 1000)
    let once (t : OneShot) : List Byte := match t with
      | .notStarted => 0#8 :: List.replicate 5 0#8
      | .running d => [1#8, 1#8] ++ u32 (max 1 ((d - s.now + 999) / 1000))
      | .over => 2#8 :: List.replicate 5 0#8
    let places (xs : List StepIx) : List Byte := u8 xs.length ++ xs.flatMap (fun i => u8 (stepNo i))
    let place (i : StepIx) (xs : List StepIx) : List Byte :=
      if i ∈ xs then u8 (xs.findIdx (· == i) + 1) else [0xFF#8]
    let baseline (b : Option Baseline) : List Byte := match b with
      | none => List.replicate 6 0#8
      | some b => 1#8 :: (i16 b.inPhase ++ i16 b.quad ++ fl b.uncommitted)
    ((∀ k, s.hlk.counters = k → exec .linkStats s = .next (s.replied ⟨.ok,
         u16 k.good ++ u16 k.badChecks ++ u16 k.overruns ++ u16 k.timeouts ++ u16 k.lengthErrors
           ++ u16 k.lineErrors ++ u16 k.discarded ++ u16 s.hlk.linkResets
           ++ u8 (match s.hlk.lastLinkReset with | none => 255 | some .request => 0 | some .lineBreak => 1)
           ++ u32 s.hlk.baud ++ fl s.attn⟩))
     ∧ (∀ link clear : Byte,
         (1 < link.toNat ∨ 1 < clear.toNat → exec (.linkRead link clear) s = .next (s.replied ⟨.outOfRange, []⟩))
         ∧ (∀ l, linkOfCode link.toNat = some l →
             let r := s.link l
             let reply : Reply := ⟨.ok,
               u8 (match r.state with | .silent => 0 | .seeking => 1 | .locked => 2)
                 ++ u8 (if s.mi.active = some l then 0 else if r.state = .locked then 1 else 2)
                 ++ (match r.lastSeq with | none => List.replicate 3 0#8 | some q => 1#8 :: u16 q.toNat)
                 ++ u8 (if r.state = .locked then 8 else r.run) ++ u8 r.bad
                 ++ p32 (r.lastGood.map (fun t => min (s.now - t) 65535))
                 ++ u16 r.counters.accepted ++ u16 r.counters.corrupt ++ u16 r.counters.format
                 ++ u16 r.counters.unitFault ++ u16 r.counters.gaps
                 ++ u8 (linkCode s.su.active.preferred) ++ fl s.mi.lost ++ fl s.mi.disagree
                 ++ u8 s.mi.agreeCount ++ u8 s.mi.disagreeCount⟩
             (clear = 0#8 → exec (.linkRead link clear) s = .next (s.replied reply))
             ∧ (clear = 1#8 → exec (.linkRead link clear) s
               = .next ((s.onLink l (fun r => { r with counters := ⟨0, 0, 0, 0, 0⟩ })).replied reply)))))
    ∧ exec .yardStatus s = .next (s.replied ⟨.ok,
        u32 (s.now / 1000) ++ fl s.st.rebuilt
          ++ u32 ((allSteps.filter (fun i => (s.step i).state == .energized)).map s.su.active.rating).sum
          ++ places s.st.ring ++ places s.st.service
          ++ u8 s.cdu.budget ++ u8 (s.y .yardLimit) ++ u32 (seconds s.cdu.yardTimer)
          ++ fl (decide (s.y .yardLimit ≤ s.cdu.budget)) ++ once s.cdu.startUp
          ++ u8 s.vrg.mode.code ++ u8 s.vrg.reg.code
          ++ (match s.vrg.target with
              | none => List.replicate 3 0#8
              | some g => 1#8 :: (u8 (stepNo g.step) ++ u8 g.kind.code))
          ++ holdSet s.vrg.holds ++ u32 s.vrg.below ++ u32 s.vrg.above
          ++ fl s.vrg.noCandidate ++ fl s.vrg.overvoltage ++ fl s.vrg.lossOfVoltage
          ++ once s.vrg.startHold ++ u32 (seconds s.vrg.silence)
          ++ o8 (s.mi.active.map linkCode) ++ fl s.mi.lost ++ fl s.mi.disagree
          ++ fl s.harmAlarm ++ fl s.harmBlock ++ fl s.harmRemove
          ++ fl s.unbAlarm ++ o8 (s.ubp.capture.map (fun c => stepNo c.step))
          ++ o8 (s.swu.slot.map stepNo) ++ stepSet (fun i => (s.sw i).breakerFail) ++ fl s.swu.staged.isSome
          ++ fl (decide (s.su.store ≠ .idle)) ++ fl s.su.fault ++ fl s.su.pendingSet.isEmpty ++ fl s.attn
          ++ u8 (allClasses.filter (fun c => (s.notice c).pending && !(s.notice c).masked)).length
          ++ u8 (allClasses.filter (fun c => (s.notice c).pending && (s.notice c).masked)).length⟩)
    ∧ exec .storeStatus s = .next (s.replied ⟨.ok,
        (match s.su.store with
          | .idle => List.replicate 6 0#8
          | .committing since _ => [1#8, 1#8] ++ u32 (s.now - since))
          ++ fl s.su.image.isNone
          ++ (match s.su.lastCommit with
              | none => List.replicate 6 0#8
              | some (r, t) => [1#8, match r with | .complete => 0#8 | .failed => 1#8] ++ u32 t)
          ++ fl s.su.fault ++ o8 ((s.notice .store).detail.map (·.code1))
          ++ fl (decide (s.y .baselineLock = 1)) ++ fl s.su.unlock
          ++ stepSet (fun i => (s.ub i).baseline.any (·.uncommitted))
          ++ stepSet (fun i => decide ((s.ub i).baseline.map (fun b => (b.inPhase, b.quad))
              ≠ (match s.su.image with | none => none | some img => img.baselines.get i)))⟩)
    ∧ exec .routeRead s = .next (s.replied ⟨.ok,
        allSources.flatMap (fun x => u8 (s.route x).code
            ++ (if x.isPulse then 1#8 :: u32 (match s.evr.hold.get x.ix with | none => 0 | some d => d - s.now)
                else 0#8 :: fl (s.sourceActive x)))
          ++ fl (s.aux 0) ++ fl (s.aux 1) ++ fl (s.aux 2) ++ fl (s.aux 3) ++ fl s.freeze ++ fl s.blockInsert
          ++ (match s.evr.removal with
              | none => List.replicate 8 0#8
              | some m => 1#8 :: (u32 m.uptime ++ u8 m.source.number ++ u8 m.destination.code
                  ++ u8 m.steps.length
                  ++ m.steps.flatMap (fun p => u8 (stepNo p.1) ++ o8 (p.2.map OpResult.code))))⟩)
    ∧ (∃ bytes, exec .harmRead s = .next (s.replied ⟨.ok, bytes⟩) ∧ bytes.length = 229
        ∧ bytes = allQtys.flatMap (fun q =>
              let r := s.qty q
              u8 r.state.code ++ u16 r.up ++ u16 r.down ++ o16 r.last ++ u16 (seconds r.repeatDue)
                ++ (match r.removal with
                    | none => List.replicate 7 0#8
                    | some m => 1#8 :: (u32 m.uptime ++ u8 (match m.step with | none => 0 | some i => stepNo i)
                        ++ o8 (m.result.map OpResult.code))))
            ++ fl s.harmAlarm ++ fl s.harmBlock ++ fl s.harmRemove ++ u16 s.hsv.skipped
            ++ allSteps.flatMap (fun i => orderSet (s.hsv.marks.get i)))
    ∧ (∃ bytes, exec .noticeList s = .next (s.replied ⟨.ok, bytes⟩) ∧ bytes.length = 197
        ∧ bytes = allClasses.flatMap (fun c =>
              let n := s.notice c
              u8 c.number ++ fl n.pending ++ u8 n.priority ++ fl n.masked ++ u8 n.occurrences
                ++ (if c.isCondition then fl n.condition else [0xFF#8])
                ++ (match n.detail with
                    | none => List.replicate 8 0#8
                    | some d => 1#8 :: (u32 d.uptime ++ o8 (d.step.map stepNo) ++ u8 d.code1 ++ u8 d.code2)))
            ++ fl s.attn)
    ∧ (∃ bytes, exec .queueRead s = .next (s.replied ⟨.ok, bytes⟩) ∧ (s.queueSound → bytes.length ≤ 219)
        ∧ (let records := allSteps.filterMap (fun i => (s.sw i).op.map (fun o => (i, o)))
          bytes = u8 s.swu.queue.length
            ++ s.swu.queue.flatMap (fun e => u8 (stepNo e.step) ++ u8 e.kind.code ++ u8 e.origin.cls
                ++ u32 e.enqueued ++ originSet e.requesters)
            ++ o8 (s.swu.slot.map stepNo) ++ u8 records.length
            ++ records.flatMap (fun p => u8 (stepNo p.1) ++ u8 p.2.kind.code ++ u8 p.2.origin.cls
                ++ u8 (match p.2.phase with | .pulsing => 0 | .awaiting => 1 | .settling => 2) ++ u32 p.2.start
                ++ u32 ((match p.2.phase with
                    | .pulsing => p.2.pulseDue
                    | .awaiting => p.2.limitDue
                    | .settling => p.2.settleDue) - s.now)
                ++ fl p.2.pre.isSome ++ fl p.2.holdsSlot ++ fl p.2.protMerged ++ originSet p.2.requesters)
            ++ (match s.swu.staged with
                | none => List.replicate 7 0#8
                | some g => 1#8 :: (u8 (stepNo g.step) ++ u8 g.kind.code ++ u32 (g.due - s.now)))
            ++ stepSet (fun i => (s.sw i).breakerFail)
            ++ allSteps.flatMap (fun i => o8 (s.sw i).retries)
            ++ (match s.swu.stationResult with
                | none => List.replicate 8 0#8
                | some r => 1#8 :: (u8 (stepNo r.step) ++ u8 r.kind.code ++ u8 r.result.code ++ u32 r.uptime))))
    ∧ ((∀ i : StepIx,
          let r := s.step i
          let w := s.sw i
          let v := s.vrg.steps.get i
          exec (.stepRead (BitVec.ofNat 8 (stepNo i))) s = .next (s.replied ⟨.ok,
            u8 (stepNo i) ++ fl (s.su.active.installed i) ++ u16 (s.su.active.rating i)
              ++ u8 r.state.code ++ o8 (r.cause.map Cause.code) ++ o8 w.retries
              ++ u8 r.position.code ++ o8 (r.lastDefinite.map Position.code)
              ++ u8 r.closedIn.value.code ++ u8 r.openIn.value.code
              ++ p32 r.energizedAt ++ o8 (r.basis.map Basis.code)
              ++ u32 (seconds (s.cd i).discharge) ++ fl (s.cd i).discharged ++ u8 (s.cd i).duty
              ++ o16 v.rise ++ u16 v.rejected ++ orderSet (s.hsv.marks.get i)
              ++ baseline (s.ub i).baseline
              ++ u8 (s.ub i).history.length ++ (s.ub i).history.flatMap u32
              ++ u32 w.opCount ++ o8 (w.lastResult.map OpResult.code)
              ++ u8 (match w.op with
                  | none => 0
                  | some o => match o.phase with | .pulsing => 1 | .awaiting => 2 | .settling => 3)
              ++ place i s.st.ring ++ place i s.st.service ++ fl s.st.rebuilt⟩))
       ∧ (∀ i : StepIx,
          let r := s.ub i
          let stage (g : Stage) : List Byte := u8 g.state.code ++ u32 g.timer
          exec (.unbRead (BitVec.ofNat 8 (stepNo i))) s = .next (s.replied ⟨.ok,
            u8 r.eval.code
              ++ (if r.eval = .awaitSettle then 1#8 :: u32 (match r.arming with | none => 0 | some d => d - s.now)
                  else List.replicate 5 0#8)
              ++ fl (r.eval == .armed && (s.step i).position == .closed && !s.inFlight i)
              ++ stage r.s1 ++ stage r.s2 ++ stage r.s3 ++ p32 r.lastMag
              ++ u16 (s.su.active.l1 i) ++ u16 (s.su.active.l2 i) ++ u16 (s.su.active.l3 i)
              ++ baseline r.baseline
              ++ u8 r.history.length ++ r.history.flatMap (fun t =>
                  u32 t ++ fl (decide (s.y .repeatWindow * 3600 < s.now / 1000 - t)))
              ++ (match r.lastTrip with
                  | none => List.replicate 11 0#8
                  | some x => 1#8 :: (u32 x.uptime ++ u8 x.stage.code ++ u32 x.magnitude ++ u8 x.cause.code))
              ++ fl s.unbAlarm
              ++ (match s.ubp.capture with
                  | none => List.replicate 3 0#8
                  | some c => 1#8 :: (u8 (stepNo c.step) ++ u8 c.count))
              ++ (match s.ubp.lastCapture with
                  | none => List.replicate 7 0#8
                  | some c => 1#8 :: (u8 (stepNo c.step) ++ u8 c.result.code ++ u32 c.uptime))⟩))
       ∧ (∀ n : Byte, n.toNat = 0 ∨ 8 < n.toNat →
           exec (.stepRead n) s = .next (s.replied ⟨.outOfRange, []⟩)
           ∧ exec (.unbRead n) s = .next (s.replied ⟨.outOfRange, []⟩))
       ∧ (∀ (n : Byte) (m : Option MeasRecord),
           (n = 0#8 ∧ m = s.mi.posted ∨ n = 1#8 ∧ m = s.mi.linkA.latest ∨ n = 2#8 ∧ m = s.mi.linkB.latest) →
           exec (.measRead n) s = .next (s.replied ⟨.ok, match m with
             | none => List.replicate 46 0#8
             | some r =>
               let blocks := allSteps.filterMap (fun i => (r.blocks.get i).map (fun x => (i, x)))
               1#8 :: (u32 (min (s.now - r.time) 65535) ++ u8 (linkCode r.link) ++ u16 r.sequence.toNat
                 ++ [r.status] ++ u32 r.frequency ++ u16 r.v1 ++ u16 r.v2 ++ u16 r.v3
                 ++ allQtys.flatMap (fun q => u16 (r.harm.get q)) ++ u8 blocks.length
                 ++ blocks.flatMap (fun p => u8 (stepNo p.1) ++ u16 p.2.i1 ++ u16 p.2.i2 ++ u16 p.2.i3
                     ++ i16 p.2.inPhase ++ i16 p.2.quad))⟩))
       ∧ (∀ n : Byte, 2 < n.toNat → exec (.measRead n) s = .next (s.replied ⟨.outOfRange, []⟩))))
  ∧ ((∀ f : StepIx → Bool, ∃ b : Byte, stepSet f = [b] ∧ ∀ i : StepIx, b.getLsbD i.val = f i)
     ∧ (∀ m : Vector Bool 13, ∃ w : Word16, orderSet m = u16 w.toNat
         ∧ (∀ q : QtyIx, w.getLsbD (qtyNo q) = m.get q)
         ∧ w.getLsbD 0 = false ∧ w.getLsbD 14 = false ∧ w.getLsbD 15 = false)
     ∧ (∀ qs : List Requester, ∃ b : Byte, originSet qs = [b]
         ∧ ∀ o : Origin, b.getLsbD o.cls = true ↔ ∃ q ∈ qs, q.origin = o)
     ∧ (∀ h : HoldSet, ∃ b : Byte, holdSet h = [b] ∧ b.getLsbD 0 = h.noSource ∧ b.getLsbD 1 = h.switchover
         ∧ b.getLsbD 2 = h.disagree ∧ b.getLsbD 3 = h.freeze ∧ b.getLsbD 4 = h.startUp
         ∧ b.getLsbD 5 = h.lossOfVoltage ∧ b.getLsbD 6 = false ∧ b.getLsbD 7 = false))
  ∧ ([Mode.auto, .manual, .off].map Mode.code = [0, 1, 2] ∧ [Kind.close, .opening].map Kind.code = [0, 1]
     ∧ [Link.a, .b].map linkCode = [0, 1]
     ∧ [Origin.protection, .guarding, .station, .regulation].map Origin.cls = [0, 1, 2, 3]
     ∧ [StepState.disabled, .discharging, .ready, .closing, .energized, .opening, .lockedOut].map StepState.code
         = [0, 1, 2, 3, 4, 5, 6]
     ∧ [Position.opened, .closed, .travel, .unknown].map Position.code = [0, 1, 2, 3]
     ∧ [Cause.unbalanceTrip, .repeatedTrip, .failToClose, .failToOpen, .positionUnknown, .uncommandedClose,
         .noCurrent].map Cause.code = [0, 1, 2, 3, 4, 5, 6]
     ∧ [OpResult.success, .failToOperate, .aborted, .already, .notEligible, .superseded, .withdrawn,
         .queueConflict].map OpResult.code = [0, 1, 2, 3, 4, 5, 6, 7]
     ∧ [HarmState.normal, .alarm, .block, .remove].map HarmState.code = [0, 1, 2, 3]
     ∧ [Destination.none, .aux 0, .aux 1, .aux 2, .aux 3, .freeze, .blockInsert, .removeNewest,
         .removeAll].map Destination.code = [0, 1, 2, 3, 4, 5, 6, 7, 8]
     ∧ [Debounced.made, .notMade, .undefined].map Debounced.code = [0, 1, 2]
     ∧ [Basis.own, .startUp].map Basis.code = [0, 1]
     ∧ [RegState.hold, .watch, .pending, .settling].map RegState.code = [0, 1, 2, 3]
     ∧ [EvalState.off, .awaitHold, .awaitSettle, .armed].map EvalState.code = [0, 1, 2, 3]
     ∧ [StageState.inactive, .pickedUp, .asserted].map StageState.code = [0, 1, 2]
     ∧ [TripStage.s2, .s3, .both].map TripStage.code = [0, 1, 2]
     ∧ [CaptureResult.complete, .aborted].map CaptureResult.code = [0, 1])

/-! ### The notice table -/

/-- NOTICE_FETCH answers OK; among the pending unmasked classes it selects the lowest priority number, and among
those the lowest class number; the reply carries the class's number, priority, occurrences, condition and
detail with the number of such classes, or the class as absent and 0; and no state changes (R183). -/
def Obligations.NoticeFetchSelectsTheMostUrgent : Prop :=
  ∀ s : State, s.resetHeld = none →
    let listed (c : NoticeClass) : Prop := (s.notice c).pending = true ∧ (s.notice c).masked = false
    let count := (allClasses.filter (fun c => decide (listed c))).length
    ((∀ c, ¬listed c) → count = 0
        ∧ exec .noticeFetch s = .next (s.replied ⟨.ok, 0xFF#8 :: List.replicate 11 0#8 ++ u8 count⟩))
    ∧ (∀ c, listed c →
        (∀ d, listed d → (s.notice c).priority < (s.notice d).priority
          ∨ (s.notice c).priority = (s.notice d).priority ∧ c.number ≤ d.number) →
        exec .noticeFetch s = .next (s.replied ⟨.ok,
          u8 c.number ++ u8 (s.notice c).priority ++ u8 (s.notice c).occurrences
            ++ u8 (if c.isCondition then (if (s.notice c).condition then 1 else 0) else 255)
            ++ (match (s.notice c).detail with
              | none => List.replicate 8 0#8
              | some d => 1#8 :: u32 d.uptime ++ u8 (match d.step with | none => 255 | some i => stepNo i)
                  ++ u8 d.code1 ++ u8 d.code2)
            ++ u8 count⟩))

/-- NOTICE_ACK makes the class not pending with 0 occurrences, keeps its detail, condition, priority and mask,
and answers the occurrences cleared and the detail (R184); NOTICE_CONFIG gives a class its priority and its mask at
once, keeps the rest, and answers the record as it then stands (R185); an operand out of range changes nothing. -/
def Obligations.NoticesAreAcknowledgedAndConfigured : Prop :=
  ∀ s : State, s.resetHeld = none →
    ((∀ n : Byte, n.toNat = 0 ∨ 14 < n.toNat → exec (.noticeAck n) s = .next (s.replied ⟨.outOfRange, []⟩))
     ∧ (∀ c : NoticeClass,
         let n := s.notice c
         exec (.noticeAck (BitVec.ofNat 8 c.number)) s
           = .next (State.replied { s with hlk := { s.hlk with
               notices := Tab.put s.hlk.notices c.ix { n with pending := false, occurrences := 0 } } }
             ⟨.ok, u8 n.occurrences ++ (match n.detail with
               | none => List.replicate 8 0#8
               | some d => 1#8 :: u32 d.uptime ++ u8 (match d.step with | none => 255 | some i => stepNo i)
                   ++ u8 d.code1 ++ u8 d.code2)⟩)))
    ∧ ((∀ n p m : Byte, n.toNat = 0 ∨ 14 < n.toNat ∨ 3 < p.toNat ∨ 1 < m.toNat →
         exec (.noticeConfig n p m) s = .next (s.replied ⟨.outOfRange, []⟩))
       ∧ (∀ (c : NoticeClass) (p m : Byte), p.toNat ≤ 3 → m.toNat ≤ 1 →
           let n : Notice := { s.notice c with priority := p.toNat, masked := decide (m = 1#8) }
           exec (.noticeConfig (BitVec.ofNat 8 c.number) p m) s
             = .next (State.replied { s with hlk := { s.hlk with notices := Tab.put s.hlk.notices c.ix n } }
               ⟨.ok, noticeRecord c n⟩)
           ∧ (noticeRecord c n).length = 14))

/-- How a class is raised (R180), how a condition class follows its owner's reports and takes a detail alone
(R181), and when ATTN is asserted (R182). That ATTN follows the notice table while a reset is held as well is the
model's (log entry 12). -/
def Obligations.NoticesAreRaisedAndReported : Prop :=
  ∀ (c : NoticeClass) (i : Option StepIx) (a b : Nat) (s : State),
    let n := s.notice c
    let d : Detail := ⟨s.now / 1000, i, a, b⟩
    let put (m : Notice) : State := { s with hlk := { s.hlk with notices := Tab.put s.hlk.notices c.ix m } }
    let raised : Notice :=
      { n with pending := true, occurrences := if n.occurrences < 255 then n.occurrences + 1 else n.occurrences,
               detail := some d }
    raiseNotice c i a b s = put raised
    ∧ (n.condition = false → reportClass c true i a b s = put { raised with condition := true })
    ∧ (n.condition = true → reportClass c true i a b s = put n)
    ∧ reportClass c false i a b s = put { n with condition := false }
    ∧ reportDetail c i a b s = put { n with detail := some d }
    ∧ (s.attn = true ↔ ∃ x, (s.notice x).pending = true ∧ (s.notice x).masked = false)

/-! ### Settings and the store -/

/-- SETTING_WRITE enters a value of a setting's range in the pending set, replacing an entry of the setting,
takes effect nowhere else, and answers the number of entries (R189). SETTINGS_DISCARD empties the set and answers
how many it held (R191). SETTING_READ answers the value in force, or the pending entry or its absence, with the
number of entries, and changes no state (R190). A setting, a value or a source out of range is OUT_OF_RANGE and
changes nothing. The second part fixes the settings themselves: the items of R188 with their index, range and factory
default (those of La, Lb, Lr and H by R120), 1 to 59 outside the range of the fallback interval, and 139 in all. -/
def Obligations.SettingsAreWrittenReadAndDiscarded : Prop :=
  (∀ (item index source : Byte) (value : Word32) (s : State), s.resetHeld = none →
    (exec .settingsDiscard s = .next (State.replied { s with su := { s.su with pendingSet := [] } }
       ⟨.ok, u8 s.su.pendingSet.length⟩)
     ∧ (SettingKey.ofItem item.toNat index.toNat = none →
       exec (.settingWrite item index value) s = .next (s.replied ⟨.outOfRange, []⟩))
     ∧ (∀ k, SettingKey.ofItem item.toNat index.toNat = some k → k.inRange value.toNat = false →
         exec (.settingWrite item index value) s = .next (s.replied ⟨.outOfRange, []⟩))
     ∧ (∀ k, SettingKey.ofItem item.toNat index.toNat = some k → k.inRange value.toNat = true →
         k.item = item.toNat ∧ k.index = index.toNat ∧ ∃ ps : List (SettingKey × Nat),
           exec (.settingWrite item index value) s
             = .next (State.replied { s with su := { s.su with pendingSet := ps } } ⟨.ok, u8 ps.length⟩)
           ∧ readEntry k ps = some value.toNat
           ∧ (∀ j, j ≠ k → readEntry j ps = readEntry j s.su.pendingSet)
           ∧ ps.length = s.su.pendingSet.length
               + (if (readEntry k s.su.pendingSet).isSome then 0 else 1)))
    ∧ (((SettingKey.ofItem item.toNat index.toNat = none ∨ 1 < source.toNat) →
         exec (.settingRead item index source) s = .next (s.replied ⟨.outOfRange, []⟩))
       ∧ (∀ k, SettingKey.ofItem item.toNat index.toNat = some k →
           (source = 0#8 → exec (.settingRead item index source) s
             = .next (s.replied ⟨.ok, 1#8 :: u32 (s.su.active.get k) ++ u8 s.su.pendingSet.length⟩))
           ∧ (source = 1#8 → exec (.settingRead item index source) s
             = .next (s.replied ⟨.ok, (match readEntry k s.su.pendingSet with
                 | none => List.replicate 5 0#8
                 | some v => 1#8 :: u32 v) ++ u8 s.su.pendingSet.length⟩)))))
  ∧ (let yard : List (YardItem × Nat × Nat × Nat × Nat) :=
      [(.preferredLink, 1, 0, 1, 0), (.disagreeLimit, 2, 50, 500, 200), (.debounceTime, 3, 5, 50, 10),
       (.disagreementTime, 4, 20, 2000, 200), (.closePulse, 7, 20, 250, 100), (.tripPulse, 8, 20, 250, 60),
       (.closeLimit, 9, 30, 500, 200), (.openLimit, 10, 30, 500, 120), (.settleWindow, 11, 1, 30, 5),
       (.presenceLevel, 12, 5, 50, 20), (.tripRetries, 13, 0, 2, 1), (.stageTimeout, 14, 5, 60, 15),
       (.dischargeTime, 15, 60, 900, 300), (.dutyLimit, 16, 2, 20, 6), (.dutyInterval, 17, 60, 3600, 900),
       (.yardLimit, 18, 4, 60, 12), (.yardInterval, 19, 60, 1800, 300), (.vl, 20, 8500, 10000, 9800),
       (.vh, 21, 10000, 11500, 10350), (.ti, 22, 5, 600, 60), (.tr, 23, 5, 600, 60)]
      ++ [(.vx, 25, 10200, 12000, 11000), (.tx, 26, 100, 10000, 2000), (.vu, 27, 1000, 8000, 3000),
       (.tlov, 28, 100, 5000, 500), (.startUpHold, 29, 10, 600, 60), (.fallbackInterval, 30, 0, 3600, 0),
       (.startUpMode, 31, 0, 2, 0), (.pUp, 32, 1, 600, 30), (.pDown, 33, 1, 600, 60),
       (.amplification, 34, 120, 500, 150), (.removeRepeat, 35, 30, 600, 120), (.d1, 43, 1, 600, 10),
       (.d2, 44, 100, 60000, 500), (.d3, 45, 0, 500, 40), (.repeatWindow, 46, 1, 72, 24),
       (.repeatCount, 47, 2, 4, 3), (.auxHold, 48, 100, 5000, 1000), (.baselineLock, 49, 0, 1, 1)]
    let steps : List (StepItem × Nat × Nat × Nat × Nat) :=
      [(.installed, 5, 0, 1, 0), (.rating, 6, 100, 50000, 1000), (.expectedRise, 24, 10, 2000, 150),
       (.l1, 40, 10, 60000, 300), (.l2, 41, 10, 60000, 900), (.l3, 42, 10, 60000, 4000)]
    let quantities : List (QtyItem × Nat × Nat × Nat) :=
      [(.la, 36, 0, 10000), (.lb, 37, 0, 10000), (.lr, 38, 0, 10000), (.hyst, 39, 0, 2000)]
    let levels (q : QtyIx) : List Nat := match q.val + 1 with
      | 1 => [500, 800, 1200, 50]
      | 3 | 9 => [300, 500, 800, 30]
      | 5 | 7 => [400, 600, 900, 40]
      | 11 | 13 => [250, 400, 600, 30]
      | _ => [150, 250, 400, 20]
    (∀ i item low high default, (i, item, low, high, default) ∈ yard →
        (∀ index, SettingKey.ofItem item index = if index = 0 then some (.yard i) else none)
        ∧ (∀ v, (SettingKey.yard i).inRange v = true ↔
            low ≤ v ∧ v ≤ high ∧ (i = .fallbackInterval → v = 0 ∨ 60 ≤ v))
        ∧ Settings.factory.get (.yard i) = default)
    ∧ (∀ i item low high default, (i, item, low, high, default) ∈ steps →
        (∀ index, (index = 0 ∨ 8 < index) → SettingKey.ofItem item index = none)
        ∧ ∀ x : StepIx, SettingKey.ofItem item (x.val + 1) = some (.step i x)
          ∧ (∀ v, (SettingKey.step i x).inRange v = true ↔ low ≤ v ∧ v ≤ high)
          ∧ Settings.factory.get (.step i x) = default)
    ∧ (∀ i item low high, (i, item, low, high) ∈ quantities →
        (∀ index, (index = 0 ∨ 13 < index) → SettingKey.ofItem item index = none)
        ∧ ∀ q : QtyIx, SettingKey.ofItem item (q.val + 1) = some (.qty i q)
          ∧ (∀ v, (SettingKey.qty i q).inRange v = true ↔ low ≤ v ∧ v ≤ high)
          ∧ (levels q)[item - 36]? = some (Settings.factory.get (.qty i q)))
    ∧ (∀ item index, item = 0 ∨ 49 < item → SettingKey.ofItem item index = none)
    ∧ allSettings.length = 139 ∧ allSettings.Nodup
    ∧ ∀ k : SettingKey, k ∈ allSettings ∧ SettingKey.ofItem k.item k.index = some k)

/-- SETTINGS_APPLY: nothing on an empty set; INVALID_SETTINGS with the number of the first of the six checks that
fails and its index, and nothing changed; else every value of the candidate is in force, the set is empty, the reply
counts the settings changed (R192), and the blocks take it (R193): the
filters and decoders compare their times with the new settings, as at their expiries (R23, R24), and the rebuild
follows where it is due (R43); that the debounce time from the reset ends and the rebuild is made at the apply is
deduced (log entry 15); a changed rating or expected rise makes the learned rise absent, and a changed
rating empties the marks (R101, R110, R132); a lowered duty limit clamps the levels and a raised one none (R84); a
changed yard limit clamps the budget, and BUDGET_EXHAUSTED follows (R89); a changed VL, VH, Ti or Tr zeroes the
accumulators (R101); in MANUAL a changed fallback interval loads or stops the station-silence timer (R116); a
quantity with changed levels has its counts at 0 and falls from a disabled stage, with the conditions (R130); and
the stages of a changed level or delay are INACTIVE, with UNB_ALARM (R149). With that complete, a preferred link of
the pending set acts on the selector, and where it waits for it (log entry 6) becomes the active source (R10, R12).
That filters come before decoders, the duty levels before the budget, and the order of the blocks, are the model's (log
entry 8). -/
def Obligations.SettingsApplyPutsTheCandidateInForce : Prop :=
  ∀ s : State, s.resetHeld = none →
    (s.su.pendingSet = [] → exec .settingsApply s = .next (s.replied ⟨.ok, [0#8]⟩))
    ∧ (s.su.pendingSet ≠ [] →
        let a := s.su.active
        let c := s.su.pendingSet.foldl (fun x p => x.put p.1 p.2) a
        let fails (check index : Nat) : Prop :=
          exec .settingsApply s = .next (s.replied ⟨.invalidSettings, u8 check ++ u8 index⟩)
        let ok1 := c.y .vu < c.y .vl ∧ c.y .vl < c.y .vh ∧ c.y .vh < c.y .vx
        let ok2 (i : StepIx) : Prop := c.installed i = true → c.expectedRise i + c.y .vl ≤ c.y .vh
        let ok3 := c.y .closePulse ≤ c.y .closeLimit ∧ c.y .tripPulse ≤ c.y .openLimit
        let ok4 (q : QtyIx) : Prop := c.la q ≠ 0 → c.hyst q < c.la q
          ∧ (c.lb q ≠ 0 → c.la q ≤ c.lb q ∧ (c.lr q ≠ 0 → c.lb q ≤ c.lr q))
        let ok5 (i : StepIx) : Prop := c.l1 i < c.l2 i ∧ c.l2 i < c.l3 i
        let ok6 (i : StepIx) : Prop := c.installed i ≠ a.installed i → (s.step i).state = .disabled
        let upTo5 := ok1 ∧ (∀ i, ok2 i) ∧ ok3 ∧ (∀ q, ok4 q) ∧ ∀ i, ok5 i
        ((s.su.pendingSet.map Prod.fst).Nodup → ∀ k, c.get k = (readEntry k s.su.pendingSet).getD (a.get k))
        ∧ (¬ok1 → fails 1 0)
        ∧ (∀ i, ok1 → ¬ok2 i → (∀ j, j < i → ok2 j) → fails 2 (stepNo i))
        ∧ (ok1 → (∀ i, ok2 i) → ¬ok3 → fails 3 0)
        ∧ (∀ q, ok1 → (∀ i, ok2 i) → ok3 → ¬ok4 q → (∀ p, p < q → ok4 p) → fails 4 (qtyNo q))
        ∧ (∀ i, ok1 → (∀ i, ok2 i) → ok3 → (∀ q, ok4 q) → ¬ok5 i → (∀ j, j < i → ok5 j) → fails 5 (stepNo i))
        ∧ (∀ i, upTo5 → ¬ok6 i → (∀ j, j < i → ok6 j) → fails 6 (stepNo i))
        ∧ (upTo5 → (∀ i, ok6 i) →
          let differs (k : SettingKey) : Bool := a.get k != c.get k
          let run (x : Instr) (u : State) : State := match exec x u with | .next v => v | _ => u
          let s0 : State := { s with su := { s.su with active := c, pendingSet := [] } }
          let s2 := if differs (.yard .debounceTime) = true then run .debounceTimeFromReset
              (allSteps.foldl (fun u i => run (.debounceExpiry i .openContact)
                (run (.debounceExpiry i .closedContact) u)) s0)
            else s0
          let s3 := rebuildIfDue (if differs (.yard .disagreementTime) = true then
            allSteps.foldl (fun u i => run (.positionDisagreementExpiry i) u) s2 else s2)
          let s4 : State := { s3 with
            vrg := { s3.vrg with steps := Tab.build (fun i => { s3.vrg.steps.get i with
              rise := if differs (.step .rating i) = true ∨ differs (.step .expectedRise i) = true then none
                else (s3.vrg.steps.get i).rise }) }
            hsv := { s3.hsv with marks := Tab.build (fun i =>
              if differs (.step .rating i) = true then Tab.build (fun _ => false) else s3.hsv.marks.get i) } }
          let s5 : State := if c.y .dutyLimit < a.y .dutyLimit then { s4 with cdu := { s4.cdu with
              steps := Tab.build (fun i => { s4.cd i with duty := min (s4.cd i).duty (c.y .dutyLimit) }) } }
            else s4
          let low : State := { s5 with cdu := { s5.cdu with budget := min s5.cdu.budget (c.y .yardLimit) } }
          let full := decide (c.y .yardLimit ≤ low.cdu.budget)
          let s6 := if differs (.yard .yardLimit) = true then condition .budgetExhausted full
              (reportClass .regLimit (full || low.vrg.noCandidate) none 0 0 low)
            else s5
          let band := differs (.yard .vl) || differs (.yard .vh) || differs (.yard .ti) || differs (.yard .tr)
          let s7 : State := if band = true then { s6 with vrg := { s6.vrg with below := 0, above := 0 } } else s6
          let silence := if c.y .fallbackInterval = 0 then none else some (s7.now + c.y .fallbackInterval * 1000)
          let s8 : State := if differs (.yard .fallbackInterval) = true ∧ s7.vrg.mode = .manual then
              { s7 with vrg := { s7.vrg with silence := silence } }
            else s7
          let s9 := harmConditions { s8 with hsv := { s8.hsv with qtys := Tab.build (fun q =>
            let r := s8.qty q
            if differs (.qty .la q) = true ∨ differs (.qty .lb q) = true ∨ differs (.qty .lr q) = true
                ∨ differs (.qty .hyst q) = true then
              let top : HarmState := if c.la q = 0 then .normal else if c.lb q = 0 then .alarm
                else if c.lr q = 0 then .block else .remove
              if top.code < r.state.code then { r with state := top, up := 0, down := 0, repeatDue := none }
              else { r with up := 0, down := 0 }
            else r) } }
          let off (g : Stage) (l : StepItem) (d : YardItem) (i : StepIx) : Stage :=
            if differs (.step l i) = true ∨ differs (.yard d) = true then ⟨.inactive, 0⟩ else g
          let quiet : State := { s9 with ubp := { s9.ubp with steps := Tab.build (fun i =>
            let r := s9.ub i
            { r with s1 := off r.s1 .l1 .d1 i, s2 := off r.s2 .l2 .d2 i, s3 := off r.s3 .l3 .d3 i }) } }
          let s10 := condition .unbAlarm quiet.unbAlarm (reportClass .unbAlarm quiet.unbAlarm none 0 0 quiet)
          let p := c.preferred
          let s11 := if (readEntry (.yard .preferredLink) s.su.pendingSet).isSome = true then
              if s.locked p = true ∧ s.mi.active = some p.other then
                pulse .sourceSwitch (raiseNotice .sourceSwitch none (match p with | .a => 0 | .b => 1) 0
                  (abortCapture (setHold .switchover true { s10 with mi := { s10.mi with active := some p } })))
              else if s.mi.active = none ∧ ∃ m ∈ s.mi.waiting, m.link = p then selectWaiting s10 else s10
            else s10
          exec .settingsApply s = .next (s11.replied ⟨.ok, u8 (allSettings.filter differs).length⟩)
          ∧ s10.mi = s.mi ∧ s11.su = s0.su ∧ s11.now = s.now ∧ s11.resetHeld = none))

/-- STORE_COMMIT and BASELINE_UNLOCK: BUSY during a commit; PROTECTED by the baseline lock, with the detail
alone reported; else ACCEPTED with the snapshot of what is in force and the image invalid (R194 to R198). That
the accepted commits are counted is the model's (log entry 9). -/
def Obligations.StoreCommitAndUnlock : Prop :=
  ∀ s : State, s.resetHeld = none →
    (s.su.store ≠ .idle → exec .storeCommit s = .next (s.replied ⟨.busy, []⟩)
        ∧ exec .baselineUnlock s = .next (s.replied ⟨.busy, []⟩))
    ∧ (s.su.store = .idle →
        exec .baselineUnlock s
          = .next (State.replied { s with su := { s.su with unlock := true } } ⟨.ok, []⟩)
        ∧ (let differs := ∃ i, ((s.ub i).baseline.map (fun b => (b.inPhase, b.quad)))
              ≠ (match s.su.image with | none => none | some img => img.baselines.get i)
          (s.y .baselineLock = 1 ∧ s.su.unlock = false ∧ differs →
            exec .storeCommit s = .next ((reportDetail .store none 2 0 s).replied ⟨.protected_, []⟩))
          ∧ (¬(s.y .baselineLock = 1 ∧ s.su.unlock = false ∧ differs) → ∃ img : StoreImage,
              exec .storeCommit s = .next (State.replied { s with su := { s.su with
                  store := .committing s.now img, image := none, commits := s.su.commits + 1 } }
                ⟨.accepted, []⟩)
              ∧ img.settings = s.su.active ∧ img.routes = s.evr.routes
              ∧ (∀ c : NoticeClass, img.notices.get c.ix = ((s.notice c).priority, (s.notice c).masked))
              ∧ (∀ i, img.baselines.get i = (s.ub i).baseline.map (fun b => (b.inPhase, b.quad))
                  ∧ img.rises.get i = (s.vrg.steps.get i).rise
                  ∧ img.opCounts.get i = (s.sw i).opCount))))

/-- The end of a commit: IDLE, the last commit record, the unlock NO and LONG_OP; COMPLETE puts the snapshot in
the image, clears the uncommitted flag of a baseline equal to the snapshot's and ends STORE_FAULT; FAILED starts
STORE_FAULT or reports the detail alone (R197, R199). With no commit in progress nothing changes (log entry 5). The
order of LONG_OP, the STORE class and STORE_FAULT at EVR is the model's (log entry 8). -/
def Obligations.CommitEndClosesTheCommit : Prop :=
  ∀ s : State, s.resetHeld = none →
    (s.su.store = .idle → ∀ r, exec (.commitEnd r) s = .next s)
    ∧ (∀ since img, s.su.store = .committing since img →
        let closed (r : CommitResult) (code : Nat) (image : Option StoreImage) (fault : Bool) : State :=
          raiseNotice .longOp none 1 code { s with su := { s.su with
            store := .idle, lastCommit := some (r, s.now / 1000), unlock := false, image := image,
            fault := fault } }
        let flagged (t : State) : State := { t with ubp := { t.ubp with steps := Tab.build (fun i =>
          { s.ub i with baseline := (s.ub i).baseline.map (fun b =>
              if img.baselines.get i = some (b.inPhase, b.quad) then { b with uncommitted := false }
              else b) }) } }
        exec (.commitEnd .complete) s
          = .next (condition .storeFault false (reportClass .store false none 0 0
              (flagged (closed .complete 0 (some img) false))))
        ∧ (s.su.fault = true →
            exec (.commitEnd .failed) s
              = .next (reportDetail .store none 1 0 (closed .failed 2 s.su.image true)))
        ∧ (s.su.fault = false →
            exec (.commitEnd .failed) s
              = .next (condition .storeFault true (reportClass .store true none 1 0
                  (closed .failed 2 s.su.image true)))))

/-! ### Measurement Intake -/

/-- What a measurement link's receiver makes of bytes: outside a frame it hunts and discards what does not form the
marker, it holds a frame in progress, a frame is complete at the length its step count fixes and fails at a step
count out of range; each frame that ends is handled in order, and a failed one leaves the receiver hunting. A gap of
more than 5 ms fails the frame in progress before what arrives after it is taken; with no such gap, or no step count
byte to come, no frame fails (R1; the reading at which a gap is over is that of log entry 11). A
bad frame is counted by its class and in the bad count, and resets the run in SEEKING; nothing else changes unless
it is the fourth in LOCKED (R2, R6, R7, R9). -/
def Obligations.FramesAreReceivedAndBadOnesCounted : Prop :=
  ((∀ bs : List Byte, measComplete bs = true ↔
      bs.take 2 = [0x5A#8, 0xC3#8] ∧ ∃ n : Byte, bs[6]? = some n ∧ 1 ≤ n.toNat ∧ n.toNat ≤ 8
        ∧ bs.length = 43 + 10 * n.toNat)
    ∧ (∀ junk frame : List Byte, 0x5A#8 ∉ junk → measComplete frame = true →
        receiveBytes [] junk = ([], [])
        ∧ receiveBytes [] (junk ++ frame) = ([.complete frame], [])
        ∧ ∀ head rest, frame = head ++ rest → 2 ≤ head.length → rest ≠ [] →
            receiveBytes [] head = ([], head) ∧ receiveBytes head rest = ([.complete frame], []))
    ∧ (∀ (head : List Byte) (count : Byte), head.length = 6 → head.take 2 = [0x5A#8, 0xC3#8] →
        count.toNat = 0 ∨ 8 < count.toNat → receiveBytes [] (head ++ [count]) = ([.failed], [])))
  ∧ (∀ (l : Link) (bs : List Byte) (s : State), s.resetHeld = none →
      let held := match (s.link l).rx with | none => [] | some x => x.bytes
      let left := (receiveBytes held bs).2
      let holding (x : Option FrameInProgress) : State := s.onLink l (fun r => { r with rx := x })
      let late := ∃ x, (s.link l).rx = some x ∧ 2 ≤ x.bytes.length ∧ x.gapDue ≤ s.now
      let failed := frameEnds l .failed (holding none)
      (late → exec (.measByteGapTimeout l) s = .next failed ∧ exec (.measFramingFailure l) s = .next failed
        ∧ (∀ c ∈ [Instr.measFrame l bs, .linkLocked l bs, .lockedBadFrameLimit l (.complete bs),
            .measDisagreeStart l bs, .measDisagreeEnd l (.frame (.complete bs)), .insertDelayReached l bs,
            .removeDelayReached l bs, .overvoltageDelay l bs, .overvoltageRepeat l bs, .lossOfVoltageDelay l bs,
            .captureComplete l bs], exec c s = exec c failed)
        ∧ (∀ q, exec (.harmMoveUp q l bs) s = exec (.harmMoveUp q l bs) failed
          ∧ exec (.harmMoveDown q l bs) s = exec (.harmMoveDown q l bs) failed)
        ∧ ∀ i, exec (.unbAlarm i l bs) s = exec (.unbAlarm i l bs) failed
          ∧ exec (.unbTrip i l bs) s = exec (.unbTrip i l bs) failed)
      ∧ (¬late → exec (.measByteGapTimeout l) s = .next s
        ∧ (held.length = 6 → exec (.measFramingFailure l) s = .next failed)
        ∧ (held.length ≠ 6 → exec (.measFramingFailure l) s = .next s)
        ∧ exec (.measFrame l []) s = .next s
        ∧ (bs ≠ [] → exec (.measFrame l bs) s = .next ((receiveBytes held bs).1.foldl (fun t e => frameEnds l e t)
          (holding (if left = [] then none else some ⟨left, s.now + 6⟩))))))
  ∧ (∀ (l : Link) (bs : List Byte) (s : State), s.resetHeld = none →
      ((s.link l).state = .locked → (s.link l).bad < 3) →
      let k := (s.link l).counters
      let bad (c : LinkCounters) : State := s.onLink l (fun r => { r with
        rx := none, counters := c, bad := min (r.bad + 1) 4, run := if r.state = .seeking then 0 else r.run })
      let corrupt := bad { k with corrupt := satInc 65535 k.corrupt }
      let format := bad { k with format := satInc 65535 k.format }
      let unitFault := bad { k with unitFault := satInc 65535 k.unitFault }
      (∀ x, (s.link l).rx = some x → 2 ≤ x.bytes.length →
          (x.gapDue ≤ s.now → exec (.measByteGapTimeout l) s = .next corrupt)
          ∧ (s.now < x.gapDue → x.bytes.length = 6 → exec (.measFramingFailure l) s = .next corrupt))
      ∧ ((s.link l).rx = none → measComplete bs = true →
          (measCheckOk bs = false → exec (.measFrame l bs) s = .next corrupt)
          ∧ (measCheckOk bs = true →
            (measUnit bs ≠ (match l with | .a => 1 | .b => 2) → exec (.measFrame l bs) s = .next format)
            ∧ (measUnit bs = (match l with | .a => 1 | .b => 2) →
              (measCount bs ≠ s.su.active.installedCount → exec (.measFrame l bs) s = .next format)
              ∧ (measCount bs = s.su.active.installedCount → (measStatus bs).getLsbD 0 = true →
                exec (.measFrame l bs) s = .next unitFault)))))

/-- A good frame that is not posted: of a link that is not the active source and that neither enters nor leaves
LOCKED with it. Its link's record is advanced, it becomes the link's latest record, and nothing else changes, but that
with no active source the frame of a LOCKED link waits with it for the end of the millisecond (log entry 6).
A frame that is posted is handed to the three consumers, with its elapsed time: 0 for the first posting after a reset or
after a time with no active source, and else the time from the previous posting, at most 100 ms; so is every
frame of an active LOCKED link with at most two frames missing, and with it alone where the other link is not LOCKED
(R2, R14, R15). The receiver hunts before the frame. The order of the consumers is the model's (log entry 8). -/
def Obligations.GoodFramesAreTakenAndPosted : Prop :=
  ∀ (l : Link) (bs : List Byte) (s : State), s.resetHeld = none → (s.link l).rx = none →
    classify s.su.active l (.complete bs) = .good →
    let m := measRecord s.su.active l bs s.now
    let g : LinkRec := { (s.link l).good (measSeq bs) s.now with latest := some m }
    let elapsed := if s.mi.freshStart then 0 else match s.mi.posted with
      | none => 0
      | some p => min (s.now - p.time) 100
    (s.mi.active ≠ some l → (g.state = .locked ↔ (s.link l).state = .locked) →
      let taken := s.onLink l (fun _ => g)
      (¬(s.mi.active = none ∧ g.state = .locked) → exec (.measFrame l bs) s = .next taken)
      ∧ (s.mi.active = none → g.state = .locked → exec (.measFrame l bs) s
        = .next { taken with mi := { taken.mi with waiting := s.mi.waiting ++ [m] } }))
    ∧ (∀ m' e u, s.posting l bs = some (m', e, u) →
        m' = m ∧ e = (if s.mi.active = none then 0 else elapsed) ∧ e ≤ 100 ∧ u.mi.posted = some m
        ∧ exec (.measFrame l bs) s = .next (ubpPosting m e (hsvPosting m (vrgPosting m e u))))
    ∧ (s.mi.active = some l → (s.link l).state = .locked → (s.link l).missing (measSeq bs) ≤ 2 →
        ∃ u, s.posting l bs = some (m, elapsed, u))
    ∧ (s.mi.active = some l → (s.link l).state = .locked → s.locked l.other = false →
        (s.link l).missing (measSeq bs) ≤ 2 →
        s.posting l bs = some (m, elapsed,
          (s.onLink l (fun _ => g)).onMi (fun x => { x with posted := some m, freshStart := false })))

/-- The link record after a good frame: the last sequence, the gap, and the table of SILENT, SEEKING and LOCKED
(R4, R5, R6, R7, R9). -/
def Obligations.GoodFrameMovesItsLink : Prop :=
  ∀ (r : LinkRec) (seq : Word16) (now : Nat),
    let g := r.good seq now
    g.lastSeq = some seq ∧ g.bad = 0 ∧ g.lastGood = some now ∧ g.latest = r.latest
    ∧ g.counters = { r.counters with accepted := satInc 65535 r.counters.accepted, gaps := g.counters.gaps }
    ∧ (r.state = .silent → g.state = .seeking ∧ g.run = 1)
    ∧ (r.lastSeq = none → g.counters.gaps = r.counters.gaps)
    ∧ (∀ q, r.lastSeq = some q →
        (seq = q + 1#16 → g.counters.gaps = r.counters.gaps
          ∧ (r.state = .seeking → r.run + 1 < 8 → g.state = .seeking ∧ g.run = r.run + 1)
          ∧ (r.state = .seeking → 8 ≤ r.run + 1 → g.state = .locked)
          ∧ (r.state = .locked → g.state = .locked))
        ∧ (seq ≠ q + 1#16 → g.counters.gaps = satInc 65535 r.counters.gaps
          ∧ (r.state = .seeking → g.state = .seeking ∧ g.run = 1)
          ∧ (r.state = .locked → (seq = q + 2#16 ∨ seq = q + 3#16) → g.state = .locked)
          ∧ (r.state = .locked → ¬(seq = q + 2#16 ∨ seq = q + 3#16) → g.state = .seeking ∧ g.run = 1)))

/-- LINK_LOCKED: the good frame in sequence at a run count of 7 takes the link into LOCKED. With no active source
the preferred link becomes it: MEAS_LOST, NO_SOURCE and the acquisition window end, and the frame is posted with an
elapsed time of 0. The other link waits with its frames for the end of the millisecond, in which the preferred link
may still lock; the selector then takes it in the same way and posts those frames in order, or leaves it the standby
where the preferred link has become the active source meanwhile. With the other link active it becomes the standby (R6,
R10, R13, R14, R99). The waiting is the model's form of R10's whole millisecond (log entry 6), and the order of the
consumers is the model's (log entry 8). -/
def Obligations.LinkEntersLocked : Prop :=
  (∀ (l : Link) (bs : List Byte) (s : State) (q : Word16), s.resetHeld = none → (s.link l).rx = none →
    classify s.su.active l (.complete bs) = .good → (s.link l).state = .seeking → (s.link l).run = 7 →
    (s.link l).lastSeq = some q → measSeq bs = q + 1#16 →
    let m := measRecord s.su.active l bs s.now
    let locked : LinkRec := { (s.link l) with
      state := .locked, run := 8, bad := 0, lastSeq := some (measSeq bs), lastGood := some s.now
      counters := { (s.link l).counters with accepted := satInc 65535 (s.link l).counters.accepted } }
    let recorded : State := s.onLink l (fun _ => { locked with latest := some m })
    (s.mi.active = none → s.su.active.preferred = l → ∃ t u, exec (.linkLocked l bs) s = .next t
        ∧ s.posting l bs = some (m, 0, u) ∧ t = ubpPosting m 0 (hsvPosting m (vrgPosting m 0 u))
        ∧ (t.link l).state = .locked ∧ t.link l.other = s.link l.other ∧ t.mi.active = some l
        ∧ t.mi.lost = false ∧ t.mi.window = none ∧ t.mi.waiting = [] ∧ t.mi.posted = some m
        ∧ (let v := s.onLink l (fun _ => locked)
          let gained := setHold .noSource false (condition .measLost false
            (reportClass .measurement s.mi.disagree none 0 0 { v with mi := { v.mi with
              active := some l, window := none, freshStart := true, waiting := [], lost := false } }))
          let w := (compareUnits m gained).onLink l (fun r => { r with latest := some m })
          u = { w with mi := { w.mi with posted := some m, freshStart := false } }
          ∧ (s.locked l.other = false → compareUnits m gained = gained)))
    ∧ (s.mi.active = none → s.su.active.preferred ≠ l → exec (.linkLocked l bs) s
        = .next { recorded with mi := { recorded.mi with waiting := s.mi.waiting ++ [m] } })
    ∧ (s.mi.active = some l.other → exec (.linkLocked l bs) s = .next recorded))
  ∧ (∀ (m : MeasRecord) (later : List MeasRecord) (s : State), s.mi.waiting = m :: later →
      (s.mi.active = none → s.locked m.link = true →
        let gained := setHold .noSource false (condition .measLost false
          (reportClass .measurement s.mi.disagree none 0 0 { s with mi := { s.mi with
            active := some m.link, window := none, freshStart := true, waiting := [], lost := false } }))
        let posting (t : State) (r : MeasRecord) : State :=
          let e := if t.mi.freshStart then 0 else match t.mi.posted with
            | none => 0
            | some p => min (t.now - p.time) 100
          ubpPosting r e (hsvPosting r (vrgPosting r e
            { t with mi := { t.mi with posted := some r, freshStart := false } }))
        selectWaiting s = later.foldl posting (posting gained m))
      ∧ (s.mi.active ≠ none ∨ s.locked m.link = false →
        selectWaiting s = { s with mi := { s.mi with waiting := [] } }))

/-- A link leaves LOCKED by the fourth consecutive bad frame, however it arrives, by a good frame with more than two
frames missing, or by 100 ms of silence: SEEKING, with the bad frame counted by its class; MEAS_DISAGREE and its
counts end; and where it was the active link, the other takes over if it is LOCKED (SWITCHOVER, SOURCE_SWITCH with its
pulse, the capture aborted), or there is no active source (NO_SOURCE in the place of SWITCHOVER, every stage of UBP
INACTIVE, the capture aborted, MEAS_LOST with its class) (R7, R9, R11, R13, R17, R99, R148, R154). SILENCE_500MS takes
a SEEKING link to SILENT; the end of the acquisition window with no active source starts MEAS_LOST, but not before a
link that waits for the selector has been taken (R8, R10, R13, log entry 6). The order of the announcements is the
model's (log entry 8), and so is that a change is acted on by itself where the other link changes in the same
millisecond (log entry 18). -/
def Obligations.LinksAreLostToBadFramesAndSilence : Prop :=
  ∀ s : State, s.resetHeld = none →
    (∀ l : Link, (s.link l).state = .locked →
       let off : Stage := ⟨.inactive, 0⟩
       let moved (u : State) : State :=
         if s.mi.active = some l then
           if s.locked l.other = true then
             pulse .sourceSwitch (raiseNotice .sourceSwitch none (match l with | .a => 1 | .b => 0) 0
               (abortCapture (setHold .switchover true { u with mi := { u.mi with active := some l.other } })))
           else
             let v := setHold .switchover false (setHold .noSource true
               { u with mi := { u.mi with active := none, freshStart := true, lost := true } })
             let w : State := { v with ubp := { v.ubp with
               steps := Tab.build (fun i => { v.ub i with s1 := off, s2 := off, s3 := off }) } }
             condition .measLost true (reportClass .measurement true none 0 0
               (abortCapture (condition .unbAlarm false (reportClass .unbAlarm false none 0 0 w))))
         else { u with mi := { u.mi with waiting := u.mi.waiting.filter (fun r => r.link != l) } }
       let ended (u : State) : State :=
         let v : State := { u with mi := { u.mi with disagreeCount := 0, agreeCount := 0 } }
         if v.mi.disagree = true then
           condition .measDisagree false (reportClass .measurement v.mi.lost none 1 0
             (setHold .disagree false { v with mi := { v.mi with disagree := false } }))
         else v
       let leaves (r : LinkRec) : State := ended (moved (s.onLink l (fun _ => r)))
       let k := (s.link l).counters
       let out : LinkRec := { (s.link l) with state := .seeking, run := 0 }
       let late := ∃ x, (s.link l).rx = some x ∧ 2 ≤ x.bytes.length ∧ x.gapDue ≤ s.now
       let counting := ∃ x, (s.link l).rx = some x ∧ x.bytes.length = 6
       (∀ e, 3 ≤ (s.link l).bad → classify s.su.active l e ≠ .good →
         (∀ bs, e = .complete bs → (s.link l).rx = none ∧ measComplete bs = true) →
         (e = .failed → late ∨ counting) →
         let counted : LinkCounters := match classify s.su.active l e with
           | .good => k
           | .corrupt => { k with corrupt := satInc 65535 k.corrupt }
           | .format => { k with format := satInc 65535 k.format }
           | .unitFault => { k with unitFault := satInc 65535 k.unitFault }
         let t := leaves { out with rx := none, bad := 4, counters := counted }
         exec (.lockedBadFrameLimit l e) s = .next t
         ∧ (∀ bs, e = .complete bs → exec (.measFrame l bs) s = .next t)
         ∧ (e = .failed → (late → exec (.measByteGapTimeout l) s = .next t)
           ∧ (¬late → exec (.measFramingFailure l) s = .next t)))
       ∧ (∀ bs q, (s.link l).rx = none → classify s.su.active l (.complete bs) = .good →
         (s.link l).lastSeq = some q → measSeq bs ≠ q + 1#16 → measSeq bs ≠ q + 2#16 →
         measSeq bs ≠ q + 3#16 →
         let t := leaves { out with
           run := 1, bad := 0, lastSeq := some (measSeq bs), lastGood := some s.now
           counters := { k with accepted := satInc 65535 k.accepted, gaps := satInc 65535 k.gaps } }
         exec (.measFrame l bs) s
           = .next (t.onLink l (fun r => { r with latest := some (measRecord s.su.active l bs s.now) })))
       ∧ (∀ g, (s.link l).lastGood = some g → g + 100 ≤ s.now →
         exec (.silence100ms l) s = .next (leaves out))
       ∧ (∀ r : LinkRec,
         let t := leaves r
         t.link l = r ∧ t.link l.other = s.link l.other
         ∧ t.mi.disagree = false ∧ t.mi.disagreeCount = 0 ∧ t.mi.agreeCount = 0
         ∧ t.mi.posted = s.mi.posted ∧ t.mi.window = s.mi.window
         ∧ (s.mi.active = some l → s.locked l.other = true → t.mi.active = some l.other)
         ∧ (s.mi.active = some l → s.locked l.other = false → t.mi.active = none ∧ t.mi.lost = true)
         ∧ (s.mi.active ≠ some l → t.mi.active = s.mi.active ∧ t.mi.lost = s.mi.lost)))
    ∧ ((∀ l g, (s.link l).state = .seeking → (s.link l).lastGood = some g → g + 500 ≤ s.now →
         exec (.silence500ms l) s = .next (s.onLink l (fun r =>
           { r with state := .silent, lastSeq := none, run := 0, lastGood := none })))
       ∧ (∀ due, s.mi.window = some due → due ≤ s.now →
           (s.mi.waiting ≠ [] → exec .acquisitionWindowExpiry s = .next s)
           ∧ (s.mi.waiting = [] → s.mi.active ≠ none → exec .acquisitionWindowExpiry s
             = .next { s with mi := { s.mi with window := none } })
           ∧ (s.mi.waiting = [] → s.mi.active = none → exec .acquisitionWindowExpiry s
             = .next (condition .measLost true (reportClass .measurement true none 0 0
                 { s with mi := { s.mi with window := none, lost := true } })))))

/-- What a posting does to the comparison of the two units: with both links LOCKED and the standby's record at most
100 ms old the two means are compared, one count goes up to at most 50 and the other to 0, and MEAS_DISAGREE with
its hold cause, its class and its event source starts at a disagreement count of 50 and ends at an agreement count of
50; a posting that makes no comparison leaves all of it; and MEAS_DISAGREE ends when a link leaves LOCKED (R16,
R17). At the start and at the end the hold cause comes first, then the class, then EVR: this order is the model's (log
entry 8). -/
def Obligations.DisagreementStartsAndEnds : Prop :=
  ∀ (l : Link) (s : State), s.resetHeld = none →
    (∀ bs : List Byte, (s.link l).rx = none → classify s.su.active l (.complete bs) = .good →
      s.mi.active = some l → (s.link l).state = .locked → (s.link l).missing (measSeq bs) ≤ 2 →
      let m := measRecord s.su.active l bs s.now
      let a := (m.v1 + m.v2 + m.v3) / 3
      let elapsed := if s.mi.freshStart then 0 else match s.mi.posted with
        | none => 0
        | some p => min (s.now - p.time) 100
      let counted (d g : Nat) (b : Bool) : State := { (s.onLink l (fun r => r.good (measSeq bs) s.now)) with
        mi := { (s.onLink l (fun r => r.good (measSeq bs) s.now)).mi with
          disagreeCount := d, agreeCount := g, disagree := b } }
      let posted (u : State) : State := { (u.onLink l (fun r => { r with latest := some m })) with
        mi := { (u.onLink l (fun r => { r with latest := some m })).mi with
          posted := some m, freshStart := false } }
      let compared (x : MeasRecord) : Prop :=
        s.locked l.other = true ∧ (s.link l.other).latest = some x ∧ s.now - x.time ≤ 100
      (∀ x, compared x →
        let b := (x.v1 + x.v2 + x.v3) / 3
        let differ := s.y .disagreeLimit < max a b - min a b
        ∃ t, exec (.measFrame l bs) s = .next t ∧ t.mi.posted = some m
          ∧ (differ → t.mi.disagreeCount = min (s.mi.disagreeCount + 1) 50 ∧ t.mi.agreeCount = 0)
          ∧ (¬differ → t.mi.agreeCount = min (s.mi.agreeCount + 1) 50 ∧ t.mi.disagreeCount = 0)
          ∧ (differ → s.mi.disagreeCount < 49 → t.mi.disagree = s.mi.disagree)
          ∧ (¬differ → s.mi.agreeCount < 49 → t.mi.disagree = s.mi.disagree)
          ∧ (differ → 49 ≤ s.mi.disagreeCount → t.mi.disagree = true
            ∧ (s.mi.disagree = false → exec (.measDisagreeStart l bs) s = .next t
              ∧ s.posting l bs = some (m, elapsed, posted (condition .measDisagree true
                (reportClass .measurement true none 1 0 (setHold .disagree true (counted 50 0 true)))))))
          ∧ (¬differ → 49 ≤ s.mi.agreeCount → t.mi.disagree = false
            ∧ (s.mi.disagree = true → exec (.measDisagreeEnd l (.frame (.complete bs))) s = .next t
              ∧ s.posting l bs = some (m, elapsed, posted (condition .measDisagree false
                (reportClass .measurement s.mi.lost none 1 0
                  (setHold .disagree false (counted 0 50 false))))))))
      ∧ ((∀ x, ¬compared x) → ∃ t, exec (.measFrame l bs) s = .next t ∧ t.mi.posted = some m
          ∧ t.mi.disagreeCount = s.mi.disagreeCount ∧ t.mi.agreeCount = s.mi.agreeCount
          ∧ t.mi.disagree = s.mi.disagree))
    ∧ (s.mi.disagree = true → (s.link l).state = .locked →
        (∀ g, (s.link l).lastGood = some g → g + 100 ≤ s.now →
          ∃ t, exec (.measDisagreeEnd l .silence100) s = .next t ∧ t.mi.disagree = false
            ∧ t.mi.disagreeCount = 0 ∧ t.mi.agreeCount = 0 ∧ (t.link l).state = .seeking)
        ∧ (∀ e, 3 ≤ (s.link l).bad → classify s.su.active l e ≠ .good →
          (∀ bs, e = .complete bs → (s.link l).rx = none ∧ measComplete bs = true) →
          (e = .failed → ∃ x, (s.link l).rx = some x ∧ (2 ≤ x.bytes.length ∧ x.gapDue ≤ s.now ∨ x.bytes.length = 6)) →
          ∃ t, exec (.measDisagreeEnd l (.frame e)) s = .next t ∧ t.mi.disagree = false
            ∧ t.mi.disagreeCount = 0 ∧ t.mi.agreeCount = 0 ∧ (t.link l).state = .seeking))

/-! ### The Step Table -/

/-- A change of a raw level restarts its count; a level steady for the debounce time becomes the debounced value, both
filters of a step that are due are taken as one change of the pair, and the pair gives the position, or TRAVEL with
its disagreement time from a definite position; the disagreement time gives UNKNOWN, held until the debounce time from
the full reset (R23, R24, R25). A position change keeps the last definite position, resets the stages and aborts a
capture where it leaves CLOSED, loads the discharge timer where it is CLOSED-to-OPEN, puts evaluation OFF at OPEN and
begins the arming delay, ends BREAKER_FAIL at OPEN, makes an operation in flight whose target it is succeed, and is
else handed to ST as uncommanded, whose table overtakes a settle; the rebuild follows where it is due (R26, R37, R38,
R57, R61, R62, R63, R69, R76, R140, R141, R154). The order of the four consumers is the model's (log entry 8), and so
is the overtaken settle after a STEP_RELEASE (log entry 17). -/
def Obligations.ContactsGiveThePositionToItsConsumers : Prop :=
  (∀ (i : StepIx) (c : Contact) (s : State),
    let on (f : StepRec → StepRec) (u : State) : State :=
      { u with st := { u.st with steps := Tab.upd u.st.steps i f } }
    (∀ made, ((s.step i).contact c).raw ≠ made →
      exec (.contactLevelChange i c made) s
        = .next (on (fun r => r.onContact c (fun x => { x with raw := made, since := s.now })) s))
    ∧ exec (.contactLevelChange i c ((s.step i).contact c).raw) s = .next s
    ∧ (s.resetHeld = none →
        let level (d : Contact) : Debounced := if ((s.step i).contact d).raw then .made else .notMade
        let due (d : Contact) : Prop := ((s.step i).contact d).value ≠ level d
          ∧ s.y .debounceTime ≤ s.now - ((s.step i).contact d).since
        let filtered (d : Contact) : ContactIn :=
          if due d then { (s.step i).contact d with value := level d } else (s.step i).contact d
        let r : StepRec := { s.step i with closedIn := filtered .closedContact, openIn := filtered .openContact }
        let v := on (fun _ => r) s
        let closed := r.closedIn.value = .made ∧ r.openIn.value = .notMade
        let opened := r.closedIn.value = .notMade ∧ r.openIn.value = .made
        let definite := r.position = .opened ∨ r.position = .closed
        (due c →
          (closed → exec (.debounceExpiry i c) s
            = .next (positionChange i .closed (on (fun x => { x with disagreeFrom := none }) v)))
          ∧ (opened → exec (.debounceExpiry i c) s
            = .next (positionChange i .opened (on (fun x => { x with disagreeFrom := none }) v)))
          ∧ (¬closed → ¬opened → definite → exec (.debounceExpiry i c) s
            = .next (positionChange i .travel (on (fun x => { x with disagreeFrom := some s.now }) v)))
          ∧ (¬closed → ¬opened → ¬definite → exec (.debounceExpiry i c) s = .next v))
        ∧ (∀ d, (s.step i).position = .travel → (s.step i).disagreeFrom = some d →
            s.y .disagreementTime ≤ s.now - d → exec (.positionDisagreementExpiry i) s
              = .next (positionChange i .unknown (on (fun x => { x with disagreeFrom := none }) s)))))
  ∧ (∀ (i : StepIx) (new : Position) (s : State),
      let r := s.step i
      let t := positionChange i new s
      let off : Stage := ⟨.inactive, 0⟩
      let ub (f : UbpStep → UbpStep) (u : State) : State :=
        { u with ubp := { u.ubp with steps := Tab.upd u.ubp.steps i f } }
      let reset := if r.position = .closed then ub (fun x => { x with s1 := off, s2 := off, s3 := off }) s else s
      let taken : State := { reset with st := { reset.st with steps := Tab.upd reset.st.steps i (fun x => { x with
        position := new
        lastDefinite := if new = .opened ∨ new = .closed then some new else x.lastDefinite }) } }
      let loaded : State := if new = .opened ∧ r.lastDefinite = some .closed then { taken with cdu := { taken.cdu with
          steps := Tab.upd taken.cdu.steps i (fun x => { x with
            discharge := some (s.now + s.ySec .dischargeTime), discharged := false }) } }
        else taken
      let told := if r.position = .closed then abortCaptureOf i (condition .unbAlarm loaded.unbAlarm
          (reportClass .unbAlarm loaded.unbAlarm none 0 0 loaded))
        else loaded
      let unarmed := if new = .opened then ub (fun x => { x with eval := .off, arming := none }) told else told
      let arms := new = .closed ∧ r.lastDefinite = some .opened ∧ s.inFlight i = false ∧ unarmed.st.rebuilt = true
        ∧ (unarmed.step i).state ≠ .disabled ∧ (unarmed.ub i).eval = .off
      let armed := if arms then ub (fun x => { x with
        eval := .awaitSettle, arming := some (unarmed.now + unarmed.ySec .settleWindow) }) unarmed else unarmed
      let healed : State := { armed with swu := { armed.swu with
        steps := Tab.upd armed.swu.steps i (fun x => { x with breakerFail := false }) } }
      let cleared := if new = .opened ∧ (armed.sw i).breakerFail = true then condition .breakerFail
          healed.breakerFailAny (reportClass .breakerFail healed.breakerFailAny none 0 0 healed)
        else armed
      let done := match (cleared.sw i).op with
        | none => cleared
        | some o => if o.phase ≠ .settling ∧ o.kind.target = new then opSuccess i cleared else cleared
      (r.position = new → t = s)
      ∧ (r.position ≠ new →
        t = rebuildIfDue (if s.inFlight i = false ∧ done.st.rebuilt = true then uncommanded i new done else done))
      ∧ (s.inFlight i = true ↔ ∃ o, (s.sw i).op = some o ∧ o.phase ≠ .settling)
      ∧ (t.step i).position = new ∧ (t.step i).disagreeFrom = r.disagreeFrom
      ∧ (∀ j, (t.step j).closedIn = (s.step j).closedIn ∧ (t.step j).openIn = (s.step j).openIn
        ∧ (j ≠ i → (t.step j).position = (s.step j).position)))
  ∧ (∀ (i : StepIx) (o : OpRecord) (s : State), (s.sw i).op = some o →
      let u : State := { s with swu := { s.swu with steps := Tab.upd s.swu.steps i (fun x => { x with
        closeCoil := false, tripA := false, tripB := false, lastResult := some .success
        op := some { o with phase := .settling, settleDue := s.now + s.ySec .settleWindow } }) } }
      opSuccess i s = deliverAll i o.kind .success o.requesters (match (s.step i).state with
        | .closing => moveStep i .energized .own .failToClose u
        | .opening => moveStep i .discharging .own .failToClose u
        | _ => u))
  ∧ (∀ (i : StepIx) (new : Position) (s : State),
      let was := (s.step i).state
      let noted := raiseNotice .position (some i) new.code 0
      let after (u : State) : State := dispatcher (overtake i u)
      let closed := noted (moveStep i .energized .own .failToClose s)
      let armed : State := if (closed.ub i).eval = .off then { closed with ubp := { closed.ubp with
          steps := Tab.upd closed.ubp.steps i (fun x => { x with
            eval := .awaitSettle, arming := some (closed.now + closed.ySec .settleWindow) }) } }
        else closed
      (was = .energized → new = .opened →
        uncommanded i new s = after (noted (moveStep i .discharging .own .failToClose s)))
      ∧ (was = .ready → new = .closed → uncommanded i new s = after armed)
      ∧ (was = .discharging → new = .closed →
        uncommanded i new s = after (lockOut i .uncommandedClose (noted s)))
      ∧ ((was = .ready ∨ was = .discharging ∨ was = .energized) → new = .unknown →
        uncommanded i new s = after (lockOut i .positionUnknown (noted s)))
      ∧ (¬(was = .energized ∧ (new = .opened ∨ new = .unknown)) →
        ¬((was = .ready ∨ was = .discharging) ∧ (new = .closed ∨ new = .unknown)) → uncommanded i new s = s))

/-- The start-up rebuild, taken once for all steps on their positions at that moment: an installed step with its
breaker CLOSED is ENERGIZED and awaits the start-up hold or is armed after it, with UNKNOWN it is LOCKED_OUT with
its LOCKOUT notice, and else it is DISCHARGING with basis START_UP; the service list takes the ENERGIZED ones in
ascending index and the start-up discharge timer starts (R43, R79, R140). It is made at the first position change,
or the end of the debounce time from the full reset, at which every installed step has a position other than
TRAVEL (R25, R43). That the last step in the index gives the LOCKOUT detail is the model's order (log entry 8); on
a DISABLED step that an apply has just installed see log entry 7. -/
def Obligations.RebuildPlacesEveryInstalledStep : Prop :=
  (∀ s : State,
    let due := s.st.rebuilt = false ∧ (∀ i, s.su.active.installed i = true → (s.step i).position ≠ .travel)
      ∧ ((∃ i, s.su.active.installed i = true) ∨ s.st.debounceEnded = true)
    let ended : State := { s with st := { s.st with
      debounceEnded := true
      steps := Tab.build (fun i => { s.step i with disagreeFrom :=
        if (s.step i).position = .travel ∧ (s.step i).disagreeFrom = none then some s.now
        else (s.step i).disagreeFrom }) } }
    (due → rebuildIfDue s = rebuild s) ∧ (¬due → rebuildIfDue s = s)
    ∧ (s.resetHeld = none → s.st.debounceEnded = false → s.y .debounceTime ≤ s.now →
        exec .debounceTimeFromReset s = .next (rebuildIfDue ended)))
  ∧ (∀ s : State,
    (∀ i, (s.step i).state = (if s.su.active.installed i then .discharging else .disabled)) →
    (∀ i, s.su.active.installed i = true → (s.step i).basis = some .startUp) →
    s.st.ring = [] → s.st.service = [] →
    let t := rebuild s
    let lost := allSteps.filter (fun i => s.su.active.installed i && (s.step i).position == .unknown)
    t.st.rebuilt = true ∧ t.cdu.startUp = .running (s.now + s.ySec .dischargeTime)
    ∧ (∀ i, (t.step i).position = (s.step i).position
      ∧ (s.su.active.installed i = true →
        ((s.step i).position = .closed →
            (t.step i).state = .energized ∧ (t.step i).energizedAt = some (s.now / 1000)
            ∧ t.ub i = { s.ub i with
                eval := match s.vrg.startHold with | .over => .armed | _ => .awaitHold
                arming := none })
        ∧ ((s.step i).position = .unknown →
            (t.step i).state = .lockedOut ∧ (t.step i).cause = some .positionUnknown)
        ∧ ((s.step i).position = .opened →
            (t.step i).state = .discharging ∧ (t.step i).basis = some .startUp)
        ∧ ((s.step i).position ≠ .closed → t.ub i = s.ub i))
      ∧ (s.su.active.installed i = false → t.step i = s.step i ∧ t.ub i = s.ub i))
    ∧ t.st.ring = []
    ∧ t.st.service = allSteps.filter (fun i => s.su.active.installed i && (s.step i).position == .closed)
    ∧ (lost = [] → t.notice .lockout = s.notice .lockout)
    ∧ (∀ before i, lost = before ++ [i] → t.notice .lockout = { s.notice .lockout with
        pending := true
        occurrences := max (s.notice .lockout).occurrences
          (min 255 ((s.notice .lockout).occurrences + lost.length))
        detail := some ⟨s.now / 1000, some i, Cause.positionUnknown.code, 0⟩ }))

/-- A move of a step: the lists follow its states, the fields that follow the state are set and cleared, and no
other step's record changes. An entry into LOCKED_OUT withdraws the step's queue entry, with WITHDRAWN delivered to each
of its requesters and every other entry kept, ends a capture of it and raises LOCKOUT (R21, R31, R39, R40, R49, R154).
The order of those effects of a lockout is the model's (log entry 8). -/
def Obligations.MovesKeepTheListsAndLockoutsAnnounce : Prop :=
  ∀ (i : StepIx) (s : State),
    (∀ (new : StepState) (b : Basis) (c : Cause),
      let t := moveStep i new b c s
      t.step i = { s.step i with
        state := new
        basis := if new = .discharging then some b else none
        cause := if new = .lockedOut then some c else none
        energizedAt := if new = .energized then some (s.now / 1000) else none }
      ∧ (∀ j, j ≠ i → t.step j = s.step j)
      ∧ t.st.ring = (if (s.step i).state = .ready then s.st.ring.filter (· ≠ i) else s.st.ring)
          ++ (if new = .ready then [i] else [])
      ∧ t.st.service = (if (s.step i).state = .energized then s.st.service.filter (· ≠ i) else s.st.service)
          ++ (if new = .energized then [i] else [])
      ∧ (t.sw i).retries = none)
    ∧ (∀ c : Cause,
        let t := lockOut i c s
        (t.step i).state = .lockedOut ∧ (t.step i).cause = some c ∧ (t.step i).energizedAt = none
        ∧ (∀ j, j ≠ i → t.step j = s.step j)
        ∧ t.swu.queue = s.swu.queue.filter (fun e => decide (e.step ≠ i))
        ∧ (let moved := moveStep i .lockedOut .own c s
          let withdrawn (u : State) : State := raiseNotice .lockout (some i) c.code 0 (abortCaptureOf i u)
          ((∀ e ∈ s.swu.queue, e.step ≠ i) → t = withdrawn moved)
          ∧ (∀ e ∈ s.swu.queue, e.step = i → s.queueSound →
            t = withdrawn (deliverAll i e.kind .withdrawn e.requesters { moved with swu := { moved.swu with
              queue := s.swu.queue.filter (fun x => decide (x.step ≠ i)) } })))
        ∧ (∀ p, s.ubp.capture = some p → p.step = i →
            t.ubp.capture = none ∧ t.ubp.lastCapture = some ⟨i, .aborted, s.now / 1000⟩)
        ∧ t.notice .lockout = { s.notice .lockout with
            pending := true
            occurrences := satInc 255 (s.notice .lockout).occurrences
            detail := some ⟨s.now / 1000, some i, c.code, 0⟩ })

/-! ### The Switching Unit -/

/-- What requests, results, the dispatcher, lockouts, PROTECTION opens, reports to the router and hold causes
leave alone: the clock, the queue of commands, Measurement Intake, the Settings Unit, the host line but for the
notices, the routes, every position and contact, the unbalance records, the marks, the counts of the harmonic
quantities, the guards and timers of the regulator, the staged order and BREAKER_FAIL. -/
def Obligations.SwitchingChangesOnlyItsOwn : Prop :=
  ∀ s t : State,
    (t = dispatcher s ∨ (∃ i k q, q.origin ≠ .protection ∧ t = request i k q s)
      ∨ (∃ i q, t = protectionOpen i q s) ∨ (∃ i c, t = lockOut i c s)
      ∨ (∃ src b, t = condition src b s) ∨ (∃ src, t = pulse src s) ∨ (∃ c b, t = setHold c b s)) →
    t.now = s.now ∧ t.resetHeld = s.resetHeld ∧ t.pending = s.pending ∧ t.mi = s.mi ∧ t.su = s.su
    ∧ t.hlk = { s.hlk with notices := t.hlk.notices }
    ∧ t.evr.routes = s.evr.routes
    ∧ t.ubp.steps = s.ubp.steps ∧ t.hsv.marks = s.hsv.marks ∧ t.hsv.skipped = s.hsv.skipped
    ∧ (∀ q, t.qty q = { s.qty q with removal := (t.qty q).removal })
    ∧ t.vrg = { s.vrg with
        reg := t.vrg.reg, target := t.vrg.target, holds := t.vrg.holds, below := t.vrg.below,
        above := t.vrg.above, noCandidate := t.vrg.noCandidate }
    ∧ t.swu.staged = s.swu.staged ∧ (∀ i, (t.sw i).breakerFail = (s.sw i).breakerFail)
    ∧ t.cdu.startUp = s.cdu.startUp ∧ t.st.rebuilt = s.st.rebuilt
    ∧ t.st.debounceEnded = s.st.debounceEnded
    ∧ (∀ i, t.step i = { s.step i with
        state := (t.step i).state, basis := (t.step i).basis, cause := (t.step i).cause,
        energizedAt := (t.step i).energizedAt })

/-- A request of GUARD, STATION or REGULATION origin joins an operation of its kind in flight; else it makes an
entry at its place by class and enqueue time; or it meets the step's entry: merged where the kinds agree, with
the outranking origin and at the place of that class; superseding a CLOSE; or refused with QUEUE_CONFLICT where
a CLOSE meets an OPEN. The dispatcher acts after it (R47, R48). That an entry that merges into another class stands
behind the entries of that class with an equal enqueue time is the model's choice (log entry 8). -/
def Obligations.RequestsEnterTheQueue : Prop :=
  ∀ (i : StepIx) (k : Kind) (q : Requester) (s : State), q.origin ≠ .protection → s.queueSound →
    let flies := ∃ o, (s.sw i).op = some o ∧ o.phase ≠ .settling ∧ o.kind = k
    let join (qs : List Requester) := if q ∈ qs then qs else qs ++ [q]
    let queued (es : List Entry) (u : State) : State := { u with swu := { u.swu with queue := es } }
    let placed (e : Entry) (old new : List Entry) : Prop :=
      ∃ a b, old = a ++ b ∧ new = a ++ e :: b ∧ (∀ x ∈ a, x.before e) ∧ (∀ x ∈ b, ¬x.before e)
    let new : Entry := ⟨i, k, q.origin, [q], s.now⟩
    (flies → request i k q s = dispatcher { s with swu := { s.swu with
        steps := Tab.upd s.swu.steps i (fun r => { r with
          op := r.op.map (fun o => { o with requesters := join o.requesters }) }) } })
    ∧ (¬flies → (∀ e ∈ s.swu.queue, e.step ≠ i) →
        ∃ es, placed new s.swu.queue es ∧ request i k q s = dispatcher (queued es s))
    ∧ (¬flies → ∀ e ∈ s.swu.queue, e.step = i →
        let others := s.swu.queue.filter (fun x => decide (x.step ≠ i))
        (e.kind = k →
          let m : Entry := { e with
            requesters := join e.requesters
            origin := if q.origin.cls < e.origin.cls then q.origin else e.origin }
          ∃ es, request i k q s = dispatcher (queued es s)
            ∧ (if q.origin.cls < e.origin.cls then placed m others es
              else es = s.swu.queue.map (fun x => if x.step = i then m else x)))
        ∧ (e.kind = .close → k = .opening →
          ∃ es, placed new others es
            ∧ request i k q s
              = dispatcher (queued es (deliverAll i .close .superseded e.requesters s)))
        ∧ (e.kind = .opening → k = .close →
          request i k q s = dispatcher (deliver i .close .queueConflict q s)))

/-- What each requester does with a result (R46, R107, R129, R166). That a result is matched to a removal record
by its step is the model's (log entry 10). -/
def Obligations.ResultsReachTheirRequesters : Prop :=
  ∀ (i : StepIx) (k : Kind) (r : OpResult) (s : State),
    deliver i k r .hlk s
      = { s with swu := { s.swu with stationResult := some ⟨i, k, r, s.now / 1000⟩ } }
    ∧ (s.vrg.reg = .pending → s.vrg.target = some ⟨i, k⟩ →
        deliver i k r .regulator s
          = { s with vrg := if r = .success then { s.vrg with reg := .settling }
              else { s.vrg with reg := .watch, target := none, below := 0, above := 0 } })
    ∧ ((s.vrg.reg ≠ .pending ∨ s.vrg.target ≠ some ⟨i, k⟩) → deliver i k r .regulator s = s)
    ∧ (∃ t, deliver i k r .hsv s = t ∧ t = { s with hsv := { s.hsv with qtys := t.hsv.qtys } }
        ∧ ∀ q, t.qty q = { s.qty q with
            removal := (s.qty q).removal.map (fun m =>
              if m.step = some i ∧ m.result = none then { m with result := some r } else m) })
    ∧ (deliver i k r .evr s = { s with evr := { s.evr with
        removal := s.evr.removal.map (fun m => { m with
          steps := m.steps.map (fun p => if p.1 = i ∧ p.2 = none then (p.1, some r) else p) }) } })
    ∧ (∀ q, q = .overvoltageGuard ∨ q = .lossOfVoltageGuard ∨ q = .ubp ∨ q = .swu → deliver i k r q s = s)

/-- The dispatcher acts while the slot is free: it takes the first entry whose step has no operation record;
that entry is dispatched where it passes its checks, and else is answered and the search goes on (R51, R52,
R53). -/
def Obligations.DispatcherTakesTheFirstEntryItMay : Prop :=
  ∀ s : State, s.queueSound →
    (s.swu.slot ≠ none → dispatcher s = s)
    ∧ ((∀ e ∈ s.swu.queue, (s.sw e.step).op ≠ none) → dispatcher s = s)
    ∧ (∀ (before after : List Entry) (e : Entry), s.swu.slot = none →
        s.swu.queue = before ++ e :: after → (∀ x ∈ before, (s.sw x.step).op ≠ none) →
        (s.sw e.step).op = none →
        let u : State := { s with swu := { s.swu with queue := before ++ after } }
        let budget := s.cdu.budget < s.y .yardLimit
        let passes : Prop :=
          match e.kind with
          | .close => (s.step e.step).state = .ready ∧ (s.cd e.step).duty + 2 ≤ s.y .dutyLimit
              ∧ (e.origin = .regulation → s.vrg.mode = .auto ∧ budget)
              ∧ (e.origin = .station → s.vrg.mode ≠ .auto)
          | .opening => (e.origin = .regulation → budget) ∧ (s.step e.step).position = .closed
              ∧ ((s.step e.step).state = .energized
                ∨ (s.step e.step).state = .lockedOut ∧ Requester.hlk ∈ e.requesters)
        let failure : OpResult :=
          match e.kind with
          | .close => .notEligible
          | .opening =>
            if e.origin = .regulation ∧ s.y .yardLimit ≤ s.cdu.budget then .notEligible else .already
        (passes → dispatcher s = dispatchOp e.step e.kind e.origin e.requesters u)
        ∧ (¬passes → dispatcher s = dispatcher (deliverAll e.step e.kind failure e.requesters u)))

/-- A dispatch: the operation record with its timers and pre snapshot, the slot for an origin other than
PROTECTION, the coils, one pulse start on the duty level and for REGULATION on the yard budget, the operation
count, the state of the step, the end of a capture of it; and the success where the position is the target
already. The other steps are left alone (R27, R28, R54, R59, R60, R61, R63, R81, R86, R154). R54 gives these claims no
order; that the report of the budget comes after all of them is the model's (log entry 8). -/
def Obligations.DispatchStartsAnOperation : Prop :=
  ∀ (i : StepIx) (k : Kind) (g : Origin) (qs : List Requester) (s : State),
    let o : OpRecord :=
      { kind := k, origin := g, requesters := qs, protMerged := false, phase := .pulsing, start := s.now
        holdsSlot := decide (g ≠ .protection), pre := s.snapshot i
        pulseDue := s.now + (if k = .close then s.y .closePulse else s.y .tripPulse)
        limitDue := s.now + (if k = .close then s.y .closeLimit else s.y .openLimit), settleDue := 0 }
    let was := (s.step i).state
    ∃ u : State,
      dispatchOp i k g qs s
        = (if g = .regulation then
            reportBudget { u with cdu := { u.cdu with
              budget := s.cdu.budget + 1
              yardTimer :=
                if s.cdu.budget = 0 then some (s.now + s.ySec .yardInterval) else s.cdu.yardTimer } }
          else u)
      ∧ u.cdu.budget = s.cdu.budget ∧ u.cdu.yardTimer = s.cdu.yardTimer
      ∧ u.swu.slot = (if g = .protection then s.swu.slot else some i) ∧ u.swu.queue = s.swu.queue
      ∧ (∀ j, j ≠ i → u.step j = s.step j ∧ u.sw j = s.sw j ∧ u.cd j = s.cd j)
      ∧ (u.cd i).duty = min ((s.cd i).duty + 1) (max 31 (s.cd i).duty)
      ∧ (u.cd i).dutyTimer
          = (if (s.cd i).duty = 0 then some (s.now + s.ySec .dutyInterval) else (s.cd i).dutyTimer)
      ∧ (u.cd i).discharge = (s.cd i).discharge
      ∧ (u.sw i).opCount = satInc 4294967295 (s.sw i).opCount
      ∧ (∀ c, s.ubp.capture = some c → c.step = i → u.ubp.capture = none)
      ∧ ((s.step i).position ≠ k.target →
          (u.sw i).op = some o ∧ (u.sw i).lastResult = (s.sw i).lastResult
          ∧ (u.sw i).closeCoil = decide (k = .close)
          ∧ (u.sw i).tripA = decide (k = .opening) ∧ (u.sw i).tripB = decide (k = .opening)
          ∧ (u.step i).state
            = (if k = .close ∧ was = .ready then .closing
              else if k = .opening ∧ (was = .energized ∨ was = .closing) then .opening else was))
      ∧ ((s.step i).position = k.target →
          (u.sw i).op = some { o with phase := .settling, settleDue := s.now + s.ySec .settleWindow }
          ∧ (u.sw i).lastResult = some .success
          ∧ (u.sw i).closeCoil = false ∧ (u.sw i).tripA = false ∧ (u.sw i).tripB = false
          ∧ (k = .close → was = .ready → (u.step i).state = .energized)
          ∧ (k = .opening → (was = .energized ∨ was = .closing) →
              (u.step i).state = .discharging ∧ (u.step i).basis = some .own)
          ∧ (was = .lockedOut → u.step i = s.step i))

/-- A PROTECTION open against the step as it stands: merged into an open in flight; the close in flight aborted
and the open dispatched in its place; dispatched at once on an ENERGIZED step, or a LOCKED_OUT one that is not
OPEN, a settle being overtaken first; else ALREADY. The step's queue entry is taken in, or superseded; and how a
record is removed and a settle overtaken (R50, R55, R56, R57, R58, R108). That the regulator leaves SETTLING at an
overtaken settle where its target is this step and kind, R108 saying only that the settled event does not come, is the
model's (log entry 10). -/
def Obligations.ProtectionOpensAreTaken : Prop :=
  ∀ (i : StepIx) (q : Requester) (s : State),
    let trips := (s.step i).state = .energized
      ∨ (s.step i).state = .lockedOut ∧ (s.step i).position ≠ .opened
    let ended (u : State) : State := { u with swu := { u.swu with steps := Tab.upd u.swu.steps i (fun r =>
      { r with closeCoil := false, tripA := false, tripB := false, lastResult := some .aborted }) } }
    let told (o : OpRecord) : State :=
      if s.vrg.reg = .settling ∧ s.vrg.target = some ⟨i, o.kind⟩ ∧ Requester.regulator ∈ o.requesters then
        { removeOp i s with vrg := { s.vrg with reg := .watch, target := none, below := 0, above := 0 } }
      else removeOp i s
    (∀ o, (s.sw i).op = some o →
      (o.phase ≠ .settling → o.kind = .opening →
        takeProtection i q s = { s with swu := { s.swu with
          steps := Tab.upd s.swu.steps i (fun r => { r with op := some { o with
            requesters := if q ∈ o.requesters then o.requesters else o.requesters ++ [q]
            protMerged := true } }) } })
      ∧ (o.phase ≠ .settling → o.kind = .close →
        takeProtection i q s = dispatchProtection i q
          (loadDischarge i (removeOp i (deliverAll i .close .aborted o.requesters (ended s)))))
      ∧ (o.phase = .settling → trips → takeProtection i q s = dispatchProtection i q (overtake i s))
      ∧ (o.phase = .settling → ¬trips → takeProtection i q s = deliver i .opening .already q s)
      ∧ ((removeOp i s).sw i = { s.sw i with op := none }
        ∧ (∀ j, j ≠ i → (removeOp i s).sw j = s.sw j)
        ∧ (removeOp i s).swu.slot
            = (if o.holdsSlot = true ∧ s.swu.slot = some i then none else s.swu.slot)
        ∧ (removeOp i s).swu.queue = s.swu.queue)
      ∧ (o.phase = .settling → overtake i s = told o))
    ∧ ((s.sw i).op = none →
        (trips → takeProtection i q s = dispatchProtection i q s)
        ∧ (¬trips → takeProtection i q s = deliver i .opening .already q s))
    ∧ ((∀ e ∈ s.swu.queue, e.step ≠ i) →
        dispatchProtection i q s = dispatchOp i .opening .protection [q] s)
    ∧ (∀ e ∈ s.swu.queue, e.step = i → s.queueSound →
        let u : State := { s with swu := { s.swu with
          queue := s.swu.queue.filter (fun x => decide (x.step ≠ i)) } }
        (e.kind = .opening → dispatchProtection i q s
          = dispatchOp i .opening .protection (q :: e.requesters.filter (fun x => decide (x ≠ q))) u)
        ∧ (e.kind = .close → dispatchProtection i q s
          = dispatchOp i .opening .protection [q] (deliverAll i .close .superseded e.requesters u)))

/-- PULSE_EXPIRY: the coils off and AWAITING, or the failure where the limit has run out with it.
OPERATE_LIMIT_EXPIRY: the failure, in the order of its rule. SETTLE_EXPIRY: the record removed, the post snapshot
and its four consumers, then the dispatcher (R61, R62, R65, R67, R108). That a settled event is matched to the
regulator by its target is the model's (log entry 10); so is that the whole no-current check, OP_FAIL's pulse with what
its route raises included, comes before the dispatcher, which R51 orders after the lockout and the PROTECTION open alone
(log entry 8). -/
def Obligations.OperationTimersRunOut : Prop :=
  ∀ (i : StepIx) (o : OpRecord) (s : State), s.resetHeld = none → (s.sw i).op = some o →
    let put (f : SwuStep → SwuStep) (u : State) : State :=
      { u with swu := { u.swu with steps := Tab.upd u.swu.steps i f } }
    let off (r : SwuStep) : SwuStep := { r with closeCoil := false, tripA := false, tripB := false }
    (o.phase = .pulsing → o.pulseDue ≤ s.now → s.now < o.limitDue →
      exec (.pulseExpiry i) s
        = .next (put (fun r => { off r with op := some { o with phase := .awaiting } }) s))
    ∧ (o.phase = .pulsing → o.pulseDue ≤ s.now → o.limitDue ≤ s.now →
      exec (.pulseExpiry i) s = exec (.operateLimitExpiry i) s)
    ∧ (o.phase ≠ .settling → o.limitDue ≤ s.now →
      let failed := put (fun r => { off r with lastResult := some .failToOperate }) s
      let told := deliverAll i o.kind .failToOperate o.requesters failed
      let announced := pulse .opFail
        (raiseNotice .opFail (some i) (match o.kind with | .close => 0 | .opening => 1) 0 told)
      let taken := stFailure i o (removeOp i announced)
      exec (.operateLimitExpiry i) s = .next (dispatcher
        (tripRetry i o (decide ((s.step i).state = .opening))
          (if o.kind = .close then loadDischarge i taken else taken))))
    ∧ (o.phase = .settling → o.settleDue ≤ s.now →
      let post := s.snapshot i
      let told : State :=
        if s.vrg.reg = .settling ∧ s.vrg.target = some ⟨i, o.kind⟩ ∧ Requester.regulator ∈ o.requesters then
          { removeOp i s with vrg := { s.vrg with reg := .watch, target := none, below := 0, above := 0 } }
        else removeOp i s
      let learned := attribute_ i o post (learn i o post told)
      exec (.settleExpiry i) s = .next (dispatcher (noCurrentCheck i o.kind post
        (if o.kind = .close then
          { learned with ubp := { learned.ubp with
            steps := Tab.upd learned.ubp.steps i (fun r => { r with eval := .armed, arming := none }) } }
        else learned))))

/-- What ST does with a failed operation (R27, R28, R29), the trip retries and BREAKER_FAIL after a failed open
(R68, R69). -/
def Obligations.FailuresLockOutAndRetry : Prop :=
  ∀ (i : StepIx) (o : OpRecord) (s : State),
    let retries (n : Nat) (u : State) : State := { u with swu := { u.swu with
      steps := Tab.upd u.swu.steps i (fun r => { r with retries := some n }) } }
    let was := (s.step i).state
    (o.kind = .close → was = .closing → stFailure i o s = lockOut i .failToClose s)
    ∧ (o.kind = .opening → was = .opening → stFailure i o s = retries 0 (lockOut i .failToOpen s))
    ∧ (o.kind = .opening → was = .lockedOut →
        ((o.origin = .protection ∨ o.protMerged = true) → (s.step i).cause ≠ some .failToOpen →
          stFailure i o s = raiseNotice .lockout (some i) 3 0 (retries 0 { s with st := { s.st with
            steps := Tab.upd s.st.steps i (fun r => { r with cause := some .failToOpen }) } }))
        ∧ (((o.origin ≠ .protection ∧ o.protMerged = false) ∨ (s.step i).cause = some .failToOpen) →
          stFailure i o s = s))
    ∧ (∀ moved : Bool,
        let falls := o.kind = .opening ∧ was = .lockedOut ∧ (s.step i).cause = some .failToOpen
          ∧ (o.origin = .protection ∨ o.protMerged = true ∨ moved = true)
        let used := ((s.sw i).retries).getD 0
        (¬falls → tripRetry i o moved s = s)
        ∧ (falls → used < s.y .tripRetries →
          tripRetry i o moved s = takeProtection i .swu (retries (used + 1) s))
        ∧ (falls → s.y .tripRetries ≤ used →
          let u : State := { s with swu := { s.swu with
            steps := Tab.upd s.swu.steps i (fun r => { r with breakerFail := true }) } }
          tripRetry i o moved s
            = condition .breakerFail true (reportClass .breakerFail true (some i) 0 0 u)))

/-- The consumers of a settled event: the learning of a rise (R109), the resonance marks of a close (R133), and
the no-current check of a close (R66). R66 gives the effects of a check that finds no current without an order; lockout,
PROTECTION open, notice, and then OP_FAIL's pulse with what its route raises, is the model's (log entry 8). -/
def Obligations.SettledEventsTeachAndCheck : Prop :=
  ∀ (i : StepIx) (o : OpRecord) (s : State),
    (∀ post : Option Snapshot,
      (o.pre = none ∨ post = none ∨ (o.origin ≠ .station ∧ o.origin ≠ .regulation) → learn i o post s = s)
      ∧ (o.pre = none ∨ post = none ∨ o.kind = .opening → attribute_ i o post s = s)
      ∧ (post = none ∨ o.kind = .opening → noCurrentCheck i o.kind post s = s))
    ∧ (∀ a b : Snapshot, o.pre = some a → (o.origin = .station ∨ o.origin = .regulation) →
        let rise : Int := if o.kind = .close then (b.voltage : Int) - a.voltage
          else (a.voltage : Int) - b.voltage
        let v := s.vrg.steps.get i
        let w : VrgStep :=
          if 0 < rise ∧ rise ≤ 4 * (s.su.active.expectedRise i : Int) then
            { v with rise := some (match v.rise with
              | none => rise.toNat
              | some old => (3 * old + rise.toNat) / 4) }
          else { v with rejected := satInc 65535 v.rejected }
        learn i o (some b) s = { s with vrg := { s.vrg with steps := Tab.put s.vrg.steps i w } })
    ∧ (∀ a b : Snapshot, o.pre = some a → o.kind = .close →
        let t := attribute_ i o (some b) s
        t = { s with hsv := { s.hsv with marks := t.hsv.marks } }
        ∧ (∀ j q, j ≠ i → t.marked j q = s.marked j q)
        ∧ t.marked i 0 = s.marked i 0
        ∧ (∀ q : QtyIx, q ≠ 0 →
          (s.su.active.la q = 0 → t.marked i q = s.marked i q)
          ∧ (s.su.active.la q ≠ 0 →
            (b.harm.get q * 100 < a.harm.get q * s.y .amplification → t.marked i q = false)
            ∧ (a.harm.get q * s.y .amplification ≤ b.harm.get q * 100 →
              (s.su.active.la q ≤ b.harm.get q * 2 → t.marked i q = true)
              ∧ (b.harm.get q * 2 < s.su.active.la q → t.marked i q = s.marked i q)))))
    ∧ (∀ (b : Snapshot) (x y z : Nat), b.currents = some (x, y, z) →
        let low := x < s.y .presenceLevel * 10 ∨ y < s.y .presenceLevel * 10 ∨ z < s.y .presenceLevel * 10
        (¬low → noCurrentCheck i .close (some b) s = s)
        ∧ (low → noCurrentCheck i .close (some b) s
          = pulse .opFail (raiseNotice .opFail (some i) 0 1 (takeProtection i .swu
              (if (s.step i).state = .energized then lockOut i .noCurrent s else s)))))

/-- ORDER_STAGE, ORDER_CANCEL and the expiry of the stage timer (R70, R72), and the replies of ORDER_EXECUTE, which
passes a request to the Switching Unit in the last two of its rows (R71). -/
def Obligations.StationOrdersAreStagedAndExecuted : Prop :=
  ∀ (step kind : Byte) (s : State), s.resetHeld = none →
    let staged (g : Option StagedOrder) : State := { s with swu := { s.swu with staged := g } }
    ((stepOfCode step.toNat = none ∨ Kind.ofCode kind.toNat = none) →
      exec (.orderStage step kind) s = .next (s.replied ⟨.outOfRange, []⟩)
      ∧ exec (.orderExecute step kind) s = .next (s.replied ⟨.outOfRange, []⟩))
    ∧ (∀ i k, stepOfCode step.toNat = some i → Kind.ofCode kind.toNat = some k →
      let mine := ∃ due, s.swu.staged = some ⟨i, k, due⟩
      let new : StagedOrder := ⟨i, k, s.now + s.ySec .stageTimeout⟩
      let answers (c : ReplyCode) : Prop :=
        exec (.orderExecute step kind) s = .next ((staged none).replied ⟨c, []⟩)
      ((s.swu.staged = none ∨ mine) →
        exec (.orderStage step kind) s = .next ((staged (some new)).replied ⟨.ok, []⟩))
      ∧ (s.swu.staged ≠ none → ¬mine →
        exec (.orderStage step kind) s = .next (s.replied ⟨.stageHeld, []⟩))
      ∧ (s.swu.staged = none → answers .notStaged)
      ∧ (s.swu.staged ≠ none → ¬mine → answers .mismatch)
      ∧ (mine →
        (k = .close →
          (s.vrg.mode = .auto → answers .wrongMode)
          ∧ (s.vrg.mode ≠ .auto →
            (((s.step i).state ≠ .ready ∨ s.y .dutyLimit < (s.cd i).duty + 2) → answers .notEligible)
            ∧ ((s.step i).state = .ready → (s.cd i).duty + 2 ≤ s.y .dutyLimit →
              let conflict := (∃ e ∈ s.swu.queue, e.step = i ∧ e.kind = .opening)
                ∧ ¬∃ o, (s.sw i).op = some o ∧ o.phase ≠ .settling ∧ o.kind = .close
              s.queueSound →
              (conflict → exec (.orderExecute step kind) s
                = .next ((request i .close .hlk (staged none)).replied ⟨.queueConflict, []⟩))
              ∧ (¬conflict → exec (.orderExecute step kind) s
                = .next ((request i .close .hlk (staged none)).replied ⟨.ok, []⟩)))))
        ∧ (k = .opening →
          ((s.step i).position ≠ .closed → answers .notEligible)
          ∧ ((s.step i).position = .closed → exec (.orderExecute step kind) s
            = .next ((request i .opening .hlk (staged none)).replied ⟨.ok, []⟩)))))
    ∧ exec .orderCancel s = .next ((staged none).replied ⟨.ok, []⟩)
    ∧ (∀ g, s.swu.staged = some g → g.due ≤ s.now → exec .orderStageExpiry s = .next (staged none))

/-! ### The Cooldown Unit -/

/-- The expiries of the Cooldown Unit: a discharge timer (R77), the start-up discharge timer (R79), a duty timer
(R82) and the yard timer with BUDGET_EXHAUSTED (R87, R88). -/
def Obligations.CooldownTimersRunOut : Prop :=
  ∀ s : State, s.resetHeld = none →
    (∀ i due, (s.cd i).discharge = some due → due ≤ s.now →
      let out : State := { s with cdu := { s.cdu with
        steps := Tab.upd s.cdu.steps i (fun c => { c with discharge := none, discharged := true }) } }
      ((s.step i).state = .discharging → (s.step i).basis = some .own → ∃ t,
        exec (.dischargeExpiry i) s = .next t ∧ t.cdu = out.cdu
        ∧ t.step i = { s.step i with state := .ready, basis := none, cause := none, energizedAt := none }
        ∧ (∀ j, j ≠ i → t.step j = s.step j)
        ∧ t.st.ring = s.st.ring ++ [i] ∧ t.st.service = s.st.service)
      ∧ (((s.step i).state ≠ .discharging ∨ (s.step i).basis ≠ some .own) →
        exec (.dischargeExpiry i) s = .next out))
    ∧ (∀ due, s.cdu.startUp = .running due → due ≤ s.now → ∃ t,
        exec .startupDischargeExpiry s = .next t ∧ t.cdu.startUp = .over
        ∧ (∀ i, t.cd i = { s.cd i with
            discharged := if (s.cd i).discharge = none then true else (s.cd i).discharged })
        ∧ (∀ i, ((s.step i).state = .discharging ∧ (s.step i).basis = some .startUp →
              (t.step i).state = .ready ∧ (t.step i).basis = none)
            ∧ (¬((s.step i).state = .discharging ∧ (s.step i).basis = some .startUp) →
              t.step i = s.step i))
        ∧ t.st.ring = s.st.ring ++ allSteps.filter (fun i =>
            (s.step i).state == .discharging && (s.step i).basis == some .startUp)
        ∧ t.st.service = s.st.service)
    ∧ (∀ i due, (s.cd i).dutyTimer = some due → due ≤ s.now →
        exec (.dutyExpiry i) s = .next { s with cdu := { s.cdu with
          steps := Tab.upd s.cdu.steps i (fun c => { c with
            duty := c.duty - 1
            dutyTimer := if 1 < c.duty then some (s.now + s.ySec .dutyInterval) else none }) } })
    ∧ (∀ due, s.cdu.yardTimer = some due → due ≤ s.now →
        let u : State := { s with cdu := { s.cdu with
          budget := s.cdu.budget - 1
          yardTimer := if 1 < s.cdu.budget then some (s.now + s.ySec .yardInterval) else none } }
        let full := decide (s.y .yardLimit ≤ s.cdu.budget - 1)
        exec .yardTimerExpiry s = .next (condition .budgetExhausted full
          (reportClass .regLimit (full || s.vrg.noCandidate) none 0 0 u)))

/-! ### The Voltage Regulator -/

/-- A hold cause that starts or ends puts the regulator into HOLD, with the withdrawal of its requests, or out of
it into WATCH (R95, R96, R97); and the expiry of the start-up hold arms the steps that await it and ends START_UP
(R98, R140). -/
def Obligations.HoldCausesMoveTheRegulator : Prop :=
  ∀ s : State,
    (∀ (c : HoldCause) (b : Bool),
      let h := s.vrg.holds.put c b
      let stands := s.vrg.mode ≠ .auto ∨ h.any = true
      let put (r : RegState) : State :=
        { s with vrg := { s.vrg with holds := h, reg := r, target := none, below := 0, above := 0 } }
      (∀ d, h.has d = if d = c then b else s.vrg.holds.has d)
      ∧ (h.any = true ↔ ∃ d, h.has d = true)
      ∧ (stands → s.vrg.reg ≠ .hold →
          setHold c b s = withdrawRegulation (endNoCandidate (put .hold)))
      ∧ (¬stands → s.vrg.reg = .hold → setHold c b s = put .watch)
      ∧ ((stands ↔ s.vrg.reg = .hold) → setHold c b s = { s with vrg := { s.vrg with holds := h } }))
    ∧ (∀ due, s.resetHeld = none → s.vrg.startHold = .running due → due ≤ s.now → ∃ u,
        exec .startUpHoldExpiry s = .next (setHold .startUp false u)
        ∧ u = { s with vrg := { s.vrg with startHold := .over }, ubp := { s.ubp with steps := u.ubp.steps } }
        ∧ ∀ i, u.ub i = (if (s.ub i).eval = .awaitHold then { s.ub i with eval := .armed, arming := none }
            else s.ub i))

/-- MODE_SET and the station-silence fallback: what a change of mode does to the regulator, to the station-silence
timer and to the guards, which stop in OFF (R92, R93, R96, R97, R116, R117). On leaving AUTO NO_CANDIDATE ends and the
regulator's requests are withdrawn: its own entries leave the queue, and it leaves the requesters of the others
(R49, R93, R96). The order of the two ends in OFF is the model's (log entry 8). -/
def Obligations.ModeChangesTakeEffect : Prop :=
  ∀ s : State, s.resetHeld = none → s.holdSound →
    let entering (m : Mode) (r : RegState) : State := { s with vrg := { s.vrg with
      mode := m, reg := r, target := none, below := 0, above := 0
      silence := if m = .manual ∧ s.y .fallbackInterval ≠ 0
        then some (s.now + s.ySec .fallbackInterval) else none } }
    let kept (m : Mode) : State := { s with vrg := { s.vrg with
      mode := m
      silence := if m = .manual ∧ s.y .fallbackInterval ≠ 0
        then some (s.now + s.ySec .fallbackInterval) else none } }
    (∀ code : Byte, 2 < code.toNat → exec (.modeSet code) s = .next (s.replied ⟨.outOfRange, []⟩))
    ∧ (∀ m, m = s.vrg.mode →
        exec (.modeSet (BitVec.ofNat 8 m.code)) s = .next (s.replied ⟨.ok, []⟩))
    ∧ (∀ m, m ≠ s.vrg.mode → exec (.modeSet (BitVec.ofNat 8 m.code)) s
        = .next ((changeMode m s).replied ⟨.ok, []⟩))
    ∧ (s.vrg.mode ≠ .auto →
        (s.vrg.holds.any = false → changeMode .auto s = entering .auto .watch)
        ∧ (s.vrg.holds.any = true → changeMode .auto s = kept .auto))
    ∧ (s.vrg.mode = .auto →
        (s.vrg.reg ≠ .hold →
          changeMode .manual s = withdrawRegulation (endNoCandidate (entering .manual .hold)))
        ∧ (s.vrg.reg = .hold → changeMode .manual s = withdrawRegulation (endNoCandidate (kept .manual))))
    ∧ (s.vrg.mode = .off → changeMode .manual s = kept .manual)
    ∧ (let halted (x : State) : State :=
          let a := if x.vrg.overvoltage = true then condition .overvoltage false
              { x with vrg := { x.vrg with overvoltage := false, repeatAcc := 0 } }
            else x
          let b := if a.vrg.lossOfVoltage = true then condition .lossOfVoltage false
              (setHold .lossOfVoltage false { a with vrg := { a.vrg with lossOfVoltage := false } })
            else a
          { b with vrg := { b.vrg with ovAcc := 0, repeatAcc := 0, lovAcc := 0 } }
       (s.vrg.mode = .auto → s.vrg.reg ≠ .hold →
          changeMode .off s = halted (withdrawRegulation (endNoCandidate (entering .off .hold))))
       ∧ (s.vrg.mode = .auto → s.vrg.reg = .hold →
          changeMode .off s = halted (withdrawRegulation (endNoCandidate (kept .off))))
       ∧ (s.vrg.mode = .manual → changeMode .off s = halted (kept .off)))
    ∧ (∀ x : State, x.vrg.reg = .hold → withdrawRegulation x = { x with swu := { x.swu with
        queue := x.swu.queue.filterMap (fun e => if e.origin = .regulation then none
          else some { e with requesters := e.requesters.filter (fun q => decide (q ≠ .regulator)) }) } })
    ∧ (s.vrg.mode ≠ .off → (changeMode .off s).vrg.mode = .off
        ∧ (changeMode .off s).vrg.overvoltage = false ∧ (changeMode .off s).vrg.lossOfVoltage = false
        ∧ (changeMode .off s).vrg.ovAcc = 0 ∧ (changeMode .off s).vrg.repeatAcc = 0
        ∧ (changeMode .off s).vrg.lovAcc = 0 ∧ (changeMode .off s).vrg.silence = none
        ∧ (changeMode .off s).vrg.reg = .hold ∧ (changeMode .off s).swu.staged = s.swu.staged)
    ∧ (∀ due, s.vrg.silence = some due → due ≤ s.now → s.vrg.mode = .manual → ∃ t,
        exec .stationSilenceExpiry s = .next t
        ∧ t = pulse .stationSilent (raiseNotice .mode none 0 0
            { changeMode .auto s with swu := { (changeMode .auto s).swu with staged := none } })
        ∧ t.vrg.mode = .auto ∧ t.vrg.silence = none ∧ t.swu.staged = none)

/-- INSERT_DELAY_REACHED and REMOVE_DELAY_REACHED: the frame's posting advances the band in WATCH; with the delay
full the search takes the first step that passes its tests, and a REGULATION request is raised, or NO_CANDIDATE
becomes active; a suppressed decision leaves the accumulator full; short of both delays the posting only advances the
band and ends NO_CANDIDATE, and outside WATCH there is no band step (R100, R102, R103, R104, R105, R106). The last
part says how NO_CANDIDATE starts and ends (R88, R106). The order of the consumers of a posting is the model's (log
entry 8). -/
def Obligations.BandDelaysDecide : Prop :=
  (∀ (l : Link) (bs : List Byte) (s u : State) (m : MeasRecord) (e : Nat), s.resetHeld = none →
    s.posting l bs = some (m, e, u) →
    let v := vrgGuards m e u
    let volts := (m.v1 + m.v2 + m.v3) / 3
    let below := if volts < v.y .vl then min (v.vrg.below + e) (v.ySec .ti)
      else if v.y .vh < volts then 0 else v.vrg.below - e
    let above := if volts < v.y .vl then 0
      else if v.y .vh < volts then min (v.vrg.above + e) (v.ySec .tr) else v.vrg.above - e
    let w : State := { v with vrg := { v.vrg with below := below, above := above } }
    let after (t : State) : Host.Outcome State Fault Refusal := .next (ubpPosting m e (hsvPosting m t))
    let raised (i : StepIx) (k : Kind) : State := request i k .regulator (endNoCandidate
      { v with vrg := { v.vrg with reg := .pending, target := some ⟨i, k⟩, below := 0, above := 0 } })
    let spent := v.y .yardLimit ≤ v.cdu.budget
    (v.vrg.reg ≠ .watch → exec (.measFrame l bs) s = after v)
    ∧ (v.vrg.reg = .watch →
      (below ≠ v.ySec .ti → above ≠ v.ySec .tr → exec (.measFrame l bs) s = after (endNoCandidate w))
      ∧ (below = v.ySec .ti →
        let suppressed := v.harmBlock = true ∨ v.blockInsert = true ∨ spent
        let fits (i : StepIx) : Prop := (∀ x ∈ v.swu.queue, x.step ≠ i)
          ∧ (v.cd i).duty + 2 ≤ v.y .dutyLimit
          ∧ (∀ q, v.marked i q = true → (v.qty q).state = .normal)
          ∧ volts + ((v.vrg.steps.get i).rise).getD (v.su.active.expectedRise i) ≤ v.y .vh
        (suppressed → exec (.insertDelayReached l bs) s = after w)
        ∧ (¬suppressed → (∀ i ∈ v.st.ring, ¬fits i) →
            exec (.insertDelayReached l bs) s = after (startNoCandidate w))
        ∧ (¬suppressed → ∀ i passed rest, v.st.ring = passed ++ i :: rest → (∀ j ∈ passed, ¬fits j) →
            fits i → exec (.insertDelayReached l bs) s = after (raised i .close)))
      ∧ (below ≠ v.ySec .ti → above = v.ySec .tr →
        let fits (i : StepIx) : Prop :=
          v.y .vl + ((v.vrg.steps.get i).rise).getD (v.su.active.expectedRise i) ≤ volts
        (spent → exec (.removeDelayReached l bs) s = after w)
        ∧ (¬spent → (∀ i ∈ v.st.service, ¬fits i) →
            exec (.removeDelayReached l bs) s = after (startNoCandidate w))
        ∧ (¬spent → ∀ i passed rest, v.st.service = passed ++ i :: rest → (∀ j ∈ passed, ¬fits j) →
            fits i → exec (.removeDelayReached l bs) s = after (raised i .opening)))))
  ∧ (∀ x : State,
    let on : State := { x with vrg := { x.vrg with noCandidate := true } }
    let off : State := { x with
      vrg := { x.vrg with noCandidate := false }
      evr := { x.evr with active := Tab.put x.evr.active Source.noCandidate.ix false } }
    (x.vrg.noCandidate = false →
      startNoCandidate x = condition .noCandidate true (reportClass .regLimit true none 1 0 on) ∧ endNoCandidate x = x)
    ∧ (x.vrg.noCandidate = true → startNoCandidate x = x
      ∧ (x.y .yardLimit ≤ x.cdu.budget → endNoCandidate x = off)
      ∧ (x.cdu.budget < x.y .yardLimit → endNoCandidate x = reportClass .regLimit false none 0 0 off)))

/-- The voltage guards on a posting outside OFF: OVERVOLTAGE_DELAY and OVERVOLTAGE_REPEAT raise a GUARD OPEN of the
newest step, LOSS_OF_VOLTAGE_DELAY holds the regulator and raises a PROTECTION OPEN of every step that is
ENERGIZED or CLOSING (R111, R112, R113, R114, R115). The rest says what each guard does on a posting short of its
delay, and where its condition ends (R112, R113, R114); that OFF evaluates none (R111); and that a posting ends
SWITCHOVER and the first one starts the start-up hold (R98, R99). The order within the loss of voltage, and the
overvoltage guard before the other, are the model's (log entry 8). -/
def Obligations.VoltageGuardsAct : Prop :=
  ∀ (l : Link) (bs : List Byte) (s u : State) (m : MeasRecord) (e : Nat), s.resetHeld = none →
    s.posting l bs = some (m, e, u) →
    let v := vrgArrival u
    let highest := max m.v1 (max m.v2 m.v3)
    let after (t : State) : Host.Outcome State Fault Refusal :=
      .next (ubpPosting m e (hsvPosting m (bandStep m e t)))
    let newest (t : State) : State := match t.st.service.getLast? with
      | none => t
      | some i => request i .opening .overvoltageGuard t
    (s.vrg.mode ≠ .off →
      (s.vrg.overvoltage = false → v.y .vx < highest → v.y .tx ≤ v.vrg.ovAcc + e →
        exec (.overvoltageDelay l bs) s = after (lossOfVoltageGuard m e (condition .overvoltage true
          (newest { v with vrg := { v.vrg with ovAcc := v.y .tx, overvoltage := true, repeatAcc := 0 } }))))
      ∧ (s.vrg.overvoltage = true → v.y .vx < highest → v.y .tx ≤ v.vrg.repeatAcc + e →
        exec (.overvoltageRepeat l bs) s = after (lossOfVoltageGuard m e (newest { v with vrg :=
          { v.vrg with ovAcc := min (v.vrg.ovAcc + e) (v.y .tx), repeatAcc := 0 } })))
      ∧ (let w := overvoltageGuard m e v
        let x : State := setHold .lossOfVoltage true { w with vrg :=
          { w.vrg with lovAcc := w.y .tlov, lossOfVoltage := true } }
        let steps := allSteps.filter (fun i =>
          (w.step i).state == .energized || (w.step i).state == .closing)
        s.vrg.lossOfVoltage = false → (m.v1 + m.v2 + m.v3) / 3 < v.y .vu →
        v.y .tlov ≤ v.vrg.lovAcc + e →
        exec (.lossOfVoltageDelay l bs) s = after (condition .lossOfVoltage true
          (dispatcher (steps.foldl (fun t i => takeProtection i .lossOfVoltageGuard t) x)))))
    ∧ (s.vrg.mode ≠ .off →
        exec (.measFrame l bs) s = after (lossOfVoltageGuard m e (overvoltageGuard m e v)))
    ∧ (s.vrg.mode = .off → exec (.measFrame l bs) s = after v)
    ∧ (let arrived := if u.vrg.holds.switchover = true then setHold .switchover false u else u
       (arrived.vrg.startHold = .notStarted → v = { arrived with vrg := { arrived.vrg with
         startHold := .running (u.now + u.ySec .startUpHold) } })
       ∧ (arrived.vrg.startHold ≠ .notStarted → v = arrived))
    ∧ (∀ x : State,
       let set (ov rep lov : Nat) (high lost : Bool) : State := { x with vrg := { x.vrg with
         ovAcc := ov, repeatAcc := rep, lovAcc := lov, overvoltage := high, lossOfVoltage := lost } }
       let g := x.vrg
       let mean := (m.v1 + m.v2 + m.v3) / 3
       let lov := if mean < x.y .vu then min (g.lovAcc + e) (x.y .tlov) else 0
       (highest ≤ x.y .vx → g.overvoltage = false →
         overvoltageGuard m e x = set 0 g.repeatAcc g.lovAcc false g.lossOfVoltage)
       ∧ (highest ≤ x.y .vx → g.overvoltage = true →
         overvoltageGuard m e x = condition .overvoltage false (set 0 0 g.lovAcc false g.lossOfVoltage))
       ∧ (x.y .vx < highest → g.overvoltage = false → g.ovAcc + e < x.y .tx →
         overvoltageGuard m e x = set (g.ovAcc + e) g.repeatAcc g.lovAcc false g.lossOfVoltage)
       ∧ (x.y .vx < highest → g.overvoltage = true → g.repeatAcc + e < x.y .tx →
         overvoltageGuard m e x
           = set (min (g.ovAcc + e) (x.y .tx)) (g.repeatAcc + e) g.lovAcc true g.lossOfVoltage)
       ∧ (g.lossOfVoltage = false → (x.y .vu ≤ mean ∨ g.lovAcc + e < x.y .tlov) →
         lossOfVoltageGuard m e x = set g.ovAcc g.repeatAcc lov g.overvoltage false)
       ∧ (g.lossOfVoltage = true → mean ≤ x.y .vl →
         lossOfVoltageGuard m e x = set g.ovAcc g.repeatAcc lov g.overvoltage true)
       ∧ (g.lossOfVoltage = true → x.y .vl < mean → lossOfVoltageGuard m e x
         = condition .lossOfVoltage false (setHold .lossOfVoltage false
             (set g.ovAcc g.repeatAcc lov g.overvoltage false))))

/-! ### The Harmonic Supervisor -/

/-- The thresholds of a quantity in each state, and what one value does to its counts and its state: one stage at a
time, with both counts at 0 after a move, and the remove-repeat timer running in REMOVE alone (R122, R123, R124,
R125). HARM_MOVE_UP and HARM_MOVE_DOWN: the posting on which the count is full moves the quantity by one stage;
REMOVE_REPEAT_EXPIRY makes the removal choice again, records it, raises its GUARD OPEN and loads the timer again;
MARKS_CLEAR empties the marks of a step (R124, R125, R128, R129, R135). The last part says the whole of a posting: a
record with the frequency flag is set aside and counted (R123); on any other each quantity takes its value, the three
yard conditions go to EVR and to their notice classes, with the lowest quantity at the stage in the detail of an edge,
and each quantity that enters REMOVE has its choice recorded and, directly after, its GUARD OPEN raised (R123, R125,
R126, R128, R129). That the conditions go between the choices and the requests is the model's order (log entry 8). -/
def Obligations.HarmonicQuantitiesMoveAndRemove : Prop :=
  (∀ (c : Settings) (q : QtyIx) (r : Quantity) (due v : Nat),
     let alarm := c.la q ≠ 0
     let block := alarm ∧ c.lb q ≠ 0
     let remove := block ∧ c.lr q ≠ 0
     let up := (r.state = .normal ∧ alarm ∧ c.la q ≤ v) ∨ (r.state = .alarm ∧ block ∧ c.lb q ≤ v)
       ∨ (r.state = .block ∧ remove ∧ c.lr q ≤ v)
     let down := (r.state = .alarm ∧ v < c.la q - c.hyst q) ∨ (r.state = .block ∧ v < c.lb q - c.hyst q)
       ∨ (r.state = .remove ∧ v < c.lr q - c.hyst q)
     let t := r.apply c q due v
     t.last = some v ∧ t.removal = r.removal
     ∧ (c.y .pUp ≠ 0 → c.y .pDown ≠ 0 →
       (up → ¬down →
         (r.up + 1 < c.y .pUp → t = { r with last := some v, up := r.up + 1, down := 0 })
         ∧ (c.y .pUp ≤ r.up + 1 → t.up = 0 ∧ t.down = 0
           ∧ (r.state = .normal → t.state = .alarm ∧ t.repeatDue = none)
           ∧ (r.state = .alarm → t.state = .block ∧ t.repeatDue = none)
           ∧ (r.state = .block → t.state = .remove ∧ t.repeatDue = some due)))
       ∧ (down → ¬up →
         (r.down + 1 < c.y .pDown → t = { r with last := some v, up := 0, down := r.down + 1 })
         ∧ (c.y .pDown ≤ r.down + 1 → t.up = 0 ∧ t.down = 0 ∧ t.repeatDue = none
           ∧ (r.state = .alarm → t.state = .normal)
           ∧ (r.state = .block → t.state = .alarm)
           ∧ (r.state = .remove → t.state = .block)))
       ∧ (¬up → ¬down → t = { r with last := some v, up := 0, down := 0 })))
  ∧ (∀ (q : QtyIx) (s : State), s.resetHeld = none →
       (∀ (l : Link) (bs : List Byte) (m : MeasRecord) (e : Nat) (u : State),
         s.posting l bs = some (m, e, u) → m.status.getLsbD 1 = false →
         let c := s.su.active
         let r := s.qty q
         let v := m.harm.get q
         let t := ubpPosting m e (hsvPosting m (vrgPosting m e u))
         (((r.state = .normal ∧ c.la q ≠ 0 ∧ c.la q ≤ v)
             ∨ (r.state = .alarm ∧ c.la q ≠ 0 ∧ c.lb q ≠ 0 ∧ c.lb q ≤ v)
             ∨ (r.state = .block ∧ c.la q ≠ 0 ∧ c.lb q ≠ 0 ∧ c.lr q ≠ 0 ∧ c.lr q ≤ v)) →
           c.y .pUp ≤ r.up + 1 →
           exec (.harmMoveUp q l bs) s = .next t ∧ (t.qty q).state.rank = r.state.rank + 1
           ∧ (t.qty q).up = 0 ∧ (t.qty q).down = 0)
         ∧ (((r.state = .alarm ∧ v < c.la q - c.hyst q ∧ ¬(c.la q ≠ 0 ∧ c.lb q ≠ 0 ∧ c.lb q ≤ v))
             ∨ (r.state = .block ∧ v < c.lb q - c.hyst q
               ∧ ¬(c.la q ≠ 0 ∧ c.lb q ≠ 0 ∧ c.lr q ≠ 0 ∧ c.lr q ≤ v))
             ∨ (r.state = .remove ∧ v < c.lr q - c.hyst q)) →
           c.y .pUp ≠ 0 → c.y .pDown ≤ r.down + 1 →
           exec (.harmMoveDown q l bs) s = .next t ∧ (t.qty q).state.rank + 1 = r.state.rank
           ∧ (t.qty q).up = 0 ∧ (t.qty q).down = 0))
       ∧ (∀ due, (s.qty q).state = .remove → (s.qty q).repeatDue = some due → due ≤ s.now →
         let qualifies (i : StepIx) : Prop := if q = 0 then ∃ h, s.marked i h = true else s.marked i q = true
         let chosen (choice : Option StepIx) : State := { s with hsv := { s.hsv with
           qtys := Tab.upd s.hsv.qtys q (fun r => { r with
             repeatDue := some (s.now + s.ySec .removeRepeat)
             removal := some ⟨choice, s.now / 1000, none⟩ }) } }
         (s.st.service = [] → exec (.removeRepeatExpiry q) s = .next (chosen none))
         ∧ (∀ older i newer, s.st.service = older ++ i :: newer →
           (qualifies i ∧ ∀ j ∈ newer, ¬qualifies j) ∨ ((∀ j ∈ s.st.service, ¬qualifies j) ∧ newer = []) →
           exec (.removeRepeatExpiry q) s = .next (request i .opening .hsv (chosen (some i)))))
       ∧ (∀ n : Byte, n.toNat = 0 ∨ 8 < n.toNat → exec (.marksClear n) s = .next (s.replied ⟨.outOfRange, []⟩))
       ∧ (∀ i, ∃ t, exec (.marksClear (BitVec.ofNat 8 (stepNo i))) s = .next t
           ∧ t = State.replied { s with hsv := { s.hsv with marks := t.hsv.marks } } ⟨.ok, []⟩
           ∧ (∀ h, t.marked i h = false) ∧ ∀ j h, j ≠ i → t.marked j h = s.marked j h))
  ∧ (∀ (l : Link) (bs : List Byte) (s u : State) (m : MeasRecord) (e : Nat), s.resetHeld = none →
       s.posting l bs = some (m, e, u) →
       let w := vrgPosting m e u
       let entered := allQtys.filter (fun q => decide ((w.qty q).state ≠ .remove
         ∧ ((w.qty q).apply w.su.active q (w.now + w.ySec .removeRepeat) (m.harm.get q)).state = .remove))
       let after (t : State) : Host.Outcome State Fault Refusal := .next (ubpPosting m e t)
       (m.status.getLsbD 1 = true → exec (.measFrame l bs) s
         = after { w with hsv := { w.hsv with skipped := satInc 65535 w.hsv.skipped } })
       ∧ (m.status.getLsbD 1 = false →
         let moved : State := { w with hsv := { w.hsv with qtys := Tab.build (fun q =>
           (w.qty q).apply w.su.active q (w.now + w.ySec .removeRepeat) (m.harm.get q)) } }
         let remove (t : State) (q : QtyIx) : State :=
           let recorded : State := { t with hsv := { t.hsv with qtys := Tab.upd t.hsv.qtys q (fun r =>
             { r with removal := some ⟨w.removalChoice q, w.now / 1000, none⟩ }) } }
           match w.removalChoice q with
           | none => recorded
           | some i => request i .opening .hsv recorded
         exec (.measFrame l bs) s = after (entered.foldl remove (harmConditions moved))))
  ∧ (∀ (q : QtyIx) (x : State),
       let qualifies (i : StepIx) : Prop := if q = 0 then ∃ h, x.marked i h = true else x.marked i q = true
       (x.st.service = [] → x.removalChoice q = none)
       ∧ (∀ older i newer, x.st.service = older ++ i :: newer →
         (qualifies i ∧ ∀ j ∈ newer, ¬qualifies j) ∨ ((∀ j ∈ x.st.service, ¬qualifies j) ∧ newer = []) →
         x.removalChoice q = some i))
  ∧ (∀ x : State,
       let stands (n : Nat) (q : QtyIx) : Bool := decide (n ≤ (x.qty q).state.code)
       let some_ (n : Nat) : Bool := allQtys.any (stands n)
       let lowest (n : Nat) : Nat := match allQtys.find? (stands n) with | none => 0 | some q => qtyNo q
       x.harmAlarm = some_ 1 ∧ x.harmBlock = some_ 2 ∧ x.harmRemove = some_ 3
       ∧ harmConditions x = condition .harmRemove (some_ 3) (condition .harmBlock (some_ 2)
           (condition .harmAlarm (some_ 1) (reportClass .harmAction (some_ 2) none (lowest 2) 2
             (reportClass .harmAlarm (some_ 1) none (lowest 1) 0 x)))))

/-! ### Unbalance Protection -/

/-- The compensated magnitude (R139), and what one posting does to a stage (R143) and to the record of each step,
evaluated or not (R142). -/
def Obligations.StagesFollowTheMagnitude : Prop :=
  (∀ (b : Option Baseline) (x : StepMeas),
    let zero : Baseline := ⟨0, 0, false⟩
    let fits (n : Int) : Prop := -32768 ≤ n ∧ n ≤ 32767
    fits x.inPhase → fits x.quad → fits (b.getD zero).inPhase → fits (b.getD zero).quad →
    let square := (x.inPhase - (b.getD zero).inPhase) ^ 2 + (x.quad - (b.getD zero).quad) ^ 2
    ((compensated b x : Int)) ^ 2 ≤ square ∧ square < ((compensated b x : Int) + 1) ^ 2
      ∧ compensated b x ≤ 92680)
  ∧ (∀ (g : Stage) (level delay u e : Nat),
      let t := g.update level delay u e
      (level ≤ u → g.state = .asserted → t = g)
      ∧ (level ≤ u → g.state ≠ .asserted → t.timer = min (g.timer + e) delay
          ∧ (t.timer = delay → t.state = .asserted) ∧ (t.timer ≠ delay → t.state = .pickedUp))
      ∧ (level * 95 ≤ u * 100 → u * 100 < level * 100 → t = g)
      ∧ (u * 100 < level * 95 → t = ⟨.inactive, 0⟩))
  ∧ (∀ (m : MeasRecord) (e : Nat) (s : State) (i : StepIx),
      let evaluated := (s.ub i).eval = .armed ∧ (s.step i).position = .closed
        ∧ ¬∃ o, (s.sw i).op = some o ∧ o.phase ≠ .settling
      let t := evaluateSteps m e s
      t = { s with ubp := { s.ubp with steps := t.ubp.steps } }
      ∧ (evaluated → ∀ x, m.blocks.get i = some x →
          let c := s.su.active
          let u := compensated (s.ub i).baseline x
          t.ub i = { s.ub i with
            lastMag := some u
            s1 := (s.ub i).s1.update (c.l1 i) (c.ySec .d1) u e
            s2 := (s.ub i).s2.update (c.l2 i) (c.y .d2) u e
            s3 := (s.ub i).s3.update (c.l3 i) (c.y .d3) u e })
      ∧ (¬evaluated → t.ub i = s.ub i))

/-- UNB_ALARM and UNB_TRIP, the postings on which S1 and on which S2 or S3 assert, with the last trip, its cause and
the history (R143, R144, R145, R146); and the expiry of an arming timer (R140). The last part says the whole of UBP on
a posting: the stages are updated; of every step that trips the stamp is appended, the cause found and the last trip
recorded, the lockout is claimed, which moves an ENERGIZED step alone, and the PROTECTION OPEN is raised; UNB_ALARM
goes to EVR and to its notice class as it then stands, active while S1 of some step is ASSERTED, with the lowest such
step in the detail of an edge, of which a posting makes one at most (log entry 15); the trips are announced by TRIP
and UNB_TRIP; and the capture advances (R142, R144, R145, R146, R147, R152). The trips are independent: each keeps the
order of the six steps. The order of the consumers of a posting, that a step is taken for all trips, in ascending
index, before the next step of any, and the places of the alarm, the dispatcher and the capture among them are the
model's (log entry 8). -/
def Obligations.UnbalanceAlarmsAndTrips : Prop :=
  (∀ (i : StepIx) (s : State),
    (∀ (l : Link) (bs : List Byte) (m : MeasRecord) (e : Nat) (p : State) (x : StepMeas),
      s.resetHeld = none → s.posting l bs = some (m, e, p) → m.blocks.get i = some x →
      let w := hsvPosting m (vrgPosting m e p)
      let t := ubpPosting m e w
      let r := s.ub i
      let c := s.su.active
      let u := compensated r.baseline x
      r.eval = .armed → (s.step i).position = .closed →
      (¬∃ o, (w.sw i).op = some o ∧ o.phase ≠ .settling) →
        (r.s1.state ≠ .asserted → c.l1 i ≤ u → c.ySec .d1 ≤ r.s1.timer + e →
          exec (.unbAlarm i l bs) s = .next t ∧ (t.ub i).s1 = ⟨.asserted, c.ySec .d1⟩)
        ∧ (let second := r.s2.state ≠ .asserted ∧ c.l2 i ≤ u ∧ c.y .d2 ≤ r.s2.timer + e
          let third := r.s3.state ≠ .asserted ∧ c.l3 i ≤ u ∧ c.y .d3 ≤ r.s3.timer + e
          (second ∨ third) →
          let history := (if 4 ≤ r.history.length then r.history.drop 1 else r.history) ++ [s.now / 1000]
          let counted := (history.filter (fun x => decide (s.now / 1000 - x ≤ s.y .repeatWindow * 3600))).length
          exec (.unbTrip i l bs) s = .next t
          ∧ (t.ub i).history = history
          ∧ (t.ub i).lastTrip = some ⟨s.now / 1000,
              if second ∧ third then .both else if second then .s2 else .s3, u,
              if s.y .repeatCount ≤ counted then .repeatedTrip else .unbalanceTrip⟩))
    ∧ (∀ due, s.resetHeld = none → (s.ub i).eval = .awaitSettle → (s.ub i).arming = some due → due ≤ s.now →
      exec (.armingExpiry i) s = .next { s with ubp := { s.ubp with
        steps := Tab.upd s.ubp.steps i (fun r => { r with eval := .armed, arming := none }) } }))
  ∧ (∀ s : State, s.unbAlarm = true ↔ ∃ i, (s.ub i).s1.state = .asserted)
  ∧ (∀ (m : MeasRecord) (e : Nat) (s : State),
      let t := evaluateSteps m e s
      let asserts (a b : Stage) : Bool := decide (a.state ≠ .asserted ∧ b.state = .asserted)
      let tripped (i : StepIx) : Option TripStage :=
        match asserts (s.ub i).s2 (t.ub i).s2, asserts (s.ub i).s3 (t.ub i).s3 with
        | true, true => some .both
        | true, false => some .s2
        | false, true => some .s3
        | false, false => none
      let now := s.now / 1000
      let history (i : StepIx) : List Nat :=
        (if 4 ≤ (s.ub i).history.length then (s.ub i).history.drop 1 else (s.ub i).history) ++ [now]
      let counted (i : StepIx) : Nat :=
        ((history i).filter (fun x => decide (now - x ≤ s.y .repeatWindow * 3600))).length
      let cause (i : StepIx) : Cause := if s.y .repeatCount ≤ counted i then .repeatedTrip else .unbalanceTrip
      let recorded : State := { t with ubp := { t.ubp with steps := Tab.build (fun i =>
        match tripped i with
        | none => t.ub i
        | some g => { t.ub i with
            history := history i, lastTrip := some ⟨now, g, (t.ub i).lastMag.getD 0, cause i⟩ }) } }
      let trips := allSteps.filter (fun i => (tripped i).isSome)
      let claimed := trips.foldl (fun x i =>
        if (x.step i).state = .energized then lockOut i (cause i) x else x) recorded
      let opened := if trips = [] then t else dispatcher (trips.foldl (fun x i => takeProtection i .ubp x) claimed)
      let lowest := allSteps.find? (fun i => decide ((t.ub i).s1.state = .asserted))
      let alarmed := condition .unbAlarm opened.unbAlarm (reportClass .unbAlarm opened.unbAlarm lowest 0 0 opened)
      ubpPosting m e s = advanceCapture m (trips.foldl (fun x i =>
        pulse .unbTrip (raiseNotice .trip (some i) (cause i).code 0 x)) alarmed))

/-- BASELINE_CAPTURE with its checks (R151), CAPTURE_CANCEL (R155), what a posting does to a capture, the
sixteenth completing it as CAPTURE_COMPLETE (R152, R153), and what an abort of a capture does, of any step or of one
step alone (R154). -/
def Obligations.CapturesAverageSixteenPostings : Prop :=
  ∀ s : State,
    let taken (c : Option Capture) (u : State) : State := { u with ubp := { u.ubp with capture := c } }
    (s.resetHeld = none →
      (∀ n : Byte, n.toNat = 0 ∨ 8 < n.toNat →
        exec (.baselineCapture n) s = .next (s.replied ⟨.outOfRange, []⟩))
      ∧ (∀ i : StepIx,
        let allowed := s.mi.active ≠ none ∧ (s.step i).state = .energized ∧ (s.sw i).op = none
          ∧ (s.ub i).eval = .armed ∧ (s.step i).position = .closed ∧ (s.ub i).s1.state = .inactive
          ∧ (s.ub i).s2.state = .inactive ∧ (s.ub i).s3.state = .inactive
        let command := Instr.baselineCapture (BitVec.ofNat 8 (stepNo i))
        (s.ubp.capture ≠ none → exec command s = .next (s.replied ⟨.busy, []⟩))
        ∧ (s.ubp.capture = none → ¬allowed → exec command s = .next (s.replied ⟨.wrongState, []⟩))
        ∧ (s.ubp.capture = none → allowed →
            exec command s = .next ((taken (some ⟨i, 0, 0, 0⟩) s).replied ⟨.accepted, []⟩)))
      ∧ (s.ubp.capture = none → exec .captureCancel s = .next (s.replied ⟨.wrongState, []⟩))
      ∧ (s.ubp.capture = none → abortCapture s = s ∧ ∀ i, abortCaptureOf i s = s)
      ∧ (∀ c, s.ubp.capture = some c →
          abortCapture s = raiseNotice .longOp (some c.step) 0 1 { s with ubp := { s.ubp with
            capture := none, lastCapture := some ⟨c.step, .aborted, s.now / 1000⟩ } }
          ∧ ∀ i, abortCaptureOf i s = if c.step = i then abortCapture s else s)
      ∧ (∀ c, s.ubp.capture = some c → exec .captureCancel s
          = .next (State.replied (raiseNotice .longOp (some c.step) 0 1 { s with ubp := { s.ubp with
              capture := none, lastCapture := some ⟨c.step, .aborted, s.now / 1000⟩ } }) ⟨.ok, []⟩)))
    ∧ (∀ m : MeasRecord,
      (s.ubp.capture = none → advanceCapture m s = s)
      ∧ (∀ c x, s.ubp.capture = some c → m.blocks.get c.step = some x →
        let sumI := c.sumI + x.inPhase
        let sumQ := c.sumQ + x.quad
        (c.count ≠ 15 →
          advanceCapture m s = taken (some ⟨c.step, c.count + 1, sumI, sumQ⟩) s)
        ∧ (c.count = 15 →
          advanceCapture m s = raiseNotice .longOp (some c.step) 0 0 { s with ubp := { s.ubp with
            steps := Tab.upd s.ubp.steps c.step (fun r =>
              { r with baseline := some ⟨Int.tdiv sumI 16, Int.tdiv sumQ 16, true⟩ })
            capture := none
            lastCapture := some ⟨c.step, .complete, s.now / 1000⟩ } })))
    ∧ (∀ (l : Link) (bs : List Byte) (m : MeasRecord) (e : Nat) (p : State) (c : Capture) (x : StepMeas),
      s.resetHeld = none → s.posting l bs = some (m, e, p) → s.ubp.capture = some c → c.count = 15 →
      m.blocks.get c.step = some x →
      let w := hsvPosting m (vrgPosting m e p)
      let v := evaluateSteps m e w
      let z := protect (tripsBetween w v) v
      z.ubp.capture = some c → exec (.captureComplete l bs) s = .next (advanceCapture m z))

/-! ### Station requests on a step -/

/-- STEP_RELEASE, STEP_DISABLE and STEP_ENABLE: their checks, the state the step goes to by the timers of that
moment, the withdrawal of its queue entry, and the end of its trip history at a confirmed release (R32, R33, R34,
R35, R49). -/
def Obligations.StepsAreReleasedDisabledAndEnabled : Prop :=
  ∀ s : State,
    let move (i : StepIx) (new : StepState) (b : Basis) : State := moveStep i new b .failToClose s
    let flies (i : StepIx) : Prop := ∃ o, (s.sw i).op = some o ∧ o.phase ≠ .settling
    (∀ i,
      (s.swu.queue.all (fun e => e.step ≠ i) = true → withdrawStep i s = s)
      ∧ (∀ e ∈ s.swu.queue, e.step = i → s.queueSound → withdrawStep i s
        = deliverAll i e.kind .withdrawn e.requesters { s with swu := { s.swu with
            queue := s.swu.queue.filter (fun x => decide (x.step ≠ i)) } }))
    ∧ (s.resetHeld = none →
      (∀ n c : Byte, n.toNat = 0 ∨ 8 < n.toNat →
        exec (.stepEnable n) s = .next (s.replied ⟨.outOfRange, []⟩)
        ∧ exec (.stepDisable n) s = .next (s.replied ⟨.outOfRange, []⟩)
        ∧ exec (.stepRelease n c) s = .next (s.replied ⟨.outOfRange, []⟩))
      ∧ (∀ n c : Byte, 1 < c.toNat → exec (.stepRelease n c) s = .next (s.replied ⟨.outOfRange, []⟩))
      ∧ (∀ i : StepIx,
        let n : Byte := BitVec.ofNat 8 (stepNo i)
        let placed (t : State) : Prop :=
          ((s.cd i).discharge ≠ none → t = move i .discharging .own)
          ∧ ((s.cd i).discharge = none → ∀ due, s.cdu.startUp = .running due → t = move i .discharging .startUp)
          ∧ ((s.cd i).discharge = none → (∀ due, s.cdu.startUp ≠ .running due) → t = move i .ready .own)
        let enables := s.st.rebuilt = true ∧ (s.step i).state = .disabled ∧ s.su.active.installed i = true
          ∧ (s.step i).position = .opened
        let disables := s.st.rebuilt = true
          ∧ ((s.step i).state = .ready ∨ (s.step i).state = .discharging ∨ (s.step i).state = .lockedOut)
          ∧ (s.step i).position = .opened ∧ ¬flies i
        let releases (confirm : Bool) : Prop := s.st.rebuilt = true ∧ (s.step i).state = .lockedOut ∧ ¬flies i
          ∧ (s.step i).position = .opened ∧ (s.ub i).s1.state = .inactive ∧ (s.ub i).s2.state = .inactive
          ∧ (s.ub i).s3.state = .inactive ∧ ((s.step i).cause ≠ some .repeatedTrip ∨ confirm = true)
        (enables → ∃ t, placed t ∧ exec (.stepEnable n) s = .next (t.replied ⟨.ok, []⟩))
        ∧ (¬enables → exec (.stepEnable n) s = .next (s.replied ⟨.wrongState, []⟩))
        ∧ (disables → exec (.stepDisable n) s
            = .next ((withdrawStep i (move i .disabled .own)).replied ⟨.ok, []⟩))
        ∧ (¬disables → exec (.stepDisable n) s = .next (s.replied ⟨.wrongState, []⟩))
        ∧ (releases false → ∃ t, placed t ∧ exec (.stepRelease n 0#8) s = .next (t.replied ⟨.ok, []⟩))
        ∧ (¬releases false → exec (.stepRelease n 0#8) s = .next (s.replied ⟨.wrongState, []⟩))
        ∧ (releases true → ∃ t, placed t ∧ exec (.stepRelease n 1#8) s
            = .next (State.replied { t with ubp := { t.ubp with
                steps := Tab.upd t.ubp.steps i (fun r => { r with history := [] }) } } ⟨.ok, []⟩))
        ∧ (¬releases true → exec (.stepRelease n 1#8) s = .next (s.replied ⟨.wrongState, []⟩))))

/-! ### The Event Router -/

/-- What EVR does with a report: a condition source takes its state, the FREEZE hold follows, and a rising edge on a
removal destination is a trigger; a pulse loads its hold timer on an AUX output and is a trigger on a removal
destination (R158, R160, R164, R165). When the FREEZE and BLOCK_INSERT contributions stand and the AUX outputs are
asserted, none of which is while a reset is held (R160, R162, R163, R202), and how the regulator's hold cause follows
(R162); what a removal trigger records and raises (R164, R165, R166); the expiry of a hold timer (R160); and
ROUTE_SET with its checks and the three parts of a route change (R167, R168). That an entry of NONE stands between
the first two parts is the model's (log entry 15). -/
def Obligations.RoutesCarryTheirSources : Prop :=
  ∀ s : State,
    let freezes := ∃ x : Source, x.isPulse = false ∧ s.route x = .freeze ∧ s.sourceActive x = true
    ((s.freeze = true ↔ freezes)
      ∧ (s.vrg.holds.freeze = s.freeze → syncFreeze s = s)
      ∧ (s.vrg.holds.freeze ≠ s.freeze → syncFreeze s = setHold .freeze s.freeze s)
      ∧ (s.blockInsert = true ↔
        ∃ x : Source, x.isPulse = false ∧ s.route x = .blockInsert ∧ s.sourceActive x = true)
      ∧ (∀ n, s.aux n = true ↔ s.resetHeld = none ∧ ∃ x : Source, s.route x = .aux n
        ∧ ((x.isPulse = false ∧ s.sourceActive x = true) ∨ (x.isPulse = true ∧ s.evr.hold.get x.ix ≠ none)))
      ∧ (∀ x : Source, x.isPulse = true ↔ x = .unbTrip ∨ x = .opFail ∨ x = .sourceSwitch ∨ x = .stationSilent))
    ∧ (∀ (x : Source) (b : Bool),
      let d := s.route x
      let removes := d = .removeNewest ∨ d = .removeAll
      let followed := syncFreeze { s with evr := { s.evr with active := Tab.put s.evr.active x.ix b } }
      (s.sourceActive x = b → condition x b s = s)
      ∧ (s.sourceActive x ≠ b →
        (b = true ∧ removes → condition x b s = dispatcher (trigger x d followed))
        ∧ (¬(b = true ∧ removes) → condition x b s = dispatcher followed))
      ∧ (∀ n, d = .aux n → pulse x s = dispatcher { s with evr := { s.evr with
          hold := Tab.put s.evr.hold x.ix (some (s.now + s.y .auxHold)) } })
      ∧ (removes → pulse x s = dispatcher (trigger x d s))
      ∧ (¬removes → (∀ n, d ≠ .aux n) → pulse x s = dispatcher s))
    ∧ (∀ (x : Source) (d : Destination),
      let steps : List StepIx := match d with
        | .removeNewest => s.st.service.getLast?.toList
        | .removeAll => s.st.service
        | _ => []
      trigger x d s = steps.foldl (fun t i => takeRequest i .opening .evr t) { s with evr := { s.evr with
        removal := some ⟨s.now / 1000, x, d, steps.map (fun i => (i, none))⟩ } })
    ∧ (s.resetHeld = none →
      (∀ (p : PulseSource) (due : Nat), s.evr.hold.get p.source.ix = some due → due ≤ s.now →
        exec (.auxHoldExpiry p) s = .next { s with evr := { s.evr with
          hold := Tab.put s.evr.hold p.source.ix none } })
      ∧ (∀ n d : Byte, n.toNat = 0 ∨ 16 < n.toNat ∨ 8 < d.toNat →
        exec (.routeSet n d) s = .next (s.replied ⟨.outOfRange, []⟩))
      ∧ (∀ (x : Source) (d : Destination),
        let command := Instr.routeSet (BitVec.ofNat 8 x.number) (BitVec.ofNat 8 d.code)
        let kept := d = .freeze ∨ d = .blockInsert
        let refused := kept ∧ (x.isPulse = true ∨ x = .noCandidate)
        let put (y : Destination) (u : State) : State := { u with evr := { u.evr with
          routes := Tab.put u.evr.routes x.ix y } }
        let stopped : State := if x.isPulse then { s with evr := { s.evr with
          hold := Tab.put s.evr.hold x.ix none } } else s
        let withdrawn := syncFreeze (put .none stopped)
        let entered := syncFreeze (put d withdrawn)
        let delivers := x.isPulse = false ∧ entered.sourceActive x = true ∧ (d = .removeNewest ∨ d = .removeAll)
        let answer (t : State) : Reply := ⟨.ok, [if x.isPulse then 0xFF#8 else if t.sourceActive x then 1#8
          else 0#8, BitVec.ofNat 8 d.code]⟩
        let answered (t : State) : Host.Outcome State Fault Refusal := .next (t.replied (answer t))
        (refused → exec command s = .next (s.replied ⟨.outOfRange, []⟩))
        ∧ (¬refused → s.route x = d → exec command s = answered s)
        ∧ (¬refused → s.route x ≠ d →
          (delivers → exec command s = answered (dispatcher (trigger x d entered)))
          ∧ (¬delivers → exec command s = answered (dispatcher entered)))
        ∧ (¬refused → ∃ t, exec command s = .next t ∧ t.route x = d
          ∧ ∀ y, y ≠ x → t.route y = s.route y)))

end Slice0Obligations
end

