-- ==== Sys2Proof/Laws/State.lean ====
section
/-! SUPPORT. What each update of one block does to each field of the state and to each record read from it,
true by computation. -/

namespace Sys2Proof.Machine

/-! ### mi -/

section
variable (s : State) (f : Intake → Intake)

@[simp] theorem onMi_now : (s.onMi f).now = s.now := rfl
@[simp] theorem onMi_resetHeld : (s.onMi f).resetHeld = s.resetHeld := rfl
@[simp] theorem onMi_mi : (s.onMi f).mi = f s.mi := rfl
@[simp] theorem onMi_st : (s.onMi f).st = s.st := rfl
@[simp] theorem onMi_swu : (s.onMi f).swu = s.swu := rfl
@[simp] theorem onMi_cdu : (s.onMi f).cdu = s.cdu := rfl
@[simp] theorem onMi_vrg : (s.onMi f).vrg = s.vrg := rfl
@[simp] theorem onMi_hsv : (s.onMi f).hsv = s.hsv := rfl
@[simp] theorem onMi_ubp : (s.onMi f).ubp = s.ubp := rfl
@[simp] theorem onMi_evr : (s.onMi f).evr = s.evr := rfl
@[simp] theorem onMi_hlk : (s.onMi f).hlk = s.hlk := rfl
@[simp] theorem onMi_su : (s.onMi f).su = s.su := rfl
@[simp] theorem onMi_pending : (s.onMi f).pending = s.pending := rfl
@[simp] theorem onMi_step (i : StepIx) : (s.onMi f).step i = s.step i := rfl
@[simp] theorem onMi_sw (i : StepIx) : (s.onMi f).sw i = s.sw i := rfl
@[simp] theorem onMi_cd (i : StepIx) : (s.onMi f).cd i = s.cd i := rfl
@[simp] theorem onMi_ub (i : StepIx) : (s.onMi f).ub i = s.ub i := rfl
@[simp] theorem onMi_qty (q : QtyIx) : (s.onMi f).qty q = s.qty q := rfl
@[simp] theorem onMi_notice (c : NoticeClass) : (s.onMi f).notice c = s.notice c := rfl
@[simp] theorem onMi_y (k : YardItem) : (s.onMi f).y k = s.y k := rfl
@[simp] theorem onMi_ySec (k : YardItem) : (s.onMi f).ySec k = s.ySec k := rfl
@[simp] theorem onMi_uptime : (s.onMi f).uptime = s.uptime := rfl

end

/-! ### st -/

section
variable (s : State) (f : StepTable → StepTable)

@[simp] theorem onSt_now : (s.onSt f).now = s.now := rfl
@[simp] theorem onSt_resetHeld : (s.onSt f).resetHeld = s.resetHeld := rfl
@[simp] theorem onSt_mi : (s.onSt f).mi = s.mi := rfl
@[simp] theorem onSt_st : (s.onSt f).st = f s.st := rfl
@[simp] theorem onSt_swu : (s.onSt f).swu = s.swu := rfl
@[simp] theorem onSt_cdu : (s.onSt f).cdu = s.cdu := rfl
@[simp] theorem onSt_vrg : (s.onSt f).vrg = s.vrg := rfl
@[simp] theorem onSt_hsv : (s.onSt f).hsv = s.hsv := rfl
@[simp] theorem onSt_ubp : (s.onSt f).ubp = s.ubp := rfl
@[simp] theorem onSt_evr : (s.onSt f).evr = s.evr := rfl
@[simp] theorem onSt_hlk : (s.onSt f).hlk = s.hlk := rfl
@[simp] theorem onSt_su : (s.onSt f).su = s.su := rfl
@[simp] theorem onSt_pending : (s.onSt f).pending = s.pending := rfl
@[simp] theorem onSt_link (l : Link) : (s.onSt f).link l = s.link l := by
  cases l <;> rfl
@[simp] theorem onSt_sw (i : StepIx) : (s.onSt f).sw i = s.sw i := rfl
@[simp] theorem onSt_cd (i : StepIx) : (s.onSt f).cd i = s.cd i := rfl
@[simp] theorem onSt_ub (i : StepIx) : (s.onSt f).ub i = s.ub i := rfl
@[simp] theorem onSt_qty (q : QtyIx) : (s.onSt f).qty q = s.qty q := rfl
@[simp] theorem onSt_notice (c : NoticeClass) : (s.onSt f).notice c = s.notice c := rfl
@[simp] theorem onSt_y (k : YardItem) : (s.onSt f).y k = s.y k := rfl
@[simp] theorem onSt_ySec (k : YardItem) : (s.onSt f).ySec k = s.ySec k := rfl
@[simp] theorem onSt_uptime : (s.onSt f).uptime = s.uptime := rfl

end

/-! ### swu -/

section
variable (s : State) (f : Switching → Switching)

@[simp] theorem onSwu_now : (s.onSwu f).now = s.now := rfl
@[simp] theorem onSwu_resetHeld : (s.onSwu f).resetHeld = s.resetHeld := rfl
@[simp] theorem onSwu_mi : (s.onSwu f).mi = s.mi := rfl
@[simp] theorem onSwu_st : (s.onSwu f).st = s.st := rfl
@[simp] theorem onSwu_swu : (s.onSwu f).swu = f s.swu := rfl
@[simp] theorem onSwu_cdu : (s.onSwu f).cdu = s.cdu := rfl
@[simp] theorem onSwu_vrg : (s.onSwu f).vrg = s.vrg := rfl
@[simp] theorem onSwu_hsv : (s.onSwu f).hsv = s.hsv := rfl
@[simp] theorem onSwu_ubp : (s.onSwu f).ubp = s.ubp := rfl
@[simp] theorem onSwu_evr : (s.onSwu f).evr = s.evr := rfl
@[simp] theorem onSwu_hlk : (s.onSwu f).hlk = s.hlk := rfl
@[simp] theorem onSwu_su : (s.onSwu f).su = s.su := rfl
@[simp] theorem onSwu_pending : (s.onSwu f).pending = s.pending := rfl
@[simp] theorem onSwu_link (l : Link) : (s.onSwu f).link l = s.link l := by
  cases l <;> rfl
@[simp] theorem onSwu_step (i : StepIx) : (s.onSwu f).step i = s.step i := rfl
@[simp] theorem onSwu_cd (i : StepIx) : (s.onSwu f).cd i = s.cd i := rfl
@[simp] theorem onSwu_ub (i : StepIx) : (s.onSwu f).ub i = s.ub i := rfl
@[simp] theorem onSwu_qty (q : QtyIx) : (s.onSwu f).qty q = s.qty q := rfl
@[simp] theorem onSwu_notice (c : NoticeClass) : (s.onSwu f).notice c = s.notice c := rfl
@[simp] theorem onSwu_y (k : YardItem) : (s.onSwu f).y k = s.y k := rfl
@[simp] theorem onSwu_ySec (k : YardItem) : (s.onSwu f).ySec k = s.ySec k := rfl
@[simp] theorem onSwu_uptime : (s.onSwu f).uptime = s.uptime := rfl

end

/-! ### cdu -/

section
variable (s : State) (f : Cooldown → Cooldown)

@[simp] theorem onCdu_now : (s.onCdu f).now = s.now := rfl
@[simp] theorem onCdu_resetHeld : (s.onCdu f).resetHeld = s.resetHeld := rfl
@[simp] theorem onCdu_mi : (s.onCdu f).mi = s.mi := rfl
@[simp] theorem onCdu_st : (s.onCdu f).st = s.st := rfl
@[simp] theorem onCdu_swu : (s.onCdu f).swu = s.swu := rfl
@[simp] theorem onCdu_cdu : (s.onCdu f).cdu = f s.cdu := rfl
@[simp] theorem onCdu_vrg : (s.onCdu f).vrg = s.vrg := rfl
@[simp] theorem onCdu_hsv : (s.onCdu f).hsv = s.hsv := rfl
@[simp] theorem onCdu_ubp : (s.onCdu f).ubp = s.ubp := rfl
@[simp] theorem onCdu_evr : (s.onCdu f).evr = s.evr := rfl
@[simp] theorem onCdu_hlk : (s.onCdu f).hlk = s.hlk := rfl
@[simp] theorem onCdu_su : (s.onCdu f).su = s.su := rfl
@[simp] theorem onCdu_pending : (s.onCdu f).pending = s.pending := rfl
@[simp] theorem onCdu_link (l : Link) : (s.onCdu f).link l = s.link l := by
  cases l <;> rfl
@[simp] theorem onCdu_step (i : StepIx) : (s.onCdu f).step i = s.step i := rfl
@[simp] theorem onCdu_sw (i : StepIx) : (s.onCdu f).sw i = s.sw i := rfl
@[simp] theorem onCdu_ub (i : StepIx) : (s.onCdu f).ub i = s.ub i := rfl
@[simp] theorem onCdu_qty (q : QtyIx) : (s.onCdu f).qty q = s.qty q := rfl
@[simp] theorem onCdu_notice (c : NoticeClass) : (s.onCdu f).notice c = s.notice c := rfl
@[simp] theorem onCdu_y (k : YardItem) : (s.onCdu f).y k = s.y k := rfl
@[simp] theorem onCdu_ySec (k : YardItem) : (s.onCdu f).ySec k = s.ySec k := rfl
@[simp] theorem onCdu_uptime : (s.onCdu f).uptime = s.uptime := rfl

end

/-! ### vrg -/

section
variable (s : State) (f : Regulator → Regulator)

@[simp] theorem onVrg_now : (s.onVrg f).now = s.now := rfl
@[simp] theorem onVrg_resetHeld : (s.onVrg f).resetHeld = s.resetHeld := rfl
@[simp] theorem onVrg_mi : (s.onVrg f).mi = s.mi := rfl
@[simp] theorem onVrg_st : (s.onVrg f).st = s.st := rfl
@[simp] theorem onVrg_swu : (s.onVrg f).swu = s.swu := rfl
@[simp] theorem onVrg_cdu : (s.onVrg f).cdu = s.cdu := rfl
@[simp] theorem onVrg_vrg : (s.onVrg f).vrg = f s.vrg := rfl
@[simp] theorem onVrg_hsv : (s.onVrg f).hsv = s.hsv := rfl
@[simp] theorem onVrg_ubp : (s.onVrg f).ubp = s.ubp := rfl
@[simp] theorem onVrg_evr : (s.onVrg f).evr = s.evr := rfl
@[simp] theorem onVrg_hlk : (s.onVrg f).hlk = s.hlk := rfl
@[simp] theorem onVrg_su : (s.onVrg f).su = s.su := rfl
@[simp] theorem onVrg_pending : (s.onVrg f).pending = s.pending := rfl
@[simp] theorem onVrg_link (l : Link) : (s.onVrg f).link l = s.link l := by
  cases l <;> rfl
@[simp] theorem onVrg_step (i : StepIx) : (s.onVrg f).step i = s.step i := rfl
@[simp] theorem onVrg_sw (i : StepIx) : (s.onVrg f).sw i = s.sw i := rfl
@[simp] theorem onVrg_cd (i : StepIx) : (s.onVrg f).cd i = s.cd i := rfl
@[simp] theorem onVrg_ub (i : StepIx) : (s.onVrg f).ub i = s.ub i := rfl
@[simp] theorem onVrg_qty (q : QtyIx) : (s.onVrg f).qty q = s.qty q := rfl
@[simp] theorem onVrg_notice (c : NoticeClass) : (s.onVrg f).notice c = s.notice c := rfl
@[simp] theorem onVrg_y (k : YardItem) : (s.onVrg f).y k = s.y k := rfl
@[simp] theorem onVrg_ySec (k : YardItem) : (s.onVrg f).ySec k = s.ySec k := rfl
@[simp] theorem onVrg_uptime : (s.onVrg f).uptime = s.uptime := rfl

end

/-! ### hsv -/

section
variable (s : State) (f : Harmonics → Harmonics)

@[simp] theorem onHsv_now : (s.onHsv f).now = s.now := rfl
@[simp] theorem onHsv_resetHeld : (s.onHsv f).resetHeld = s.resetHeld := rfl
@[simp] theorem onHsv_mi : (s.onHsv f).mi = s.mi := rfl
@[simp] theorem onHsv_st : (s.onHsv f).st = s.st := rfl
@[simp] theorem onHsv_swu : (s.onHsv f).swu = s.swu := rfl
@[simp] theorem onHsv_cdu : (s.onHsv f).cdu = s.cdu := rfl
@[simp] theorem onHsv_vrg : (s.onHsv f).vrg = s.vrg := rfl
@[simp] theorem onHsv_hsv : (s.onHsv f).hsv = f s.hsv := rfl
@[simp] theorem onHsv_ubp : (s.onHsv f).ubp = s.ubp := rfl
@[simp] theorem onHsv_evr : (s.onHsv f).evr = s.evr := rfl
@[simp] theorem onHsv_hlk : (s.onHsv f).hlk = s.hlk := rfl
@[simp] theorem onHsv_su : (s.onHsv f).su = s.su := rfl
@[simp] theorem onHsv_pending : (s.onHsv f).pending = s.pending := rfl
@[simp] theorem onHsv_link (l : Link) : (s.onHsv f).link l = s.link l := by
  cases l <;> rfl
@[simp] theorem onHsv_step (i : StepIx) : (s.onHsv f).step i = s.step i := rfl
@[simp] theorem onHsv_sw (i : StepIx) : (s.onHsv f).sw i = s.sw i := rfl
@[simp] theorem onHsv_cd (i : StepIx) : (s.onHsv f).cd i = s.cd i := rfl
@[simp] theorem onHsv_ub (i : StepIx) : (s.onHsv f).ub i = s.ub i := rfl
@[simp] theorem onHsv_notice (c : NoticeClass) : (s.onHsv f).notice c = s.notice c := rfl
@[simp] theorem onHsv_y (k : YardItem) : (s.onHsv f).y k = s.y k := rfl
@[simp] theorem onHsv_ySec (k : YardItem) : (s.onHsv f).ySec k = s.ySec k := rfl
@[simp] theorem onHsv_uptime : (s.onHsv f).uptime = s.uptime := rfl

end

/-! ### ubp -/

section
variable (s : State) (f : Unbalance → Unbalance)

@[simp] theorem onUbp_now : (s.onUbp f).now = s.now := rfl
@[simp] theorem onUbp_resetHeld : (s.onUbp f).resetHeld = s.resetHeld := rfl
@[simp] theorem onUbp_mi : (s.onUbp f).mi = s.mi := rfl
@[simp] theorem onUbp_st : (s.onUbp f).st = s.st := rfl
@[simp] theorem onUbp_swu : (s.onUbp f).swu = s.swu := rfl
@[simp] theorem onUbp_cdu : (s.onUbp f).cdu = s.cdu := rfl
@[simp] theorem onUbp_vrg : (s.onUbp f).vrg = s.vrg := rfl
@[simp] theorem onUbp_hsv : (s.onUbp f).hsv = s.hsv := rfl
@[simp] theorem onUbp_ubp : (s.onUbp f).ubp = f s.ubp := rfl
@[simp] theorem onUbp_evr : (s.onUbp f).evr = s.evr := rfl
@[simp] theorem onUbp_hlk : (s.onUbp f).hlk = s.hlk := rfl
@[simp] theorem onUbp_su : (s.onUbp f).su = s.su := rfl
@[simp] theorem onUbp_pending : (s.onUbp f).pending = s.pending := rfl
@[simp] theorem onUbp_link (l : Link) : (s.onUbp f).link l = s.link l := by
  cases l <;> rfl
@[simp] theorem onUbp_step (i : StepIx) : (s.onUbp f).step i = s.step i := rfl
@[simp] theorem onUbp_sw (i : StepIx) : (s.onUbp f).sw i = s.sw i := rfl
@[simp] theorem onUbp_cd (i : StepIx) : (s.onUbp f).cd i = s.cd i := rfl
@[simp] theorem onUbp_qty (q : QtyIx) : (s.onUbp f).qty q = s.qty q := rfl
@[simp] theorem onUbp_notice (c : NoticeClass) : (s.onUbp f).notice c = s.notice c := rfl
@[simp] theorem onUbp_y (k : YardItem) : (s.onUbp f).y k = s.y k := rfl
@[simp] theorem onUbp_ySec (k : YardItem) : (s.onUbp f).ySec k = s.ySec k := rfl
@[simp] theorem onUbp_uptime : (s.onUbp f).uptime = s.uptime := rfl

end

/-! ### evr -/

section
variable (s : State) (f : Router → Router)

@[simp] theorem onEvr_now : (s.onEvr f).now = s.now := rfl
@[simp] theorem onEvr_resetHeld : (s.onEvr f).resetHeld = s.resetHeld := rfl
@[simp] theorem onEvr_mi : (s.onEvr f).mi = s.mi := rfl
@[simp] theorem onEvr_st : (s.onEvr f).st = s.st := rfl
@[simp] theorem onEvr_swu : (s.onEvr f).swu = s.swu := rfl
@[simp] theorem onEvr_cdu : (s.onEvr f).cdu = s.cdu := rfl
@[simp] theorem onEvr_vrg : (s.onEvr f).vrg = s.vrg := rfl
@[simp] theorem onEvr_hsv : (s.onEvr f).hsv = s.hsv := rfl
@[simp] theorem onEvr_ubp : (s.onEvr f).ubp = s.ubp := rfl
@[simp] theorem onEvr_evr : (s.onEvr f).evr = f s.evr := rfl
@[simp] theorem onEvr_hlk : (s.onEvr f).hlk = s.hlk := rfl
@[simp] theorem onEvr_su : (s.onEvr f).su = s.su := rfl
@[simp] theorem onEvr_pending : (s.onEvr f).pending = s.pending := rfl
@[simp] theorem onEvr_link (l : Link) : (s.onEvr f).link l = s.link l := by
  cases l <;> rfl
@[simp] theorem onEvr_step (i : StepIx) : (s.onEvr f).step i = s.step i := rfl
@[simp] theorem onEvr_sw (i : StepIx) : (s.onEvr f).sw i = s.sw i := rfl
@[simp] theorem onEvr_cd (i : StepIx) : (s.onEvr f).cd i = s.cd i := rfl
@[simp] theorem onEvr_ub (i : StepIx) : (s.onEvr f).ub i = s.ub i := rfl
@[simp] theorem onEvr_qty (q : QtyIx) : (s.onEvr f).qty q = s.qty q := rfl
@[simp] theorem onEvr_notice (c : NoticeClass) : (s.onEvr f).notice c = s.notice c := rfl
@[simp] theorem onEvr_y (k : YardItem) : (s.onEvr f).y k = s.y k := rfl
@[simp] theorem onEvr_ySec (k : YardItem) : (s.onEvr f).ySec k = s.ySec k := rfl
@[simp] theorem onEvr_uptime : (s.onEvr f).uptime = s.uptime := rfl

end

/-! ### hlk -/

section
variable (s : State) (f : HostLink → HostLink)

@[simp] theorem onHlk_now : (s.onHlk f).now = s.now := rfl
@[simp] theorem onHlk_resetHeld : (s.onHlk f).resetHeld = s.resetHeld := rfl
@[simp] theorem onHlk_mi : (s.onHlk f).mi = s.mi := rfl
@[simp] theorem onHlk_st : (s.onHlk f).st = s.st := rfl
@[simp] theorem onHlk_swu : (s.onHlk f).swu = s.swu := rfl
@[simp] theorem onHlk_cdu : (s.onHlk f).cdu = s.cdu := rfl
@[simp] theorem onHlk_vrg : (s.onHlk f).vrg = s.vrg := rfl
@[simp] theorem onHlk_hsv : (s.onHlk f).hsv = s.hsv := rfl
@[simp] theorem onHlk_ubp : (s.onHlk f).ubp = s.ubp := rfl
@[simp] theorem onHlk_evr : (s.onHlk f).evr = s.evr := rfl
@[simp] theorem onHlk_hlk : (s.onHlk f).hlk = f s.hlk := rfl
@[simp] theorem onHlk_su : (s.onHlk f).su = s.su := rfl
@[simp] theorem onHlk_pending : (s.onHlk f).pending = s.pending := rfl
@[simp] theorem onHlk_link (l : Link) : (s.onHlk f).link l = s.link l := by
  cases l <;> rfl
@[simp] theorem onHlk_step (i : StepIx) : (s.onHlk f).step i = s.step i := rfl
@[simp] theorem onHlk_sw (i : StepIx) : (s.onHlk f).sw i = s.sw i := rfl
@[simp] theorem onHlk_cd (i : StepIx) : (s.onHlk f).cd i = s.cd i := rfl
@[simp] theorem onHlk_ub (i : StepIx) : (s.onHlk f).ub i = s.ub i := rfl
@[simp] theorem onHlk_qty (q : QtyIx) : (s.onHlk f).qty q = s.qty q := rfl
@[simp] theorem onHlk_y (k : YardItem) : (s.onHlk f).y k = s.y k := rfl
@[simp] theorem onHlk_ySec (k : YardItem) : (s.onHlk f).ySec k = s.ySec k := rfl
@[simp] theorem onHlk_uptime : (s.onHlk f).uptime = s.uptime := rfl

end

/-! ### su -/

section
variable (s : State) (f : SettingsUnit → SettingsUnit)

@[simp] theorem onSu_now : (s.onSu f).now = s.now := rfl
@[simp] theorem onSu_resetHeld : (s.onSu f).resetHeld = s.resetHeld := rfl
@[simp] theorem onSu_mi : (s.onSu f).mi = s.mi := rfl
@[simp] theorem onSu_st : (s.onSu f).st = s.st := rfl
@[simp] theorem onSu_swu : (s.onSu f).swu = s.swu := rfl
@[simp] theorem onSu_cdu : (s.onSu f).cdu = s.cdu := rfl
@[simp] theorem onSu_vrg : (s.onSu f).vrg = s.vrg := rfl
@[simp] theorem onSu_hsv : (s.onSu f).hsv = s.hsv := rfl
@[simp] theorem onSu_ubp : (s.onSu f).ubp = s.ubp := rfl
@[simp] theorem onSu_evr : (s.onSu f).evr = s.evr := rfl
@[simp] theorem onSu_hlk : (s.onSu f).hlk = s.hlk := rfl
@[simp] theorem onSu_su : (s.onSu f).su = f s.su := rfl
@[simp] theorem onSu_pending : (s.onSu f).pending = s.pending := rfl
@[simp] theorem onSu_link (l : Link) : (s.onSu f).link l = s.link l := by
  cases l <;> rfl
@[simp] theorem onSu_step (i : StepIx) : (s.onSu f).step i = s.step i := rfl
@[simp] theorem onSu_sw (i : StepIx) : (s.onSu f).sw i = s.sw i := rfl
@[simp] theorem onSu_cd (i : StepIx) : (s.onSu f).cd i = s.cd i := rfl
@[simp] theorem onSu_ub (i : StepIx) : (s.onSu f).ub i = s.ub i := rfl
@[simp] theorem onSu_qty (q : QtyIx) : (s.onSu f).qty q = s.qty q := rfl
@[simp] theorem onSu_notice (c : NoticeClass) : (s.onSu f).notice c = s.notice c := rfl
@[simp] theorem onSu_uptime : (s.onSu f).uptime = s.uptime := rfl

end

/-! ### Records -/

section
variable (s : State)

@[simp] theorem onStep_step (i j : StepIx) (f : StepRec → StepRec) :
    (s.onStep i f).step j = if j = i then f (s.step i) else s.step j := Tab.get_upd ..

@[simp] theorem onSw_sw (i j : StepIx) (f : SwuStep → SwuStep) :
    (s.onSw i f).sw j = if j = i then f (s.sw i) else s.sw j := Tab.get_upd ..

@[simp] theorem onCd_cd (i j : StepIx) (f : CduStep → CduStep) :
    (s.onCd i f).cd j = if j = i then f (s.cd i) else s.cd j := Tab.get_upd ..

@[simp] theorem onUb_ub (i j : StepIx) (f : UbpStep → UbpStep) :
    (s.onUb i f).ub j = if j = i then f (s.ub i) else s.ub j := Tab.get_upd ..

@[simp] theorem onQty_qty (q r : QtyIx) (f : Quantity → Quantity) :
    (s.onQty q f).qty r = if r = q then f (s.qty q) else s.qty r := Tab.get_upd ..

theorem ix_inj {c d : NoticeClass} : c.ix = d.ix ↔ c = d := by
  cases c <;> cases d <;> decide

@[simp] theorem onNotice_notice (c d : NoticeClass) (f : Notice → Notice) :
    (s.onNotice c f).notice d = if d = c then f (s.notice c) else s.notice d := by
  simp only [State.onNotice, State.notice, onHlk_hlk, Tab.get_upd, ix_inj]

@[simp] theorem onLink_link_self (l : Link) (f : LinkRec → LinkRec) :
    (s.onLink l f).link l = f (s.link l) := by cases l <;> rfl

@[simp] theorem onLink_link_other (l : Link) (f : LinkRec → LinkRec) :
    (s.onLink l f).link l.other = s.link l.other := by cases l <;> rfl

@[simp] theorem onSw_queue (i : StepIx) (f : SwuStep → SwuStep) :
    (s.onSw i f).swu.queue = s.swu.queue := rfl

@[simp] theorem onSw_slot (i : StepIx) (f : SwuStep → SwuStep) :
    (s.onSw i f).swu.slot = s.swu.slot := rfl

@[simp] theorem onStep_ring (i : StepIx) (f : StepRec → StepRec) : (s.onStep i f).st.ring = s.st.ring := rfl

@[simp] theorem onStep_service (i : StepIx) (f : StepRec → StepRec) :
    (s.onStep i f).st.service = s.st.service := rfl

@[simp] theorem onCd_budget (i : StepIx) (f : CduStep → CduStep) : (s.onCd i f).cdu.budget = s.cdu.budget :=
  rfl

end

/-! ### A record update leaves the other blocks and their records as they are -/

section
variable (s : State)

@[simp] theorem onLink_now (l : Link) (f : LinkRec → LinkRec) : (s.onLink l f).now = s.now := by cases l <;> rfl
@[simp] theorem onLink_resetHeld (l : Link) (f : LinkRec → LinkRec) : (s.onLink l f).resetHeld = s.resetHeld := by cases l <;> rfl
@[simp] theorem onLink_st (l : Link) (f : LinkRec → LinkRec) : (s.onLink l f).st = s.st := by cases l <;> rfl
@[simp] theorem onLink_swu (l : Link) (f : LinkRec → LinkRec) : (s.onLink l f).swu = s.swu := by cases l <;> rfl
@[simp] theorem onLink_cdu (l : Link) (f : LinkRec → LinkRec) : (s.onLink l f).cdu = s.cdu := by cases l <;> rfl
@[simp] theorem onLink_vrg (l : Link) (f : LinkRec → LinkRec) : (s.onLink l f).vrg = s.vrg := by cases l <;> rfl
@[simp] theorem onLink_hsv (l : Link) (f : LinkRec → LinkRec) : (s.onLink l f).hsv = s.hsv := by cases l <;> rfl
@[simp] theorem onLink_ubp (l : Link) (f : LinkRec → LinkRec) : (s.onLink l f).ubp = s.ubp := by cases l <;> rfl
@[simp] theorem onLink_evr (l : Link) (f : LinkRec → LinkRec) : (s.onLink l f).evr = s.evr := by cases l <;> rfl
@[simp] theorem onLink_hlk (l : Link) (f : LinkRec → LinkRec) : (s.onLink l f).hlk = s.hlk := by cases l <;> rfl
@[simp] theorem onLink_su (l : Link) (f : LinkRec → LinkRec) : (s.onLink l f).su = s.su := by cases l <;> rfl
@[simp] theorem onLink_pending (l : Link) (f : LinkRec → LinkRec) : (s.onLink l f).pending = s.pending := by cases l <;> rfl
@[simp] theorem onLink_step (l : Link) (f : LinkRec → LinkRec) (i : StepIx) :
    (s.onLink l f).step i = s.step i := by cases l <;> rfl
@[simp] theorem onLink_sw (l : Link) (f : LinkRec → LinkRec) (i : StepIx) :
    (s.onLink l f).sw i = s.sw i := by cases l <;> rfl
@[simp] theorem onLink_cd (l : Link) (f : LinkRec → LinkRec) (i : StepIx) :
    (s.onLink l f).cd i = s.cd i := by cases l <;> rfl
@[simp] theorem onLink_ub (l : Link) (f : LinkRec → LinkRec) (i : StepIx) :
    (s.onLink l f).ub i = s.ub i := by cases l <;> rfl
@[simp] theorem onLink_qty (l : Link) (f : LinkRec → LinkRec) (q : QtyIx) :
    (s.onLink l f).qty q = s.qty q := by cases l <;> rfl
@[simp] theorem onLink_notice (l : Link) (f : LinkRec → LinkRec) (c : NoticeClass) :
    (s.onLink l f).notice c = s.notice c := by cases l <;> rfl
@[simp] theorem onLink_y (l : Link) (f : LinkRec → LinkRec) (k : YardItem) : (s.onLink l f).y k = s.y k := by cases l <;> rfl
@[simp] theorem onStep_now (i : StepIx) (f : StepRec → StepRec) : (s.onStep i f).now = s.now := rfl
@[simp] theorem onStep_resetHeld (i : StepIx) (f : StepRec → StepRec) : (s.onStep i f).resetHeld = s.resetHeld := rfl
@[simp] theorem onStep_mi (i : StepIx) (f : StepRec → StepRec) : (s.onStep i f).mi = s.mi := rfl
@[simp] theorem onStep_swu (i : StepIx) (f : StepRec → StepRec) : (s.onStep i f).swu = s.swu := rfl
@[simp] theorem onStep_cdu (i : StepIx) (f : StepRec → StepRec) : (s.onStep i f).cdu = s.cdu := rfl
@[simp] theorem onStep_vrg (i : StepIx) (f : StepRec → StepRec) : (s.onStep i f).vrg = s.vrg := rfl
@[simp] theorem onStep_hsv (i : StepIx) (f : StepRec → StepRec) : (s.onStep i f).hsv = s.hsv := rfl
@[simp] theorem onStep_ubp (i : StepIx) (f : StepRec → StepRec) : (s.onStep i f).ubp = s.ubp := rfl
@[simp] theorem onStep_evr (i : StepIx) (f : StepRec → StepRec) : (s.onStep i f).evr = s.evr := rfl
@[simp] theorem onStep_hlk (i : StepIx) (f : StepRec → StepRec) : (s.onStep i f).hlk = s.hlk := rfl
@[simp] theorem onStep_su (i : StepIx) (f : StepRec → StepRec) : (s.onStep i f).su = s.su := rfl
@[simp] theorem onStep_pending (i : StepIx) (f : StepRec → StepRec) : (s.onStep i f).pending = s.pending := rfl
@[simp] theorem onStep_link (i : StepIx) (f : StepRec → StepRec) (l : Link) :
    (s.onStep i f).link l = s.link l := by cases l <;> rfl
@[simp] theorem onStep_sw (i : StepIx) (f : StepRec → StepRec) (i' : StepIx) :
    (s.onStep i f).sw i' = s.sw i' := rfl
@[simp] theorem onStep_cd (i : StepIx) (f : StepRec → StepRec) (i' : StepIx) :
    (s.onStep i f).cd i' = s.cd i' := rfl
@[simp] theorem onStep_ub (i : StepIx) (f : StepRec → StepRec) (i' : StepIx) :
    (s.onStep i f).ub i' = s.ub i' := rfl
@[simp] theorem onStep_qty (i : StepIx) (f : StepRec → StepRec) (q : QtyIx) :
    (s.onStep i f).qty q = s.qty q := rfl
@[simp] theorem onStep_notice (i : StepIx) (f : StepRec → StepRec) (c : NoticeClass) :
    (s.onStep i f).notice c = s.notice c := rfl
@[simp] theorem onStep_y (i : StepIx) (f : StepRec → StepRec) (k : YardItem) : (s.onStep i f).y k = s.y k := rfl
@[simp] theorem onSw_now (i : StepIx) (f : SwuStep → SwuStep) : (s.onSw i f).now = s.now := rfl
@[simp] theorem onSw_resetHeld (i : StepIx) (f : SwuStep → SwuStep) : (s.onSw i f).resetHeld = s.resetHeld := rfl
@[simp] theorem onSw_mi (i : StepIx) (f : SwuStep → SwuStep) : (s.onSw i f).mi = s.mi := rfl
@[simp] theorem onSw_st (i : StepIx) (f : SwuStep → SwuStep) : (s.onSw i f).st = s.st := rfl
@[simp] theorem onSw_cdu (i : StepIx) (f : SwuStep → SwuStep) : (s.onSw i f).cdu = s.cdu := rfl
@[simp] theorem onSw_vrg (i : StepIx) (f : SwuStep → SwuStep) : (s.onSw i f).vrg = s.vrg := rfl
@[simp] theorem onSw_hsv (i : StepIx) (f : SwuStep → SwuStep) : (s.onSw i f).hsv = s.hsv := rfl
@[simp] theorem onSw_ubp (i : StepIx) (f : SwuStep → SwuStep) : (s.onSw i f).ubp = s.ubp := rfl
@[simp] theorem onSw_evr (i : StepIx) (f : SwuStep → SwuStep) : (s.onSw i f).evr = s.evr := rfl
@[simp] theorem onSw_hlk (i : StepIx) (f : SwuStep → SwuStep) : (s.onSw i f).hlk = s.hlk := rfl
@[simp] theorem onSw_su (i : StepIx) (f : SwuStep → SwuStep) : (s.onSw i f).su = s.su := rfl
@[simp] theorem onSw_pending (i : StepIx) (f : SwuStep → SwuStep) : (s.onSw i f).pending = s.pending := rfl
@[simp] theorem onSw_link (i : StepIx) (f : SwuStep → SwuStep) (l : Link) :
    (s.onSw i f).link l = s.link l := by cases l <;> rfl
@[simp] theorem onSw_step (i : StepIx) (f : SwuStep → SwuStep) (i' : StepIx) :
    (s.onSw i f).step i' = s.step i' := rfl
@[simp] theorem onSw_cd (i : StepIx) (f : SwuStep → SwuStep) (i' : StepIx) :
    (s.onSw i f).cd i' = s.cd i' := rfl
@[simp] theorem onSw_ub (i : StepIx) (f : SwuStep → SwuStep) (i' : StepIx) :
    (s.onSw i f).ub i' = s.ub i' := rfl
@[simp] theorem onSw_qty (i : StepIx) (f : SwuStep → SwuStep) (q : QtyIx) :
    (s.onSw i f).qty q = s.qty q := rfl
@[simp] theorem onSw_notice (i : StepIx) (f : SwuStep → SwuStep) (c : NoticeClass) :
    (s.onSw i f).notice c = s.notice c := rfl
@[simp] theorem onSw_y (i : StepIx) (f : SwuStep → SwuStep) (k : YardItem) : (s.onSw i f).y k = s.y k := rfl
@[simp] theorem onCd_now (i : StepIx) (f : CduStep → CduStep) : (s.onCd i f).now = s.now := rfl
@[simp] theorem onCd_resetHeld (i : StepIx) (f : CduStep → CduStep) : (s.onCd i f).resetHeld = s.resetHeld := rfl
@[simp] theorem onCd_mi (i : StepIx) (f : CduStep → CduStep) : (s.onCd i f).mi = s.mi := rfl
@[simp] theorem onCd_st (i : StepIx) (f : CduStep → CduStep) : (s.onCd i f).st = s.st := rfl
@[simp] theorem onCd_swu (i : StepIx) (f : CduStep → CduStep) : (s.onCd i f).swu = s.swu := rfl
@[simp] theorem onCd_vrg (i : StepIx) (f : CduStep → CduStep) : (s.onCd i f).vrg = s.vrg := rfl
@[simp] theorem onCd_hsv (i : StepIx) (f : CduStep → CduStep) : (s.onCd i f).hsv = s.hsv := rfl
@[simp] theorem onCd_ubp (i : StepIx) (f : CduStep → CduStep) : (s.onCd i f).ubp = s.ubp := rfl
@[simp] theorem onCd_evr (i : StepIx) (f : CduStep → CduStep) : (s.onCd i f).evr = s.evr := rfl
@[simp] theorem onCd_hlk (i : StepIx) (f : CduStep → CduStep) : (s.onCd i f).hlk = s.hlk := rfl
@[simp] theorem onCd_su (i : StepIx) (f : CduStep → CduStep) : (s.onCd i f).su = s.su := rfl
@[simp] theorem onCd_pending (i : StepIx) (f : CduStep → CduStep) : (s.onCd i f).pending = s.pending := rfl
@[simp] theorem onCd_link (i : StepIx) (f : CduStep → CduStep) (l : Link) :
    (s.onCd i f).link l = s.link l := by cases l <;> rfl
@[simp] theorem onCd_step (i : StepIx) (f : CduStep → CduStep) (i' : StepIx) :
    (s.onCd i f).step i' = s.step i' := rfl
@[simp] theorem onCd_sw (i : StepIx) (f : CduStep → CduStep) (i' : StepIx) :
    (s.onCd i f).sw i' = s.sw i' := rfl
@[simp] theorem onCd_ub (i : StepIx) (f : CduStep → CduStep) (i' : StepIx) :
    (s.onCd i f).ub i' = s.ub i' := rfl
@[simp] theorem onCd_qty (i : StepIx) (f : CduStep → CduStep) (q : QtyIx) :
    (s.onCd i f).qty q = s.qty q := rfl
@[simp] theorem onCd_notice (i : StepIx) (f : CduStep → CduStep) (c : NoticeClass) :
    (s.onCd i f).notice c = s.notice c := rfl
@[simp] theorem onCd_y (i : StepIx) (f : CduStep → CduStep) (k : YardItem) : (s.onCd i f).y k = s.y k := rfl
@[simp] theorem onVr_now (i : StepIx) (f : VrgStep → VrgStep) : (s.onVr i f).now = s.now := rfl
@[simp] theorem onVr_resetHeld (i : StepIx) (f : VrgStep → VrgStep) : (s.onVr i f).resetHeld = s.resetHeld := rfl
@[simp] theorem onVr_mi (i : StepIx) (f : VrgStep → VrgStep) : (s.onVr i f).mi = s.mi := rfl
@[simp] theorem onVr_st (i : StepIx) (f : VrgStep → VrgStep) : (s.onVr i f).st = s.st := rfl
@[simp] theorem onVr_swu (i : StepIx) (f : VrgStep → VrgStep) : (s.onVr i f).swu = s.swu := rfl
@[simp] theorem onVr_cdu (i : StepIx) (f : VrgStep → VrgStep) : (s.onVr i f).cdu = s.cdu := rfl
@[simp] theorem onVr_hsv (i : StepIx) (f : VrgStep → VrgStep) : (s.onVr i f).hsv = s.hsv := rfl
@[simp] theorem onVr_ubp (i : StepIx) (f : VrgStep → VrgStep) : (s.onVr i f).ubp = s.ubp := rfl
@[simp] theorem onVr_evr (i : StepIx) (f : VrgStep → VrgStep) : (s.onVr i f).evr = s.evr := rfl
@[simp] theorem onVr_hlk (i : StepIx) (f : VrgStep → VrgStep) : (s.onVr i f).hlk = s.hlk := rfl
@[simp] theorem onVr_su (i : StepIx) (f : VrgStep → VrgStep) : (s.onVr i f).su = s.su := rfl
@[simp] theorem onVr_pending (i : StepIx) (f : VrgStep → VrgStep) : (s.onVr i f).pending = s.pending := rfl
@[simp] theorem onVr_link (i : StepIx) (f : VrgStep → VrgStep) (l : Link) :
    (s.onVr i f).link l = s.link l := by cases l <;> rfl
@[simp] theorem onVr_step (i : StepIx) (f : VrgStep → VrgStep) (i' : StepIx) :
    (s.onVr i f).step i' = s.step i' := rfl
@[simp] theorem onVr_sw (i : StepIx) (f : VrgStep → VrgStep) (i' : StepIx) :
    (s.onVr i f).sw i' = s.sw i' := rfl
@[simp] theorem onVr_cd (i : StepIx) (f : VrgStep → VrgStep) (i' : StepIx) :
    (s.onVr i f).cd i' = s.cd i' := rfl
@[simp] theorem onVr_ub (i : StepIx) (f : VrgStep → VrgStep) (i' : StepIx) :
    (s.onVr i f).ub i' = s.ub i' := rfl
@[simp] theorem onVr_qty (i : StepIx) (f : VrgStep → VrgStep) (q : QtyIx) :
    (s.onVr i f).qty q = s.qty q := rfl
@[simp] theorem onVr_notice (i : StepIx) (f : VrgStep → VrgStep) (c : NoticeClass) :
    (s.onVr i f).notice c = s.notice c := rfl
@[simp] theorem onVr_y (i : StepIx) (f : VrgStep → VrgStep) (k : YardItem) : (s.onVr i f).y k = s.y k := rfl
@[simp] theorem onUb_now (i : StepIx) (f : UbpStep → UbpStep) : (s.onUb i f).now = s.now := rfl
@[simp] theorem onUb_resetHeld (i : StepIx) (f : UbpStep → UbpStep) : (s.onUb i f).resetHeld = s.resetHeld := rfl
@[simp] theorem onUb_mi (i : StepIx) (f : UbpStep → UbpStep) : (s.onUb i f).mi = s.mi := rfl
@[simp] theorem onUb_st (i : StepIx) (f : UbpStep → UbpStep) : (s.onUb i f).st = s.st := rfl
@[simp] theorem onUb_swu (i : StepIx) (f : UbpStep → UbpStep) : (s.onUb i f).swu = s.swu := rfl
@[simp] theorem onUb_cdu (i : StepIx) (f : UbpStep → UbpStep) : (s.onUb i f).cdu = s.cdu := rfl
@[simp] theorem onUb_vrg (i : StepIx) (f : UbpStep → UbpStep) : (s.onUb i f).vrg = s.vrg := rfl
@[simp] theorem onUb_hsv (i : StepIx) (f : UbpStep → UbpStep) : (s.onUb i f).hsv = s.hsv := rfl
@[simp] theorem onUb_evr (i : StepIx) (f : UbpStep → UbpStep) : (s.onUb i f).evr = s.evr := rfl
@[simp] theorem onUb_hlk (i : StepIx) (f : UbpStep → UbpStep) : (s.onUb i f).hlk = s.hlk := rfl
@[simp] theorem onUb_su (i : StepIx) (f : UbpStep → UbpStep) : (s.onUb i f).su = s.su := rfl
@[simp] theorem onUb_pending (i : StepIx) (f : UbpStep → UbpStep) : (s.onUb i f).pending = s.pending := rfl
@[simp] theorem onUb_link (i : StepIx) (f : UbpStep → UbpStep) (l : Link) :
    (s.onUb i f).link l = s.link l := by cases l <;> rfl
@[simp] theorem onUb_step (i : StepIx) (f : UbpStep → UbpStep) (i' : StepIx) :
    (s.onUb i f).step i' = s.step i' := rfl
@[simp] theorem onUb_sw (i : StepIx) (f : UbpStep → UbpStep) (i' : StepIx) :
    (s.onUb i f).sw i' = s.sw i' := rfl
@[simp] theorem onUb_cd (i : StepIx) (f : UbpStep → UbpStep) (i' : StepIx) :
    (s.onUb i f).cd i' = s.cd i' := rfl
@[simp] theorem onUb_qty (i : StepIx) (f : UbpStep → UbpStep) (q : QtyIx) :
    (s.onUb i f).qty q = s.qty q := rfl
@[simp] theorem onUb_notice (i : StepIx) (f : UbpStep → UbpStep) (c : NoticeClass) :
    (s.onUb i f).notice c = s.notice c := rfl
@[simp] theorem onUb_y (i : StepIx) (f : UbpStep → UbpStep) (k : YardItem) : (s.onUb i f).y k = s.y k := rfl
@[simp] theorem onQty_now (q : QtyIx) (f : Quantity → Quantity) : (s.onQty q f).now = s.now := rfl
@[simp] theorem onQty_resetHeld (q : QtyIx) (f : Quantity → Quantity) : (s.onQty q f).resetHeld = s.resetHeld := rfl
@[simp] theorem onQty_mi (q : QtyIx) (f : Quantity → Quantity) : (s.onQty q f).mi = s.mi := rfl
@[simp] theorem onQty_st (q : QtyIx) (f : Quantity → Quantity) : (s.onQty q f).st = s.st := rfl
@[simp] theorem onQty_swu (q : QtyIx) (f : Quantity → Quantity) : (s.onQty q f).swu = s.swu := rfl
@[simp] theorem onQty_cdu (q : QtyIx) (f : Quantity → Quantity) : (s.onQty q f).cdu = s.cdu := rfl
@[simp] theorem onQty_vrg (q : QtyIx) (f : Quantity → Quantity) : (s.onQty q f).vrg = s.vrg := rfl
@[simp] theorem onQty_ubp (q : QtyIx) (f : Quantity → Quantity) : (s.onQty q f).ubp = s.ubp := rfl
@[simp] theorem onQty_evr (q : QtyIx) (f : Quantity → Quantity) : (s.onQty q f).evr = s.evr := rfl
@[simp] theorem onQty_hlk (q : QtyIx) (f : Quantity → Quantity) : (s.onQty q f).hlk = s.hlk := rfl
@[simp] theorem onQty_su (q : QtyIx) (f : Quantity → Quantity) : (s.onQty q f).su = s.su := rfl
@[simp] theorem onQty_pending (q : QtyIx) (f : Quantity → Quantity) : (s.onQty q f).pending = s.pending := rfl
@[simp] theorem onQty_link (q : QtyIx) (f : Quantity → Quantity) (l : Link) :
    (s.onQty q f).link l = s.link l := by cases l <;> rfl
@[simp] theorem onQty_step (q : QtyIx) (f : Quantity → Quantity) (i : StepIx) :
    (s.onQty q f).step i = s.step i := rfl
@[simp] theorem onQty_sw (q : QtyIx) (f : Quantity → Quantity) (i : StepIx) :
    (s.onQty q f).sw i = s.sw i := rfl
@[simp] theorem onQty_cd (q : QtyIx) (f : Quantity → Quantity) (i : StepIx) :
    (s.onQty q f).cd i = s.cd i := rfl
@[simp] theorem onQty_ub (q : QtyIx) (f : Quantity → Quantity) (i : StepIx) :
    (s.onQty q f).ub i = s.ub i := rfl
@[simp] theorem onQty_notice (q : QtyIx) (f : Quantity → Quantity) (c : NoticeClass) :
    (s.onQty q f).notice c = s.notice c := rfl
@[simp] theorem onQty_y (q : QtyIx) (f : Quantity → Quantity) (k : YardItem) : (s.onQty q f).y k = s.y k := rfl
@[simp] theorem onNotice_now (c : NoticeClass) (f : Notice → Notice) : (s.onNotice c f).now = s.now := rfl
@[simp] theorem onNotice_resetHeld (c : NoticeClass) (f : Notice → Notice) : (s.onNotice c f).resetHeld = s.resetHeld := rfl
@[simp] theorem onNotice_mi (c : NoticeClass) (f : Notice → Notice) : (s.onNotice c f).mi = s.mi := rfl
@[simp] theorem onNotice_st (c : NoticeClass) (f : Notice → Notice) : (s.onNotice c f).st = s.st := rfl
@[simp] theorem onNotice_swu (c : NoticeClass) (f : Notice → Notice) : (s.onNotice c f).swu = s.swu := rfl
@[simp] theorem onNotice_cdu (c : NoticeClass) (f : Notice → Notice) : (s.onNotice c f).cdu = s.cdu := rfl
@[simp] theorem onNotice_vrg (c : NoticeClass) (f : Notice → Notice) : (s.onNotice c f).vrg = s.vrg := rfl
@[simp] theorem onNotice_hsv (c : NoticeClass) (f : Notice → Notice) : (s.onNotice c f).hsv = s.hsv := rfl
@[simp] theorem onNotice_ubp (c : NoticeClass) (f : Notice → Notice) : (s.onNotice c f).ubp = s.ubp := rfl
@[simp] theorem onNotice_evr (c : NoticeClass) (f : Notice → Notice) : (s.onNotice c f).evr = s.evr := rfl
@[simp] theorem onNotice_su (c : NoticeClass) (f : Notice → Notice) : (s.onNotice c f).su = s.su := rfl
@[simp] theorem onNotice_pending (c : NoticeClass) (f : Notice → Notice) : (s.onNotice c f).pending = s.pending := rfl
@[simp] theorem onNotice_link (c : NoticeClass) (f : Notice → Notice) (l : Link) :
    (s.onNotice c f).link l = s.link l := by cases l <;> rfl
@[simp] theorem onNotice_step (c : NoticeClass) (f : Notice → Notice) (i : StepIx) :
    (s.onNotice c f).step i = s.step i := rfl
@[simp] theorem onNotice_sw (c : NoticeClass) (f : Notice → Notice) (i : StepIx) :
    (s.onNotice c f).sw i = s.sw i := rfl
@[simp] theorem onNotice_cd (c : NoticeClass) (f : Notice → Notice) (i : StepIx) :
    (s.onNotice c f).cd i = s.cd i := rfl
@[simp] theorem onNotice_ub (c : NoticeClass) (f : Notice → Notice) (i : StepIx) :
    (s.onNotice c f).ub i = s.ub i := rfl
@[simp] theorem onNotice_qty (c : NoticeClass) (f : Notice → Notice) (q : QtyIx) :
    (s.onNotice c f).qty q = s.qty q := rfl
@[simp] theorem onNotice_y (c : NoticeClass) (f : Notice → Notice) (k : YardItem) : (s.onNotice c f).y k = s.y k := rfl

end

end Sys2Proof.Machine
end

