-- ==== Sys2Proof/Laws/Chain.lean ====
section
/-! SUPPORT. What the switching machinery can do, said once. `Atom` lists the elementary changes that results,
the queue, the dispatcher, the hold causes, the routes, lockouts and PROTECTION opens are made of, each with
the conditions under which it is made; `Chain` is a run of them; and every operation of the machinery is a
chain (Laws/Machinery.lean). A property that every atom keeps is kept by all of them. -/

namespace Sys2Proof.Machine

/-- What the queue keeps (R47): no step twice, no PROTECTION entry, and its order. -/
def QueueOk (q : List Entry) : Prop :=
  (q.map (·.step)).Nodup ∧ (∀ e ∈ q, e.origin ≠ .protection) ∧ q.Pairwise Entry.before

/-- An operation record that is left as the slot sees it. -/
def SameOp (a b : Option OpRecord) : Prop :=
  b = none ∨ ∃ o p, a = some o ∧ b = some p ∧ p.origin = o.origin ∧ p.holdsSlot = o.holdsSlot

/-- The coils of a step as an operation may leave them (R60). -/
def CoilsOk (w : SwuStep) : Prop :=
  ¬(w.closeCoil = true ∧ (w.tripA = true ∨ w.tripB = true)) ∧ w.tripA = w.tripB

/-- The elementary changes of the switching machinery. -/
inductive Atom : State → State → Prop
  | notices (s : State) (n : Vector Notice 14) : Atom s { s with hlk := { s.hlk with notices := n } }
  | router (s : State) (e : Router) (routes : e.routes = s.evr.routes) : Atom s { s with evr := e }
  | removals (s : State) (f : QtyIx → Option Removal) :
      Atom s { s with hsv := { s.hsv with
        qtys := Tab.build (fun q => { s.hsv.qtys.get q with removal := f q }) } }
  | regulator (s : State) (r : RegState) (t : Option Target) (b a : Nat) (n : Bool)
      (hold : r = .hold ↔ s.vrg.reg = .hold) :
      Atom s { s with vrg := { s.vrg with reg := r, target := t, below := b, above := a, noCandidate := n } }
  | hold (s : State) (h : HoldSet) (r : RegState) (t : Option Target) (b a : Nat)
      (sound : r = .hold ↔ (s.vrg.mode ≠ .auto ∨ h.any = true)) :
      Atom s { s with vrg := { s.vrg with holds := h, reg := r, target := t, below := b, above := a } }
  | queue (s : State) (q : List Entry) (keeps : QueueOk s.swu.queue → QueueOk q) :
      Atom s { s with swu := { s.swu with queue := q } }
  | result (s : State) (r : Option StationResult) : Atom s { s with swu := { s.swu with stationResult := r } }
  | executor (s : State) (i : StepIx) (w : SwuStep)
      (coils : CoilsOk (s.sw i) → CoilsOk w) (op : SameOp (s.sw i).op w.op)
      (retries : w.retries = (s.sw i).retries) (failed : w.breakerFail = (s.sw i).breakerFail) :
      Atom s { s with swu := { s.swu with steps := Tab.put s.swu.steps i w } }
  | freeSlot (s : State) (i : StepIx) (held : s.swu.slot = some i) (gone : (s.sw i).op = none) :
      Atom s { s with swu := { s.swu with slot := none } }
  | dispatch (s : State) (i : StepIx) (o : OpRecord) (n : Nat) (free : (s.sw i).op = none)
      (slot : o.origin ≠ .protection → s.swu.slot = none)
      (holds : o.holdsSlot = true ↔ o.origin ≠ .protection) :
      Atom s { s with swu := { s.swu with
        slot := if o.origin = .protection then s.swu.slot else some i
        steps := Tab.put s.swu.steps i { s.sw i with op := some o, opCount := n } } }
  | move (s : State) (i : StepIx) (new : StepState) (b : Basis) (c : Cause) :
      Atom s ((s.onSt (fun t => t.move i new b c s.uptime)).onSw i (fun r => { r with retries := none }))
  | capture (s : State) (c : Option Capture) (l : Option CaptureRec) :
      Atom s { s with ubp := { s.ubp with capture := c, lastCapture := l } }
  | cooldown (s : State) (c : Cooldown)
      (duty : ∀ i, (s.cd i).duty ≤ Config.dutyMax → (c.steps.get i).duty ≤ Config.dutyMax)
      (budget : c.budget = s.cdu.budget ∨ c.budget = s.cdu.budget + 1 ∧ s.budgetExhausted = false)
      (start : c.startUp = s.cdu.startUp) :
      Atom s { s with cdu := c }

/-- A run of elementary changes. -/
def Chain (s t : State) : Prop := Relation.ReflTransGen Atom s t

theorem Chain.refl (s : State) : Chain s s := Relation.ReflTransGen.refl

theorem Chain.trans {s t u : State} (h : Chain s t) (k : Chain t u) : Chain s u :=
  Relation.ReflTransGen.trans h k

theorem Chain.single {s t : State} (h : Atom s t) : Chain s t := Relation.ReflTransGen.single h

/-- One more atom at the end of a chain. -/
theorem Chain.then_ {s t u : State} (h : Chain s t) (a : Atom t u) : Chain s u := h.trans (.single a)

/-- A change that is made or not. -/
theorem Chain.ite {s t u : State} {c : Prop} [Decidable c] (h : c → Chain s t) (k : ¬c → Chain s u) :
    Chain s (if c then t else u) := by
  split
  · exact h ‹_›
  · exact k ‹_›

/-- A fold of chains is a chain. -/
theorem Chain.foldl {α : Type} (f : State → α → State) (h : ∀ s a, Chain s (f s a)) (xs : List α)
    (s : State) : Chain s (xs.foldl f s) := by
  induction xs generalizing s with
  | nil => exact .refl s
  | cons a as ih => exact (h s a).trans (ih (f s a))

/-- What every atom keeps, a chain keeps. -/
theorem Chain.keeps {P : State → Prop} (h : ∀ s t, Atom s t → P s → P t) {s t : State} (c : Chain s t)
    (p : P s) : P t := by
  induction c with
  | refl => exact p
  | tail _ a ih => exact h _ _ a ih

/-- What no atom changes, a chain does not change. -/
theorem Chain.same {α : Type} (g : State → α) (h : ∀ s t, Atom s t → g t = g s) {s t : State}
    (c : Chain s t) : g t = g s := by
  induction c with
  | refl => rfl
  | tail _ a ih => rw [h _ _ a, ih]

/-! ### What no part of the machinery changes -/

theorem Atom.now {s t : State} (h : Atom s t) : t.now = s.now := by cases h <;> rfl
theorem Atom.resetHeld {s t : State} (h : Atom s t) : t.resetHeld = s.resetHeld := by cases h <;> rfl
theorem Atom.mi {s t : State} (h : Atom s t) : t.mi = s.mi := by cases h <;> rfl
theorem Atom.su {s t : State} (h : Atom s t) : t.su = s.su := by cases h <;> rfl
theorem Atom.pending {s t : State} (h : Atom s t) : t.pending = s.pending := by cases h <;> rfl
theorem Atom.mode {s t : State} (h : Atom s t) : t.vrg.mode = s.vrg.mode := by cases h <;> rfl
theorem Atom.staged {s t : State} (h : Atom s t) : t.swu.staged = s.swu.staged := by cases h <;> rfl
theorem Atom.ub {s t : State} (h : Atom s t) : t.ubp.steps = s.ubp.steps := by cases h <;> rfl
theorem Atom.marks {s t : State} (h : Atom s t) : t.hsv.marks = s.hsv.marks := by cases h <;> rfl
theorem Atom.routes {s t : State} (h : Atom s t) : t.evr.routes = s.evr.routes := by
  cases h <;> first | rfl | assumption

theorem Chain.now {s t : State} (h : Chain s t) : t.now = s.now := h.same State.now (fun _ _ => Atom.now)
theorem Chain.resetHeld {s t : State} (h : Chain s t) : t.resetHeld = s.resetHeld :=
  h.same State.resetHeld (fun _ _ => Atom.resetHeld)
theorem Chain.mi {s t : State} (h : Chain s t) : t.mi = s.mi := h.same State.mi (fun _ _ => Atom.mi)
theorem Chain.su {s t : State} (h : Chain s t) : t.su = s.su := h.same State.su (fun _ _ => Atom.su)
theorem Chain.pending {s t : State} (h : Chain s t) : t.pending = s.pending :=
  h.same State.pending (fun _ _ => Atom.pending)
theorem Chain.mode {s t : State} (h : Chain s t) : t.vrg.mode = s.vrg.mode :=
  h.same (fun s => s.vrg.mode) (fun _ _ => Atom.mode)
theorem Chain.staged {s t : State} (h : Chain s t) : t.swu.staged = s.swu.staged :=
  h.same (fun s => s.swu.staged) (fun _ _ => Atom.staged)
theorem Chain.ub {s t : State} (h : Chain s t) : t.ubp.steps = s.ubp.steps :=
  h.same (fun s => s.ubp.steps) (fun _ _ => Atom.ub)
theorem Chain.marks {s t : State} (h : Chain s t) : t.hsv.marks = s.hsv.marks :=
  h.same (fun s => s.hsv.marks) (fun _ _ => Atom.marks)
theorem Chain.routes {s t : State} (h : Chain s t) : t.evr.routes = s.evr.routes :=
  h.same (fun s => s.evr.routes) (fun _ _ => Atom.routes)

/-- The Host Link but for its notices. -/
theorem Chain.hlk {s t : State} (h : Chain s t) : { t.hlk with notices := s.hlk.notices } = s.hlk := by
  have : ∀ a b, Atom a b → (fun x : State => { x.hlk with notices := s.hlk.notices }) b
      = (fun x : State => { x.hlk with notices := s.hlk.notices }) a := by
    intro a b k; cases k <;> rfl
  exact h.same (fun x : State => { x.hlk with notices := s.hlk.notices }) this

/-- A move changes the record of its step alone. -/
theorem StepTable.move_get (t : StepTable) (i j : StepIx) (new : StepState) (b : Basis) (c : Cause) (u : Nat) :
    (t.move i new b c u).steps.get j
      = if j = i then (t.steps.get i).move new b c u else t.steps.get j := by
  show (Tab.upd t.steps i (fun r => r.move new b c u)).get j = _
  exact Tab.get_upd ..

/-- A step's position and contacts. -/
theorem Atom.position {s t : State} (h : Atom s t) (i : StepIx) :
    (t.step i).position = (s.step i).position ∧ (t.step i).closedIn = (s.step i).closedIn
      ∧ (t.step i).openIn = (s.step i).openIn ∧ (t.step i).lastDefinite = (s.step i).lastDefinite
      ∧ (t.step i).disagreeFrom = (s.step i).disagreeFrom := by
  cases h with
  | move j new b c =>
    have e : ((s.onSt (fun t => t.move j new b c s.uptime)).onSw j (fun r => { r with retries := none })).step i
        = (s.st.move j new b c s.uptime).steps.get i := rfl
    rw [e, StepTable.move_get]
    split
    · subst_vars
      exact ⟨rfl, rfl, rfl, rfl, rfl⟩
    · exact ⟨rfl, rfl, rfl, rfl, rfl⟩
  | _ => exact ⟨rfl, rfl, rfl, rfl, rfl⟩

theorem Chain.position {s t : State} (h : Chain s t) (i : StepIx) :
    (t.step i).position = (s.step i).position :=
  h.same (fun s => (s.step i).position) (fun _ _ a => (a.position i).1)

theorem Chain.closedIn {s t : State} (h : Chain s t) (i : StepIx) :
    (t.step i).closedIn = (s.step i).closedIn :=
  h.same (fun s => (s.step i).closedIn) (fun _ _ a => (a.position i).2.1)

theorem Chain.openIn {s t : State} (h : Chain s t) (i : StepIx) :
    (t.step i).openIn = (s.step i).openIn :=
  h.same (fun s => (s.step i).openIn) (fun _ _ a => (a.position i).2.2.1)

theorem Chain.disagreeFrom {s t : State} (h : Chain s t) (i : StepIx) :
    (t.step i).disagreeFrom = (s.step i).disagreeFrom :=
  h.same (fun s => (s.step i).disagreeFrom) (fun _ _ a => (a.position i).2.2.2.2)

/-- A quantity but for its last removal. -/
theorem Chain.quantity {s t : State} (h : Chain s t) (q : QtyIx) :
    { t.qty q with removal := none } = { s.qty q with removal := none } := by
  refine h.same (fun x : State => { x.qty q with removal := none }) ?_
  intro a b k
  cases k with
  | removals f => simp [State.qty]
  | _ => rfl

end Sys2Proof.Machine
end

