-- ==== Sys2Proof/Laws/Machinery.lean ====
section
/-! SUPPORT. Every operation of the switching machinery is a chain of its elementary changes: what a prover
cites instead of unfolding the operation. -/

namespace Sys2Proof.Machine

/-! ### The notice table and the capture -/

theorem raiseNotice_chain (c : NoticeClass) (i : Option StepIx) (a b : Nat) (s : State) :
    Chain s (raiseNotice c i a b s) := .single (.notices s _)

theorem reportClass_chain (c : NoticeClass) (x : Bool) (i : Option StepIx) (a b : Nat) (s : State) :
    Chain s (reportClass c x i a b s) := .single (.notices s _)

theorem reportDetail_chain (c : NoticeClass) (i : Option StepIx) (a b : Nat) (s : State) :
    Chain s (reportDetail c i a b s) := .single (.notices s _)

theorem abortCapture_chain (s : State) : Chain s (abortCapture s) := by
  unfold abortCapture
  split
  · exact .refl s
  · exact (Chain.single (.capture s none _)).trans (raiseNotice_chain ..)

theorem abortCaptureOf_chain (i : StepIx) (s : State) : Chain s (abortCaptureOf i s) := by
  unfold abortCaptureOf
  split
  · exact .refl s
  · exact .ite (fun _ => abortCapture_chain s) (fun _ => .refl s)

/-! ### Step state, timers and coils -/

theorem moveStep_chain (i : StepIx) (new : StepState) (b : Basis) (c : Cause) (s : State) :
    Chain s (moveStep i new b c s) := by
  have h : Chain s ((s.onSt (fun t => t.move i new b c s.uptime)).onSw i (fun r => { r with retries := none })) :=
    .single (.move s i new b c)
  exact .ite (fun _ => h.trans (abortCaptureOf_chain ..)) (fun _ => h)

theorem toDischarging_chain (i : StepIx) (b : Basis) (s : State) : Chain s (toDischarging i b s) :=
  moveStep_chain ..

theorem toReady_chain (i : StepIx) (s : State) : Chain s (toReady i s) := moveStep_chain ..

theorem toEnergized_chain (i : StepIx) (s : State) : Chain s (toEnergized i s) := moveStep_chain ..

theorem toReadyOrDischarging_chain (i : StepIx) (s : State) : Chain s (toReadyOrDischarging i s) := by
  unfold toReadyOrDischarging
  split
  · exact toDischarging_chain ..
  · split
    · exact toDischarging_chain ..
    · exact toReady_chain ..

/-- A change of one step's record in the Cooldown Unit that keeps its duty level in range. -/
theorem onCd_chain (i : StepIx) (f : CduStep → CduStep) (s : State)
    (h : (s.cd i).duty ≤ Config.dutyMax → (f (s.cd i)).duty ≤ Config.dutyMax) : Chain s (s.onCd i f) := by
  refine .single (.cooldown s _ ?_ (.inl rfl) rfl)
  intro j hj
  show ((Tab.upd s.cdu.steps i f).get j).duty ≤ _
  rw [Tab.get_upd]
  split
  · subst_vars; exact h hj
  · exact hj

theorem loadDischarge_chain (i : StepIx) (s : State) : Chain s (loadDischarge i s) :=
  onCd_chain i _ s id

/-- A count that holds at its greatest value does not pass it. -/
theorem satInc_le {top n : Nat} (h : n ≤ top) : satInc top n ≤ top := by
  unfold satInc; split <;> omega

theorem dutyPulse_chain (i : StepIx) (s : State) : Chain s (dutyPulse i s) :=
  onCd_chain i _ s satInc_le

theorem budgetPulse_chain (s : State) (h : s.budgetExhausted = false) : Chain s (budgetPulse s) :=
  .single (.cooldown s _ (fun _ => id) (.inr ⟨rfl, h⟩) rfl)

/-- A change of one step's record in the Switching Unit. -/
theorem onSw_chain (i : StepIx) (f : SwuStep → SwuStep) (s : State)
    (coils : CoilsOk (s.sw i) → CoilsOk (f (s.sw i))) (op : SameOp (s.sw i).op (f (s.sw i)).op)
    (retries : (f (s.sw i)).retries = (s.sw i).retries)
    (failed : (f (s.sw i)).breakerFail = (s.sw i).breakerFail) : Chain s (s.onSw i f) :=
  .single (.executor s i _ coils op retries failed)

theorem SameOp.refl (a : Option OpRecord) : SameOp a a := by
  cases a with
  | none => exact .inl rfl
  | some o => exact .inr ⟨o, o, rfl, rfl, rfl, rfl⟩

theorem closeCoilOn_chain (i : StepIx) (s : State) : Chain s (closeCoilOn i s) :=
  onSw_chain i _ s (fun _ => ⟨by simp, rfl⟩) (.refl _) rfl rfl

theorem tripCoilsOn_chain (i : StepIx) (s : State) : Chain s (tripCoilsOn i s) :=
  onSw_chain i _ s (fun _ => ⟨by simp, rfl⟩) (.refl _) rfl rfl

theorem coilsOff_chain (i : StepIx) (s : State) : Chain s (coilsOff i s) :=
  onSw_chain i _ s (fun _ => ⟨by simp, rfl⟩) (.refl _) rfl rfl

theorem coilsOn_chain (i : StepIx) (k : Kind) (s : State) : Chain s (coilsOn i k s) := by
  cases k
  · exact closeCoilOn_chain ..
  · exact tripCoilsOn_chain ..

/-! ### Results -/

theorem regulatorResult_chain (i : StepIx) (k : Kind) (r : OpResult) (s : State) :
    Chain s (regulatorResult i k r s) := by
  simp only [regulatorResult, State.onVrg]
  split_ifs with h h2
  · exact .single (.regulator s .settling _ _ _ _ (by simp [h.1]))
  · exact .single (.regulator s .watch _ _ _ _ (by simp [h.1]))
  · exact .refl s

theorem hsvResult_chain (i : StepIx) (r : OpResult) (s : State) : Chain s (hsvResult i r s) :=
  .single (.removals s _)

theorem evrResult_chain (i : StepIx) (r : OpResult) (s : State) : Chain s (evrResult i r s) :=
  .single (.router s _ rfl)

theorem deliver_chain (i : StepIx) (k : Kind) (r : OpResult) (q : Requester) (s : State) :
    Chain s (deliver i k r q s) := by
  cases q
  case regulator => exact regulatorResult_chain ..
  case hsv => exact hsvResult_chain ..
  case evr => exact evrResult_chain ..
  case hlk => exact .single (.result s _)
  all_goals exact .refl s

theorem deliverAll_chain (i : StepIx) (k : Kind) (r : OpResult) (qs : List Requester) (s : State) :
    Chain s (deliverAll i k r qs s) := Chain.foldl _ (fun t q => deliver_chain i k r q t) qs s

/-- Results reach no part of SWU but the station result record. -/
theorem deliver_queue (i : StepIx) (k : Kind) (r : OpResult) (q : Requester) (s : State) :
    (deliver i k r q s).swu.queue = s.swu.queue := by cases q <;> rfl

theorem deliverAll_queue (i : StepIx) (k : Kind) (r : OpResult) (qs : List Requester) (s : State) :
    (deliverAll i k r qs s).swu.queue = s.swu.queue := by
  unfold deliverAll
  induction qs generalizing s with
  | nil => rfl
  | cons q qs ih => rw [List.foldl_cons, ih, deliver_queue]

theorem deliver_swu (i : StepIx) (k : Kind) (r : OpResult) (q : Requester) (s : State) :
    (deliver i k r q s).swu.steps = s.swu.steps ∧ (deliver i k r q s).swu.slot = s.swu.slot := by
  cases q <;> exact ⟨rfl, rfl⟩

theorem deliverAll_swu (i : StepIx) (k : Kind) (r : OpResult) (qs : List Requester) (s : State) :
    (deliverAll i k r qs s).swu.steps = s.swu.steps ∧ (deliverAll i k r qs s).swu.slot = s.swu.slot := by
  unfold deliverAll
  induction qs generalizing s with
  | nil => exact ⟨rfl, rfl⟩
  | cons q qs ih =>
    rw [List.foldl_cons]
    exact ⟨(ih _).1.trans (deliver_swu ..).1, (ih _).2.trans (deliver_swu ..).2⟩

/-! ### The queue -/

/-- An entry stands in the queue at most once for each step; `before` is a total order of classes and times. -/
theorem Entry.before_trans {a b c : Entry} (h : a.before b) (k : b.before c) : a.before c := by
  unfold Entry.before at *; omega

theorem mem_insertEntry {e x : Entry} {q : List Entry} : x ∈ insertEntry e q ↔ x = e ∨ x ∈ q := by
  induction q with
  | nil => simp [insertEntry]
  | cons y ys ih =>
    unfold insertEntry
    split
    · simp only [List.mem_cons, ih]; tauto
    · simp only [List.mem_cons]

/-- The queue with an entry put in its place keeps its order (R47). -/
theorem insertEntry_sorted {e : Entry} {q : List Entry} (h : q.Pairwise Entry.before) :
    (insertEntry e q).Pairwise Entry.before := by
  induction q with
  | nil => simp [insertEntry]
  | cons y ys ih =>
    rw [List.pairwise_cons] at h
    unfold insertEntry
    split
    · next hy =>
      rw [List.pairwise_cons]
      refine ⟨fun x hx => ?_, ih h.2⟩
      rcases mem_insertEntry.mp hx with rfl | hx
      · exact hy
      · exact h.1 x hx
    · next hy =>
      have hey : e.before y := by unfold Entry.before; omega
      rw [List.pairwise_cons, List.pairwise_cons]
      refine ⟨fun x hx => ?_, h⟩
      rcases List.mem_cons.mp hx with rfl | hx
      · exact hey
      · exact Entry.before_trans hey (h.1 x hx)

theorem insertEntry_steps {e : Entry} {q : List Entry} (n : e.step ∉ q.map (·.step))
    (h : (q.map (·.step)).Nodup) : ((insertEntry e q).map (·.step)).Nodup := by
  induction q with
  | nil => simp [insertEntry]
  | cons y ys ih =>
    simp only [List.map_cons, List.mem_cons, not_or, List.nodup_cons] at n h
    unfold insertEntry
    split
    · simp only [List.map_cons, List.nodup_cons]
      refine ⟨fun hy => ?_, ih n.2 h.2⟩
      obtain ⟨x, hx, hxy⟩ := List.mem_map.mp hy
      rcases mem_insertEntry.mp hx with rfl | hx
      · exact n.1 hxy
      · exact h.1 (List.mem_map.mpr ⟨x, hx, hxy⟩)
    · simp only [List.map_cons, List.nodup_cons, List.mem_cons, not_or]
      exact ⟨n, h⟩

/-- A new entry whose step has none keeps the queue as it should be. -/
theorem QueueOk.insert {e : Entry} {q : List Entry} (n : e.step ∉ q.map (·.step))
    (o : e.origin ≠ .protection) (h : QueueOk q) : QueueOk (insertEntry e q) := by
  refine ⟨insertEntry_steps n h.1, fun x hx => ?_, insertEntry_sorted h.2.2⟩
  rcases mem_insertEntry.mp hx with rfl | hx
  · exact o
  · exact h.2.1 x hx

/-- A part of a sound queue, in its order, is sound. -/
theorem QueueOk.sublist {p q : List Entry} (s : p.Sublist q) (h : QueueOk q) : QueueOk p :=
  ⟨h.1.sublist (s.map _), fun e he => h.2.1 e (s.subset he), h.2.2.sublist s⟩

theorem QueueOk.drop (i : StepIx) {q : List Entry} (h : QueueOk q) : QueueOk (dropStep i q) :=
  h.sublist List.filter_sublist

theorem dropStep_absent (i : StepIx) (q : List Entry) : i ∉ (dropStep i q).map (·.step) := by
  intro h
  obtain ⟨x, hx, rfl⟩ := List.mem_map.mp h
  simp [dropStep] at hx

/-- A queue whose entries are changed in fields that its order does not read. -/
theorem QueueOk.mapSame {f : Entry → Entry} {q : List Entry}
    (hf : ∀ e ∈ q, (f e).step = e.step ∧ (f e).origin = e.origin ∧ (f e).enqueued = e.enqueued)
    (h : QueueOk q) : QueueOk (q.map f) := by
  obtain ⟨h1, h2, h3⟩ := h
  refine ⟨?_, ?_, ?_⟩
  · have e : (q.map f).map (·.step) = q.map (·.step) := by
      rw [List.map_map]
      exact List.map_congr_left (fun e he => (hf e he).1)
    rw [e]; exact h1
  · intro x hx
    obtain ⟨e, he, rfl⟩ := List.mem_map.mp hx
    rw [(hf e he).2.1]; exact h2 e he
  · rw [List.pairwise_map]
    refine h3.imp_of_mem (fun {a b} ha hb hab => ?_)
    unfold Entry.before at *
    rw [(hf a ha).2.1, (hf b hb).2.1, (hf a ha).2.2, (hf b hb).2.2]
    exact hab

theorem outranking_ne_protection {a b : Origin} (ha : a ≠ .protection) (hb : b ≠ .protection) :
    outranking a b ≠ .protection := by
  unfold outranking; split <;> assumption

/-- A merge into an entry of the queue (R48). -/
theorem QueueOk.merge {e : Entry} {q : List Entry} {r : Requester} (he : e ∈ q)
    (hr : r.origin ≠ .protection) (h : QueueOk q) : QueueOk (mergeEntry e r q) := by
  have ho : (e.merge r).origin ≠ .protection := outranking_ne_protection (h.2.1 e he) hr
  unfold mergeEntry
  split
  · next hs =>
    refine h.mapSame (fun x hx => ?_)
    split
    · next hxe =>
      have : x = e := List.inj_on_of_nodup_map h.1 hx he hxe
      subst this
      exact ⟨rfl, hs, rfl⟩
    · exact ⟨rfl, rfl, rfl⟩
  · exact (h.drop e.step).insert (dropStep_absent e.step q) ho

theorem entryOf_some {s : State} {i : StepIx} {e : Entry} (h : s.entryOf i = some e) :
    e ∈ s.swu.queue ∧ e.step = i := by
  refine ⟨List.mem_of_find?_eq_some h, ?_⟩
  have := List.find?_some h
  simpa using this

theorem entryOf_none {s : State} {i : StepIx} (h : s.entryOf i = none) :
    i ∉ s.swu.queue.map (·.step) := by
  intro hm
  obtain ⟨x, hx, rfl⟩ := List.mem_map.mp hm
  have := List.find?_eq_none.mp h x hx
  simp at this

/-- A change of the queue alone. -/
theorem onQueue_chain (s : State) (q : List Entry) (h : QueueOk s.swu.queue → QueueOk q) :
    Chain s (s.onSwu (fun w => { w with queue := q })) := .single (.queue s q h)

theorem joinOp_chain (i : StepIx) (q : Requester) (s : State) : Chain s (joinOp i q s) := by
  refine onSw_chain i _ s id ?_ rfl rfl
  cases h : (s.sw i).op with
  | none => exact .inl rfl
  | some o => exact .inr ⟨o, _, rfl, rfl, rfl, rfl⟩

theorem takeRequest_chain (i : StepIx) (k : Kind) (q : Requester) (s : State)
    (hq : q.origin ≠ .protection) : Chain s (takeRequest i k q s) := by
  unfold takeRequest
  split
  · exact joinOp_chain i q s
  · split
    · next h => exact onQueue_chain s _ (fun k => k.insert (entryOf_none h) hq)
    · next e h =>
      split
      · exact onQueue_chain s _ (fun k => k.merge (entryOf_some h).1 hq)
      · split
        · have := deliverAll_chain i e.kind .superseded e.requesters s
          refine this.trans (onQueue_chain _ _ (fun k => ?_))
          exact (k.drop i).insert (dropStep_absent i _) hq
        · exact deliver_chain ..

theorem withdrawStep_chain (i : StepIx) (s : State) : Chain s (withdrawStep i s) := by
  unfold withdrawStep
  split
  · exact .refl s
  · exact (onQueue_chain s _ (·.drop i)).trans (deliverAll_chain ..)

theorem withoutRegulator_some {e x : Entry} (h : e.withoutRegulator = some x) :
    x.step = e.step ∧ x.origin = e.origin ∧ x.enqueued = e.enqueued := by
  unfold Entry.withoutRegulator at h
  split at h
  · cases h
  · cases h; exact ⟨rfl, rfl, rfl⟩

/-- A queue of some of the entries, changed in fields that its order does not read. -/
theorem QueueOk.filterMapSame {f : Entry → Option Entry} {q : List Entry}
    (hf : ∀ e x, f e = some x → x.step = e.step ∧ x.origin = e.origin ∧ x.enqueued = e.enqueued)
    (h : QueueOk q) : QueueOk (q.filterMap f) := by
  have e : q.filterMap f = (q.filter (fun x => (f x).isSome)).map (fun x => (f x).getD x) := by
    clear h
    induction q with
    | nil => rfl
    | cons y ys ih =>
      cases hy : f y with
      | none => simp [hy, ih]
      | some z => simp [hy, ih]
  rw [e]
  refine (h.sublist List.filter_sublist).mapSame (fun x hx => ?_)
  have hx := (List.mem_filter.mp hx).2
  obtain ⟨z, hz⟩ := Option.isSome_iff_exists.mp hx
  rw [hz]
  exact hf x z hz

theorem withdrawRegulation_chain (s : State) : Chain s (withdrawRegulation s) :=
  (onQueue_chain s _ (·.filterMapSame (fun _ _ => withoutRegulator_some))).trans
    (Chain.foldl _ (fun t (e : Entry) => regulatorResult_chain e.step e.kind .withdrawn t) _ _)

/-! ### The regulator's hold -/

theorem endNoCandidate_chain (s : State) : Chain s (endNoCandidate s) := by
  unfold endNoCandidate
  split
  · have h : Chain s ((s.onVrg (fun v => { v with noCandidate := false })).onEvr (fun e =>
      { e with active := Tab.put e.active Source.noCandidate.ix false })) :=
      (Chain.single (.regulator s s.vrg.reg s.vrg.target s.vrg.below s.vrg.above false Iff.rfl)).then_
        (.router _ _ rfl)
    exact .ite (fun _ => h) (fun _ => h.trans (reportClass_chain ..))
  · exact .refl s

theorem dropRegulation_chain (s : State) : Chain s (dropRegulation s) :=
  (endNoCandidate_chain s).trans (withdrawRegulation_chain _)

/-- The regulator settled is in HOLD exactly where the mode or a hold cause puts it there (R94, R95). -/
theorem Regulator.settled_hold (v : Regulator) :
    v.settled.reg = .hold ↔ (v.mode ≠ .auto ∨ v.holds.any = true) := by
  unfold Regulator.settled
  by_cases h : v.mode = .auto ∧ v.holds.any = false
  · rw [if_pos h]
    split
    · simp [Regulator.toWatch, h.1, h.2]
    · next hr => simp [hr, h.1, h.2]
  · rw [if_neg h]
    have : v.mode ≠ .auto ∨ v.holds.any = true := by
      by_cases hm : v.mode = .auto
      · right
        cases ha : v.holds.any
        · exact absurd ⟨hm, ha⟩ h
        · rfl
      · exact .inl hm
    split
    · next hr => simp [hr, this]
    · simp [Regulator.toHold, this]

/-- What `settled` leaves as it is. -/
theorem Regulator.settled_eq (v : Regulator) :
    v.settled =
      { v with
        reg := v.settled.reg
        target := v.settled.target
        below := v.settled.below
        above := v.settled.above } := by
  unfold Regulator.settled
  split_ifs <;> rfl

/-- A settled regulator is sound. -/
theorem Regulator.settled_sound (v : Regulator) :
    v.settled.reg = .hold ↔ (v.settled.mode ≠ .auto ∨ v.settled.holds.any = true) := by
  have h : v.settled.mode = v.mode ∧ v.settled.holds = v.holds := by
    rw [v.settled_eq]; exact ⟨rfl, rfl⟩
  rw [h.1, h.2]
  exact v.settled_hold

theorem setHold_chain (c : HoldCause) (b : Bool) (s : State) : Chain s (setHold c b s) := by
  have h : Chain s (s.onVrg (fun v => ({ v with holds := v.holds.put c b }).settled)) := by
    have e := Regulator.settled_eq { s.vrg with holds := s.vrg.holds.put c b }
    have k := Regulator.settled_hold { s.vrg with holds := s.vrg.holds.put c b }
    have : s.onVrg (fun v => ({ v with holds := v.holds.put c b }).settled)
        = { s with vrg := ({ s.vrg with holds := s.vrg.holds.put c b } : Regulator).settled } := rfl
    rw [this, e]
    exact .single (.hold s _ _ _ _ _ k)
  exact .ite (fun _ => h.trans (dropRegulation_chain _)) (fun _ => h)

/-! ### Routing -/

/-- A change of the Event Router that keeps its route table. -/
theorem onEvr_chain (f : Router → Router) (s : State) (h : (f s.evr).routes = s.evr.routes) :
    Chain s (s.onEvr f) := .single (.router s _ h)

theorem trigger_chain (src : Source) (d : Destination) (s : State) : Chain s (trigger src d s) :=
  (onEvr_chain _ s rfl).trans
    (Chain.foldl _ (fun t i => takeRequest_chain i .opening .evr t (by decide)) _ _)

theorem syncFreeze_chain (s : State) : Chain s (syncFreeze s) :=
  .ite (fun _ => .refl s) (fun _ => setHold_chain ..)

theorem routeCondition_chain (src : Source) (x : Bool) (s : State) : Chain s (routeCondition src x s) := by
  unfold routeCondition
  split
  · exact .refl s
  · have h : Chain s (syncFreeze (s.onEvr (fun e => { e with active := Tab.put e.active src.ix x }))) :=
      (onEvr_chain _ s rfl).trans (syncFreeze_chain _)
    exact .ite (fun _ => h.trans (trigger_chain ..)) (fun _ => h)

theorem routePulse_chain (src : Source) (s : State) : Chain s (routePulse src s) := by
  unfold routePulse
  split
  · exact .single (.router s _ rfl)
  · exact trigger_chain ..
  · exact trigger_chain ..
  · exact .refl s

theorem reportBudget_chain (s : State) : Chain s (reportBudget s) :=
  (reportClass_chain ..).trans (routeCondition_chain ..)

/-! ### Operations -/

theorem abortCapture_cdu (s : State) : (abortCapture s).cdu = s.cdu := by
  unfold abortCapture; split <;> rfl

theorem abortCaptureOf_cdu (i : StepIx) (s : State) : (abortCaptureOf i s).cdu = s.cdu := by
  unfold abortCaptureOf
  split
  · rfl
  · split
    · exact abortCapture_cdu s
    · rfl

theorem moveStep_cdu (i : StepIx) (new : StepState) (b : Basis) (c : Cause) (s : State) :
    (moveStep i new b c s).cdu = s.cdu := by
  unfold moveStep
  simp only
  split
  · rw [abortCaptureOf_cdu]; rfl
  · rfl

theorem deliver_cdu (i : StepIx) (k : Kind) (r : OpResult) (q : Requester) (s : State) :
    (deliver i k r q s).cdu = s.cdu := by cases q <;> rfl

theorem deliverAll_cdu (i : StepIx) (k : Kind) (r : OpResult) (qs : List Requester) (s : State) :
    (deliverAll i k r qs s).cdu = s.cdu := by
  unfold deliverAll
  induction qs generalizing s with
  | nil => rfl
  | cons q qs ih => rw [List.foldl_cons, ih, deliver_cdu]

theorem stSuccess_chain (i : StepIx) (s : State) : Chain s (stSuccess i s) := by
  unfold stSuccess
  split
  · exact toEnergized_chain ..
  · exact toDischarging_chain ..
  · exact .refl s

theorem stSuccess_cdu (i : StepIx) (s : State) : (stSuccess i s).cdu = s.cdu := by
  unfold stSuccess
  split
  · exact moveStep_cdu ..
  · exact moveStep_cdu ..
  · rfl

theorem stDispatch_chain (i : StepIx) (k : Kind) (s : State) : Chain s (stDispatch i k s) := by
  unfold stDispatch
  split
  · exact moveStep_chain ..
  · exact moveStep_chain ..
  · exact moveStep_chain ..
  · exact .refl s

theorem stDispatch_cdu (i : StepIx) (k : Kind) (s : State) : (stDispatch i k s).cdu = s.cdu := by
  unfold stDispatch
  split
  · exact moveStep_cdu ..
  · exact moveStep_cdu ..
  · exact moveStep_cdu ..
  · rfl

theorem opSuccess_chain (i : StepIx) (s : State) : Chain s (opSuccess i s) := by
  unfold opSuccess
  split
  · exact .refl s
  · next o h =>
    refine Chain.trans ?_ (deliverAll_chain ..)
    refine Chain.trans ?_ (stSuccess_chain ..)
    refine (coilsOff_chain i s).trans (onSw_chain i _ _ id ?_ rfl rfl)
    exact .inr ⟨o, _, by simp [coilsOff, h], rfl, rfl, rfl⟩

theorem opSuccess_cdu (i : StepIx) (s : State) : (opSuccess i s).cdu = s.cdu := by
  unfold opSuccess
  split
  · rfl
  · rw [deliverAll_cdu, stSuccess_cdu]; rfl

/-- The budget as the dispatch checks read it follows from the level and the settings. -/
theorem budgetExhausted_of {s t : State} (c : t.cdu.budget = s.cdu.budget) (u : t.su = s.su) :
    t.budgetExhausted = s.budgetExhausted := by
  unfold State.budgetExhausted State.y; rw [c, u]

/-- A dispatch (R54), on a step without an operation record, with the slot free where it is taken, and for a
REGULATION origin with the yard budget not exhausted. -/
theorem dispatchOp_chain (i : StepIx) (k : Kind) (g : Origin) (qs : List Requester) (s : State)
    (free : (s.sw i).op = none) (slot : g ≠ .protection → s.swu.slot = none)
    (budget : g = .regulation → s.budgetExhausted = false) : Chain s (dispatchOp i k g qs s) := by
  unfold dispatchOp
  simp only
  generalize h2 : (if g = Origin.protection then _ else _ : State) = s2
  have c2 : Chain s s2 := by
    have a := Atom.dispatch s i (s.newOp i k g qs) (satInc Config.count32 (s.sw i).opCount) free slot
      (by simp [State.newOp])
    have e : s2 = { s with swu := { s.swu with
        slot := if (s.newOp i k g qs).origin = .protection then s.swu.slot else some i
        steps := Tab.put s.swu.steps i { s.sw i with
          op := some (s.newOp i k g qs), opCount := satInc Config.count32 (s.sw i).opCount } } } := by
      rw [← h2]
      by_cases hg : g = .protection
      · have hs : (if (s.newOp i k g qs).origin = .protection then s.swu.slot else some i) = s.swu.slot :=
          if_pos hg
        rw [hs, if_pos hg]; rfl
      · have hs : (if (s.newOp i k g qs).origin = .protection then s.swu.slot else some i) = some i :=
          if_neg hg
        rw [hs, if_neg hg]; rfl
    rw [e]; exact .single a
  have b2 : s2.cdu = s.cdu := by
    rw [← h2]; split <;> rfl
  clear h2
  have c3 : Chain s (dutyPulse i (coilsOn i k (stDispatch i k s2))) :=
    ((c2.trans (stDispatch_chain ..)).trans (coilsOn_chain ..)).trans (dutyPulse_chain ..)
  have b3 : (dutyPulse i (coilsOn i k (stDispatch i k s2))).cdu.budget = s.cdu.budget := by
    have : (coilsOn i k (stDispatch i k s2)).cdu = s.cdu := by
      cases k <;> exact (stDispatch_cdu ..).trans b2
    show (coilsOn i k (stDispatch i k s2)).cdu.budget = _
    rw [this]
  generalize dutyPulse i (coilsOn i k (stDispatch i k s2)) = s3 at c3 b3 ⊢
  have c4 : Chain s (abortCaptureOf i s3) := c3.trans (abortCaptureOf_chain ..)
  have b4 : (abortCaptureOf i s3).cdu.budget = s.cdu.budget := by rw [abortCaptureOf_cdu]; exact b3
  generalize abortCaptureOf i s3 = s4 at c4 b4 ⊢
  generalize h5 : (if (s4.step i).position = k.target then opSuccess i s4 else s4) = s5
  have c5 : Chain s s5 := by
    rw [← h5]; exact .ite (fun _ => c4.trans (opSuccess_chain ..)) (fun _ => c4)
  have b5 : s5.cdu.budget = s.cdu.budget := by
    rw [← h5]; split
    · rw [opSuccess_cdu]; exact b4
    · exact b4
  split
  · next hg =>
    refine (c5.trans (budgetPulse_chain s5 ?_)).trans (reportBudget_chain _)
    rw [budgetExhausted_of b5 c5.su]; exact budget hg
  · exact c5

/-- An entry of REGULATION origin that passes its checks finds the yard budget below its limit (R52, R53). -/
theorem dispatchFailure_budget {s : State} {e : Entry} (h : s.dispatchFailure e = none)
    (g : e.origin = .regulation) : s.budgetExhausted = false := by
  unfold State.dispatchFailure State.closePasses at h
  cases hb : s.budgetExhausted
  · rfl
  · exfalso
    cases hk : e.kind <;> simp [hk, g, hb] at h

theorem dispatchRounds_chain (n : Nat) (s : State) (free : s.swu.slot = none) :
    Chain s (dispatchRounds n s) := by
  induction n generalizing s with
  | zero => exact .refl s
  | succ n ih =>
    unfold dispatchRounds
    split
    · exact .refl s
    · next e he =>
      have hop : (s.sw e.step).op = none := by
        have := List.find?_some he
        simpa using this
      have c1 := onQueue_chain s (dropStep e.step s.swu.queue) (·.drop e.step)
      simp only
      split
      · next hf =>
        exact c1.trans (dispatchOp_chain _ _ _ _ _ hop (fun _ => free) (dispatchFailure_budget hf))
      · refine (c1.trans (deliverAll_chain ..)).trans (ih _ ?_)
        rw [(deliverAll_swu ..).2]; exact free

theorem dispatcher_chain (s : State) : Chain s (dispatcher s) := by
  unfold dispatcher
  split
  · exact .refl s
  · next h => exact dispatchRounds_chain _ _ (by simpa using h)

theorem request_chain (i : StepIx) (k : Kind) (q : Requester) (s : State) (hq : q.origin ≠ .protection) :
    Chain s (request i k q s) := (takeRequest_chain i k q s hq).trans (dispatcher_chain _)

theorem condition_chain (src : Source) (x : Bool) (s : State) : Chain s (condition src x s) :=
  .ite (fun _ => .refl s) (fun _ => (routeCondition_chain ..).trans (dispatcher_chain _))

theorem pulse_chain (src : Source) (s : State) : Chain s (pulse src s) :=
  (routePulse_chain ..).trans (dispatcher_chain _)

theorem budgetCondition_chain (s : State) : Chain s (budgetCondition s) :=
  (reportClass_chain ..).trans (condition_chain ..)

/-! ### Lockout -/

theorem lockOut_chain (i : StepIx) (c : Cause) (s : State) : Chain s (lockOut i c s) :=
  (((moveStep_chain ..).trans (withdrawStep_chain ..)).trans (abortCaptureOf_chain ..)).trans
    (raiseNotice_chain ..)

theorem lockoutClaim_chain (i : StepIx) (c : Cause) (s : State) : Chain s (lockoutClaim i c s) :=
  .ite (fun _ => lockOut_chain ..) (fun _ => .refl s)

/-! ### PROTECTION opens -/

/-- The record of an operation is gone once it is removed. -/
theorem removeOp_op (i : StepIx) (s : State) : ((removeOp i s).sw i).op = none := by
  unfold removeOp
  split
  · assumption
  · have h : ((s.onSw i (fun r => { r with op := none })).sw i).op = none := by simp
    unfold releaseSlot
    split <;> exact h

theorem removeOp_chain (i : StepIx) (s : State) : Chain s (removeOp i s) := by
  unfold removeOp
  split
  · exact .refl s
  · have h := onSw_chain i (fun r => { r with op := none }) s id (.inl rfl) rfl rfl
    unfold releaseSlot
    refine .ite (fun hs => h.then_ ?_) (fun _ => h)
    exact .freeSlot _ i hs.2 (by simp)

theorem regulatorSettled_chain (i : StepIx) (o : OpRecord) (s : State) :
    Chain s (regulatorSettled i o s) := by
  simp only [regulatorSettled, State.onVrg]
  split
  · next h => exact .single (.regulator s .watch _ _ _ _ (by simp [h.1]))
  · exact .refl s

theorem overtake_chain (i : StepIx) (s : State) : Chain s (overtake i s) := by
  unfold overtake
  split
  · exact .refl s
  · exact .ite (fun _ => (removeOp_chain ..).trans (regulatorSettled_chain ..)) (fun _ => .refl s)

/-- An overtaken settle leaves no record. -/
theorem overtake_op {i : StepIx} {s : State} {o : OpRecord} (h : (s.sw i).op = some o)
    (p : o.phase = .settling) : ((overtake i s).sw i).op = none := by
  unfold overtake
  simp only [h]
  rw [if_pos p]
  exact removeOp_op i s

theorem absorbEntry_chain (i : StepIx) (s : State) : Chain s (absorbEntry i s) := by
  unfold absorbEntry
  split
  · exact .refl s
  · have h := onQueue_chain s (dropStep i s.swu.queue) (·.drop i)
    exact .ite (fun _ => h.trans (deliverAll_chain ..)) (fun _ => h)

theorem absorbEntry_sw (i j : StepIx) (s : State) : (absorbEntry i s).sw j = s.sw j := by
  unfold absorbEntry
  split
  · rfl
  · simp only
    split
    · show (deliverAll _ _ _ _ _).swu.steps.get j = _
      rw [(deliverAll_swu ..).1]; rfl
    · rfl

theorem dispatchProtection_chain (i : StepIx) (q : Requester) (s : State) (free : (s.sw i).op = none) :
    Chain s (dispatchProtection i q s) := by
  refine (absorbEntry_chain i s).trans (dispatchOp_chain _ _ _ _ _ ?_ (fun h => absurd rfl h) (by simp))
  rw [absorbEntry_sw]; exact free

theorem abortClose_chain (i : StepIx) (o : OpRecord) (s : State) : Chain s (abortClose i o s) := by
  have h1 := (coilsOff_chain i s).trans
    (onSw_chain i (fun r => { r with lastResult := some .aborted }) _ id (.refl _) rfl rfl)
  exact ((h1.trans (deliverAll_chain ..)).trans (removeOp_chain ..)).trans (loadDischarge_chain ..)

/-- An aborted close leaves no record. -/
theorem abortClose_op (i : StepIx) (o : OpRecord) (s : State) : ((abortClose i o s).sw i).op = none :=
  removeOp_op i _

theorem mergeProtection_chain (i : StepIx) (q : Requester) (s : State) :
    Chain s (mergeProtection i q s) := by
  refine onSw_chain i _ s id ?_ rfl rfl
  cases h : (s.sw i).op with
  | none => exact .inl rfl
  | some o => exact .inr ⟨o, _, rfl, rfl, rfl, rfl⟩

theorem takeProtection_chain (i : StepIx) (q : Requester) (s : State) : Chain s (takeProtection i q s) := by
  unfold takeProtection
  split
  · next o h =>
    refine .ite (fun hp => ?_) (fun _ => ?_)
    · exact .ite (fun _ => (overtake_chain i s).trans (dispatchProtection_chain _ _ _ (overtake_op h hp)))
        (fun _ => deliver_chain ..)
    · exact .ite (fun _ => mergeProtection_chain ..)
        (fun _ => (abortClose_chain i o s).trans (dispatchProtection_chain _ _ _ (abortClose_op i o s)))
  · next h =>
    exact .ite (fun _ => dispatchProtection_chain _ _ _ h) (fun _ => deliver_chain ..)

theorem protectionOpen_chain (i : StepIx) (q : Requester) (s : State) : Chain s (protectionOpen i q s) :=
  (takeProtection_chain ..).trans (dispatcher_chain _)

/-! ### The reports and requests of the other blocks -/

theorem unbCondition_chain (i : Option StepIx) (s : State) : Chain s (unbCondition i s) :=
  (reportClass_chain ..).trans (condition_chain ..)

theorem breakerCondition_chain (i : Option StepIx) (s : State) : Chain s (breakerCondition i s) :=
  (reportClass_chain ..).trans (condition_chain ..)

theorem positionNotice_chain (i : StepIx) (p : Position) (s : State) : Chain s (positionNotice i p s) :=
  raiseNotice_chain ..

theorem harmConditions_chain (s : State) : Chain s (harmConditions s) :=
  ((((reportClass_chain ..).trans (reportClass_chain ..)).trans (condition_chain ..)).trans
    (condition_chain ..)).trans (condition_chain ..)

theorem raiseRemoval_chain (c : Option StepIx) (s : State) : Chain s (raiseRemoval c s) := by
  cases c
  · exact .refl s
  · exact request_chain _ _ _ _ (by decide)

theorem startNoCandidate_chain (s : State) : Chain s (startNoCandidate s) := by
  unfold startNoCandidate
  refine .ite (fun _ => .refl s) (fun _ => ?_)
  refine Chain.trans (Chain.trans ?_ (reportClass_chain ..)) (condition_chain ..)
  exact .single (.regulator s s.vrg.reg s.vrg.target s.vrg.below s.vrg.above true Iff.rfl)

theorem guardNewest_chain (s : State) : Chain s (guardNewest s) := by
  unfold guardNewest
  split
  · exact .refl s
  · exact request_chain _ _ _ _ (by decide)

theorem measCondition_chain (src : Source) (c : Nat) (b : Bool) (s : State) :
    Chain s (measCondition src c b s) := (reportClass_chain ..).trans (condition_chain ..)

end Sys2Proof.Machine
end

