-- ==== Sys2Proof/Laws/Effect.lean ====
section
/-! SUPPORT. What a command can do, said once. `Effect` adds to the machinery's elementary changes those that
the commands make outside it, one for each block; `Run` is a run of them; and each soundness predicate of
Safety.lean that does not read the sources is kept by every effect. Laws/Commands.lean shows that every
command but a reset, and but the step of an apply that puts the new settings in force, is a run. -/

namespace Sys2Proof.Machine

/-- The three stages of a step stand at INACTIVE with their timers at 0. -/
def StagesOff (u : UbpStep) : Prop := u.s1 = ⟨.inactive, 0⟩ ∧ u.s2 = ⟨.inactive, 0⟩ ∧ u.s3 = ⟨.inactive, 0⟩

/-- What of a step's record the lists, the fields and the stages follow. -/
def SameStep (a b : StepRec) : Prop :=
  b.state = a.state ∧ b.position = a.position ∧ b.basis = a.basis ∧ b.cause = a.cause
    ∧ b.energizedAt = a.energizedAt

/-- What of an executor the coils, the slot and the retries follow. -/
def SameSw (a b : SwuStep) : Prop :=
  b.op = a.op ∧ b.closeCoil = a.closeCoil ∧ b.tripA = a.tripA ∧ b.tripB = a.tripB ∧ b.retries = a.retries

/-- The elementary effects of the commands. `free` says whether new settings may be put in force among them:
the step that an apply makes first, after which the budget is not yet clamped (R89). `meas` says whether
Measurement Intake may be written among them, and `stor` whether the Settings Unit may. -/
inductive Effect (free meas stor : Prop) : State → State → Prop
  | machinery {s t : State} (a : Atom s t) : Effect free meas stor s t
  | intake (s : State) (allowed : meas) (m : Intake) : Effect free meas stor s { s with mi := m }
  | harmonics (s : State) (h : Harmonics) : Effect free meas stor s { s with hsv := h }
  | router (s : State) (e : Router) : Effect free meas stor s { s with evr := e }
  | link (s : State) (h : HostLink) : Effect free meas stor s { s with hlk := h }
  | store (s : State) (allowed : stor) (u : SettingsUnit) (same : u.active = s.su.active) :
      Effect free meas stor s { s with su := u }
  | settings (s : State) (allowed : free) (also : stor) (u : SettingsUnit) :
      Effect free meas stor s { s with su := u }
  | regulator (s : State) (v : Regulator)
      (hold : s.holdSound → (v.reg = .hold ↔ (v.mode ≠ .auto ∨ v.holds.any = true))) :
      Effect free meas stor s { s with vrg := v }
  | unbalance (s : State) (u : Unbalance)
      (stages : ∀ i, (s.step i).position ≠ .closed → StagesOff (s.ub i) → StagesOff (u.steps.get i)) :
      Effect free meas stor s { s with ubp := u }
  | switching (s : State) (w : Switching) (queue : w.queue = s.swu.queue) (slot : w.slot = s.swu.slot)
      (steps : ∀ i, SameSw (s.sw i) (w.steps.get i)) : Effect free meas stor s { s with swu := w }
  | cooldown (s : State) (c : Cooldown)
      (duty : ∀ i, (s.cd i).duty ≤ Config.dutyMax → (c.steps.get i).duty ≤ Config.dutyMax)
      (budget : c.budget ≤ s.cdu.budget) : Effect free meas stor s { s with cdu := c }
  | table (s : State) (t : StepTable) (ring : t.ring = s.st.ring) (service : t.service = s.st.service)
      (steps : ∀ i, SameStep (s.step i) (t.steps.get i)) : Effect free meas stor s { s with st := t }
  | position (s : State) (i : StepIx) (p : Position) : Effect free meas stor s (putPosition i p s)
  | cause (s : State) (i : StepIx) (out : (s.step i).state = .lockedOut) :
      Effect free meas stor s (s.onStep i (fun r => { r with cause := some .failToOpen }))
  | retries (s : State) (i : StepIx) (n : Nat) (failed : (s.step i).cause = some .failToOpen) :
      Effect free meas stor s (s.onSw i (fun r => { r with retries := some n }))

variable {free meas stor : Prop}

/-- A run of effects. -/
def Run (free meas stor : Prop) (s t : State) : Prop := Relation.ReflTransGen (Effect free meas stor) s t

theorem Run.refl (s : State) : Run free meas stor s s := Relation.ReflTransGen.refl

theorem Run.trans {s t u : State} (h : Run free meas stor s t) (k : Run free meas stor t u) : Run free meas stor s u :=
  Relation.ReflTransGen.trans h k

theorem Run.single {s t : State} (h : Effect free meas stor s t) : Run free meas stor s t := Relation.ReflTransGen.single h

/-- A chain of the machinery is a run. -/
theorem Chain.run {s t : State} (h : Chain s t) : Run free meas stor s t := by
  induction h with
  | refl => exact .refl s
  | tail _ a ih => exact ih.trans (.single (.machinery a))

/-- A run, then a chain. -/
theorem Run.chain {s t u : State} (h : Run free meas stor s t) (k : Chain t u) : Run free meas stor s u := h.trans k.run

/-- A run, then one effect. -/
theorem Run.then_ {s t u : State} (h : Run free meas stor s t) (k : Effect free meas stor t u) : Run free meas stor s u :=
  h.trans (.single k)

theorem Run.ite {s t u : State} {c : Prop} [Decidable c] (h : c → Run free meas stor s t) (k : ¬c → Run free meas stor s u) :
    Run free meas stor s (if c then t else u) := by
  split
  · exact h ‹_›
  · exact k ‹_›

/-- A fold of runs is a run. -/
theorem Run.foldl {α : Type} (f : State → α → State) (h : ∀ s a, Run free meas stor s (f s a)) (xs : List α)
    (s : State) : Run free meas stor s (xs.foldl f s) := by
  induction xs generalizing s with
  | nil => exact .refl s
  | cons a as ih => exact (h s a).trans (ih (f s a))

/-- What every effect keeps, a run keeps. -/
theorem Run.keeps {P : State → Prop} (h : ∀ s t, Effect free meas stor s t → P s → P t) {s t : State}
    (c : Run free meas stor s t) (p : P s) : P t := by
  induction c with
  | refl => exact p
  | tail _ a ih => exact h _ _ a ih

/-- A run that may not write Measurement Intake leaves it as it was. -/
theorem Run.mi {s t : State} (c : Run free False stor s t) : t.mi = s.mi := by
  refine Run.keeps (P := fun x => x.mi = s.mi) (fun a b e h => ?_) c rfl
  cases e with
  | machinery m => exact m.mi.trans h
  | intake k => exact k.elim
  | position i p => unfold putPosition; simp only; split <;> exact h
  | _ => exact h

/-- A run that may not write the Settings Unit leaves it as it was. -/
theorem Run.su {s t : State} (c : Run free meas False s t) : t.su = s.su := by
  refine Run.keeps (P := fun x => x.su = s.su) (fun a b e h => ?_) c rfl
  cases e with
  | machinery m => exact m.su.trans h
  | store k => exact k.elim
  | settings _ k => exact k.elim
  | position i p => unfold putPosition; simp only; split <;> exact h
  | _ => exact h

/-- No run changes the timebase, the queue of commands, or whether a reset is held. -/
theorem Run.outside {s t : State} (c : Run free meas stor s t) :
    t.now = s.now ∧ t.pending = s.pending ∧ t.resetHeld = s.resetHeld := by
  refine Run.keeps (P := fun x => x.now = s.now ∧ x.pending = s.pending ∧ x.resetHeld = s.resetHeld)
    (fun a b e h => ?_) c ⟨rfl, rfl, rfl⟩
  cases e with
  | machinery m => exact ⟨m.now.trans h.1, m.pending.trans h.2.1, m.resetHeld.trans h.2.2⟩
  | position i p => unfold putPosition; simp only; split <;> exact h
  | _ => exact h

/-! ### Coils (R60) -/

theorem Atom.coilsSafe {s t : State} (a : Atom s t) (h : s.coilsSafe) : t.coilsSafe := by
  have put : ∀ (i : StepIx) (w : SwuStep), CoilsOk w →
      ∀ j, CoilsOk ((Tab.put s.swu.steps i w).get j) := by
    intro i w hw j
    rw [Tab.get_put]
    split
    · exact hw
    · exact h j
  cases a with
  | executor i w coils => exact put i w (coils (h i))
  | dispatch i o n => exact put i _ (h i)
  | move i => exact put i _ (h i)
  | _ => exact h

theorem Effect.coilsSafe {s t : State} (a : Effect free meas stor s t) (h : s.coilsSafe) : t.coilsSafe := by
  cases a with
  | machinery a => exact a.coilsSafe h
  | switching w q l k =>
    intro i
    obtain ⟨_, h1, h2, h3, _⟩ := k i
    show ¬((w.steps.get i).closeCoil = true ∧ ((w.steps.get i).tripA = true ∨ (w.steps.get i).tripB = true))
      ∧ (w.steps.get i).tripA = (w.steps.get i).tripB
    rw [h1, h2, h3]
    exact h i
  | position i p =>
    unfold putPosition
    simp only
    split <;> exact h
  | retries i n k =>
    intro j
    show CoilsOk ((s.onSw i _).sw j)
    rw [onSw_sw]
    split
    · exact h i
    · exact h j
  | _ => exact h

/-! ### The lists (R41) -/

/-- A list that leaves its old state's place and enters its new one's. -/
theorem move_list {xs : List StepIx} {i : StepIx} {old new at_ : StepState} (st : StepIx → StepState)
    (hi : st i = old) (nd : xs.Nodup) (mem : ∀ j, j ∈ xs ↔ st j = at_) :
    let ys := if old = at_ then xs.filter (· ≠ i) else xs
    let zs := if new = at_ then ys ++ [i] else ys
    zs.Nodup ∧ ∀ j, j ∈ zs ↔ (if j = i then new else st j) = at_ := by
  intro ys zs
  have hy : ys.Nodup ∧ ∀ j, j ∈ ys ↔ j ≠ i ∧ st j = at_ := by
    by_cases ho : old = at_
    · simp only [ys, if_pos ho]
      exact ⟨nd.filter _, fun j => by simp [mem j]; tauto⟩
    · simp only [ys, if_neg ho]
      refine ⟨nd, fun j => ?_⟩
      rw [mem j]
      refine ⟨fun h => ⟨?_, h⟩, (·.2)⟩
      rintro rfl
      exact ho (hi ▸ h)
  by_cases hn : new = at_
  · simp only [zs, if_pos hn]
    refine ⟨?_, fun j => ?_⟩
    · rw [List.nodup_append]
      refine ⟨hy.1, by simp, fun a ha b hb => ?_⟩
      have : b = i := by simpa using hb
      subst this
      exact ((hy.2 a).mp ha).1
    · rw [List.mem_append, hy.2 j]
      by_cases hj : j = i <;> simp [hj, hn]
  · simp only [zs, if_neg hn]
    refine ⟨hy.1, fun j => ?_⟩
    rw [hy.2 j]
    by_cases hj : j = i <;> simp [hj, hn]

theorem Atom.listsAgree {s t : State} (a : Atom s t) (h : s.listsAgree) : t.listsAgree := by
  cases a with
  | move i new b c =>
    obtain ⟨h1, h2, h3, h4⟩ := h
    have r := move_list (i := i) (new := new) (at_ := .ready) (fun j => (s.step j).state) rfl h1 h3
    have v := move_list (i := i) (new := new) (at_ := .energized) (fun j => (s.step j).state) rfl h2 h4
    have e : ∀ j, (((s.onSt (fun t => t.move i new b c s.uptime)).onSw i
        (fun r => { r with retries := none })).step j).state
        = if j = i then new else (s.step j).state := by
      intro j
      show ((s.st.move i new b c s.uptime).steps.get j).state = _
      rw [StepTable.move_get]
      split <;> rfl
    refine ⟨r.1, v.1, fun j => ?_, fun j => ?_⟩
    · rw [e j]; exact r.2 j
    · rw [e j]; exact v.2 j
  | _ => exact h

/-- The lists agree wherever they and the states are the same. -/
theorem listsAgree_same {s t : State} (r : t.st.ring = s.st.ring) (v : t.st.service = s.st.service)
    (k : ∀ i, (t.step i).state = (s.step i).state) (h : s.listsAgree) : t.listsAgree := by
  unfold State.listsAgree at *
  simp only [r, v, k]
  exact h

theorem putPosition_steps (i j : StepIx) (p : Position) (s : State) :
    (putPosition i p s).step j = if j = i then (s.step i).takePosition p else s.step j := by
  unfold putPosition
  simp only
  split <;> simp

theorem Effect.listsAgree {s t : State} (a : Effect free meas stor s t) (h : s.listsAgree) : t.listsAgree := by
  cases a with
  | machinery a => exact a.listsAgree h
  | table t r v k => exact listsAgree_same r v (fun i => (k i).1) h
  | position i p =>
    refine listsAgree_same ?_ ?_ (fun j => ?_) h
    · unfold putPosition; simp only; split <;> rfl
    · unfold putPosition; simp only; split <;> rfl
    · rw [putPosition_steps]; split
      · subst_vars; rfl
      · rfl
  | cause i =>
    refine listsAgree_same (s := s) rfl rfl (fun j => ?_) h
    rw [onStep_step]
    split
    · subst_vars; rfl
    · rfl
  | _ => exact h

/-! ### The queue (R47) -/

theorem Effect.queueSound {s t : State} (a : Effect free meas stor s t) (h : s.queueSound) : t.queueSound := by
  cases a with
  | machinery a =>
    cases a with
    | queue q k => exact k h
    | _ => exact h
  | switching w q =>
    unfold State.queueSound at *
    show (w.queue.map (·.step)).Nodup ∧ (∀ e ∈ w.queue, e.origin ≠ .protection)
      ∧ w.queue.Pairwise Entry.before
    rw [q]; exact h
  | position i p =>
    unfold putPosition
    simp only
    split <;> exact h
  | _ => exact h

/-! ### The slot (R50) -/

/-- The slot is sound where it and the records are as they were to it. -/
theorem slotSound_same {s t : State} (l : t.swu.slot = s.swu.slot)
    (k : ∀ i, SameOp (s.sw i).op (t.sw i).op) (h : s.slotSound) : t.slotSound := by
  intro i p hp
  rcases k i with e | ⟨o, p', ho, hp', e1, e2⟩
  · rw [e] at hp; cases hp
  · rw [hp'] at hp
    cases hp
    rw [e1, e2, l]
    exact h i o ho

theorem Atom.slotSound {s t : State} (a : Atom s t) (h : s.slotSound) : t.slotSound := by
  cases a with
  | executor i w _ op =>
    refine slotSound_same (s := s) rfl (fun j => ?_) h
    show SameOp _ ((Tab.put s.swu.steps i w).get j).op
    rw [Tab.get_put]
    split
    · subst_vars; exact op
    · exact .refl _
  | freeSlot i held gone =>
    intro j p hp
    obtain ⟨k1, k2⟩ := h j p hp
    refine ⟨k1, fun hs => ?_⟩
    have : j = i := by
      have := k2 hs
      rw [held] at this
      exact (Option.some.inj this).symm
    subst this
    have hp' : (s.sw j).op = some p := hp
    rw [gone] at hp'
    cases hp'
  | dispatch i o n free slot holds =>
    intro j p hp
    have hp' : ((Tab.put s.swu.steps i { s.sw i with op := some o, opCount := n }).get j).op = some p := hp
    rw [Tab.get_put] at hp'
    by_cases hj : j = i
    · rw [if_pos hj] at hp'
      cases hp'
      refine ⟨holds, fun hs => ?_⟩
      show (if o.origin = .protection then s.swu.slot else some i) = some j
      rw [if_neg (holds.mp hs), hj]
    · rw [if_neg hj] at hp'
      obtain ⟨k1, k2⟩ := h j p hp'
      refine ⟨k1, fun hs => ?_⟩
      show (if o.origin = .protection then s.swu.slot else some i) = some j
      split
      · exact k2 hs
      · next ho =>
        have := k2 hs
        rw [slot ho] at this
        cases this
  | move i =>
    refine slotSound_same (s := s) rfl (fun j => ?_) h
    show SameOp _ ((s.onSw i _).sw j).op
    rw [onSw_sw]
    split
    · subst_vars; exact .refl _
    · exact .refl _
  | _ => exact h

theorem Effect.slotSound {s t : State} (a : Effect free meas stor s t) (h : s.slotSound) : t.slotSound := by
  cases a with
  | machinery a => exact a.slotSound h
  | switching w q l k =>
    refine slotSound_same (s := s) l (fun i => ?_) h
    show SameOp _ (w.steps.get i).op
    rw [(k i).1]; exact .refl _
  | position i p =>
    unfold putPosition
    simp only
    split <;> exact h
  | retries i n =>
    refine slotSound_same (s := s) rfl (fun j => ?_) h
    rw [onSw_sw]
    split
    · subst_vars; exact .refl _
    · exact .refl _
  | _ => exact h

/-! ### The fields that follow the state (R21, R68) -/

/-- The fields of one step follow its state. -/
def Follows (r : StepRec) (w : SwuStep) : Prop :=
  (r.cause.isSome = true ↔ r.state = .lockedOut) ∧ (r.energizedAt.isSome = true ↔ r.state = .energized)
    ∧ (r.basis.isSome = true ↔ r.state = .discharging) ∧ (w.retries.isSome = true → r.cause = some .failToOpen)

theorem Follows.same {r r' : StepRec} {w w' : SwuStep} (k : SameStep r r') (l : w'.retries = w.retries)
    (h : Follows r w) : Follows r' w' := by
  obtain ⟨k1, _, k3, k4, k5⟩ := k
  unfold Follows
  rw [k1, k3, k4, k5, l]
  exact h

theorem SameStep.refl (r : StepRec) : SameStep r r := ⟨rfl, rfl, rfl, rfl, rfl⟩

theorem Atom.fieldsFollow {s t : State} (a : Atom s t) (h : s.fieldsFollow) : t.fieldsFollow := by
  cases a with
  | executor i w _ _ rt =>
    intro j
    refine Follows.same (.refl _) ?_ (h j)
    show ((Tab.put s.swu.steps i w).get j).retries = _
    rw [Tab.get_put]
    split
    · subst_vars; exact rt
    · rfl
  | dispatch i o n =>
    intro j
    refine Follows.same (.refl _) ?_ (h j)
    show ((Tab.put s.swu.steps i _).get j).retries = _
    rw [Tab.get_put]
    split
    · subst_vars; rfl
    · rfl
  | move i new b c =>
    intro j
    show Follows ((s.st.move i new b c s.uptime).steps.get j) ((s.onSw i _).sw j)
    rw [StepTable.move_get, onSw_sw]
    by_cases hj : j = i
    · rw [if_pos hj, if_pos hj]
      refine ⟨?_, ?_, ?_, fun k => by cases k⟩
      · by_cases hn : new = .lockedOut <;> simp [StepRec.move, hn]
      · by_cases hn : new = .energized <;> simp [StepRec.move, hn]
      · by_cases hn : new = .discharging <;> simp [StepRec.move, hn]
    · rw [if_neg hj, if_neg hj]
      exact h j
  | _ => exact h

theorem Effect.fieldsFollow {s t : State} (a : Effect free meas stor s t) (h : s.fieldsFollow) : t.fieldsFollow := by
  cases a with
  | machinery a => exact a.fieldsFollow h
  | switching w q l k => exact fun i => Follows.same (.refl _) (k i).2.2.2.2 (h i)
  | table t r v k => exact fun i => Follows.same (k i) rfl (h i)
  | position i p =>
    intro j
    have e : ((putPosition i p s).sw j).retries = (s.sw j).retries := by
      unfold putPosition; simp only; split <;> rfl
    show Follows _ _
    rw [putPosition_steps]
    split
    · subst_vars
      have hj := h j
      unfold Follows StepRec.takePosition
      rw [e]; exact hj
    · unfold Follows
      rw [e]; exact h j
  | cause i out =>
    intro j
    show Follows ((s.onStep i _).step j) (s.sw j)
    rw [onStep_step]
    split
    · subst_vars
      obtain ⟨_, h2, h3, _⟩ := h j
      exact ⟨by simp [out], h2, h3, fun _ => rfl⟩
    · exact h j
  | retries i n failed =>
    intro j
    show Follows (s.step j) ((s.onSw i _).sw j)
    rw [onSw_sw]
    split
    · subst_vars
      obtain ⟨h1, h2, h3, _⟩ := h j
      exact ⟨h1, h2, h3, fun _ => failed⟩
    · exact h j
  | _ => exact h

/-! ### The hold (R94, R95) -/

theorem Effect.holdSound {s t : State} (a : Effect free meas stor s t) (h : s.holdSound) : t.holdSound := by
  cases a with
  | machinery a =>
    cases a with
    | regulator r tg b x n k => exact k.trans h
    | hold g r tg b x k => exact k
    | _ => exact h
  | regulator v k => exact k h
  | position i p =>
    unfold putPosition
    simp only
    split <;> exact h
  | _ => exact h

/-! ### The unbalance stages (R141) -/

/-- The stages are sound wherever the positions and the records are the same. -/
theorem stagesSound_same {s t : State} (p : ∀ i, (t.step i).position = (s.step i).position)
    (u : t.ubp.steps = s.ubp.steps) (h : s.stagesSound) : t.stagesSound := by
  intro i hi
  have e : t.ub i = s.ub i := by unfold State.ub; rw [u]
  rw [e]
  exact h i (p i ▸ hi)

theorem Effect.stagesSound {s t : State} (a : Effect free meas stor s t) (h : s.stagesSound) : t.stagesSound := by
  cases a with
  | machinery a => exact stagesSound_same (fun i => (a.position i).1) a.ub h
  | unbalance u k => exact fun i hi => k i hi (h i hi)
  | table t r v k => exact stagesSound_same (fun i => (k i).2.1) rfl h
  | position i p =>
    intro j hj
    rw [putPosition_steps] at hj
    have e : (putPosition i p s).ub j
        = if j = i ∧ (s.step i).position = .closed then (s.ub i).resetStages else s.ub j := by
      unfold putPosition
      simp only
      by_cases hc : (s.step i).position = .closed
      · rw [if_pos hc]
        simp only [onStep_ub, onUb_ub, hc, and_true]
      · rw [if_neg hc]
        simp [hc]
    rw [e]
    by_cases hji : j = i
    · by_cases hc : (s.step i).position = .closed
      · rw [if_pos ⟨hji, hc⟩]
        exact ⟨rfl, rfl, rfl⟩
      · rw [if_neg (fun x => hc x.2)]
        subst hji
        exact h j hc
    · rw [if_neg (fun x => hji x.1)]
      rw [if_neg hji] at hj
      exact h j hj
  | cause i =>
    refine stagesSound_same (s := s) (fun j => ?_) rfl h
    rw [onStep_step]
    split
    · subst_vars; rfl
    · rfl
  | _ => exact h

/-! ### The levels (R81, R86) -/

theorem Effect.levelsSound {s t : State} (a : Effect False meas stor s t) (h : s.levelsSound) : t.levelsSound := by
  cases a with
  | machinery a =>
    cases a with
    | cooldown c duty budget =>
      refine ⟨fun i => duty i (h.1 i), ?_⟩
      show c.budget ≤ s.y .yardLimit
      rcases budget with e | ⟨e, k⟩
      · rw [e]; exact h.2
      · have : ¬(s.y .yardLimit ≤ s.cdu.budget) := by simpa [State.budgetExhausted] using k
        omega
    | _ => exact h
  | settings f _ => exact f.elim
  | store _ u same =>
    refine ⟨h.1, ?_⟩
    show s.cdu.budget ≤ u.active.y .yardLimit
    rw [same]; exact h.2
  | cooldown c duty budget => exact ⟨fun i => duty i (h.1 i), Nat.le_trans budget h.2⟩
  | position i p =>
    unfold putPosition
    simp only
    split <;> exact h
  | _ => exact h

end Sys2Proof.Machine
end

