-- ==== Sys2Proof/Laws/Commands.lean ====
section
/-! SUPPORT. What each command's meaning can do: every one but a reset is a run of the effects of
Laws/Effect.lean. -/

namespace Sys2Proof.Machine

variable {free meas stor : Prop}

/-! ### Updates of one block as runs -/

theorem onMi_run (f : Intake → Intake) (s : State) : Run free True stor s (s.onMi f) := .single (.intake s trivial _)

theorem onHsv_run (f : Harmonics → Harmonics) (s : State) : Run free meas stor s (s.onHsv f) :=
  .single (.harmonics s _)

theorem onQty_run (q : QtyIx) (f : Quantity → Quantity) (s : State) : Run free meas stor s (s.onQty q f) :=
  onHsv_run _ s

theorem onEvr_run (f : Router → Router) (s : State) : Run free meas stor s (s.onEvr f) := .single (.router s _)

theorem onHlk_run (f : HostLink → HostLink) (s : State) : Run free meas stor s (s.onHlk f) := .single (.link s _)

theorem onLink_run (l : Link) (f : LinkRec → LinkRec) (s : State) : Run free True stor s (s.onLink l f) := by
  cases l
  · exact onMi_run (fun m => { m with linkA := f m.linkA }) s
  · exact onMi_run (fun m => { m with linkB := f m.linkB }) s

theorem onSu_run (f : SettingsUnit → SettingsUnit) (s : State) (h : (f s.su).active = s.su.active) :
    Run free meas True s (s.onSu f) := .single (.store s trivial _ h)

/-- A change of the Voltage Regulator outside its state, its mode and its hold causes. -/
theorem onVrg_run (f : Regulator → Regulator) (s : State)
    (h : (f s.vrg).reg = s.vrg.reg ∧ (f s.vrg).mode = s.vrg.mode ∧ (f s.vrg).holds = s.vrg.holds) :
    Run free meas stor s (s.onVrg f) := by
  refine .single (.regulator s _ (fun k => ?_))
  rw [h.1, h.2.1, h.2.2]
  exact k

theorem onVr_run (i : StepIx) (f : VrgStep → VrgStep) (s : State) : Run free meas stor s (s.onVr i f) :=
  onVrg_run _ s ⟨rfl, rfl, rfl⟩

/-- A change of the unbalance records that leaves what is off, off. -/
theorem onUbp_run (f : Unbalance → Unbalance) (s : State)
    (h : ∀ i, (s.step i).position ≠ .closed → StagesOff (s.ub i) → StagesOff ((f s.ubp).steps.get i)) :
    Run free meas stor s (s.onUbp f) := .single (.unbalance s _ h)

theorem onUb_run (i : StepIx) (f : UbpStep → UbpStep) (s : State)
    (h : StagesOff (s.ub i) → StagesOff (f (s.ub i))) : Run free meas stor s (s.onUb i f) := by
  refine onUbp_run _ s (fun j _ k => ?_)
  show StagesOff ((Tab.upd s.ubp.steps i f).get j)
  rw [Tab.get_upd]
  split
  · subst_vars; exact h k
  · exact k

/-- A change of the Switching Unit outside the queue, the slot and the records. -/
theorem onSwu_run (f : Switching → Switching) (s : State)
    (h : (f s.swu).queue = s.swu.queue ∧ (f s.swu).slot = s.swu.slot ∧ (f s.swu).steps = s.swu.steps) :
    Run free meas stor s (s.onSwu f) := by
  refine .single (.switching s _ h.1 h.2.1 (fun i => ?_))
  rw [h.2.2]
  exact ⟨rfl, rfl, rfl, rfl, rfl⟩

theorem onSw_run (i : StepIx) (f : SwuStep → SwuStep) (s : State) (h : SameSw (s.sw i) (f (s.sw i))) :
    Run free meas stor s (s.onSw i f) := by
  refine .single (.switching s _ rfl rfl (fun j => ?_))
  show SameSw (s.sw j) ((Tab.upd s.swu.steps i f).get j)
  rw [Tab.get_upd]
  split
  · subst_vars; exact h
  · exact ⟨rfl, rfl, rfl, rfl, rfl⟩

/-- A change of the Cooldown Unit that raises no level past its range, nor the budget. -/
theorem onCdu_run (f : Cooldown → Cooldown) (s : State)
    (duty : ∀ i, (s.cd i).duty ≤ Config.dutyMax → ((f s.cdu).steps.get i).duty ≤ Config.dutyMax)
    (budget : (f s.cdu).budget ≤ s.cdu.budget) : Run free meas stor s (s.onCdu f) := .single (.cooldown s _ duty budget)

/-- A change of the Step Table outside the lists and what they and the fields follow. -/
theorem onSt_run (f : StepTable → StepTable) (s : State) (ring : (f s.st).ring = s.st.ring)
    (service : (f s.st).service = s.st.service) (steps : ∀ i, SameStep (s.step i) ((f s.st).steps.get i)) :
    Run free meas stor s (s.onSt f) := .single (.table s _ ring service steps)

theorem onStep_run (i : StepIx) (f : StepRec → StepRec) (s : State)
    (h : SameStep (s.step i) (f (s.step i))) : Run free meas stor s (s.onStep i f) := by
  refine onSt_run _ s rfl rfl (fun j => ?_)
  show SameStep (s.step j) ((Tab.upd s.st.steps i f).get j)
  rw [Tab.get_upd]
  split
  · subst_vars; exact h
  · exact ⟨rfl, rfl, rfl, rfl, rfl⟩

/-! The same for a state of which it is known that it differs in one block alone. -/

theorem miRun {s t : State} (h : t = { s with mi := t.mi }) : Run free True stor s t := by
  rw [h]; exact .single (.intake s trivial _)

theorem hsvRun {s t : State} (h : t = { s with hsv := t.hsv }) : Run free meas stor s t := by
  rw [h]; exact .single (.harmonics s _)

theorem evrRun {s t : State} (h : t = { s with evr := t.evr }) : Run free meas stor s t := by
  rw [h]; exact .single (.router s _)

theorem hlkRun {s t : State} (h : t = { s with hlk := t.hlk }) : Run free meas stor s t := by
  rw [h]; exact .single (.link s _)

theorem suRun {s t : State} (h : t = { s with su := t.su }) (k : t.su.active = s.su.active) :
    Run free meas True s t := by
  rw [h]; exact .single (.store s trivial _ k)

theorem ubpRun {s t : State} (h : t = { s with ubp := t.ubp })
    (k : ∀ i, (s.step i).position ≠ .closed → StagesOff (s.ub i) → StagesOff (t.ub i)) : Run free meas stor s t := by
  rw [h]; exact .single (.unbalance s _ k)

/-! ### The position monitor -/

theorem startArming_run (i : StepIx) (s : State) : Run free meas stor s (startArming i s) :=
  .ite (fun _ => onUb_run i _ s id) (fun _ => .refl s)

theorem arm_run (i : StepIx) (s : State) : Run free meas stor s (arm i s) := onUb_run i _ s id

theorem ubpPosition_run (i : StepIx) (old new : Position) (arms : Bool) (s : State) :
    Run free meas stor s (ubpPosition i old new arms s) := by
  unfold ubpPosition
  simp only
  generalize h1 : (if old = Position.closed then _ else s : State) = s1
  have c1 : Run free meas stor s s1 := by
    rw [← h1]
    exact .ite (fun _ => ((unbCondition_chain ..).trans (abortCaptureOf_chain ..)).run) (fun _ => .refl s)
  clear h1
  generalize h2 : (if new = Position.opened then _ else s1 : State) = s2
  have c2 : Run free meas stor s s2 := by
    rw [← h2]
    exact .ite (fun _ => c1.trans (onUb_run i _ s1 id)) (fun _ => c1)
  exact .ite (fun _ => c2.trans (startArming_run ..)) (fun _ => c2)

theorem swuPosition_run (i : StepIx) (new : Position) (s : State) : Run free meas stor s (swuPosition i new s) := by
  unfold swuPosition
  simp only
  generalize h1 : (if new = Position.opened ∧ (s.sw i).breakerFail = true then _ else s : State) = s1
  have c1 : Run free meas stor s s1 := by
    rw [← h1]
    refine .ite (fun _ => ?_) (fun _ => .refl s)
    exact (onSw_run i _ s ⟨rfl, rfl, rfl, rfl, rfl⟩).chain (breakerCondition_chain ..)
  split
  · exact c1
  · exact .ite (fun _ => c1.chain (opSuccess_chain ..)) (fun _ => c1)

theorem uncommanded_run (i : StepIx) (new : Position) (s : State) : Run free meas stor s (uncommanded i new s) := by
  have moved : ∀ t, Run free meas stor s t → Run free meas stor s (dispatcher (overtake i t)) :=
    fun t h => h.chain ((overtake_chain ..).trans (dispatcher_chain _))
  unfold uncommanded
  simp only
  split
  · exact moved _ ((toDischarging_chain ..).trans (positionNotice_chain ..)).run
  · exact moved _ (((toEnergized_chain ..).trans (positionNotice_chain ..)).run.trans (startArming_run ..))
  · exact moved _ ((positionNotice_chain ..).trans (lockOut_chain ..)).run
  · exact moved _ ((positionNotice_chain ..).trans (lockOut_chain ..)).run
  · exact moved _ ((positionNotice_chain ..).trans (lockOut_chain ..)).run
  · exact moved _ ((positionNotice_chain ..).trans (lockOut_chain ..)).run
  · exact .refl s

theorem rebuildStep_run (i : StepIx) (s : State) : Run free meas stor s (rebuildStep i s) := by
  unfold rebuildStep
  refine .ite (fun _ => ?_) (fun _ => .refl s)
  split
  · exact (toEnergized_chain i s).run.trans (onUb_run i _ _ id)
  · exact (lockOut_chain ..).run
  · exact .ite (fun _ => .refl s) (fun _ => (toDischarging_chain ..).run)

theorem rebuild_run (s : State) : Run free meas stor s (rebuild s) := by
  have c1 : Run free meas stor s (s.onSt (fun t => { t with rebuilt := true })) :=
    onSt_run _ s rfl rfl (fun i => .refl _)
  unfold rebuild
  simp only
  have c2 := c1.trans (Run.foldl (fun t i => rebuildStep i t) (fun t i => rebuildStep_run i t) allSteps _)
  refine c2.trans ?_
  generalize allSteps.foldl (fun t i => rebuildStep i t) _ = r
  exact .single (.cooldown r _ (fun _ => id) (Nat.le_refl _))

theorem rebuildIfDue_run (s : State) : Run free meas stor s (rebuildIfDue s) :=
  .ite (fun _ => rebuild_run s) (fun _ => .refl s)

theorem positionChange_run (i : StepIx) (new : Position) (s : State) :
    Run free meas stor s (positionChange i new s) := by
  unfold positionChange
  simp only
  split
  · exact .refl s
  · refine Run.trans ?_ (rebuildIfDue_run _)
    have c1 : Run free meas stor s (putPosition i new s) := .single (.position s i new)
    refine .ite (fun _ => Run.trans ?_ (uncommanded_run ..)) (fun _ => ?_)
    all_goals
      refine Run.trans (Run.trans ?_ (ubpPosition_run ..)) (swuPosition_run ..)
      exact .ite (fun _ => c1.chain (loadDischarge_chain ..)) (fun _ => c1)

theorem decodePosition_run (i : StepIx) (s : State) : Run free meas stor s (decodePosition i s) := by
  unfold decodePosition
  simp only
  split
  · exact (onStep_run i _ s (.refl _)).trans (positionChange_run ..)
  · exact .ite (fun _ => (onStep_run i _ s (.refl _)).trans (positionChange_run ..)) (fun _ => .refl s)

theorem toUnknown_run (i : StepIx) (s : State) : Run free meas stor s (toUnknown i s) :=
  (onStep_run i _ s (.refl _)).trans (positionChange_run ..)

theorem onContact_same (r : StepRec) (c : Contact) (f : ContactIn → ContactIn) :
    SameStep r (r.onContact c f) := by cases c <;> exact .refl _

theorem takeLevels_run (i : StepIx) (s : State) : Run free meas stor s (takeLevels i s) :=
  (onStep_run i _ s (.refl _)).trans (decodePosition_run ..)

theorem endDebounce_run (s : State) : Run free meas stor s (endDebounce s) := by
  refine Run.trans (onSt_run _ s rfl rfl (fun i => ?_)) (rebuildIfDue_run _)
  show SameStep _ ((Tab.build _).get i)
  rw [Tab.get_build]
  simp only
  split <;> exact .refl _

/-! ### Operations, orders and the settled event -/

/-- A lockout writes its cause. -/
theorem lockOut_cause (i : StepIx) (c : Cause) (s : State) : ((lockOut i c s).step i).cause = some c := by
  have keep : ∀ {a b : State}, (b.st = a.st) → (b.step i).cause = (a.step i).cause := by
    intro a b h; unfold State.step; rw [h]
  have dl : ∀ (k : Kind) (r : OpResult) (qs : List Requester) (a : State), (deliverAll i k r qs a).st = a.st := by
    intro k r qs
    induction qs with
    | nil => exact fun _ => rfl
    | cons q qs ih =>
      intro a
      show (deliverAll i k r qs (deliver i k r q a)).st = _
      rw [ih]; cases q <;> rfl
  have ab : ∀ a : State, (abortCaptureOf i a).st = a.st := by
    intro a
    unfold abortCaptureOf
    split
    · rfl
    · split
      · unfold abortCapture; split <;> rfl
      · rfl
  have wd : ∀ a : State, (withdrawStep i a).st = a.st := by
    intro a
    unfold withdrawStep
    split
    · rfl
    · rw [dl]; rfl
  have mv : ((moveStep i .lockedOut .own c s).step i).cause = some c := by
    unfold moveStep
    simp only
    have h : (((s.onSt (fun t => t.move i .lockedOut .own c s.uptime)).onSw i
        (fun r => { r with retries := none })).step i).cause = some c := by
      show ((s.st.move i .lockedOut .own c s.uptime).steps.get i).cause = _
      rw [StepTable.move_get, if_pos rfl]
      rfl
    split
    · rw [keep (ab _)]; exact h
    · exact h
  unfold lockOut
  rw [keep (show (raiseNotice _ _ _ _ _).st = (withdrawStep i (moveStep i .lockedOut .own c s)).st from ab _),
    keep (wd _)]
  exact mv

theorem stFailure_run (i : StepIx) (o : OpRecord) (s : State) : Run free meas stor s (stFailure i o s) := by
  unfold stFailure
  split
  · exact (lockOut_chain ..).run
  · exact (lockOut_chain ..).run.then_ (.retries _ i 0 (lockOut_cause ..))
  · next h =>
    refine .ite (fun _ => ?_) (fun _ => .refl s)
    refine Run.chain (Run.then_ (.single (.cause s i h)) (.retries _ i 0 ?_)) (raiseNotice_chain ..)
    simp
  · exact .refl s

theorem tripRetry_run (i : StepIx) (o : OpRecord) (b : Bool) (s : State) :
    Run free meas stor s (tripRetry i o b s) := by
  unfold tripRetry
  refine .ite (fun h => ?_) (fun _ => .refl s)
  simp only
  refine .ite (fun _ => ?_) (fun _ => ?_)
  · exact (Run.single (.retries s i _ h.2.2.1)).chain (takeProtection_chain ..)
  · exact (onSw_run i _ s ⟨rfl, rfl, rfl, rfl, rfl⟩).chain (breakerCondition_chain ..)

theorem opFail_run (i : StepIx) (s : State) : Run free meas stor s (opFail i s) := by
  unfold opFail
  split
  · exact .refl s
  · next o h =>
    simp only
    have c1 := ((coilsOff_chain i s).run (free := free) (meas := meas) (stor := stor)).trans
      (onSw_run i (fun r => { r with lastResult := some .failToOperate }) _ ⟨rfl, rfl, rfl, rfl, rfl⟩)
    have c3 := c1.chain (((deliverAll_chain i o.kind .failToOperate o.requesters _).trans
      (raiseNotice_chain .opFail (some i) o.kind.code 0 _)).trans (pulse_chain .opFail _))
    have c4 := (c3.chain (removeOp_chain i _)).trans (stFailure_run i o _)
    refine Run.chain (Run.trans ?_ (tripRetry_run ..)) (dispatcher_chain _)
    exact .ite (fun _ => c4.chain (loadDischarge_chain ..)) (fun _ => c4)

theorem pulseEnds_run (i : StepIx) (s : State) : Run free meas stor s (pulseEnds i s) := by
  refine .ite (fun _ => opFail_run i s) (fun _ => ?_)
  refine Chain.run ((coilsOff_chain i s).trans (onSw_chain i _ _ id ?_ rfl rfl))
  cases h : ((coilsOff i s).sw i).op with
  | none => exact .inl (by simp)
  | some o => exact .inr ⟨o, _, rfl, rfl, rfl, rfl⟩

theorem learn_run (i : StepIx) (o : OpRecord) (post : Option Snapshot) (s : State) :
    Run free meas stor s (learn i o post s) := by
  unfold learn
  split
  · exact .ite (fun _ => onVr_run ..) (fun _ => .refl s)
  · exact .refl s

theorem attribute_run (i : StepIx) (o : OpRecord) (post : Option Snapshot) (s : State) :
    Run free meas stor s (attribute_ i o post s) := by
  unfold attribute_
  split
  · exact onHsv_run _ s
  · exact .refl s

theorem noCurrentCheck_run (i : StepIx) (k : Kind) (post : Option Snapshot) (s : State) :
    Run free meas stor s (noCurrentCheck i k post s) := by
  unfold noCurrentCheck
  exact .ite (fun _ => ((((lockoutClaim_chain ..).trans (takeProtection_chain ..)).trans
    (raiseNotice_chain ..)).trans (pulse_chain ..)).run) (fun _ => .refl s)

theorem settleEnds_run (i : StepIx) (s : State) : Run free meas stor s (settleEnds i s) := by
  unfold settleEnds
  split
  · exact .refl s
  · next o h =>
    simp only
    have c1 := (((removeOp_chain i s).trans (regulatorSettled_chain i o _)).run (free := free) (meas := meas) (stor := stor))
    have c2 := (c1.trans (learn_run i o (s.snapshot i) _)).trans (attribute_run i o (s.snapshot i) _)
    refine Run.chain (Run.trans ?_ (noCurrentCheck_run ..)) (dispatcher_chain _)
    exact .ite (fun _ => c2.trans (arm_run ..)) (fun _ => c2)

theorem clearStaged_run (s : State) : Run free meas stor s (clearStaged s) := onSwu_run _ s ⟨rfl, rfl, rfl⟩

theorem stageOrder_run (i : StepIx) (k : Kind) (s : State) : Run free meas stor s (stageOrder i k s) :=
  onSwu_run _ s ⟨rfl, rfl, rfl⟩

theorem takeOrderStage_run (a b : Byte) (s : State) : Run free meas stor s (takeOrderStage a b s).1 := by
  unfold takeOrderStage
  split
  · split
    · exact stageOrder_run ..
    · split
      · exact stageOrder_run ..
      · exact .refl s
  · exact .refl s

theorem takeOrderExecute_run (a b : Byte) (s : State) : Run free meas stor s (takeOrderExecute a b s).1 := by
  unfold takeOrderExecute
  split
  · split
    · exact .refl s
    · simp only
      split
      · split
        · exact (clearStaged_run s).chain (request_chain _ _ _ _ (by decide))
        · exact clearStaged_run s
      · exact clearStaged_run s
  · exact .refl s

/-! ### The Cooldown Unit -/

theorem dischargeEnds_run (i : StepIx) (s : State) : Run free meas stor s (dischargeEnds i s) := by
  have h : Run free meas stor s (s.onCd i (fun c => { c with discharge := none, discharged := true })) :=
    (onCd_chain i _ s id).run
  exact .ite (fun _ => h.chain (toReady_chain ..)) (fun _ => h)

theorem startUpEnds_run (s : State) : Run free meas stor s (startUpEnds s) := by
  refine Run.trans (onCdu_run _ s (fun i h => ?_) (Nat.le_refl _)) (Run.foldl _ (fun t i => ?_) _ _)
  · show ((Tab.build (α := CduStep) _).get i).duty ≤ _
    rw [Tab.get_build]
    exact h
  · exact .ite (fun _ => (toReady_chain ..).run) (fun _ => .refl t)

theorem dutyEnds_run (i : StepIx) (s : State) : Run free meas stor s (dutyEnds i s) :=
  (onCd_chain i _ s (fun h => Nat.le_trans (Nat.sub_le _ _) h)).run

theorem yardEnds_run (s : State) : Run free meas stor s (yardEnds s) :=
  (onCdu_run _ s (fun _ => id) (Nat.sub_le _ _)).chain (budgetCondition_chain _)

theorem clampDuty_run (s : State) : Run free meas stor s (clampDuty s) := by
  refine onCdu_run _ s (fun i h => ?_) (Nat.le_refl _)
  show ((Tab.build (α := CduStep) _).get i).duty ≤ _
  rw [Tab.get_build]
  exact Nat.le_trans (Nat.min_le_left _ _) h

theorem clampBudget_run (s : State) : Run free meas stor s (clampBudget s) :=
  (onCdu_run _ s (fun _ => id) (Nat.min_le_left _ _)).chain (budgetCondition_chain _)

/-- After the clamp the budget is in its range (R89), whatever it was. -/
theorem clampBudget_levels (s : State) (duty : ∀ i, (s.cd i).duty ≤ Config.dutyMax) :
    (clampBudget s).levelsSound := by
  refine Run.keeps (free := False) (meas := True) (stor := True) (fun _ _ => Effect.levelsSound) (budgetCondition_chain _).run ?_
  exact ⟨duty, Nat.min_le_right _ _⟩

/-! ### The Harmonic Supervisor -/

theorem takeRemoval_run (q : QtyIx) (c : Option StepIx) (s : State) : Run free meas stor s (takeRemoval q c s) :=
  (onQty_run q _ s).chain (raiseRemoval_chain ..)

theorem takeRemovals_run (cs : List (QtyIx × Option StepIx)) (s : State) : Run free meas stor s (takeRemovals cs s) :=
  Run.foldl _ (fun t p => takeRemoval_run p.1 p.2 t) cs s

theorem hsvPosting_run (m : MeasRecord) (s : State) : Run free meas stor s (hsvPosting m s) := by
  unfold hsvPosting
  refine .ite (fun _ => onHsv_run _ s) (fun _ => ?_)
  exact ((onHsv_run _ s).chain (harmConditions_chain _)).trans (takeRemovals_run ..)

theorem repeatEnds_run (q : QtyIx) (s : State) : Run free meas stor s (repeatEnds q s) :=
  (onQty_run q _ s).trans (takeRemoval_run ..)

theorem relevelQuantities_run (c : QtyIx → Bool) (s : State) : Run free meas stor s (relevelQuantities c s) :=
  (onHsv_run _ s).chain (harmConditions_chain _)

theorem clearMarks_run (i : StepIx) (s : State) : Run free meas stor s (clearMarks i s) := onHsv_run _ s

theorem takeMarksClear_run (a : Byte) (s : State) : Run free meas stor s (takeMarksClear a s).1 := by
  unfold takeMarksClear
  split
  · exact .refl s
  · exact clearMarks_run ..

/-! ### The Voltage Regulator -/

theorem startOvervoltage_run (s : State) : Run free meas stor s (startOvervoltage s) :=
  ((onVrg_run _ s ⟨rfl, rfl, rfl⟩).chain (guardNewest_chain _)).chain (condition_chain ..)

theorem endOvervoltage_run (s : State) : Run free meas stor s (endOvervoltage s) :=
  .ite (fun _ => (onVrg_run _ s ⟨rfl, rfl, rfl⟩).chain (condition_chain ..)) (fun _ => .refl s)

theorem overvoltageGuard_run (m : MeasRecord) (e : Nat) (s : State) :
    Run free meas stor s (overvoltageGuard m e s) := by
  unfold overvoltageGuard
  simp only
  refine .ite (fun _ => ?_) (fun _ => (onVrg_run _ s ⟨rfl, rfl, rfl⟩).trans (endOvervoltage_run _))
  have c1 : Run free meas stor s (s.onVrg (fun v => { v with ovAcc := min (s.vrg.ovAcc + e) (s.y .tx) })) :=
    onVrg_run _ s ⟨rfl, rfl, rfl⟩
  refine .ite (fun _ => ?_) (fun _ => .ite (fun _ => c1.trans (startOvervoltage_run _)) (fun _ => c1))
  exact .ite (fun _ => (c1.trans (onVrg_run _ _ ⟨rfl, rfl, rfl⟩)).chain (guardNewest_chain _))
    (fun _ => c1.trans (onVrg_run _ _ ⟨rfl, rfl, rfl⟩))

theorem startLossOfVoltage_run (s : State) : Run free meas stor s (startLossOfVoltage s) := by
  refine Run.chain (Run.trans (Run.chain ?_ (setHold_chain ..)) (Run.foldl _ (fun t i => ?_) _ _))
    ((dispatcher_chain _).trans (condition_chain ..))
  · exact onVrg_run _ s ⟨rfl, rfl, rfl⟩
  · exact (takeProtection_chain ..).run

theorem endLossOfVoltage_run (s : State) : Run free meas stor s (endLossOfVoltage s) :=
  .ite (fun _ => ((onVrg_run _ s ⟨rfl, rfl, rfl⟩).chain (setHold_chain ..)).chain (condition_chain ..))
    (fun _ => .refl s)

theorem lossOfVoltageGuard_run (m : MeasRecord) (e : Nat) (s : State) :
    Run free meas stor s (lossOfVoltageGuard m e s) := by
  unfold lossOfVoltageGuard
  simp only
  generalize (if m.mean < s.y .vu then _ else _ : Nat) = acc
  have c1 : Run free meas stor s (s.onVrg (fun v => { v with lovAcc := acc })) := onVrg_run _ s ⟨rfl, rfl, rfl⟩
  refine .ite (fun _ => ?_) (fun _ => ?_)
  · exact .ite (fun _ => c1.trans (endLossOfVoltage_run _)) (fun _ => c1)
  · exact .ite (fun _ => c1.trans (startLossOfVoltage_run _)) (fun _ => c1)

theorem guards_run (m : MeasRecord) (e : Nat) (s : State) : Run free meas stor s (guards m e s) :=
  .ite (fun _ => .refl s) (fun _ => (overvoltageGuard_run m e s).trans (lossOfVoltageGuard_run m e _))

/-- The regulator in PENDING, from a state other than HOLD. -/
theorem regulate_run (i : StepIx) (k : Kind) (s : State) (h : s.vrg.reg ≠ .hold) :
    Run free meas stor s (regulate i k s) := by
  refine Chain.run (Chain.trans (Chain.trans ?_ (endNoCandidate_chain _)) (request_chain _ _ _ _ (by decide)))
  exact .single (.regulator s .pending (some ⟨i, k⟩) 0 0 s.vrg.noCandidate (by simp [h]))

theorem afterSearch_run (k : Kind) (c : Option StepIx) (s : State) (h : s.vrg.reg ≠ .hold) :
    Run free meas stor s (afterSearch k c s) := by
  cases c
  · exact (startNoCandidate_chain s).run
  · exact regulate_run _ k s h

theorem decide_run (v : Nat) (s : State) (h : s.vrg.reg ≠ .hold) : Run free meas stor s (decide_ v s) := by
  unfold decide_
  refine .ite (fun _ => ?_) (fun _ => .ite (fun _ => ?_) (fun _ => (endNoCandidate_chain s).run))
  · exact .ite (fun _ => .refl s) (fun _ => afterSearch_run _ _ s h)
  · exact .ite (fun _ => .refl s) (fun _ => afterSearch_run _ _ s h)

theorem band_same (v : Regulator) (c : Settings) (volts e : Nat) :
    (v.band c volts e).reg = v.reg ∧ (v.band c volts e).mode = v.mode
      ∧ (v.band c volts e).holds = v.holds := by
  unfold Regulator.band; split_ifs <;> exact ⟨rfl, rfl, rfl⟩

theorem bandStep_run (m : MeasRecord) (e : Nat) (s : State) : Run free meas stor s (bandStep m e s) := by
  refine .ite (fun h => ?_) (fun _ => .refl s)
  have k := band_same s.vrg s.su.active m.mean e
  refine (onVrg_run _ s k).trans (decide_run _ _ ?_)
  show (s.vrg.band s.su.active m.mean e).reg ≠ .hold
  rw [k.1, h]
  decide

theorem vrgArrival_run (s : State) : Run free meas stor s (vrgArrival s) := by
  unfold vrgArrival
  simp only
  generalize h1 : (if s.vrg.holds.switchover = true then _ else s : State) = s1
  have c1 : Run free meas stor s s1 := by
    rw [← h1]; exact .ite (fun _ => (setHold_chain ..).run) (fun _ => .refl s)
  exact .ite (fun _ => c1.trans (onVrg_run _ _ ⟨rfl, rfl, rfl⟩)) (fun _ => c1)

theorem vrgPosting_run (m : MeasRecord) (e : Nat) (s : State) : Run free meas stor s (vrgPosting m e s) :=
  ((vrgArrival_run s).trans (guards_run m e _)).trans (bandStep_run m e _)

theorem armAwaiting_run (i : StepIx) (s : State) : Run free meas stor s (armAwaiting i s) :=
  .ite (fun _ => arm_run i s) (fun _ => .refl s)

theorem startHoldEnds_run (s : State) : Run free meas stor s (startHoldEnds s) :=
  ((onVrg_run _ s ⟨rfl, rfl, rfl⟩).trans (Run.foldl _ (fun t i => armAwaiting_run i t) _ _)).chain
    (setHold_chain ..)

theorem refreshSilence_run (s : State) : Run free meas stor s (refreshSilence s) :=
  .ite (fun _ => onVrg_run _ s ⟨rfl, rfl, rfl⟩) (fun _ => .refl s)

theorem stopGuards_run (s : State) : Run free meas stor s (stopGuards s) :=
  ((endOvervoltage_run s).trans (endLossOfVoltage_run _)).trans (onVrg_run _ _ ⟨rfl, rfl, rfl⟩)

theorem changeMode_run (m : Mode) (s : State) : Run free meas stor s (changeMode m s) := by
  unfold changeMode
  refine .ite (fun _ => .refl s) (fun _ => ?_)
  simp only
  have c1 : Run free meas stor s (s.onVrg (fun v => ({ v with mode := m, silence := s.silenceIn m }).settled)) := by
    exact .single (.regulator s _ (fun _ => Regulator.settled_sound _))
  have c2 : Run free meas stor s (if s.vrg.mode = .auto then
      dropRegulation (s.onVrg (fun v => ({ v with mode := m, silence := s.silenceIn m }).settled))
      else s.onVrg (fun v => ({ v with mode := m, silence := s.silenceIn m }).settled)) :=
    .ite (fun _ => c1.chain (dropRegulation_chain _)) (fun _ => c1)
  exact .ite (fun _ => c2.trans (stopGuards_run _)) (fun _ => c2)

theorem takeModeSet_run (a : Byte) (s : State) : Run free meas stor s (takeModeSet a s).1 := by
  unfold takeModeSet
  split
  · exact .refl s
  · exact changeMode_run ..

theorem fallback_run (s : State) : Run free meas stor s (fallback s) :=
  (((changeMode_run .auto s).trans (clearStaged_run _)).chain (raiseNotice_chain ..)).chain (pulse_chain ..)

/-! ### Unbalance Protection -/

theorem evaluateSteps_run (m : MeasRecord) (e : Nat) (s : State) : Run free meas stor s (evaluateSteps m e s) := by
  refine onUbp_run _ s (fun i hp hs => ?_)
  show StagesOff ((Tab.build _).get i)
  rw [Tab.get_build]
  unfold State.evaluatedRecord
  split
  · exact hs
  · have : s.evaluated i = false := by
      unfold State.evaluated
      simp [hp]
    simp only [this]
    exact hs

theorem recordTrip_run (i : StepIx) (g : TripStage) (s : State) : Run free meas stor s (recordTrip i g s) :=
  onUb_run i _ s id

theorem recordTrips_run (ps : List (StepIx × TripStage)) (s : State) :
    Run free meas stor s (ps.foldl (fun t p => recordTrip p.1 p.2 t) s) :=
  Run.foldl _ (fun t p => recordTrip_run p.1 p.2 t) ps s

/-- Steps 4 and 5 of the trips of a posting, after their records, are made of elementary changes. -/
theorem takeTrips_chain (ps : List (StepIx × TripStage)) (s : State) :
    Chain (ps.foldl (fun t p => recordTrip p.1 p.2 t) s) (takeTrips ps s) := by
  unfold takeTrips
  by_cases h : ps = []
  · rw [if_pos h, h]
    exact .refl _
  · rw [if_neg h]
    exact ((Chain.foldl _ (fun t p => lockoutClaim_chain p.1 _ t) ps _).trans
      (Chain.foldl _ (fun t p => takeProtection_chain p.1 .ubp t) ps _)).trans (dispatcher_chain _)

theorem announceTrip_chain (i : StepIx) (s : State) : Chain s (announceTrip i s) := by
  unfold announceTrip
  exact (raiseNotice_chain .trip (some i) _ 0 s).trans (pulse_chain .unbTrip _)

/-- Step 6 of the trips of a posting is made of elementary changes. -/
theorem announceTrips_chain (ps : List (StepIx × TripStage)) (s : State) : Chain s (announceTrips ps s) := by
  unfold announceTrips
  induction ps generalizing s with
  | nil => exact .refl s
  | cons p ps ih => exact (announceTrip_chain p.1 s).trans (ih _)

/-- The trips and the alarm of a posting, after the records of the trips, are made of elementary changes. -/
theorem protect_chain (ps : List (StepIx × TripStage)) (t : State) :
    Chain (ps.foldl (fun r p => recordTrip p.1 p.2 r) t) (protect ps t) :=
  ((takeTrips_chain ps t).trans (unbCondition_chain t.lowestAlarm _)).trans (announceTrips_chain ps _)

theorem completeCapture_run (c : Capture) (s : State) : Run free meas stor s (completeCapture c s) := by
  unfold completeCapture
  simp only
  exact ((onUb_run c.step _ s id).trans (onUbp_run _ _ (fun _ _ => id))).chain (raiseNotice_chain ..)

theorem advanceCapture_run (m : MeasRecord) (s : State) : Run free meas stor s (advanceCapture m s) := by
  unfold advanceCapture
  split
  · exact .refl s
  · split
    · exact .refl s
    · exact .ite (fun _ => completeCapture_run ..) (fun _ => ubpRun rfl (fun _ _ k => k))

theorem protect_run (ps : List (StepIx × TripStage)) (t : State) : Run free meas stor t (protect ps t) :=
  (recordTrips_run ps t).chain (protect_chain ps t)

theorem ubpPosting_run (m : MeasRecord) (e : Nat) (s : State) : Run free meas stor s (ubpPosting m e s) :=
  ((evaluateSteps_run m e s).trans (protect_run ..)).trans (advanceCapture_run m _)

theorem ubpSourceLost_run (s : State) : Run free meas stor s (ubpSourceLost s) := by
  refine Run.chain (Run.chain (onUbp_run _ s (fun i _ _ => ?_)) (unbCondition_chain ..)) (abortCapture_chain _)
  show StagesOff ((Tab.build _).get i)
  rw [Tab.get_build]
  exact ⟨rfl, rfl, rfl⟩

theorem resetIf_off {g : Stage} (h : g = ⟨.inactive, 0⟩) (b : Bool) : g.resetIf b = ⟨.inactive, 0⟩ := by
  unfold Stage.resetIf
  split
  · rfl
  · exact h

theorem resetStages_run (a b c : StepIx → Bool) (s : State) : Run free meas stor s (resetStages a b c s) := by
  refine Run.chain (onUbp_run _ s (fun i _ h => ?_)) (unbCondition_chain ..)
  show StagesOff ((Tab.build _).get i)
  rw [Tab.get_build]
  exact ⟨resetIf_off h.1 _, resetIf_off h.2.1 _, resetIf_off h.2.2 _⟩

theorem takeBaselineCapture_run (a : Byte) (s : State) : Run free meas stor s (takeBaselineCapture a s).1 := by
  unfold takeBaselineCapture
  split
  · exact .refl s
  · split
    · exact .refl s
    · split
      · exact ubpRun rfl (fun _ _ k => k)
      · exact .refl s

theorem takeCaptureCancel_run (s : State) : Run free meas stor s (takeCaptureCancel s).1 := by
  unfold takeCaptureCancel
  split
  · exact .refl s
  · exact (abortCapture_chain s).run

/-! ### Measurement Intake -/

theorem sourceGained_run (l : Link) (s : State) : Run free True stor s (sourceGained l s) :=
  (onMi_run _ s).chain ((measCondition_chain ..).trans (setHold_chain ..))

theorem sourceSwitched_run (l : Link) (s : State) : Run free True stor s (sourceSwitched l s) :=
  (onMi_run _ s).chain ((((setHold_chain ..).trans (abortCapture_chain _)).trans (raiseNotice_chain ..)).trans
    (pulse_chain ..))

theorem sourceLost_run (s : State) : Run free True stor s (sourceLost s) :=
  (((onMi_run _ s).chain ((setHold_chain ..).trans (setHold_chain ..))).trans (ubpSourceLost_run _)).chain
    (measCondition_chain ..)

theorem startDisagree_run (s : State) : Run free True stor s (startDisagree s) :=
  (onMi_run _ s).chain ((setHold_chain ..).trans (measCondition_chain ..))

theorem endDisagree_run (s : State) : Run free True stor s (endDisagree s) :=
  .ite (fun _ => (onMi_run _ s).chain ((setHold_chain ..).trans (measCondition_chain ..))) (fun _ => .refl s)

theorem stopWaiting_run (l : Link) (s : State) : Run free True stor s (stopWaiting l s) :=
  onMi_run _ s

theorem leftLocked_run (l : Link) (s : State) : Run free True stor s (leftLocked l s) := by
  refine Run.trans (Run.trans ?_ (onMi_run _ _)) (endDisagree_run _)
  refine .ite (fun _ => ?_) (fun _ => stopWaiting_run l s)
  exact .ite (fun _ => sourceSwitched_run ..) (fun _ => sourceLost_run s)

theorem enteredLocked_run (l : Link) (s : State) : Run free True stor s (enteredLocked l s) := by
  exact .ite (fun _ => sourceGained_run ..) (fun _ => .refl s)

theorem compareUnits_run (m : MeasRecord) (s : State) : Run free True stor s (compareUnits m s) := by
  unfold compareUnits
  refine .ite (fun _ => ?_) (fun _ => .refl s)
  split
  · exact .refl s
  · refine .ite (fun _ => ?_) (fun _ => .refl s)
    generalize hu : s.onMi _ = u
    have c1 : Run free True stor s u := by rw [← hu]; exact onMi_run _ s
    refine c1.trans ?_
    exact .ite (fun _ => startDisagree_run _) (fun _ => .ite (fun _ => endDisagree_run _) (fun _ => .refl _))

theorem intake_run (m : MeasRecord) (s : State) : Run free True stor s (intake m s) := by
  unfold intake
  simp only
  have c1 : Run free True stor s (s.onLink m.link (fun r => r.good m.sequence s.now)) := onLink_run ..
  generalize s.onLink m.link (fun r => r.good m.sequence s.now) = s1 at c1 ⊢
  generalize h2 : (if (s.link m.link).state ≠ .locked ∧ (s1.link m.link).state = .locked then _ else _ : State) = s2
  have c2 : Run free True stor s s2 := by
    rw [← h2]
    exact .ite (fun _ => c1.trans (enteredLocked_run ..))
      (fun _ => .ite (fun _ => c1.trans (leftLocked_run ..)) (fun _ => c1))
  refine Run.trans ?_ (onLink_run ..)
  exact .ite (fun _ => c2.trans (compareUnits_run ..)) (fun _ => c2)

theorem consumers_run (m : MeasRecord) (e : Nat) (s : State) : Run free meas stor s (consumers m e s) :=
  ((vrgPosting_run m e s).trans (hsvPosting_run m _)).trans (ubpPosting_run m e _)

theorem postRecord_run (s : State) (m : MeasRecord) : Run free True stor s (postRecord s m) :=
  (onMi_run _ s).trans (consumers_run ..)

theorem frameEnds_run (l : Link) (e : FrameEnd) (s : State) : Run free True stor s (frameEnds l e s) := by
  unfold frameEnds
  split
  · unfold goodFrame
    simp only
    exact .ite (fun _ => (intake_run _ s).trans (postRecord_run ..))
      (fun _ => .ite (fun _ => (intake_run _ s).trans (onMi_run _ _)) (fun _ => intake_run _ s))
  · unfold badFrame
    simp only
    exact .ite (fun _ => (onLink_run ..).trans (leftLocked_run ..)) (fun _ => onLink_run ..)

theorem bytesArrive_run (l : Link) (bs : List Byte) (s : State) : Run free True stor s (bytesArrive l bs s) :=
  Run.trans (.ite (fun _ => .refl s) (fun _ => onLink_run ..)) (Run.foldl _ (fun t e => frameEnds_run l e t) _ _)

theorem frameFails_run (l : Link) (s : State) : Run free True stor s (frameFails l s) :=
  (onLink_run ..).trans (frameEnds_run ..)

theorem gapTaken_run (l : Link) (s : State) : Run free True stor s (gapTaken l s) :=
  .ite (fun _ => frameFails_run ..) (fun _ => .refl s)

theorem stepCountFails_run (l : Link) (s : State) : Run free True stor s (stepCountFails l s) := by
  unfold stepCountFails
  exact .ite (fun _ => (gapTaken_run ..).trans (frameFails_run ..)) (fun _ => gapTaken_run ..)

theorem frameArrives_run (l : Link) (e : FrameEnd) (s : State) : Run free True stor s (frameArrives l e s) := by
  unfold frameArrives
  split
  · exact (gapTaken_run ..).trans (bytesArrive_run ..)
  · exact .ite (fun _ => frameFails_run ..) (fun _ => .refl s)

theorem frameFinds_run (l : Link) (e : FrameEnd) (s : State) : Run free True stor s (frameFinds l e s) := by
  cases e
  · exact gapTaken_run ..
  · exact .refl s

theorem selectWaiting_run (s : State) : Run free True stor s (selectWaiting s) := by
  unfold selectWaiting
  split
  · exact .refl s
  · exact .ite (fun _ => (sourceGained_run ..).trans (Run.foldl _ postRecord_run _ _)) (fun _ => onMi_run _ s)

theorem preferApplied_run (s : State) : Run free True stor s (preferApplied s) := by
  unfold preferApplied
  simp only
  split
  · exact .ite (fun _ => sourceSwitched_run ..) (fun _ => .refl s)
  · exact .ite (fun _ => selectWaiting_run s) (fun _ => .refl s)

theorem silenceLocked_run (l : Link) (s : State) : Run free True stor s (silenceLocked l s) :=
  (onLink_run ..).trans (leftLocked_run ..)

theorem windowEnds_run (s : State) : Run free True stor s (windowEnds s) := by
  unfold windowEnds
  simp only
  exact .ite (fun _ => ((onMi_run _ s).trans (onMi_run _ _)).chain (measCondition_chain ..))
    (fun _ => onMi_run _ s)

/-! ### Station requests on a step, routing and notices -/

theorem takeStepRelease_run (a b : Byte) (s : State) : Run free meas stor s (takeStepRelease a b s).1 := by
  unfold takeStepRelease
  split
  · split
    · simp only
      split
      · exact (toReadyOrDischarging_chain ..).run.trans (onUb_run _ _ _ id)
      · exact (toReadyOrDischarging_chain ..).run
    · exact .refl s
  · exact .refl s

theorem takeStepDisable_run (a : Byte) (s : State) : Run free meas stor s (takeStepDisable a s).1 := by
  unfold takeStepDisable
  split
  · exact .refl s
  · split
    · exact ((moveStep_chain ..).trans (withdrawStep_chain ..)).run
    · exact .refl s

theorem takeStepEnable_run (a : Byte) (s : State) : Run free meas stor s (takeStepEnable a s).1 := by
  unfold takeStepEnable
  split
  · exact .refl s
  · split
    · exact (toReadyOrDischarging_chain ..).run
    · exact .refl s

theorem changeRoute_run (x : Source) (d : Destination) (s : State) : Run free meas stor s (changeRoute x d s) := by
  unfold changeRoute
  refine .ite (fun _ => .refl s) (fun _ => ?_)
  simp only
  have c0 : Run free meas stor s (if x.isPulse then stopHold x s else s) :=
    .ite (fun _ => onEvr_run _ s) (fun _ => .refl s)
  have c1 := ((c0.trans (onEvr_run (fun e => { e with routes := Tab.put e.routes x.ix .none }) _)).chain
    (syncFreeze_chain _)).trans (onEvr_run (fun e => { e with routes := Tab.put e.routes x.ix d }) _)
  refine Run.chain (Run.chain (c1.chain (syncFreeze_chain _)) ?_) (dispatcher_chain _)
  exact .ite (fun _ => trigger_chain ..) (fun _ => .refl _)

theorem takeRouteSet_run (a b : Byte) (s : State) : Run free meas stor s (takeRouteSet a b s).1 := by
  unfold takeRouteSet
  split
  · split
    · exact changeRoute_run ..
    · exact .refl s
  · exact .refl s

theorem takeNoticeAck_run (a : Byte) (s : State) : Run free meas stor s (takeNoticeAck a s).1 := by
  unfold takeNoticeAck
  split
  · exact .refl s
  · exact hlkRun rfl

theorem takeNoticeConfig_run (a b c : Byte) (s : State) : Run free meas stor s (takeNoticeConfig a b c s).1 := by
  unfold takeNoticeConfig
  split
  · split
    · exact hlkRun rfl
    · exact .refl s
  · exact .refl s

/-! ### The Settings Unit -/

theorem takeSettingWrite_run (a b : Byte) (v : Word32) (s : State) :
    Run free meas True s (takeSettingWrite a b v s).1 := by
  unfold takeSettingWrite
  split
  · exact .refl s
  · split
    · exact suRun rfl rfl
    · exact .refl s

theorem takeSettingRead_run (a b c : Byte) (s : State) : Run free meas stor s (takeSettingRead a b c s).1 := by
  unfold takeSettingRead
  split <;> exact .refl s

theorem takeSettingsDiscard_run (s : State) : Run free meas True s (takeSettingsDiscard s).1 := suRun rfl rfl

theorem whenB_run {f : State → State} (h : ∀ s, Run free meas stor s (f s)) (b : Bool) (s : State) :
    Run free meas stor s (whenB b f s) := .ite (fun _ => h s) (fun _ => .refl s)

theorem takeIfSteady_run (i : StepIx) (s : State) : Run free meas stor s (takeIfSteady i s) :=
  .ite (fun _ => takeLevels_run ..) (fun _ => .refl s)

theorem applyMonitor_run (a b : Settings) (s : State) : Run free meas stor s (applyMonitor a b s) := by
  unfold applyMonitor
  simp only
  refine Run.trans (whenB_run (fun t => ?_) _ _) (whenB_run (fun t => ?_) _ _)
  · have h := Run.foldl (free := free) (meas := meas) (stor := stor)
      (fun r i => takeIfSteady i r) (fun r i => takeIfSteady_run i r) allSteps t
    exact .ite (fun _ => h.trans (endDebounce_run _)) (fun _ => h)
  · exact Run.foldl _ (fun r i => .ite (fun _ => toUnknown_run ..) (fun _ => .refl r)) _ _

theorem applyStep_run (a b : Settings) (i : StepIx) (s : State) : Run free meas stor s (applyStep a b i s) :=
  (whenB_run (fun _ => onVr_run ..) _ s).trans (whenB_run (clearMarks_run i) _ _)

theorem applyRegulator_run (a b : Settings) (s : State) : Run free meas stor s (applyRegulator a b s) :=
  (whenB_run (fun t => onVrg_run _ t ⟨rfl, rfl, rfl⟩) _ s).trans (whenB_run refreshSilence_run _ _)

/-- What the blocks take from an apply, up to the clamp of the budget. -/
theorem applyHead_run (a b : Settings) (s : State) :
    Run free meas stor s (whenB (decide (b.y .dutyLimit < a.y .dutyLimit)) clampDuty
      (allSteps.foldl (fun t i => applyStep a b i t) (rebuildIfDue (applyMonitor a b s)))) :=
  (((applyMonitor_run a b s).trans (rebuildIfDue_run _)).trans
    (Run.foldl _ (fun t i => applyStep_run a b i t) _ _)).trans (whenB_run clampDuty_run _ _)

/-- What the blocks take from an apply, after the clamp of the budget. -/
theorem applyTail_run (a b : Settings) (s : State) :
    Run free meas stor s (applyUnbalance a b (relevelQuantities (levelsChanged a b) (applyRegulator a b s))) :=
  ((applyRegulator_run a b s).trans (relevelQuantities_run ..)).trans (resetStages_run ..)

theorem applyBlocks_run (a b : Settings) (s : State) : Run free meas stor s (applyBlocks a b s) :=
  ((applyHead_run a b s).trans (whenB_run clampBudget_run _ _)).trans (applyTail_run a b _)

/-- The blocks that take new settings leave Measurement Intake as it is. -/
theorem applyBlocks_mi (a b : Settings) (s : State) : (applyBlocks a b s).mi = s.mi :=
  (applyBlocks_run (free := False) (stor := False) a b s).mi

theorem applyEffects_run (a b : Settings) (p : Bool) (s : State) : Run free True stor s (applyEffects a b p s) :=
  (applyBlocks_run a b s).trans (whenB_run preferApplied_run p _)

/-- After the effects of an apply the levels are in their ranges, where the yard limit is unchanged or
clamps the budget. -/
theorem applyEffects_levels (a b : Settings) (p : Bool) (s : State)
    (duty : ∀ i, (s.cd i).duty ≤ Config.dutyMax)
    (budget : changedY a b .yardLimit = false → s.cdu.budget ≤ s.y .yardLimit) :
    (applyEffects a b p s).levelsSound := by
  have hd : ∀ x y, Effect True True True x y → (∀ i, (x.cd i).duty ≤ Config.dutyMax) →
      ∀ i, (y.cd i).duty ≤ Config.dutyMax := by
    intro x y e h
    cases e with
    | machinery m =>
      cases m with
      | cooldown c d => exact fun i => d i (h i)
      | _ => exact h
    | cooldown c d => exact fun i => d i (h i)
    | position i p => unfold putPosition; simp only; split <;> exact h
    | _ => exact h
  refine Run.keeps (free := False) (meas := True) (stor := True) (fun _ _ => Effect.levelsSound)
    ((applyTail_run a b _).trans (whenB_run preferApplied_run p _)) ?_
  unfold whenB
  cases hc : changedY a b .yardLimit
  · exact Run.keeps (free := False) (meas := True) (stor := True) (fun _ _ => Effect.levelsSound) (applyHead_run a b s)
      ⟨duty, budget hc⟩
  · exact clampBudget_levels _ (Run.keeps hd (applyHead_run a b s) duty)

/-- An apply (R192, R193): new settings in force, then their effects. -/
theorem takeSettingsApply_run (s : State) (h : free) : Run free True True s (takeSettingsApply s).1 := by
  unfold takeSettingsApply
  split
  · exact .refl s
  · simp only
    split
    · exact .refl s
    · simp only
      generalize hu : s.onSu _ = u
      have c1 : Run free True True s u := by rw [← hu]; exact .single (.settings s h trivial _)
      exact c1.trans (applyEffects_run _ _ _ u)

theorem takeStoreCommit_run (s : State) : Run free meas True s (takeStoreCommit s).1 := by
  unfold takeStoreCommit
  split
  · exact .refl s
  · split
    · exact (reportDetail_chain ..).run
    · exact suRun rfl rfl

theorem takeBaselineUnlock_run (s : State) : Run free meas True s (takeBaselineUnlock s).1 := by
  unfold takeBaselineUnlock
  split
  · exact .refl s
  · exact suRun rfl rfl

theorem closeCommit_run (r : CommitResult) (s : State) : Run free meas True s (closeCommit r s) := by
  unfold closeCommit
  generalize hu : s.onSu _ = u
  have c1 : Run free meas True s u := by rw [← hu]; exact suRun rfl rfl
  exact c1.chain (raiseNotice_chain ..)

theorem storeFault_run (x : Bool) (c : Nat) (s : State) : Run free meas True s (storeFault x c s) := by
  unfold storeFault
  generalize hu : s.onSu _ = u
  have c1 : Run free meas True s u := by rw [← hu]; exact suRun rfl rfl
  exact c1.chain ((reportClass_chain ..).trans (condition_chain ..))

theorem endCommit_run (r : CommitResult) (s : State) : Run free meas True s (endCommit r s) := by
  unfold endCommit
  split
  · exact .refl s
  · next img _ =>
    split
    · unfold completeCommit
      simp only
      have c0 := closeCommit_run (free := free) (meas := meas) .complete s
      generalize closeCommit .complete s = t at c0 ⊢
      generalize hu : t.onSu _ = u
      have c1 : Run free meas True t u := by rw [← hu]; exact suRun rfl rfl
      generalize hv : u.onUbp _ = v
      have c2 : Run free meas True u v := by
        rw [← hv]
        refine onUbp_run _ u (fun i _ h => ?_)
        show StagesOff ((Tab.build _).get i)
        rw [Tab.get_build]
        exact h
      exact ((c0.trans c1).trans c2).trans (storeFault_run ..)
    · unfold failCommit
      simp only
      exact .ite (fun _ => (closeCommit_run ..).chain (reportDetail_chain ..))
        (fun _ => (closeCommit_run ..).trans (storeFault_run ..))

/-! ### The reads and the Host Link -/

theorem takeLinkRead_run (a b : Byte) (s : State) : Run free True stor s (takeLinkRead a b s).1 := by
  unfold takeLinkRead
  split
  · simp only
    split
    · exact onLink_run ..
    · exact .refl s
  · exact .refl s

theorem takeStepRead_run (a : Byte) (s : State) : Run free meas stor s (takeStepRead a s).1 := by
  unfold takeStepRead; split <;> exact .refl s

theorem takeMeasRead_run (a : Byte) (s : State) : Run free meas stor s (takeMeasRead a s).1 := by
  unfold takeMeasRead; split <;> exact .refl s

theorem takeUnbRead_run (a : Byte) (s : State) : Run free meas stor s (takeUnbRead a s).1 := by
  unfold takeUnbRead; split <;> exact .refl s

theorem linkReset_run (c : LinkResetCause) (r : Receiver) (s : State) : Run free meas True s (linkReset c r s) := by
  unfold linkReset
  have c1 : Run free meas True s (clearStaged s) := clearStaged_run s
  generalize clearStaged s = t at c1 ⊢
  have c2 : Run free meas True t (emptyPending t) := suRun rfl rfl
  generalize emptyPending t = u at c2 ⊢
  exact (c1.trans c2).trans (onHlk_run _ u)

/-- A request other than SETTINGS_APPLY puts no new settings in force. -/
theorem takeOwner_run (r : Request) (s : State) (h : r = .settingsApply → free) :
    Run free True True s (takeOwner r s).1 := by
  cases r
  case settingsApply => exact takeSettingsApply_run s (h rfl)
  case stepRead => exact takeStepRead_run ..
  case measRead => exact takeMeasRead_run ..
  case linkRead => exact takeLinkRead_run ..
  case unbRead => exact takeUnbRead_run ..
  case modeSet => exact takeModeSet_run ..
  case orderStage => exact takeOrderStage_run ..
  case orderExecute => exact takeOrderExecute_run ..
  case orderCancel => exact clearStaged_run s
  case stepEnable => exact takeStepEnable_run ..
  case stepDisable => exact takeStepDisable_run ..
  case stepRelease => exact takeStepRelease_run ..
  case marksClear => exact takeMarksClear_run ..
  case baselineCapture => exact takeBaselineCapture_run ..
  case captureCancel => exact takeCaptureCancel_run s
  case settingWrite => exact takeSettingWrite_run ..
  case settingRead => exact takeSettingRead_run ..
  case settingsDiscard => exact takeSettingsDiscard_run s
  case routeSet => exact takeRouteSet_run ..
  case storeCommit => exact takeStoreCommit_run s
  case baselineUnlock => exact takeBaselineUnlock_run s
  case noticeAck => exact takeNoticeAck_run ..
  case noticeConfig => exact takeNoticeConfig_run ..
  case linkReset => exact linkReset_run ..
  all_goals exact .refl s

theorem takeRequestFrame_run (ty : Nat) (p : List Byte) (s : State)
    (h : decodeRequest ty p = some (some .settingsApply) → free) : Run free True True s (takeRequestFrame ty p s).1 := by
  unfold takeRequestFrame
  split
  · exact .refl s
  · exact .refl s
  · next r hr => exact takeOwner_run r s (fun e => h (e ▸ hr))

theorem goodHostFrame_run (s : State) : Run free meas stor s (goodHostFrame s) :=
  ((onHlk_run _ s).trans (onHlk_run _ _)).trans (refreshSilence_run _)

theorem hostFrameEnds_run (bs : List Byte) (s : State)
    (h : decodeRequest (hostType bs) (hostPayload bs) = some (some .settingsApply) → free) :
    Run free True True s (hostFrameEnds bs s) := by
  unfold hostFrameEnds
  refine .ite (fun _ => onHlk_run _ s) (fun _ => .ite (fun _ => onHlk_run _ s) (fun _ => ?_))
  exact (((goodHostFrame_run s).trans (takeRequestFrame_run _ _ _ h)).trans (onHlk_run _ _)).trans
    (onHlk_run _ _)

theorem hostGapTaken_run (s : State) : Run free meas stor s (hostGapTaken s) :=
  .ite (fun _ => hlkRun rfl) (fun _ => .refl s)

theorem abandonHost_run (c : AbandonCause) (s : State) : Run free meas stor s (abandonHost c s) := hlkRun rfl

theorem hostAbandon_run (c : AbandonCause) (s : State) : Run free meas stor s (hostAbandon c s) :=
  .ite (fun _ => (hostGapTaken_run s).trans (abandonHost_run ..)) (fun _ => hostGapTaken_run s)

theorem hostByte_run (s : State) (b : Byte) (h : free) : Run free True True s (hostByte s b) := by
  have c : Run free True True s (holdHost (receiveHostByte s.hostHeld b).2 s) := hlkRun rfl
  refine c.trans ?_
  show Run free True True _ (hostEvent (receiveHostByte s.hostHeld b).1 _)
  unfold hostEvent
  split
  · exact .refl _
  · exact onHlk_run ..
  · exact onHlk_run ..
  · exact hostFrameEnds_run _ _ (fun _ => h)

theorem hostBytes_run (bs : List Byte) (s : State) (h : free) : Run free True True s (hostBytes bs s) :=
  (hostGapTaken_run s).trans (Run.foldl _ (fun t b => hostByte_run t b h) _ _)

theorem lineByte_run (b : Byte) (low : Bool) (s : State) (h : free) : Run free True True s (lineByte b low s) :=
  .ite (fun _ => (hostGapTaken_run s).trans (abandonHost_run ..))
    (fun _ => (hostGapTaken_run s).trans (hostByte_run _ _ h))

/-! ### Every command -/

/-- The command is an end or a beginning of a full reset. -/
def IsReset : Instr → Prop
  | .fullReset _ _ _ => True
  | .fullResetHeld _ => True
  | _ => False

/-- The command may put new settings in force: it is the request itself, or brings a byte that may complete its
frame. -/
def MayApply : Instr → Prop
  | .settingsApply => True
  | .hostFrame _ => True
  | .discardedByte _ _ => True
  | _ => False

theorem live_next {s t : State} {f : State → State} (h : live s f = .next t) (k : Run free meas stor s (f s)) :
    Run free meas stor s t := by
  unfold live at h
  split at h
  · cases h; exact .refl s
  · cases h; exact k

theorem onlyIf_run {b : Bool} {f : State → State} {s : State} (k : Run free meas stor s (f s)) :
    Run free meas stor s (onlyIf b f s) := .ite (fun _ => k) (fun _ => .refl s)

theorem serve_next {s t : State} {f : State → Taken} (h : serve s f = .next t) (k : Run free meas stor s (f s).1) :
    Run free meas stor s t := live_next h (k.trans (onHlk_run _ _))

theorem onFrame_run (l : Link) (e : FrameEnd) (p : State → State → Bool) (s : State) :
    Run free True stor s (onFrame l e p s) := (frameFinds_run ..).trans (onlyIf_run (frameArrives_run ..))

theorem onPosting_run (l : Link) (bs : List Byte) (p : State → Bool) (s : State) :
    Run free True stor s (onPosting l bs p s) := (gapTaken_run ..).trans (onlyIf_run (frameArrives_run ..))

/-- Every command but a reset is a run of effects, with new settings in force only at an apply. -/
theorem exec_run (c : Instr) (s t : State) (h : exec c s = .next t) (reset : ¬IsReset c)
    (apply : MayApply c → free) : Run free True True s t := by
  cases c
  case fullReset => exact absurd trivial reset
  case fullResetHeld => exact absurd trivial reset
  case measFrame => exact live_next h (frameArrives_run ..)
  case measFramingFailure => exact live_next h (stepCountFails_run ..)
  case measByteGapTimeout => exact live_next h (gapTaken_run ..)
  case linkLocked => exact live_next h (onFrame_run ..)
  case lockedBadFrameLimit => exact live_next h (onFrame_run ..)
  case silence100ms => exact live_next h (onlyIf_run (silenceLocked_run ..))
  case silence500ms => exact live_next h (onlyIf_run (onLink_run ..))
  case acquisitionWindowExpiry => exact live_next h (onlyIf_run (windowEnds_run _))
  case measDisagreeStart => exact live_next h (onFrame_run ..)
  case measDisagreeEnd l w =>
    refine live_next h ?_
    cases w
    · exact onFrame_run ..
    · exact onlyIf_run (silenceLocked_run ..)
  case contactLevelChange i c m =>
    cases h
    exact .ite (fun _ => .refl s) (fun _ => onStep_run i _ s (onContact_same ..))
  case debounceExpiry => exact live_next h (onlyIf_run (takeLevels_run ..))
  case positionDisagreementExpiry => exact live_next h (onlyIf_run (toUnknown_run ..))
  case pulseExpiry => exact live_next h (onlyIf_run (pulseEnds_run ..))
  case operateLimitExpiry => exact live_next h (onlyIf_run (opFail_run ..))
  case settleExpiry => exact live_next h (onlyIf_run (settleEnds_run ..))
  case orderStageExpiry => exact live_next h (onlyIf_run (clearStaged_run s))
  case dischargeExpiry => exact live_next h (onlyIf_run (dischargeEnds_run ..))
  case startupDischargeExpiry => exact live_next h (onlyIf_run (startUpEnds_run s))
  case dutyExpiry => exact live_next h (onlyIf_run (dutyEnds_run ..))
  case yardTimerExpiry => exact live_next h (onlyIf_run (yardEnds_run s))
  case startUpHoldExpiry => exact live_next h (onlyIf_run (startHoldEnds_run s))
  case insertDelayReached => exact live_next h (onPosting_run ..)
  case removeDelayReached => exact live_next h (onPosting_run ..)
  case overvoltageDelay => exact live_next h (onFrame_run ..)
  case overvoltageRepeat => exact live_next h (onPosting_run ..)
  case lossOfVoltageDelay => exact live_next h (onFrame_run ..)
  case stationSilenceExpiry => exact live_next h (onlyIf_run (fallback_run s))
  case harmMoveUp => exact live_next h (onFrame_run ..)
  case harmMoveDown => exact live_next h (onFrame_run ..)
  case removeRepeatExpiry => exact live_next h (onlyIf_run (repeatEnds_run ..))
  case armingExpiry => exact live_next h (onlyIf_run (arm_run ..))
  case unbAlarm => exact live_next h (onFrame_run ..)
  case unbTrip => exact live_next h (onFrame_run ..)
  case captureComplete => exact live_next h (onFrame_run ..)
  case auxHoldExpiry => exact live_next h (onlyIf_run (onEvr_run _ s))
  case hostFrame => exact live_next h (onlyIf_run (hostBytes_run _ s (apply trivial)))
  case hostFrameAbandon => exact live_next h (onlyIf_run (hostAbandon_run ..))
  case hostByteGapTimeout => exact live_next h (hostGapTaken_run s)
  case replyEnd => exact live_next h (onlyIf_run (onHlk_run _ s))
  case breakOnHrx => exact live_next h (onlyIf_run (linkReset_run ..))
  case stepRead => exact serve_next h (takeStepRead_run ..)
  case measRead => exact serve_next h (takeMeasRead_run ..)
  case linkRead => exact serve_next h (takeLinkRead_run ..)
  case unbRead => exact serve_next h (takeUnbRead_run ..)
  case modeSet => exact serve_next h (takeModeSet_run ..)
  case orderStage => exact serve_next h (takeOrderStage_run ..)
  case orderExecute => exact serve_next h (takeOrderExecute_run ..)
  case orderCancel => exact serve_next h (clearStaged_run s)
  case stepEnable => exact serve_next h (takeStepEnable_run ..)
  case stepDisable => exact serve_next h (takeStepDisable_run ..)
  case stepRelease => exact serve_next h (takeStepRelease_run ..)
  case marksClear => exact serve_next h (takeMarksClear_run ..)
  case baselineCapture => exact serve_next h (takeBaselineCapture_run ..)
  case captureCancel => exact serve_next h (takeCaptureCancel_run s)
  case settingWrite => exact serve_next h (takeSettingWrite_run ..)
  case settingRead => exact serve_next h (takeSettingRead_run ..)
  case settingsApply => exact serve_next h (takeSettingsApply_run s (apply trivial))
  case settingsDiscard => exact serve_next h (takeSettingsDiscard_run s)
  case routeSet => exact serve_next h (takeRouteSet_run ..)
  case storeCommit => exact serve_next h (takeStoreCommit_run s)
  case baselineUnlock => exact serve_next h (takeBaselineUnlock_run s)
  case commitEnd => exact live_next h (endCommit_run ..)
  case noticeAck => exact serve_next h (takeNoticeAck_run ..)
  case noticeConfig => exact serve_next h (takeNoticeConfig_run ..)
  case linkReset => exact serve_next h (linkReset_run ..)
  case discardedByte => exact live_next h (onlyIf_run (lineByte_run _ _ s (apply trivial)))
  case hrxReturnsHigh => exact live_next h (onHlk_run _ s)
  case debounceTimeFromReset => exact live_next h (onlyIf_run (endDebounce_run s))
  all_goals exact serve_next h (.refl s)

end Sys2Proof.Machine
end

