-- ==== Sys2Proof/Laws/Outcome.lean ====
section
/-! SUPPORT. How the wrappers of the meanings answer: while no reset is held a command has its effect, a
request's effect is its owner's with the reply recorded, and a command that names an occurrence acts exactly
where the occurrence stands. -/

namespace Sys2Proof.Machine

/-- While no reset is held, a command answers its effect. -/
theorem live_eq {s : State} (f : State → State) (h : s.resetHeld = none) : live s f = .next (f s) := by
  simp [live, h]

/-- While a reset is held, a command changes nothing. -/
theorem live_held {s : State} (f : State → State) (h : s.resetHeld.isSome = true) : live s f = .next s := by
  simp [live, h]

/-- While no reset is held, a request answers its owner's effect with the reply recorded. -/
theorem serve_eq {s : State} (f : State → Taken) (h : s.resetHeld = none) :
    serve s f = .next (f s).answered := live_eq _ h

/-- While a reset is held, a request changes nothing. -/
theorem serve_held {s : State} (f : State → Taken) (h : s.resetHeld.isSome = true) : serve s f = .next s :=
  live_held _ h

/-- An occurrence that stands is taken. -/
theorem onlyIf_true {b : Bool} (f : State → State) (s : State) (h : b = true) : onlyIf b f s = f s := if_pos h

/-- An occurrence that does not stand changes nothing. -/
theorem onlyIf_false {b : Bool} (f : State → State) (s : State) (h : b = false) : onlyIf b f s = s := by
  simp [onlyIf, h]

/-- A receiver whose gap is not over takes what arrives as it is. -/
theorem gapTaken_eq {l : Link} {s : State} (h : s.gapOver l = false) : gapTaken l s = s := by
  simp [gapTaken, h]

/-- A hunting receiver has no gap that could be over. -/
theorem gapOver_none {l : Link} {s : State} (h : (s.link l).rx = none) : s.gapOver l = false := by
  simp [State.gapOver, gapLasted, h]

/-- A command that names a frame finds a link whose gap is not over as it is. -/
theorem frameFinds_eq {l : Link} {e : FrameEnd} {s : State} (h : s.gapOver l = false) : frameFinds l e s = s := by
  cases e
  · exact gapTaken_eq h
  · rfl

/-- A frame at which the occurrence named takes place is handled as a frame. -/
theorem onFrame_true {l : Link} {e : FrameEnd} {occurs : State → State → Bool} {s : State}
    (h : occurs (frameFinds l e s) (frameArrives l e (frameFinds l e s)) = true) :
    onFrame l e occurs s = frameArrives l e (frameFinds l e s) := if_pos h

/-- A frame at which the occurrence named does not take place leaves the link as the frame finds it. -/
theorem onFrame_false {l : Link} {e : FrameEnd} {occurs : State → State → Bool} {s : State}
    (h : occurs (frameFinds l e s) (frameArrives l e (frameFinds l e s)) = false) :
    onFrame l e occurs s = frameFinds l e s := by
  simp [onFrame, onlyIf, h]

/-- A frame on whose posting the occurrence named takes place is handled as a frame. -/
theorem onPosting_true {l : Link} {bs : List Byte} {occurs : State → Bool} {s : State}
    (h : occurs (gapTaken l s) = true) : onPosting l bs occurs s = frameArrives l (.complete bs) (gapTaken l s) :=
  if_pos h

end Sys2Proof.Machine
end

