-- ==== Sys2Proof/Laws/Position.lean ====
section
/-! SUPPORT. What a position change and the rebuild do to the positions, the contacts and the disagreement times:
the change writes the position of its step, and nothing after it writes any of them. A filter whose level has been
taken is no longer due. -/

namespace Sys2Proof.Machine

/-- The positions, contacts and disagreement times of two states are the same. -/
def SameContacts (s t : State) : Prop :=
  ∀ i, (t.step i).position = (s.step i).position ∧ (t.step i).closedIn = (s.step i).closedIn
    ∧ (t.step i).openIn = (s.step i).openIn ∧ (t.step i).disagreeFrom = (s.step i).disagreeFrom

theorem SameContacts.refl (s : State) : SameContacts s s := fun _ => ⟨rfl, rfl, rfl, rfl⟩

theorem SameContacts.trans {s t u : State} (h : SameContacts s t) (k : SameContacts t u) : SameContacts s u :=
  fun i => ⟨(k i).1.trans (h i).1, (k i).2.1.trans (h i).2.1, (k i).2.2.1.trans (h i).2.2.1,
    (k i).2.2.2.trans (h i).2.2.2⟩

/-- The machinery changes none of them. -/
theorem Chain.contacts {s t : State} (h : Chain s t) : SameContacts s t :=
  fun i => ⟨h.position i, h.closedIn i, h.openIn i, h.disagreeFrom i⟩

/-- Nor does what leaves the step records as they are. -/
theorem SameContacts.of_steps {s t : State} (h : t.st.steps = s.st.steps) : SameContacts s t := by
  intro i
  unfold State.step
  rw [h]
  exact ⟨rfl, rfl, rfl, rfl⟩

theorem SameContacts.ite {s t u : State} {c : Prop} [Decidable c] (h : SameContacts s t) (k : SameContacts s u) :
    SameContacts s (if c then t else u) := by
  split
  · exact h
  · exact k

theorem startArming_contacts (i : StepIx) (s : State) : SameContacts s (startArming i s) :=
  .ite (.of_steps rfl) (.refl s)

theorem rebuildStep_contacts (i : StepIx) (s : State) : SameContacts s (rebuildStep i s) := by
  unfold rebuildStep
  split
  · split
    · exact (toEnergized_chain i s).contacts.trans (.of_steps rfl)
    · exact (lockOut_chain ..).contacts
    · exact .ite (.refl s) (toDischarging_chain ..).contacts
  · exact .refl s

theorem rebuild_contacts (s : State) : SameContacts s (rebuild s) := by
  have fold : ∀ (is : List StepIx) (u : State), SameContacts u (is.foldl (fun t i => rebuildStep i t) u) := by
    intro is
    induction is with
    | nil => exact SameContacts.refl
    | cons i is ih => exact fun u => (rebuildStep_contacts i u).trans (ih _)
  have start : SameContacts s (s.onSt (fun t => { t with rebuilt := true })) := .of_steps rfl
  unfold rebuild
  simp only
  have all := start.trans (fold allSteps _)
  generalize allSteps.foldl (fun t i => rebuildStep i t) (s.onSt (fun t => { t with rebuilt := true })) = u at all ⊢
  exact all.trans (.of_steps rfl)

theorem rebuildIfDue_contacts (s : State) : SameContacts s (rebuildIfDue s) :=
  .ite (rebuild_contacts s) (.refl s)

/-- What follows a move that ST makes of an uncommanded change. -/
theorem overtaken_contacts (i : StepIx) {s t : State} (h : SameContacts s t) :
    SameContacts s (dispatcher (overtake i t)) :=
  h.trans ((overtake_chain i t).trans (dispatcher_chain _)).contacts

theorem uncommanded_contacts (i : StepIx) (new : Position) (s : State) : SameContacts s (uncommanded i new s) := by
  have out : ∀ c, SameContacts s (lockOut i c (positionNotice i new s)) :=
    fun c => ((positionNotice_chain i new s).trans (lockOut_chain i c _)).contacts
  have opens : SameContacts s (positionNotice i new (toDischarging i .own s)) :=
    ((toDischarging_chain i .own s).trans (positionNotice_chain ..)).contacts
  have closes : SameContacts s (startArming i (positionNotice i new (toEnergized i s))) :=
    ((toEnergized_chain i s).trans (positionNotice_chain ..)).contacts.trans (startArming_contacts _ _)
  unfold uncommanded
  split
  · exact overtaken_contacts i opens
  · exact overtaken_contacts i closes
  · exact overtaken_contacts i (out _)
  · exact overtaken_contacts i (out _)
  · exact overtaken_contacts i (out _)
  · exact overtaken_contacts i (out _)
  · exact .refl s

theorem swuPosition_contacts (i : StepIx) (new : Position) (s : State) : SameContacts s (swuPosition i new s) := by
  have ends : SameContacts s (breakerCondition none (s.onSw i (fun r => { r with breakerFail := false }))) :=
    .trans (.of_steps rfl) (breakerCondition_chain ..).contacts
  have succeeds : ∀ t, SameContacts s t → SameContacts s (match (t.sw i).op with
      | none => t
      | some o => if o.phase ≠ .settling ∧ o.kind.target = new then opSuccess i t else t) := by
    intro t h
    split
    · exact h
    · exact .ite (h.trans (opSuccess_chain i t).contacts) h
  exact succeeds _ (.ite ends (.refl s))

theorem ubpPosition_contacts (i : StepIx) (old new : Position) (arms : Bool) (s : State) :
    SameContacts s (ubpPosition i old new arms s) := by
  have told : SameContacts s (if old = .closed then abortCaptureOf i (unbCondition none s) else s) :=
    .ite ((unbCondition_chain ..).trans (abortCaptureOf_chain ..)).contacts (.refl s)
  have off : ∀ t, SameContacts s t →
      SameContacts s (if new = .opened then t.onUb i (fun u => { u with eval := .off, arming := none }) else t) :=
    fun t h => .ite (h.trans (.of_steps rfl)) h
  exact .ite ((off _ told).trans (startArming_contacts _ _)) (off _ told)

/-- After a position change its step has the new position, and every other position, every contact and every
disagreement time is as it was. -/
theorem positionChange_contacts (i j : StepIx) (new : Position) (s : State) :
    ((positionChange i new s).step j).position = (if j = i then new else (s.step j).position)
      ∧ ((positionChange i new s).step j).closedIn = (s.step j).closedIn
      ∧ ((positionChange i new s).step j).openIn = (s.step j).openIn
      ∧ ((positionChange i new s).step j).disagreeFrom = (s.step j).disagreeFrom := by
  unfold positionChange
  simp only
  split
  · rename_i same
    refine ⟨?_, rfl, rfl, rfl⟩
    split
    · subst_vars
      rfl
    · rfl
  · have put : ∀ k, (putPosition i new s).step k = if k = i then (s.step i).takePosition new else s.step k :=
      fun k => putPosition_steps i k new s
    generalize putPosition i new s = p at put ⊢
    have loaded : SameContacts p (if decide (new = .opened ∧ (s.step i).lastDefinite = some .closed) = true then
        loadDischarge i p else p) := .ite (loadDischarge_chain ..).contacts (.refl p)
    generalize (if decide (new = .opened ∧ (s.step i).lastDefinite = some .closed) = true then
        loadDischarge i p else p) = q at loaded ⊢
    have told := loaded.trans (ubpPosition_contacts i (s.step i).position new
      (decide (new = .closed ∧ (s.step i).lastDefinite = some .opened) && !s.inFlight i) q)
    generalize ubpPosition i (s.step i).position new
      (decide (new = .closed ∧ (s.step i).lastDefinite = some .opened) && !s.inFlight i) q = r at told ⊢
    have done := told.trans (swuPosition_contacts i new r)
    generalize swuPosition i new r = u at done ⊢
    have whole : SameContacts p (rebuildIfDue (if (!s.inFlight i && u.st.rebuilt) = true then
        uncommanded i new u else u)) :=
      (SameContacts.ite (done.trans (uncommanded_contacts _ _ _)) done).trans (rebuildIfDue_contacts _)
    have w := whole j
    rw [w.1, w.2.1, w.2.2.1, w.2.2.2, put j]
    split
    · subst_vars
      exact ⟨rfl, rfl, rfl, rfl⟩
    · exact ⟨rfl, rfl, rfl, rfl⟩

/-! ### The filters -/

/-- The decoder leaves the contact inputs as they are. -/
theorem decodePosition_contact (i : StepIx) (c : Contact) (s : State) :
    ((decodePosition i s).step i).contact c = (s.step i).contact c := by
  have on : ∀ (from_ : Option Nat) (new : Position),
      ((positionChange i new (s.onStep i (fun r => { r with disagreeFrom := from_ }))).step i).contact c
        = (s.step i).contact c := by
    intro from_ new
    have k := positionChange_contacts i i new (s.onStep i (fun r => { r with disagreeFrom := from_ }))
    simp only [onStep_step] at k
    cases c
    · exact k.2.1
    · exact k.2.2.1
  unfold decodePosition
  simp only
  split
  · exact on ..
  · split
    · exact on ..
    · rfl

/-- A filter of a step is no longer due once the levels of the step have been taken. -/
theorem takeLevels_due (i : StepIx) (c : Contact) (s : State) : (takeLevels i s).debounceDue i c = false := by
  have run := takeLevels_run (free := False) (meas := False) (stor := False) i s
  have x : ((takeLevels i s).step i).contact c = s.filtered i c := by
    unfold takeLevels
    rw [decodePosition_contact, onStep_step, if_pos rfl]
    cases c <;> rfl
  have at_ : ∀ u : State, u.now = s.now → u.su = s.su → (u.step i).contact c = s.filtered i c →
      u.debounceDue i c = false := by
    intro u n k h
    unfold State.debounceDue State.y age
    simp only
    rw [h, n, k]
    unfold State.filtered
    simp only
    by_cases d : s.debounceDue i c = true
    · rw [if_pos d]
      simp
    · rw [if_neg d]
      exact Bool.not_eq_true _ ▸ d
  exact at_ _ run.outside.1 run.su x

/-- The levels that an apply takes of a step are those of its two expiries, one after the other. -/
theorem takeIfSteady_eq (i : StepIx) (s : State) :
    takeIfSteady i s = (fun t => onlyIf (t.debounceDue i .openContact) (takeLevels i) t)
      (onlyIf (s.debounceDue i .closedContact) (takeLevels i) s) := by
  unfold takeIfSteady onlyIf
  cases c : s.debounceDue i .closedContact
  · simp
  · simp [takeLevels_due]

end Sys2Proof.Machine
end

