-- ==== Sys2Proof/Laws/Receiver.lean ====
section
/-! SUPPORT. What the receivers make of bytes: where one holds none, the bytes of one complete frame are that frame
and leave none, so that such a MEAS_FRAME or HOST_FRAME is the handling of its frame; and what a good frame makes of
its link. -/

namespace Sys2Proof.Machine

/-- A field is read alike from any continuation of the bytes that hold it. -/
theorem field_append (xs ys : List Byte) (off n : Nat) (h : off + n ≤ xs.length) :
    field (xs ++ ys) off n = field xs off n := by
  unfold field
  rw [List.drop_append_of_le_length (by omega), List.take_append_of_le_length (by simp; omega)]

/-- From the marker on, the bytes of a complete frame are received as that frame. -/
theorem receive_rest (pre post : List Byte) (h : measComplete (pre ++ post) = true) (marker : 2 ≤ pre.length)
    (more : post ≠ []) : receiveBytes pre post = ([.complete (pre ++ post)], []) := by
  induction post generalizing pre with
  | nil => exact absurd rfl more
  | cons b bs ih =>
    have e : pre ++ b :: bs = (pre ++ [b]) ++ bs := by simp
    rw [e] at h
    have k := h
    simp only [measComplete, decide_eq_true_eq] at k
    obtain ⟨-, -, c1, c8, len⟩ := k
    simp only [List.length_append, List.length_singleton] at len
    obtain ⟨x, y, pre', rfl⟩ : ∃ x y p, pre = x :: y :: p := by
      match pre, marker with
      | x :: y :: p, _ => exact ⟨x, y, p, rfl⟩
    have cnt : 7 ≤ ((x :: y :: pre') ++ [b]).length →
        measCount ((x :: y :: pre') ++ [b]) = measCount ((x :: y :: pre') ++ [b] ++ bs) :=
      fun l => (field_append _ bs 6 1 l).symm
    unfold receiveBytes receiveByte
    simp only
    generalize hp : (x :: y :: pre') ++ [b] = p at *
    have pl : p.length = (x :: y :: pre').length + 1 := by rw [← hp]; simp
    rw [e]
    by_cases nil : bs = []
    · subst nil
      simp only [List.append_nil] at *
      rw [if_neg (by omega), if_pos ⟨by simp at len pl; omega, by simp at len pl; omega⟩]
      simp [receiveBytes]
    · have pos : 0 < bs.length := List.length_pos_of_ne_nil nil
      rw [if_neg (fun q => by have := cnt (by omega); omega),
        if_neg (fun q => by have := cnt q.1; simp at len pl; omega)]
      simp only [Option.toList, List.nil_append]
      have := ih p h (by rw [pl]; simp) nil
      rw [this]

/-- A hunting receiver makes of the bytes of a complete frame that frame, and holds nothing after it. -/
theorem receive_whole (bs : List Byte) (h : measComplete bs = true) :
    receiveBytes [] bs = ([.complete bs], []) := by
  have k := h
  simp only [measComplete, decide_eq_true_eq] at k
  obtain ⟨m, len, -⟩ := k
  match bs, len with
  | x :: y :: z :: rest, _ =>
    have m' : x.toNat * 256 + y.toNat = 0x5AC3 := by simpa [field, readBytes] using m
    have hx : x = 0x5A#8 := BitVec.eq_of_toNat_eq (by have := x.isLt; have := y.isLt; simp; omega)
    have hy : y = 0xC3#8 := BitVec.eq_of_toNat_eq (by have := x.isLt; have := y.isLt; simp; omega)
    subst hx
    subst hy
    have := receive_rest [0x5A#8, 0xC3#8] (z :: rest) h (by simp) (by simp)
    simpa [receiveBytes, receiveByte] using this

/-- A link's record that its update leaves as it is leaves the state as it is. -/
theorem onLink_same {l : Link} {s : State} (f : LinkRec → LinkRec) (h : f (s.link l) = s.link l) :
    s.onLink l f = s := by
  cases l
  · unfold State.onLink State.onMi
    simp only
    rw [show f s.mi.linkA = s.mi.linkA from h]
  · unfold State.onLink State.onMi
    simp only
    rw [show f s.mi.linkB = s.mi.linkB from h]

/-- A link's receiver that hunts and holds nothing. -/
theorem held_none {r : LinkRec} (h : r.rx = none) : r.held = [] := by simp [LinkRec.held, bytesHeld, h]

/-- A link's receiver that hunts has no step count byte to come. -/
theorem countNext_none {l : Link} {s : State} (h : (s.link l).rx = none) : s.countNext l = false := by
  simp [State.countNext, held_none h]

/-- The bytes of a complete frame leave a hunting receiver as it was. -/
theorem received_whole {l : Link} {bs : List Byte} {s : State} (hunts : (s.link l).rx = none)
    (h : measComplete bs = true) : received l bs s = s := by
  unfold received
  split
  · rfl
  · refine onLink_same _ ?_
    rw [held_none hunts, receive_whole bs h, inProgress, if_pos rfl, ← hunts]

/-- The one frame among the bytes of a complete frame, at a hunting receiver. -/
theorem framesAmong_whole {l : Link} {bs : List Byte} {s : State} (hunts : (s.link l).rx = none)
    (h : measComplete bs = true) : s.framesAmong l bs = [.complete bs] := by
  unfold State.framesAmong
  rw [held_none hunts, receive_whole bs h]

/-- A complete frame that arrives at a hunting receiver is handled as that frame. -/
theorem bytesArrive_whole {l : Link} {bs : List Byte} {s : State} (hunts : (s.link l).rx = none)
    (h : measComplete bs = true) : bytesArrive l bs s = frameEnds l (.complete bs) s := by
  unfold bytesArrive
  rw [framesAmong_whole hunts h, received_whole hunts h]
  rfl

/-- A complete frame that a command brings to a hunting receiver is handled as that frame. -/
theorem frameArrives_whole {l : Link} {bs : List Byte} {s : State} (hunts : (s.link l).rx = none)
    (h : measComplete bs = true) : frameArrives l (.complete bs) s = frameEnds l (.complete bs) s := by
  show bytesArrive l bs (gapTaken l s) = _
  rw [gapTaken_eq (gapOver_none hunts), bytesArrive_whole hunts h]

/-- The posting of a complete frame that arrives at a hunting receiver. -/
theorem posting_whole {l : Link} {bs : List Byte} {s : State} (hunts : (s.link l).rx = none)
    (h : measComplete bs = true) :
    s.posting l bs
      = if classify s.su.active l (.complete bs) = .good then
          if (intake (measRecord s.su.active l bs s.now) s).mi.active = some l then
            some (measRecord s.su.active l bs s.now, (intake (measRecord s.su.active l bs s.now) s).elapsed,
              setPosted (measRecord s.su.active l bs s.now) (intake (measRecord s.su.active l bs s.now) s))
          else none
        else none := by
  unfold State.posting
  rw [gapOver_none hunts, if_neg (by simp), framesAmong_whole hunts h, received_whole hunts h]

/-- A link's record after its update. -/
theorem onLink_link (l : Link) (f : LinkRec → LinkRec) (s : State) : (s.onLink l f).link l = f (s.link l) := by
  cases l <;> rfl

/-- A good frame that takes its link into LOCKED. -/
theorem intake_enters {m : MeasRecord} {s : State} (was : (s.link m.link).state ≠ .locked)
    (new : ((s.link m.link).good m.sequence s.now).state = .locked) :
    intake m s = (let t := enteredLocked m.link (s.onLink m.link (fun r => r.good m.sequence s.now))
      (if t.mi.active = some m.link then compareUnits m t else t).onLink m.link
        (fun r => { r with latest := some m })) := by
  unfold intake
  simp only [onLink_link, was, new, ne_eq, not_false_eq_true, and_self, if_true]

/-- A good frame that takes its link out of LOCKED. -/
theorem intake_leaves {m : MeasRecord} {s : State} (was : (s.link m.link).state = .locked)
    (new : ((s.link m.link).good m.sequence s.now).state ≠ .locked) :
    intake m s = (let t := leftLocked m.link (s.onLink m.link (fun r => r.good m.sequence s.now))
      (if t.mi.active = some m.link then compareUnits m t else t).onLink m.link
        (fun r => { r with latest := some m })) := by
  unfold intake
  simp only [onLink_link, was, new, ne_eq, not_true_eq_false, not_false_eq_true, and_self, if_true,
    if_false]

/-- A good frame that leaves its link in LOCKED, or out of it. -/
theorem intake_stays {m : MeasRecord} {s : State}
    (same : ((s.link m.link).good m.sequence s.now).state = .locked ↔ (s.link m.link).state = .locked) :
    intake m s = (let t := s.onLink m.link (fun r => r.good m.sequence s.now)
      (if s.mi.active = some m.link then compareUnits m t else t).onLink m.link
        (fun r => { r with latest := some m })) := by
  have act : (s.onLink m.link (fun r => r.good m.sequence s.now)).mi.active = s.mi.active := by
    cases m.link <;> rfl
  have enters : ¬((s.link m.link).state ≠ .locked
      ∧ ((s.link m.link).good m.sequence s.now).state = .locked) := fun x => x.1 (same.1 x.2)
  have leaves : ¬((s.link m.link).state = .locked
      ∧ ((s.link m.link).good m.sequence s.now).state ≠ .locked) := fun x => x.2 (same.2 x.1)
  unfold intake
  simp only [onLink_link, if_neg enters, if_neg leaves, act]

/-- A good frame is a complete one. -/
theorem complete_of_good {c : Settings} {l : Link} {bs : List Byte}
    (h : classify c l (.complete bs) = .good) : measComplete bs = true := by
  by_contra k
  have k' : measComplete bs = false := by simpa using k
  simp [classify, k'] at h

/-! ### The host line (R171) -/

/-- Inside a host frame its bytes are held until the last one, at which the frame is handled. -/
theorem hostByte_rest (pre post : List Byte) (h : hostComplete (pre ++ post) = true) (begun : pre ≠ [])
    (more : post ≠ []) (s : State) (holds : s.hostHeld = pre) :
    post.foldl hostByte s = hostFrameEnds (pre ++ post) (s.onHlk (fun k => { k with rx := none })) := by
  induction post generalizing pre s with
  | nil => exact absurd rfl more
  | cons b bs ih =>
    have e : pre ++ b :: bs = (pre ++ [b]) ++ bs := by simp
    have k := h
    rw [e] at k ⊢
    simp only [hostComplete, decide_eq_true_eq] at k
    obtain ⟨-, short, len⟩ := k
    have two : 2 ≤ (pre ++ [b]).length := by
      have : 0 < pre.length := List.length_pos_of_ne_nil begun
      simp; omega
    rw [field_append _ bs 1 1 (by omega)] at short len
    have goes : bs ≠ [] → receiveHostByte pre b = (none, pre ++ [b]) := by
      intro nn
      have : 0 < bs.length := List.length_pos_of_ne_nil nn
      unfold receiveHostByte
      match pre, begun with
      | [x], _ =>
        have : field [x, b] 1 1 = b.toNat := by simp [field, readBytes]
        simp only [List.singleton_append, this] at short
        simp [Nat.not_lt.mpr short]
      | x :: y :: r, _ =>
        simp only
        rw [if_neg (by rw [List.length_append] at len; omega)]
    by_cases nil : bs = []
    · subst nil
      have ends : receiveHostByte pre b = (some (.complete (pre ++ [b])), []) := by
        unfold receiveHostByte
        match pre, begun with
        | [x], _ => simp at len
        | x :: y :: r, _ =>
          simp only
          rw [if_pos (by simpa using len)]
      show hostByte s b = _
      unfold hostByte
      rw [holds, ends, List.append_nil]
      rfl
    · have goes := goes nil
      have step : hostByte s b = holdHost (pre ++ [b]) s := by
        unfold hostByte
        rw [holds, goes]
        rfl
      show bs.foldl hostByte (hostByte s b) = _
      rw [step, ih (pre ++ [b]) (by rw [← e]; exact h) (by simp) nil (holdHost (pre ++ [b]) s)
        (by simp [State.hostHeld, holdHost, inProgress, bytesHeld])]
      rfl

/-- The bytes of a complete host frame at a hunting receiver are the handling of that frame. -/
theorem hostBytes_whole {bs : List Byte} {s : State} (hunts : s.hlk.rx = none) (h : hostComplete bs = true) :
    hostBytes bs s = hostFrameEnds bs s := by
  have gap : hostGapTaken s = s := by simp [hostGapTaken, State.hostGapOver, gapLasted, hunts]
  have k := h
  simp only [hostComplete, decide_eq_true_eq] at k
  obtain ⟨start, -, len⟩ := k
  match bs, len with
  | x :: y :: rest, _ =>
    have hx : x = 0xA5#8 := BitVec.eq_of_toNat_eq (by simpa [field, readBytes] using start)
    subst hx
    have first : hostByte s 0xA5#8 = holdHost [0xA5#8] s := by
      unfold hostByte
      rw [show s.hostHeld = [] by simp [State.hostHeld, bytesHeld, hunts]]
      rfl
    have same : (holdHost [0xA5#8] s).onHlk (fun k => { k with rx := none }) = s := by
      show { s with hlk := { s.hlk with rx := none } } = s
      rw [← hunts]
    unfold hostBytes
    rw [gap, List.foldl_cons, first, hostByte_rest [0xA5#8] (y :: rest) h (by simp) (by simp) _
      (by simp [State.hostHeld, holdHost, inProgress, bytesHeld]), same]
    rfl

end Sys2Proof.Machine
end

