-- ==== Sys2Proof/Laws/Selector.lean ====
section
/-! SUPPORT. What the source selector and the comparison leave of Measurement Intake: each says once which of its
fields an operation writes, and a failed frame leaves its receiver hunting, so that a gap is taken once. -/

namespace Sys2Proof.Machine

/-- MEAS_DISAGREE's start writes that condition alone. -/
theorem startDisagree_mi (s : State) : (startDisagree s).mi = { s.mi with disagree := true } := by
  unfold startDisagree
  rw [(measCondition_chain ..).mi, (setHold_chain ..).mi]
  rfl

/-- MEAS_DISAGREE's end writes that condition alone. -/
theorem endDisagree_mi (s : State) : (endDisagree s).mi = { s.mi with disagree := false } := by
  unfold endDisagree
  split
  · rw [(measCondition_chain ..).mi, (setHold_chain ..).mi]
    rfl
  · rename_i h
    rw [← show s.mi.disagree = false by simpa using h]

/-- The comparison writes MEAS_DISAGREE and its two counts alone. -/
theorem compareUnits_mi (m : MeasRecord) (s : State) : (compareUnits m s).mi = { s.mi with
    disagree := (compareUnits m s).mi.disagree
    disagreeCount := (compareUnits m s).mi.disagreeCount
    agreeCount := (compareUnits m s).mi.agreeCount } := by
  unfold compareUnits
  split
  · split
    · rfl
    · split
      · unfold followCounts
        generalize meansDisagree _ _ _ = b
        split
        · rw [startDisagree_mi]
          cases b <;> rfl
        · split
          · rw [endDisagree_mi]
            cases b <;> rfl
          · cases b <;> rfl
      · rfl
  · rfl

/-- A source gained: active, with the window stopped, the next posting a fresh start, no link waiting, MEAS_LOST
ended. -/
theorem sourceGained_mi (l : Link) (s : State) : (sourceGained l s).mi = { s.mi with
    active := some l, window := none, freshStart := true, waiting := [], lost := false } := by
  unfold sourceGained
  simp only [(setHold_chain ..).mi, (measCondition_chain ..).mi]
  rfl

/-- A source switched is the active one. -/
theorem sourceSwitched_mi (l : Link) (s : State) : (sourceSwitched l s).mi = { s.mi with active := some l } := by
  unfold sourceSwitched
  simp only
  rw [(pulse_chain ..).mi, (raiseNotice_chain ..).mi, (abortCapture_chain ..).mi, (setHold_chain ..).mi]
  rfl

/-- A source lost leaves none, MEAS_LOST, and the next posting a fresh start. -/
theorem sourceLost_mi (s : State) : (sourceLost s).mi = { s.mi with
    active := none, freshStart := true, lost := true } := by
  unfold sourceLost ubpSourceLost
  simp only
  rw [(measCondition_chain ..).mi, (abortCapture_chain ..).mi, (unbCondition_chain ..).mi]
  show (setHold .switchover false (setHold .noSource true _)).mi = _
  rw [(setHold_chain ..).mi, (setHold_chain ..).mi]
  rfl

/-- A link that leaves LOCKED: its role goes to the other where that is LOCKED and else to none, its waiting records go,
and no comparison is left. -/
theorem leftLocked_mi (l : Link) (s : State) : (leftLocked l s).mi =
    { (if s.mi.active = some l then
        if s.locked l.other then { s.mi with active := some l.other }
        else { s.mi with active := none, freshStart := true, lost := true }
      else { s.mi with waiting := s.mi.waiting.filter (fun r => r.link != l) }) with
      disagree := false, disagreeCount := 0, agreeCount := 0 } := by
  have drop : ∀ u : State, (dropComparison u).mi
      = { u.mi with disagree := false, disagreeCount := 0, agreeCount := 0 } := by
    intro u
    unfold dropComparison
    rw [endDisagree_mi]
    rfl
  unfold leftLocked
  rw [drop]
  split
  · split
    · rw [sourceSwitched_mi]
    · rw [sourceLost_mi]
  · rfl

/-- A link that leaves LOCKED is not the active source after it. -/
theorem leftLocked_active (l : Link) (s : State) : (leftLocked l s).mi.active ≠ some l := by
  rw [leftLocked_mi]
  show (if _ then _ else _ : Intake).active ≠ some l
  split
  · split
    · cases l <;> simp [Link.other]
    · simp
  · assumption

/-- A link that leaves LOCKED changes no link's record. -/
theorem leftLocked_link (l k : Link) (s : State) : (leftLocked l s).link k = s.link k := by
  unfold State.link
  cases k <;> (rw [leftLocked_mi]; by_cases a : s.mi.active = some l <;> by_cases b : s.locked l.other = true <;> simp [a, b])

/-- A failed frame leaves a receiver that hunts as it was. -/
theorem failed_hunts {l : Link} {s : State} (h : (s.link l).rx = none) :
    ((frameEnds l .failed s).link l).rx = none := by
  have bad : ((s.onLink l (fun r => r.bad_ .corrupt)).link l).rx = none := by
    rw [onLink_link]
    unfold LinkRec.bad_
    simp only
    split
    · exact h
    · exact h
    · split <;> exact h
  show ((badFrame l .corrupt s).link l).rx = none
  unfold badFrame
  simp only
  split
  · rw [leftLocked_link]
    exact bad
  · exact bad

/-- A gap is taken once: its frame has failed, and the receiver hunts. -/
theorem gapTaken_twice (l : Link) (s : State) : gapTaken l (gapTaken l s) = gapTaken l s := by
  by_cases h : s.gapOver l = true
  · have fails : gapTaken l s = frameFails l s := if_pos h
    rw [fails]
    refine gapTaken_eq (gapOver_none ?_)
    exact failed_hunts (by rw [onLink_link])
  · have stays : gapTaken l s = s := gapTaken_eq (by simpa using h)
    rw [stays, stays]

end Sys2Proof.Machine
end

