-- ==== Sys2Proof/Laws/Posting.lean ====
section
/-! SUPPORT. What a posting passes on. A quantity read from the state that no elementary change of the
switching machinery touches is kept by each of the three consumers, unless it reads what that consumer writes;
and a frame that is posted is handled by its consumers on a state that differs in Measurement Intake alone but
for that machinery. -/

namespace Sys2Proof.Machine

/-- A reading of the state that no elementary change of the switching machinery touches. -/
def Untouched {α : Type} (g : State → α) : Prop := ∀ s t, Atom s t → g t = g s

theorem Untouched.chain {α : Type} {g : State → α} (h : Untouched g) {s t : State} (c : Chain s t) : g t = g s :=
  c.same g h

/-- A fold of changes that keep a reading keeps it. -/
theorem foldl_keeps {α β : Type} (g : State → α) (f : State → β → State) (h : ∀ s b, g (f s b) = g s)
    (xs : List β) (s : State) : g (xs.foldl f s) = g s := by
  induction xs generalizing s with
  | nil => rfl
  | cons x xs ih => rw [List.foldl_cons, ih, h]

/-! ### The regulator -/

theorem regulate_chain (i : StepIx) (k : Kind) (s : State) (h : s.vrg.reg ≠ .hold) : Chain s (regulate i k s) := by
  refine Chain.trans ?_ (request_chain i k .regulator _ (by decide))
  exact (Chain.single (.regulator s .pending (some ⟨i, k⟩) 0 0 s.vrg.noCandidate
    (by simp [h]))).trans (endNoCandidate_chain _)

theorem decide_chain (volts : Nat) (s : State) (h : s.vrg.reg ≠ .hold) : Chain s (decide_ volts s) := by
  have a : ∀ k c, Chain s (afterSearch k c s) := by
    intro k c
    cases c with
    | none => exact startNoCandidate_chain s
    | some i => exact regulate_chain i k s h
  unfold decide_
  exact .ite (fun _ => .ite (fun _ => .refl s) (fun _ => a ..))
    (fun _ => .ite (fun _ => .ite (fun _ => .refl s) (fun _ => a ..)) (fun _ => endNoCandidate_chain s))

/-- The band step is made of elementary changes. -/
theorem bandStep_chain (m : MeasRecord) (e : Nat) (s : State) : Chain s (bandStep m e s) := by
  unfold bandStep
  refine .ite (fun w => ?_) (fun _ => .refl s)
  have b : Chain s (bandAdvance m e s) := by
    have : bandAdvance m e s = { s with vrg := { s.vrg with
        reg := s.vrg.reg, target := s.vrg.target, below := (s.vrg.band s.su.active m.mean e).below
        above := (s.vrg.band s.su.active m.mean e).above, noCandidate := s.vrg.noCandidate } } := by
      unfold bandAdvance State.onVrg Regulator.band
      split <;> [skip; split] <;> rfl
    rw [this]
    exact .single (.regulator s _ _ _ _ _ Iff.rfl)
  refine b.trans (decide_chain _ _ ?_)
  have : (bandAdvance m e s).vrg.reg = s.vrg.reg := by
    unfold bandAdvance State.onVrg Regulator.band
    show (if _ then _ else _ : Regulator).reg = _
    split <;> [skip; split] <;> rfl
  rw [this, w]
  decide

/-- What VRG does on a posting keeps a reading that reads nothing of the regulator but its mode. -/
theorem vrgPosting_keeps {α : Type} {g : State → α} (h : Untouched g)
    (vrg : ∀ (s : State) (v : Regulator), v.mode = s.vrg.mode → g { s with vrg := v } = g s)
    (m : MeasRecord) (e : Nat) (s : State) : g (vrgPosting m e s) = g s := by
  have on : ∀ (f : Regulator → Regulator) (s : State), (f s.vrg).mode = s.vrg.mode → g (s.onVrg f) = g s :=
    fun f s k => vrg s (f s.vrg) k
  have ov : ∀ s, g (overvoltageGuard m e s) = g s := by
    intro s
    unfold overvoltageGuard startOvervoltage endOvervoltage
    simp only
    split
    · split
      · split
        · rw [h.chain (guardNewest_chain _), on _ _ rfl, on _ _ rfl]
        · rw [on _ _ rfl, on _ _ rfl]
      · split
        · rw [h.chain (condition_chain ..), h.chain (guardNewest_chain _), on _ _ rfl, on _ _ rfl]
        · rw [on _ _ rfl]
    · split
      · rw [h.chain (condition_chain ..), on _ _ rfl, on _ _ rfl]
      · rw [on _ _ rfl]
  have lv : ∀ s, g (lossOfVoltageGuard m e s) = g s := by
    intro s
    unfold lossOfVoltageGuard startLossOfVoltage endLossOfVoltage
    simp only
    generalize (if m.mean < s.y .vu then min (s.vrg.lovAcc + e) (s.y .tlov) else 0) = acc
    split
    · split
      · split
        · rw [h.chain (condition_chain ..), h.chain (setHold_chain ..), on _ _ rfl, on _ _ rfl]
        · rw [on _ _ rfl]
      · rw [on _ _ rfl]
    · split
      · rw [h.chain (condition_chain ..), h.chain (dispatcher_chain ..),
          h.chain (Chain.foldl _ (fun t i => takeProtection_chain i _ t) _ _), h.chain (setHold_chain ..),
          on _ _ rfl, on _ _ rfl]
      · rw [on _ _ rfl]
  have gu : ∀ s, g (guards m e s) = g s := by
    intro s
    unfold guards
    split
    · rfl
    · rw [lv, ov]
  have ar : ∀ s, g (vrgArrival s) = g s := by
    intro s
    have a : g (if s.vrg.holds.switchover then setHold .switchover false s else s) = g s := by
      split
      · exact h.chain (setHold_chain ..)
      · rfl
    unfold vrgArrival
    simp only
    generalize (if s.vrg.holds.switchover then setHold .switchover false s else s) = s1 at a ⊢
    split
    · rw [on _ _ rfl, a]
    · exact a
  unfold vrgPosting vrgGuards
  rw [h.chain (bandStep_chain ..), gu, ar]

/-! ### The Harmonic Supervisor -/

theorem recordRemoval_chain (q : QtyIx) (c : Option StepIx) (s : State) : Chain s (recordRemoval q c s) := by
  let made : Option Removal := some ⟨c, s.uptime, none⟩
  let f : QtyIx → Option Removal := fun j => if j = q then made else (s.hsv.qtys.get j).removal
  have : Tab.upd s.hsv.qtys q (fun r => { r with removal := made })
      = Tab.build (fun j => { s.hsv.qtys.get j with removal := f j }) := by
    apply Tab.ext_get
    intro j
    rw [Tab.get_upd, Tab.get_build]
    by_cases h : j = q
    · subst h
      simp [f]
    · simp [f, h]
  have k := Atom.removals s f
  rw [← this] at k
  exact .single k

theorem takeRemoval_chain (q : QtyIx) (c : Option StepIx) (s : State) : Chain s (takeRemoval q c s) :=
  (recordRemoval_chain q c s).trans (raiseRemoval_chain c _)

theorem takeRemovals_chain (cs : List (QtyIx × Option StepIx)) (s : State) : Chain s (takeRemovals cs s) := by
  unfold takeRemovals
  exact Chain.foldl _ (fun t p => takeRemoval_chain p.1 p.2 t) cs s

/-- The state with a record taken into the quantities, or set aside, as a posting begins with it. -/
def harmonicTaken (m : MeasRecord) (s : State) : State :=
  s.onHsv (fun h =>
    if freqOutOfRange m.status then { h with skipped := satInc Config.count16 h.skipped }
    else h.takeRecord s.su.active (s.now + s.ySec .removeRepeat) m)

/-- What HSV does on a posting, after it has taken the record, is made of elementary changes. -/
theorem hsvPosting_chain (m : MeasRecord) (s : State) : Chain (harmonicTaken m s) (hsvPosting m s) := by
  unfold harmonicTaken hsvPosting
  cases freqOutOfRange m.status
  · simp only [Bool.false_eq_true, if_false]
    generalize s.onHsv (fun h => h.takeRecord s.su.active (s.now + s.ySec .removeRepeat) m) = s1
    exact (harmConditions_chain s1).trans (takeRemovals_chain ..)
  · exact .refl _

/-- What HSV does on a posting keeps a reading that reads nothing of it. -/
theorem hsvPosting_keeps {α : Type} {g : State → α} (h : Untouched g)
    (hsv : ∀ (s : State) (v : Harmonics), g { s with hsv := v } = g s)
    (m : MeasRecord) (s : State) : g (hsvPosting m s) = g s :=
  (h.chain (hsvPosting_chain m s)).trans (hsv s _)

/-! ### Unbalance Protection -/

/-- The record of a trip writes the history and the last trip of its step, and the unbalance record of no other. -/
theorem recordTrip_ub (i j : StepIx) (g : TripStage) (s : State) :
    (recordTrip i g s).ub j = if j = i then { s.ub i with
      history := appendStamp (s.ub i).history s.uptime
      lastTrip := some ⟨s.uptime, g, (s.ub i).lastMag.getD 0,
        s.tripCause (appendStamp (s.ub i).history s.uptime)⟩ } else s.ub j := by
  unfold recordTrip
  simp only
  rw [onUb_ub]

/-- The trips and the alarm of a posting write no unbalance record but in the records of the trips. -/
theorem protect_ub (ps : List (StepIx × TripStage)) (t : State) :
    (protect ps t).ubp.steps = (ps.foldl (fun r p => recordTrip p.1 p.2 r) t).ubp.steps := (protect_chain ps t).ub

/-- The trips and the alarm of a posting keep a reading that reads nothing of UBP. -/
theorem protect_keeps {α : Type} {g : State → α} (h : Untouched g)
    (ubp : ∀ (s : State) (v : Unbalance), g { s with ubp := v } = g s)
    (ps : List (StepIx × TripStage)) (t : State) : g (protect ps t) = g t :=
  (h.chain (protect_chain ps t)).trans (foldl_keeps g _ (fun s _ => ubp s _) ps t)

/-- What UBP does on a posting keeps a reading that reads nothing of it. -/
theorem ubpPosting_keeps {α : Type} {g : State → α} (h : Untouched g)
    (ubp : ∀ (s : State) (v : Unbalance), g { s with ubp := v } = g s)
    (m : MeasRecord) (e : Nat) (s : State) : g (ubpPosting m e s) = g s := by
  have ad : ∀ s, g (advanceCapture m s) = g s := by
    intro s
    unfold advanceCapture
    split
    · rfl
    · split
      · rfl
      · split
        · unfold completeCapture
          rw [h.chain (raiseNotice_chain ..)]
          exact (ubp _ _).trans (ubp s _)
        · exact ubp s _
  unfold ubpPosting
  simp only
  rw [ad, protect_keeps h ubp]
  exact ubp s _

/-- The consumers change nothing of Measurement Intake. -/
theorem consumers_mi (m : MeasRecord) (e : Nat) (s : State) : (consumers m e s).mi = s.mi := by
  have h : Untouched (fun s => s.mi) := fun _ _ a => a.mi
  unfold consumers
  rw [ubpPosting_keeps h (fun _ _ => rfl), hsvPosting_keeps h (fun _ _ => rfl), vrgPosting_keeps h (fun _ _ _ => rfl)]

/-! ### Up to the posting -/

/-- Arriving bytes of which one frame is posted: its record is of its link, the state in which it is posted is
intake's with the record set, and their handling is that of the consumers. -/
theorem posting_eq {l : Link} {bs : List Byte} {s u : State} {m : MeasRecord} {e : Nat}
    (h : s.posting l bs = some (m, e, u)) :
    (s.gapOver l = false ∧ ∃ frame, s.framesAmong l bs = [.complete frame] ∧ m = measRecord s.su.active l frame s.now)
      ∧ m.link = l
      ∧ (intake m (received l bs s)).mi.active = some l ∧ u = setPosted m (intake m (received l bs s))
      ∧ frameArrives l (.complete bs) s = consumers m e u := by
  unfold State.posting at h
  split at h
  · rename_i frame one
    have gap : s.gapOver l = false := by
      cases k : s.gapOver l
      · rfl
      · rw [k] at one
        cases one
    rw [gap, if_neg (by simp)] at one
    split at h
    · rename_i good
      simp only at h
      split at h
      · rename_i act
        obtain ⟨rfl, h2⟩ := Prod.mk.inj (Option.some.inj h)
        obtain ⟨rfl, rfl⟩ := Prod.mk.inj h2
        refine ⟨⟨gap, frame, one, rfl⟩, rfl, act, rfl, ?_⟩
        have su : (received l bs s).su = s.su := by
          unfold received
          split
          · rfl
          · cases l <;> rfl
        have now : (received l bs s).now = s.now := by
          unfold received
          split
          · rfl
          · cases l <;> rfl
        show bytesArrive l bs (gapTaken l s) = _
        rw [gapTaken_eq gap]
        unfold bytesArrive
        rw [one]
        show frameEnds l (.complete frame) (received l bs s) = _
        unfold frameEnds
        rw [su, now, good]
        simp only [goodFrame]
        exact if_pos act
      · cases h
    · cases h
  · cases h

/-- Measurement Intake keeps, up to a posting, a reading that reads nothing of it. -/
theorem intake_keeps {α : Type} {g : State → α} (h : Untouched g)
    (mi : ∀ (s : State) (v : Intake), g { s with mi := v } = g s) {m : MeasRecord} {s : State}
    (posted : (intake m s).mi.active = some m.link) : g (intake m s) = g s := by
  have ln : ∀ (l : Link) (f : LinkRec → LinkRec) (s : State), g (s.onLink l f) = g s := by
    intro l f s
    cases l
    · exact mi s _
    · exact mi s _
  have ms : ∀ src c b s, g (measCondition src c b s) = g s := fun _ _ _ _ => h.chain (measCondition_chain ..)
  have ed : ∀ s, g (endDisagree s) = g s := by
    intro s
    unfold endDisagree
    split
    · rw [ms, h.chain (setHold_chain ..)]
      exact mi s _
    · rfl
  have sd : ∀ s, g (startDisagree s) = g s := by
    intro s
    unfold startDisagree
    rw [ms, h.chain (setHold_chain ..)]
    exact mi s _
  have cu : ∀ s, g (compareUnits m s) = g s := by
    intro s
    unfold compareUnits followCounts
    split
    · split
      · rfl
      · split
        · split
          · rw [sd]
            exact mi s _
          · split
            · rw [ed]
              exact mi s _
            · exact mi s _
        · rfl
    · rfl
  have en : ∀ s, g (enteredLocked m.link s) = g s := by
    intro s
    unfold enteredLocked sourceGained
    split
    · simp only
      rw [h.chain (setHold_chain ..), ms]
      exact mi s _
    · rfl
  have ca : ∀ s, (compareUnits m s).mi.active = s.mi.active := fun s => by rw [compareUnits_mi]
  unfold intake at posted ⊢
  simp only at posted ⊢
  have e1 : g (s.onLink m.link (fun r => r.good m.sequence s.now)) = g s := ln ..
  generalize s.onLink m.link (fun r => r.good m.sequence s.now) = s1 at e1 posted ⊢
  have act : ∀ (f : LinkRec → LinkRec) (s : State), (s.onLink m.link f).mi.active = s.mi.active := by
    intro f s
    cases m.link <;> rfl
  rw [act] at posted
  rw [ln]
  by_cases c1 : (s.link m.link).state ≠ .locked ∧ (s1.link m.link).state = .locked
  · rw [if_pos c1] at posted ⊢
    split
    · rw [cu, en, e1]
    · rw [en, e1]
  · rw [if_neg c1] at posted ⊢
    by_cases c2 : (s.link m.link).state = .locked ∧ (s1.link m.link).state ≠ .locked
    · rw [if_pos c2] at posted
      exfalso
      split at posted
      · rw [ca] at posted
        exact leftLocked_active _ _ posted
      · exact leftLocked_active _ _ posted
    · rw [if_neg c2] at posted ⊢
      split
      · rw [cu, e1]
      · exact e1

/-- What is kept from a state up to a posting in it. -/
theorem posted_keeps {α : Type} {g : State → α} (h : Untouched g)
    (mi : ∀ (s : State) (v : Intake), g { s with mi := v } = g s)
    {l : Link} {bs : List Byte} {s u : State} {m : MeasRecord} {e : Nat}
    (p : s.posting l bs = some (m, e, u)) : g u = g s := by
  obtain ⟨-, rfl, act, rfl, -⟩ := posting_eq p
  refine (mi _ _).trans ((intake_keeps h mi act).trans ?_)
  unfold received State.onLink
  split
  · rfl
  · split
    · exact mi s _
    · exact mi s _

end Sys2Proof.Machine
end

