-- ==== Sys2Proof/WellFormed.lean ====
section
/-! DEFINITION. Which commands are well formed: a command that carries the bytes of a frame carries a complete
frame (R1, R171, R205, R208), and a byte discarded while hunting is not one that would begin a frame. Every
other operand has no ill-formed value: a request carries whatever bytes its frame does (R175). -/

namespace Sys2Proof

/-- The bytes of a frame that ended complete are a complete frame (R1). -/
def FrameEnd.wf : FrameEnd → Bool
  | .complete bs => Machine.measComplete bs
  | .failed => true

/-- An occurrence on a link is well formed when its frame is. -/
def LinkOccurrence.wf : LinkOccurrence → Bool
  | .frame e => e.wf
  | .silence100 => true

/-- Well-formed commands. -/
def Instr.wf : Instr → Bool
  | .measFrame _ bs => Machine.measComplete bs
  | .linkLocked _ bs => Machine.measComplete bs
  | .lockedBadFrameLimit _ e => e.wf
  | .measDisagreeStart _ bs => Machine.measComplete bs
  | .measDisagreeEnd _ what => what.wf
  | .insertDelayReached _ bs => Machine.measComplete bs
  | .removeDelayReached _ bs => Machine.measComplete bs
  | .overvoltageDelay _ bs => Machine.measComplete bs
  | .overvoltageRepeat _ bs => Machine.measComplete bs
  | .lossOfVoltageDelay _ bs => Machine.measComplete bs
  | .harmMoveUp _ _ bs => Machine.measComplete bs
  | .harmMoveDown _ _ bs => Machine.measComplete bs
  | .unbAlarm _ _ bs => Machine.measComplete bs
  | .unbTrip _ _ bs => Machine.measComplete bs
  | .captureComplete _ bs => Machine.measComplete bs
  | .hostFrame bs => Machine.hostComplete bs
  | .discardedByte b stopLow => stopLow || b != 0xA5#8
  | _ => true

end Sys2Proof
end

