-- ==== Sys2Proof/Tests/Slice0.lean ====
section
/-! SUPPORT. The model's own tests: the ill-formed commands that the check refuses, values the manual states, and
for each statement with hypotheses a state and operands that meet them, clause by clause. The states are made of
the reset state by the helpers at the head of the file; each test is about one command at most. -/

namespace Sys2Proof.Tests

open Sys2Proof Sys2Proof.Machine

set_option Elab.async false

/-! ### Helpers -/

/-- What holds of the next state of an outcome. -/
def after (o : Host.Outcome State Fault Refusal) (p : State → Bool) : Bool :=
  match o with
  | .next t => p t
  | _ => false

/-- The settings with step 1 installed. -/
def settings : Settings := Settings.factory.put (.step .installed 0) 1

/-- A link record: its state, run count, bad count, last sequence, last good frame and latest record. -/
def linkRec (st : LinkState) (run bad : Nat) (seq : Option Word16) (good : Option Nat)
    (latest : Option MeasRecord) : LinkRec :=
  { Reset.link with state := st, run := run, bad := bad, lastSeq := seq, lastGood := good, latest := latest }

/-- The record of a step in a state and at a position. -/
def stepRec (st : StepState) (p : Position) (cause : Option Cause) (basis : Option Basis) : StepRec :=
  { Reset.step with
    state := st, position := p, cause := cause, basis := basis
    lastDefinite := if p = .opened ∨ p = .closed then some p else none
    energizedAt := if st = .energized then some 90 else none }

/-- A measurement frame of one step block: unit, sequence, status, phase voltages, harmonic values, neutral
components. -/
def meas (unit seq status volts harm : Nat) (i q : Int) : List Byte :=
  let body := u8 unit ++ u16 seq ++ u8 status ++ u8 1 ++ u16 40000 ++ u16 volts ++ u16 volts ++ u16 volts
    ++ (List.replicate 13 (u16 harm)).flatten ++ u16 300 ++ u16 300 ++ u16 300 ++ i16 i ++ i16 q
  [0x5A#8, 0xC3#8] ++ body ++ u16 (crc16 body).toNat

/-- The frame that follows the yard's last one on link A: 10000 V, no harmonics, no neutral current. -/
def quiet : List Byte := meas 1 8 0 10000 0 0 0

/-- The regulator in AUTO and WATCH with no hold cause. -/
def watching : Regulator :=
  { Reset.regulator with
    mode := .auto, reg := .watch, holds := ⟨false, false, false, false, false, false⟩, startHold := .over }

/-- A yard in service: step 1 installed with the record given, link A LOCKED and active with sequence 7, link B
SILENT, the rebuild made, the regulator in WATCH, 100 s after the reset. -/
def yard (r : StepRec) : State :=
  { State.reset with
    now := 100000
    su := { Reset.settingsUnit with active := settings }
    mi := { Reset.intake with
      linkA := linkRec .locked 8 0 (some 7) (some 99980) none
      active := some .a, freshStart := false, window := none
      posted := some (measRecord settings .a (meas 1 7 0 10000 0 0 0) 99980) }
    st := { Reset.stepTable with
      steps := Tab.put Reset.stepTable.steps 0 r
      ring := if r.state = .ready then [0] else []
      service := if r.state = .energized then [0] else []
      rebuilt := true, debounceEnded := true }
    vrg := watching }

/-- Step 1 ENERGIZED with its breaker CLOSED, and supervised. -/
def live : State :=
  (yard (stepRec .energized .closed none none)).onUb 0 (fun u => { u with eval := .armed })

/-- Step 1 READY with its breaker OPEN, and pulses to spare. -/
def ready : State := (yard (stepRec .ready .opened none none)).onCd 0 (fun c => { c with duty := 0, dutyTimer := none })

/-- Step 1 LOCKED_OUT. -/
def locked (p : Position) (c : Cause) : State := yard (stepRec .lockedOut p (some c) none)

/-- An operation record of step 1. -/
def op (k : Kind) (g : Origin) (ph : Phase) : OpRecord :=
  { kind := k, origin := g, requesters := [.hlk], protMerged := false, phase := ph, start := 99000
    holdsSlot := decide (g ≠ .protection), pre := none, pulseDue := 99100, limitDue := 99200, settleDue := 100000 }

/-- The state with an operation on step 1, holding the slot where its origin does. -/
def flying (o : OpRecord) (s : State) : State :=
  (s.onSw 0 (fun r => { r with op := some o })).onSwu (fun w =>
    { w with slot := if o.holdsSlot then some 0 else none })

/-- The state with a queue of entries for step 1. -/
def queueing (es : List Entry) (s : State) : State := s.onSwu (fun w => { w with queue := es })

/-- A queue entry of step 1. -/
def entry (k : Kind) (q : Requester) : Entry := ⟨0, k, q.origin, [q], 99000⟩

/-- The state with a setting of its active set changed. -/
def setting (k : SettingKey) (v : Nat) (s : State) : State :=
  s.onSu (fun u => { u with active := u.active.put k v })

/-- A store image of factory settings that holds nothing else. -/
def image : StoreImage :=
  { settings := settings
    routes := Tab.build (fun _ => .none)
    notices := Tab.build (fun _ => (1, false))
    baselines := Tab.build (fun _ => none)
    rises := Tab.build (fun _ => none)
    opCounts := Tab.build (fun _ => 0) }

/-- A step that has no operation record has no operation in flight. -/
theorem no_op {s : State} {i : StepIx} {P : OpRecord → Prop} (h : (s.sw i).op = none) :
    ¬∃ o, (s.sw i).op = some o ∧ P o := by
  rintro ⟨o, k, -⟩
  rw [h] at k
  cases k

/-! ### Well-formedness: one ill-formed command for each check -/

theorem test_short_measurement_frame_refused :
    (Instr.measFrame .a [0x5A#8, 0xC3#8]).wf = false ∧ (Instr.linkLocked .a []).wf = false
      ∧ (Instr.measDisagreeStart .b []).wf = false ∧ (Instr.insertDelayReached .a []).wf = false
      ∧ (Instr.removeDelayReached .a []).wf = false ∧ (Instr.overvoltageDelay .a []).wf = false
      ∧ (Instr.overvoltageRepeat .a []).wf = false ∧ (Instr.lossOfVoltageDelay .a []).wf = false
      ∧ (Instr.harmMoveUp 0 .a []).wf = false ∧ (Instr.harmMoveDown 0 .a []).wf = false
      ∧ (Instr.unbAlarm 0 .a []).wf = false ∧ (Instr.unbTrip 0 .a []).wf = false
      ∧ (Instr.captureComplete .a []).wf = false := by decide +kernel

theorem test_incomplete_frame_end_refused :
    (Instr.lockedBadFrameLimit .a (.complete [])).wf = false
      ∧ (Instr.measDisagreeEnd .a (.frame (.complete []))).wf = false := by decide +kernel

theorem test_incomplete_host_frame_refused :
    (Instr.hostFrame [0xA5#8, 1#8, 1#8, 0#8, 0#8, 0#8]).wf = false := by decide +kernel

theorem test_frame_marker_is_not_discarded :
    (Instr.discardedByte 0xA5#8 false).wf = false ∧ (Instr.discardedByte 0xA5#8 true).wf = true := by
  decide +kernel

theorem test_complete_frames_accepted :
    (Instr.measFrame .a quiet).wf = true ∧ (Instr.hostFrame (requestFrame .ident 1#8)).wf = true := by
  decide +kernel

/-! ### Values that the manual states -/

theorem test_crc_of_the_nine_digits :
    crc16 [0x31#8, 0x32#8, 0x33#8, 0x34#8, 0x35#8, 0x36#8, 0x37#8, 0x38#8, 0x39#8] = 0x29B1#16 := by
  decide +kernel

theorem test_reset_is_its_own_reset : after (exec (.fullReset .powerOn false false) State.reset)
    (fun t => decide (t = State.reset)) = true := by decide +kernel

theorem test_ident_frame_is_answered :
    after (exec (.hostFrame (requestFrame .ident 0x11#8)) State.reset) (fun t =>
      decide ((t.hlk.sending.map (fun f => f.take 8)) = some [0xA5#8, 13#8, 0x81#8, 0x11#8, 0#8, 0x50#8, 8#8, 2#8]))
      = true := by decide +kernel

theorem test_root_rounds_down : root 0 = 0 ∧ root 24 = 4 ∧ root 25 = 5 ∧ root 8589672450 = 92680 := by
  decide +kernel

theorem test_idle_step_ticks : after (step State.reset) (fun t => decide (t.now = 1)) = true := by decide +kernel

/-! ### Witnesses: the step and the reset -/

theorem test_hyp_empty_queue :
    State.reset.pending = [] ∧ State.reset.resetHeld = none ∧ State.reset.dueCommand = none
      ∧ { State.reset with now := 20 }.dueCommand = some (.debounceExpiry 0 .closedContact)
      ∧ { State.reset with resetHeld := some .pin }.resetHeld.isSome = true := by decide +kernel

theorem test_hyp_image_valid : image.valid = true ∧ State.reset.su.image = none
    ∧ { image with notices := Tab.build (fun _ => (4, false)) }.valid = false := by decide +kernel

theorem test_hyp_other_notice_class : NoticeClass.trip ≠ NoticeClass.store := by decide

/-- The invariants hold in a yard in service, and it takes a step. -/
theorem test_hyp_sound_yard :
    live.coilsSafe ∧ live.fieldsFollow ∧ live.holdSound ∧ live.stagesSound ∧ live.levelsSound
      ∧ after (step live) (fun _ => true) = true := by
  refine ⟨?_, ?_, ?_, ?_, ?_, ?_⟩
  · unfold State.coilsSafe; decide +kernel
  · unfold State.fieldsFollow; decide +kernel
  · unfold State.holdSound; decide +kernel
  · unfold State.stagesSound; decide +kernel
  · unfold State.levelsSound; decide +kernel
  · decide +kernel

theorem test_hyp_sound_lists_and_queue :
    live.listsAgree ∧ (queueing [entry .opening .hlk] live).queueSound
      ∧ (flying (op .opening .station .pulsing) live).slotSound ∧ live.sourcesSound := by
  refine ⟨?_, ?_, ?_, ?_⟩
  · unfold State.listsAgree; decide +kernel
  · unfold State.queueSound Entry.before; decide +kernel
  · intro i o h
    have : (flying (op .opening .station .pulsing) live).sw i
        = if i = 0 then { Reset.swuStep with op := some (op .opening .station .pulsing) } else Reset.swuStep := by
      clear h
      revert i
      decide +kernel
    rw [this] at h
    split at h
    · cases h
      subst_vars
      decide +kernel
    · cases h
  · refine ⟨fun l h => ?_, fun _ => ?_⟩
    · cases l
      · decide +kernel
      · exact absurd h (by decide +kernel)
    · decide +kernel

/-! ### Witnesses: the host line -/

theorem test_hyp_request_frame : State.reset.resetHeld = none ∧ State.reset.hlk.receiver = .hunting
    ∧ State.reset.hlk.rx = none ∧ State.reset.hlk.busy = false := by decide +kernel

theorem test_hyp_discarded_and_refused_frames :
    hostComplete (requestFrame .ident 1#8) = true ∧ State.reset.hlk.rx = none
      ∧ ({ State.reset with hlk := { Reset.hostLink with busy := true } } : State).hlk.busy = true
      ∧ (let bad := [0xA5#8, 0#8, 1#8, 1#8, 0#8, 0#8]
         hostComplete bad = true ∧ hostCheckOk bad = false)
      ∧ (let unknown := hostFrameOf 0x7F 1#8 []
         hostComplete unknown = true ∧ hostCheckOk unknown = true
           ∧ decodeRequest (hostType unknown) (hostPayload unknown) = none)
      ∧ (let long := hostFrameOf 0x01 1#8 [0#8]
         hostComplete long = true ∧ hostCheckOk long = true
           ∧ decodeRequest (hostType long) (hostPayload long) = some none) := by decide +kernel

/-- The host line at 100 s with a frame in progress. -/
def onLine (bytes : List Byte) (due : Nat) : State :=
  { State.reset with now := 100000, hlk := { Reset.hostLink with rx := some ⟨bytes, due⟩ } }

/-- No byte held, one, and more of a frame of no payload; the gap over and not over. -/
theorem test_hyp_line_events :
    let short := onLine [0xA5#8] 100021
    let long := onLine ((requestFrame .ident 1#8).take 5) 100021
    let late := onLine [0xA5#8] 100000
    ({ Reset.hostLink with receiver := .ignoring } : HostLink).receiver = .ignoring
      ∧ ({ Reset.hostLink with sending := some [] } : HostLink).sending.isSome = true
      ∧ (0x00#8 : Byte) ≠ 0xA5#8 ∧ 240 < (241#8 : Byte).toNat ∧ (240#8 : Byte).toNat ≤ 240
      ∧ State.reset.hostHeld = [] ∧ short.hostHeld.length = 1 ∧ long.hostHeld.length = 5
      ∧ hostComplete (requestFrame .ident 1#8) = true
      ∧ requestFrame .ident 1#8 = long.hostHeld ++ [(requestFrame .ident 1#8).getLast?.getD 0#8]
      ∧ (long.hostHeld.take 4)[1]? = some 0#8 ∧ 4 + 1 ≠ (0#8 : Byte).toNat + 6
      ∧ short.receiving = true ∧ short.hostGapOver = false ∧ late.hostGapOver = true := by decide +kernel

/-- Junk before a frame is discarded and counted, the frame is held until its last byte and then answered. -/
theorem test_host_receiver_hunts_and_holds :
    let frame := requestFrame .ident 1#8
    let begun := onLine (frame.take 3) 100021
    after (exec (.hostFrame ([0#8, 1#8] ++ frame.take 3)) { State.reset with now := 100000 }) (fun t => decide (
      t = begun.onHlk (fun h => { h with counters := { h.counters with discarded := 2 } }))) = true
      ∧ after (exec (.hostFrame (frame.drop 3)) begun) (fun t => decide (
        t.hlk.rx = none ∧ t.hlk.counters.good = 1 ∧ t.hlk.busy = true)) = true := by decide +kernel

/-- A length byte above 240 and a gap of more than 20 ms abandon a frame in progress, each with its counter; with no
frame in progress nothing is abandoned. -/
theorem test_host_frames_are_abandoned :
    after (exec (.hostFrame [241#8, 0xA5#8]) (onLine [0xA5#8] 100021)) (fun t => decide (
      t = (onLine [0xA5#8] 100021).onHlk (fun h => { h with counters := { h.counters with lengthErrors := 1 } }))) = true
      ∧ after (exec (.hostFrame [0xA5#8]) (onLine [0xA5#8, 0#8] 100000)) (fun t => decide (
        t = (onLine [0xA5#8] 100021).onHlk (fun h => { h with counters := { h.counters with timeouts := 1 } }))) = true
      ∧ after (exec (.hostFrameAbandon .lineError) State.reset) (fun t => decide (t = State.reset)) = true
      ∧ after (exec .hostByteGapTimeout (onLine [0xA5#8] 100021)) (fun t => decide (t = onLine [0xA5#8] 100021))
        = true := by decide +kernel

theorem test_hyp_link_read : linkOfCode (0#8 : Byte).toNat = some .a ∧ linkOfCode (1#8 : Byte).toNat = some .b
    ∧ 1 < (2#8 : Byte).toNat := by decide +kernel

theorem test_hyp_reads : State.reset.queueSound ∧ (0#8 : Byte).toNat = 0 ∧ 8 < (9#8 : Byte).toNat
    ∧ 2 < (3#8 : Byte).toNat := by unfold State.queueSound Entry.before; decide +kernel

/-- A discharge timer that is due and not taken yet reads 1 s, and the reset causes have R201's codes. -/
theorem test_due_discharge_reads_one :
    (((yard (stepRec .discharging .opened none (some .own))).onCd 0 (fun c =>
        { c with discharge := some 100000 })).shownSeconds (some 100000)) = 1
      ∧ resetCauseCode .powerOn = 0 ∧ resetCauseCode .supply = 1 ∧ resetCauseCode .pin = 2 := by decide +kernel

/-! ### Witnesses: notices, settings and the store -/

theorem test_hyp_notice_fetch :
    (State.reset.notice .store).pending = true ∧ (State.reset.notice .store).masked = false
      ∧ (∀ d, d ≠ NoticeClass.store → (State.reset.notice d).pending = false)
      ∧ (∀ d, ((State.reset.onNotice .store (fun n => { n with masked := true })).notice d).pending = true →
          ((State.reset.onNotice .store (fun n => { n with masked := true })).notice d).masked = true) := by
  refine ⟨by decide +kernel, by decide +kernel, ?_, ?_⟩
  · intro d h
    revert h
    cases d <;> decide +kernel
  · intro d
    cases d <;> decide +kernel

theorem test_hyp_notice_operands : 14 < (15#8 : Byte).toNat ∧ 3 < (4#8 : Byte).toNat ∧ 1 < (2#8 : Byte).toNat
    ∧ (3#8 : Byte).toNat ≤ 3 ∧ (1#8 : Byte).toNat ≤ 1 ∧ (State.reset.notice .store).condition = true
    ∧ (State.reset.notice .trip).condition = false := by decide +kernel

theorem test_hyp_settings :
    SettingKey.ofItem 0 0 = none ∧ SettingKey.ofItem 1 0 = some (.yard .preferredLink)
      ∧ SettingKey.inRange (.yard .preferredLink) 1 = true ∧ SettingKey.inRange (.yard .preferredLink) 2 = false
      ∧ 1 < (2#8 : Byte).toNat ∧ SettingKey.ofItem 50 0 = none ∧ SettingKey.ofItem 1 1 = none
      ∧ SettingKey.ofItem 5 0 = none ∧ SettingKey.ofItem 5 9 = none ∧ SettingKey.ofItem 36 14 = none
      ∧ SettingKey.inRange (.yard .fallbackInterval) 59 = false
      ∧ SettingKey.inRange (.yard .fallbackInterval) 60 = true := by decide +kernel

/-- A pending set that fails check 1 and one that passes every check. -/
theorem test_hyp_settings_apply :
    let low : State := { State.reset with su := { Reset.settingsUnit with pendingSet := [(.yard .vh, 10000), (.yard .vl, 10000)] } }
    let good : State := { State.reset with su := { Reset.settingsUnit with pendingSet := [(.yard .vl, 9700)] } }
    (low.applyFailure (low.su.pendingSet.foldl (fun x p => x.put p.1 p.2) low.su.active)).isSome = true
      ∧ good.su.pendingSet ≠ []
      ∧ good.applyFailure (good.su.pendingSet.foldl (fun x p => x.put p.1 p.2) good.su.active) = none := by
  decide +kernel

/-- The state with a pending set, and the index of the first check it fails. -/
def pendingSet (ps : List (SettingKey × Nat)) (s : State) : State := s.onSu (fun u => { u with pendingSet := ps })

/-- Each of the six checks fails alone, with its index; the first failing one is reported. -/
theorem test_apply_failures :
    let fails (ps : List (SettingKey × Nat)) (n i : Nat) : Bool :=
      after (exec .settingsApply (pendingSet ps ready)) (fun t => decide (
        t = (pendingSet ps ready).replied ⟨.invalidSettings, u8 n ++ u8 i⟩))
    fails [(.yard .vl, 10000), (.yard .vh, 10000)] 1 0 = true
      ∧ fails [(.step .installed 2, 1), (.step .expectedRise 2, 2000)] 2 3 = true
      ∧ fails [(.yard .closePulse, 250)] 3 0 = true
      ∧ fails [(.qty .hyst 3, 400)] 4 4 = true
      ∧ fails [(.step .l1 6, 900)] 5 7 = true
      ∧ fails [(.step .installed 0, 0)] 6 1 = true := by decide +kernel

/-- A set that passes every check and changes every setting an effect speaks of. -/
def wholeSet : List (SettingKey × Nat) :=
  [(.yard .preferredLink, 1), (.yard .debounceTime, 5), (.yard .disagreementTime, 100), (.step .rating 0, 2000),
    (.yard .dutyLimit, 4), (.yard .yardLimit, 4), (.yard .vl, 9700), (.yard .fallbackInterval, 60), (.qty .la 4, 0),
    (.step .l1 0, 200)]

theorem test_hyp_apply_effects :
    (wholeSet.map Prod.fst).Nodup ∧ wholeSet ≠ []
      ∧ after (exec .settingsApply (pendingSet wholeSet { live with vrg := { live.vrg with mode := .manual } })) (fun t =>
        decide (t.hlk.answer = some ⟨.ok, [10#8]⟩ ∧ t.su.pendingSet = [] ∧ t.vrg.silence = some 160000
          ∧ t.y .debounceTime = 5)) = true := by decide +kernel

/-- A raised duty limit clamps no level, and a lowered one does. -/
theorem test_raised_duty_limit_clamps_nothing :
    let s := ready.onCd 0 (fun c => { c with duty := 15 })
    after (exec .settingsApply (pendingSet [(.yard .dutyLimit, 10)] s)) (fun t => decide ((t.cd 0).duty = 15)) = true
      ∧ after (exec .settingsApply (pendingSet [(.yard .dutyLimit, 4)] s)) (fun t => decide ((t.cd 0).duty = 4))
        = true := by decide +kernel

theorem test_hyp_store_commit :
    State.reset.su.store = .idle ∧ StoreState.committing 0 image ≠ .idle
      ∧ State.reset.y .baselineLock = 1 ∧ State.reset.su.unlock = false
      ∧ State.reset.baselineDiffers 0 = false
      ∧ (State.reset.onUb 0 (fun u => { u with baseline := some ⟨1, 0, true⟩ })).baselineDiffers 0 = true := by
  decide +kernel

theorem test_hyp_commit_end :
    let s : State := { State.reset with su := { Reset.settingsUnit with store := .committing 0 image } }
    s.resetHeld = none ∧ s.su.store = .committing 0 image ∧ s.su.fault = true
      ∧ ({ s with su := { s.su with fault := false } } : State).su.fault = false := by decide +kernel

/-! ### Witnesses: Measurement Intake -/

theorem test_hyp_bad_frames :
    measComplete quiet = true ∧ measCheckOk quiet = true ∧ measUnit quiet = 1
      ∧ measCount quiet = live.su.active.installedCount ∧ measUnit quiet ≠ 2
      ∧ measCount quiet ≠ State.reset.su.active.installedCount
      ∧ (measStatus (meas 1 8 1 10000 0 0 0)).getLsbD 0 = true
      ∧ measCheckOk (quiet.take 51 ++ [0#8, 0#8]) = false
      ∧ measComplete (quiet.take 51 ++ [0#8, 0#8]) = true
      ∧ (live.link .a).state = .locked ∧ (live.link .a).bad < 3 := by decide +kernel

theorem test_hyp_good_frames :
    classify live.su.active .a (.complete quiet) = .good
      ∧ (live.posting .a quiet).isSome = true
      ∧ live.mi.active = some .a ∧ (live.link .a).state = .locked ∧ live.locked .b = false
      ∧ (live.link .a).missing (measSeq quiet) ≤ 2
      ∧ live.mi.freshStart = false ∧ live.mi.posted.isSome = true
      ∧ classify live.su.active .b (.complete (meas 2 8 0 10000 0 0 0)) = .good
      ∧ live.mi.active ≠ some .b
      ∧ ((live.link .b).good 8#16 live.now).state ≠ .locked ∧ (live.link .b).state ≠ .locked := by decide +kernel

/-- Bytes outside a frame, a frame in two parts, and step counts out of range. -/
theorem test_hyp_receiver :
    (0x5A#8 : Byte) ∉ [0#8, 0xC3#8] ∧ measComplete quiet = true ∧ quiet = quiet.take 20 ++ quiet.drop 20
      ∧ 2 ≤ (quiet.take 20).length ∧ quiet.drop 20 ≠ [] ∧ (quiet.take 6).length = 6
      ∧ (quiet.take 6).take 2 = [0x5A#8, 0xC3#8] ∧ (0#8 : Byte).toNat = 0 ∧ 8 < (9#8 : Byte).toNat
      ∧ measComplete quiet = true ∧ (live.link .a).rx = none ∧ live.resetHeld = none := by decide +kernel

/-- The yard with a frame in progress on link A. -/
def receiving (bytes : List Byte) (due : Nat) : State := live.onLink .a (fun r => { r with rx := some ⟨bytes, due⟩ })

/-- A gap that is over and one that is not, with and without a step count byte to come. -/
theorem test_hyp_receiver_gaps :
    (receiving (quiet.take 20) 100000).gapOver .a = true ∧ (receiving (quiet.take 6) 100000).gapOver .a = true
      ∧ (receiving (quiet.take 20) 100006).gapOver .a = false ∧ (receiving (quiet.take 6) 100006).countNext .a = true
      ∧ (receiving (quiet.take 20) 100006).countNext .a = false ∧ (receiving [0x5A#8] 100000).gapOver .a = false
      ∧ ((receiving (quiet.take 6) 100006).link .a).bad < 3 := by decide +kernel

/-- A frame in progress fails once at its gap, and the bytes after it are taken; without a gap nothing fails. -/
theorem test_gap_fails_the_frame_before_new_bytes :
    after (exec (.measFrame .a quiet) (receiving (quiet.take 20) 100000)) (fun t => decide (
        (t.link .a).rx = none ∧ (t.link .a).counters.corrupt = 1 ∧ (t.link .a).counters.accepted = 1)) = true
      ∧ after (exec (.measByteGapTimeout .a) (receiving (quiet.take 20) 100006)) (fun t => decide (
        t = receiving (quiet.take 20) 100006)) = true
      ∧ after (exec (.measFramingFailure .a) live) (fun t => decide (t = live)) = true := by decide +kernel

/-- Junk counts nothing; a part of a frame is held, and its rest completes it. -/
theorem test_receiver_hunts_and_holds :
    after (exec (.measFrame .a [0#8, 0xC3#8]) live) (fun t => decide (t = live)) = true
      ∧ after (exec (.measFrame .a (quiet.take 20)) live) (fun t => decide (
        t = live.onLink .a (fun r => { r with rx := some ⟨quiet.take 20, 100006⟩ }))) = true
      ∧ after (exec (.measFrame .a (quiet.drop 20)) (live.onLink .a (fun r =>
          { r with rx := some ⟨quiet.take 20, 100006⟩ }))) (fun t => decide (
        (t.link .a).rx = none ∧ (t.link .a).counters.accepted = 1 ∧ (t.link .a).lastGood = some 100000)) = true := by
  decide +kernel

theorem test_hyp_link_moves :
    (linkRec .seeking 6 0 (some 7) none none).run + 1 < 8 ∧ 8 ≤ (linkRec .seeking 7 0 (some 7) none none).run + 1
      ∧ (8#16 : Word16) = 7#16 + 1#16 ∧ (10#16 : Word16) = 7#16 + 3#16
      ∧ ¬((11#16 : Word16) = 7#16 + 2#16 ∨ (11#16 : Word16) = 7#16 + 3#16)
      ∧ (0#16 : Word16) = 0xFFFF#16 + 1#16 := by decide +kernel

/-- The yard with link A one frame short of LOCKED and the active link given. -/
def seeking (active : Option Link) : State :=
  { live with mi := { live.mi with linkA := linkRec .seeking 7 0 (some 7) (some 99980) none, active := active } }

theorem test_hyp_link_enters :
    (seeking none).resetHeld = none ∧ classify (seeking none).su.active .a (.complete quiet) = .good
      ∧ ((seeking none).link .a).state = .seeking ∧ ((seeking none).link .a).run = 7
      ∧ ((seeking none).link .a).lastSeq = some 7#16 ∧ measSeq quiet = 7#16 + 1#16
      ∧ (seeking none).mi.active = none ∧ (seeking (some .b)).mi.active = some Link.a.other
      ∧ (seeking none).su.active.preferred = .a ∧ ((seeking none).link .a).rx = none := by decide +kernel

/-- Early after a reset: both links one frame short of LOCKED, link A preferred, and no active source. -/
def racing : State :=
  { State.reset with
    now := 5
    su := { Reset.settingsUnit with active := settings }
    mi := { Reset.intake with
      linkA := linkRec .seeking 7 0 (some 7) (some 0) none
      linkB := linkRec .seeking 7 0 (some 7) (some 0) none } }

/-- Link B has locked and waits for the end of the millisecond. -/
def waitingLink : State :=
  { racing with mi := { racing.mi with
      linkB := { linkRec .locked 8 0 (some 8) (some 5) (some (measRecord settings .b (meas 2 8 0 10000 0 0 0) 5))
        with counters := { Reset.link.counters with accepted := 1 } }
      waiting := [measRecord settings .b (meas 2 8 0 10000 0 0 0) 5] } }

theorem test_hyp_link_waits :
    racing.su.active.preferred ≠ .b ∧ classify settings .b (.complete (meas 2 8 0 10000 0 0 0)) = .good
      ∧ racing.mi.active = none ∧ racing.resetHeld = none ∧ waitingLink.resetHeld = none
      ∧ waitingLink.dueCommand = none ∧ waitingLink.pending = [] ∧ waitingLink.mi.waiting ≠ []
      ∧ waitingLink.locked .b = true ∧ racing.locked .b = false
      ∧ ((waitingLink.link .b).good 9#16 5).state = .locked
      ∧ classify settings .b (.complete (meas 2 9 0 10000 0 0 0)) = .good := by decide +kernel

theorem test_waiting_link_is_taken_at_the_end :
    after (exec (.linkLocked .b (meas 2 8 0 10000 0 0 0)) racing) (fun t => decide (t = waitingLink)) = true
      ∧ after (step waitingLink) (fun t => decide (t.mi.active = some .b ∧ t.mi.waiting = []
        ∧ t.mi.posted.isSome = true ∧ t.now = 5)) = true
      ∧ after (exec (.linkLocked .a quiet) waitingLink) (fun t => decide (t.mi.active = some .a
        ∧ t.mi.waiting = [] ∧ t.locked .b = true)) = true := by decide +kernel

/-- A further frame of the waiting link waits with it. -/
theorem test_frames_wait_with_their_link :
    after (exec (.measFrame .b (meas 2 9 0 10000 0 0 0)) waitingLink) (fun t => decide (t.mi.active = none
      ∧ t.mi.waiting.map (·.sequence) = [8#16, 9#16] ∧ t.mi.posted = none)) = true := by decide +kernel

/-- An apply that makes the waiting link the preferred one makes it the active source. -/
theorem test_apply_prefers_the_waiting_link :
    let s := waitingLink.onSu (fun u => { u with pendingSet := [(.yard .preferredLink, 1)] })
    s.su.pendingSet ≠ [] ∧ (readEntry (.yard .preferredLink) s.su.pendingSet).isSome = true
      ∧ after (exec .settingsApply s) (fun t => decide (t.su.active.preferred = .b ∧ t.mi.active = some .b
        ∧ t.mi.waiting = [] ∧ t.mi.posted.isSome = true)) = true := by decide +kernel

/-- An apply has zeroed the counts of a changed level before it posts the frames of the waiting link. -/
theorem test_apply_zeroes_counts_before_it_posts :
    let high := measRecord settings .b (meas 2 8 0 10000 10000 0 0) 5
    let s := ((waitingLink.onMi (fun m => { m with waiting := [high] })).onQty 0 (fun r => { r with up := 29 })).onSu
      (fun u => { u with pendingSet := [(.yard .preferredLink, 1), (.qty .la 0, settings.la 0 + 1)] })
    after (exec .settingsApply s) (fun t => decide (t.mi.posted = some high ∧ (t.qty 0).state = .normal
      ∧ (t.qty 0).up = 1)) = true := by decide +kernel

theorem test_link_locks_and_is_posted :
    after (exec (.linkLocked .a quiet) (seeking none)) (fun t =>
      decide (t.mi.active = some .a ∧ (t.link .a).state = .locked ∧ t.mi.posted.isSome = true)) = true := by
  decide +kernel

/-- The yard with the records of both links given. -/
def links (a b : LinkRec) : State := { live with mi := { live.mi with linkA := a, linkB := b } }

theorem test_hyp_links_are_lost :
    let both := links (linkRec .locked 8 3 (some 7) (some 99900) none) (linkRec .locked 8 0 (some 7) (some 99980) none)
    let one := links (linkRec .locked 8 3 (some 7) (some 99900) none) Reset.link
    (both.link .a).state = .locked ∧ 3 ≤ (both.link .a).bad ∧ classify both.su.active .a .failed ≠ .good
      ∧ (both.link .a).lastGood = some 99900 ∧ 99900 + 100 ≤ both.now
      ∧ both.mi.active = some .a ∧ both.locked Link.a.other = true ∧ one.locked Link.a.other = false
      ∧ both.mi.active ≠ some .b
      ∧ (let failing (due : Nat) := both.onLink .a (fun r => { r with rx := some ⟨quiet.take 6, due⟩ })
         (failing 100000).gapOver .a = true ∧ (failing 100006).gapOver .a = false
           ∧ (failing 100006).countNext .a = true) := by decide +kernel

/-- A bad frame by its bytes, and a good frame with three frames missing. -/
theorem test_hyp_links_are_lost_to_frames :
    let bad := quiet.take 51 ++ [0#8, 0#8]
    let gap := meas 1 11 0 10000 0 0 0
    measComplete bad = true ∧ classify settings .a (.complete bad) ≠ .good
      ∧ classify settings .a (.complete gap) = .good ∧ measSeq gap ≠ 7#16 + 1#16 ∧ measSeq gap ≠ 7#16 + 2#16
      ∧ measSeq gap ≠ 7#16 + 3#16 ∧ (live.link .a).lastSeq = some 7#16 ∧ (live.link .a).rx = none := by
  decide +kernel

theorem test_gap_of_three_loses_the_source :
    after (exec (.measFrame .a (meas 1 11 0 10000 0 0 0)) live) (fun t => decide (
      (t.link .a).state = .seeking ∧ (t.link .a).run = 1 ∧ t.mi.active = none ∧ t.mi.lost = true
        ∧ t.vrg.holds.noSource = true)) = true := by decide +kernel

theorem test_hyp_silence_and_window :
    let s := links (linkRec .seeking 0 1 (some 7) (some 99500) none) Reset.link
    (s.link .a).state = .seeking ∧ (s.link .a).lastGood = some 99500 ∧ 99500 + 500 ≤ s.now
      ∧ State.reset.mi.window = some 2000 ∧ State.reset.mi.active = none ∧ live.mi.active ≠ none
      ∧ State.reset.mi.waiting = [] ∧ waitingLink.mi.waiting ≠ [] := by
  decide +kernel

/-- Two LOCKED links, the standby's latest record at a voltage, and the two counts. -/
def compared (volts dis agr : Nat) (on : Bool) : State :=
  { live with mi := { live.mi with
      linkB := linkRec .locked 8 3 (some 7) (some 99900)
        (some (measRecord settings .b (meas 2 7 0 volts 0 0 0) 99900))
      disagree := on, disagreeCount := dis, agreeCount := agr } }

theorem test_hyp_disagreement :
    let s := compared 10201 49 0 false
    let t := compared 10200 0 49 true
    classify s.su.active .a (.complete quiet) = .good ∧ s.mi.active = some .a ∧ (s.link .a).state = .locked
      ∧ (s.link .a).missing (measSeq quiet) ≤ 2 ∧ s.locked Link.a.other = true
      ∧ (s.link .b).latest.any (fun x => decide (s.now - x.time ≤ 100
          ∧ s.y .disagreeLimit < max 10000 ((x.v1 + x.v2 + x.v3) / 3) - min 10000 ((x.v1 + x.v2 + x.v3) / 3))) = true
      ∧ s.mi.disagreeCount = 49 ∧ s.mi.disagree = false
      ∧ (t.link .b).latest.any (fun x => decide (
          max 10000 ((x.v1 + x.v2 + x.v3) / 3) - min 10000 ((x.v1 + x.v2 + x.v3) / 3) ≤ t.y .disagreeLimit)) = true
      ∧ t.mi.agreeCount = 49 ∧ t.mi.disagree = true
      ∧ (t.link .b).lastGood = some 99900 ∧ 99900 + 100 ≤ t.now ∧ 3 ≤ (t.link .b).bad
      ∧ (t.onLink .b (fun r => { r with rx := some ⟨quiet.take 6, 100006⟩ })).countNext .b = true := by decide +kernel

/-- With both links LOCKED a posting carries the time from the previous one. -/
theorem test_elapsed_with_both_links_locked :
    ((compared 10201 3 0 false).posting .a quiet).any (fun p => decide (p.2.1 = 20)) = true := by decide +kernel

/-- Counts short of 50 on both sides, and no comparison. -/
theorem test_hyp_counts_short :
    let far := meansDisagree 200 10000 10201
    let near := meansDisagree 200 10000 10200
    far = true ∧ near = false ∧ (compared 10201 3 0 false).mi.disagreeCount < 49
      ∧ (compared 10200 0 3 true).mi.agreeCount < 49 ∧ live.locked .b = false := by decide +kernel

theorem test_disagreement_starts :
    after (exec (.measDisagreeStart .a quiet) (compared 10201 49 0 false)) (fun t => t.mi.disagree) = true := by
  decide +kernel

/-! ### Witnesses: the Step Table -/

/-- Step 1 of the reset state with its two debounced values and a raw level of its closed contact. -/
def contacts (raw : Bool) (a b : Debounced) (p : Position) (from_ : Option Nat) : State :=
  { State.reset with now := 10000 }.onStep 0 (fun r => { r with
    closedIn := ⟨raw, 9990, a⟩, openIn := ⟨false, 0, b⟩, position := p, disagreeFrom := from_ })

theorem test_hyp_contacts :
    ((contacts true .notMade .notMade .opened none).step 0).closedIn.raw ≠ false
      ∧ (contacts true .notMade .notMade .opened none).y .debounceTime
          ≤ (contacts true .notMade .notMade .opened none).now - 9990
      ∧ ((contacts true .notMade .notMade .opened none).step 0).closedIn.value ≠ .made
      ∧ ((contacts false .made .made .travel (some 9800)).step 0).closedIn.value ≠ .notMade
      ∧ ((contacts true .notMade .made .opened none).step 0).openIn.value = .made
      ∧ (contacts true .notMade .notMade .travel (some 9800)).y .disagreementTime ≤ 10000 - 9800
      ∧ (contacts true .notMade .notMade .travel (some 9800)).st.debounceEnded = false
      ∧ (contacts true .notMade .notMade .travel (some 9800)).y .debounceTime ≤ 10000 := by decide +kernel

theorem test_contacts_give_closed :
    after (exec (.debounceExpiry 0 .closedContact) (contacts true .notMade .notMade .travel (some 9900))) (fun t =>
      decide ((t.step 0).position = .closed ∧ (t.step 0).disagreeFrom = none)) = true := by decide +kernel

/-- Both contacts turn from made to not made in one millisecond: a disagreeing pair follows a disagreeing pair, and
position and disagreement time stand, at an expiry and at an apply of a shorter debounce time. -/
theorem test_both_made_to_neither_made :
    let s := fun (since : Nat) => (contacts false .made .made .travel (some 9900)).onStep 0 (fun r => { r with
      closedIn := ⟨false, since, .made⟩, openIn := ⟨false, since, .made⟩ })
    let stands := fun (t : State) => decide ((t.step 0).closedIn.value = .notMade ∧ (t.step 0).openIn.value = .notMade
      ∧ (t.step 0).position = .travel ∧ (t.step 0).disagreeFrom = some 9900)
    after (exec (.debounceExpiry 0 .closedContact) (s 9990)) stands = true
      ∧ after (exec .settingsApply ((s 9995).onSu (fun u => { u with pendingSet := [(.yard .debounceTime, 5)] })))
          stands = true := by decide +kernel

/-- Steps 1, 2 and 3 installed and waiting for the rebuild, with their breakers CLOSED, UNKNOWN and OPEN. -/
def waiting : State :=
  let r (p : Position) := stepRec .discharging p none (some .startUp)
  { setting (.step .installed 2) 1 (setting (.step .installed 1) 1 (yard (r .closed))) with
    st := { Reset.stepTable with
      steps := Tab.put (Tab.put (Tab.put Reset.stepTable.steps 0 (r .closed)) 1 (r .unknown)) 2 (r .opened) } }

theorem test_hyp_rebuild :
    (∀ i, (waiting.step i).state = (if waiting.su.active.installed i then .discharging else .disabled))
      ∧ (∀ i, waiting.su.active.installed i = true → (waiting.step i).basis = some .startUp)
      ∧ waiting.st.ring = [] ∧ waiting.st.service = [] ∧ waiting.su.active.installed 7 = false := by decide +kernel

theorem test_rebuild : ((rebuild waiting).step 0).state = .energized ∧ ((rebuild waiting).step 1).state = .lockedOut
    ∧ ((rebuild waiting).step 2).state = .discharging ∧ (rebuild waiting).st.service = [0] := by decide +kernel

/-- Positions change with an operation in flight, and with none, in every state of the table of uncommanded changes. -/
theorem test_hyp_position_changes :
    let fly := flying (op .opening .station .awaiting) (yard (stepRec .opening .closed none none))
    let shut := flying (op .close .station .awaiting) (yard (stepRec .closing .opened none none))
    (fly.sw 0).op = some (op .opening .station .awaiting) ∧ fly.inFlight 0 = true ∧ (fly.step 0).state = .opening
      ∧ (shut.step 0).state = .closing ∧ Kind.target .opening = .opened ∧ Kind.target .close = .closed
      ∧ live.inFlight 0 = false ∧ live.st.rebuilt = true ∧ (live.step 0).state = .energized
      ∧ (live.step 0).position = .closed ∧ (live.step 0).lastDefinite = some .closed
      ∧ (ready.step 0).state = .ready ∧ (ready.step 0).lastDefinite = some .opened ∧ (ready.ub 0).eval = .off
      ∧ ((yard (stepRec .discharging .opened none (some .own))).step 0).state = .discharging
      ∧ ((live.onSw 0 (fun r => { r with breakerFail := true })).sw 0).breakerFail = true := by decide +kernel

theorem test_position_changes :
    after (exec (.debounceExpiry 0 .openContact)
        (({ live with now := 100000 } : State).onStep 0 (fun r => { r with
          closedIn := ⟨false, 0, .notMade⟩, openIn := ⟨true, 0, .notMade⟩ }))) (fun t => decide (
      (t.step 0).position = .opened ∧ (t.step 0).state = .discharging ∧ (t.cd 0).discharge = some 400000
        ∧ (t.ub 0).eval = .off ∧ (t.notice .position).pending = true)) = true
      ∧ ((positionChange 0 .opened (flying (op .opening .station .awaiting)
          (yard (stepRec .opening .closed none none)))).sw 0).lastResult = some .success
      ∧ ((uncommanded 0 .unknown ready).step 0).cause = some .positionUnknown := by decide +kernel

/-- The rebuild is due, and the end of the debounce time is due. -/
theorem test_hyp_rebuild_due :
    waiting.st.rebuilt = false ∧ (∀ i, waiting.su.active.installed i = true → (waiting.step i).position ≠ .travel)
      ∧ waiting.su.active.installed 0 = true ∧ State.reset.st.rebuilt = false
      ∧ ({ State.reset with now := 10 } : State).resetHeld = none
      ∧ ({ State.reset with now := 10 } : State).st.debounceEnded = false
      ∧ ({ State.reset with now := 10 } : State).y .debounceTime ≤ 10
      ∧ allSteps.filter (fun i => waiting.su.active.installed i && (waiting.step i).position == .unknown)
        = [] ++ [1] := by decide +kernel

theorem test_rebuild_is_made_at_the_end_of_the_debounce_time :
    after (exec .debounceTimeFromReset { State.reset with now := 10 }) (fun t => decide (
      t.st.rebuilt = true ∧ (t.step 0).disagreeFrom = some 10)) = true := by decide +kernel

theorem test_hyp_capture_of_the_step :
    ({ live with ubp := { live.ubp with capture := some ⟨0, 3, 0, 0⟩ } } : State).ubp.capture
      = some ⟨0, 3, 0, 0⟩ := by decide +kernel

/-- A lockout of a step whose opening waits in the queue: the entry goes, with WITHDRAWN for its requester. -/
theorem test_hyp_lockout_withdraws :
    let s := queueing [entry .opening .hlk, { entry .opening .hlk with step := 1 }] live
    s.queueSound ∧ (entry .opening .hlk).step = 0 ∧ entry .opening .hlk ∈ s.swu.queue
      ∧ (lockOut 0 .failToOpen s).swu.queue.map (·.step) = [1]
      ∧ (lockOut 0 .failToOpen s).swu.stationResult.map (·.result) = some .withdrawn := by
  unfold State.queueSound Entry.before
  decide +kernel

/-! ### Witnesses: the Switching Unit -/

theorem test_hyp_requests :
    Requester.hlk.origin ≠ .protection
      ∧ (flying (op .opening .station .pulsing) live).inFlightKind 0 .opening = true
      ∧ live.inFlightKind 0 .opening = false ∧ live.swu.queue = []
      ∧ (queueing [entry .opening .regulator] live).swu.queue = [entry .opening .regulator]
      ∧ Requester.hlk.origin.cls < (entry .opening .regulator).origin.cls
      ∧ ¬Requester.regulator.origin.cls < (entry .opening .hlk).origin.cls
      ∧ (entry .close .hlk).kind = .close := by decide +kernel

theorem test_hyp_request_queue_sound :
    (queueing [entry .opening .regulator] live).queueSound ∧ (queueing [entry .close .hlk] live).queueSound := by
  unfold State.queueSound Entry.before
  decide +kernel

theorem test_hyp_results :
    ({ watching with reg := .pending, target := some ⟨0, .close⟩ } : Regulator).reg = .pending
      ∧ watching.reg ≠ .pending := by decide +kernel

/-- One queue whose first entry passes, one whose first entry fails, one behind an operation and a held slot. -/
theorem test_hyp_dispatcher :
    (queueing [entry .opening .hlk] live).queueSound
      ∧ (queueing [entry .opening .hlk] live).swu.slot = none
      ∧ (queueing [entry .opening .hlk] live).swu.queue = [] ++ entry .opening .hlk :: []
      ∧ ((queueing [entry .opening .hlk] live).sw 0).op = none
      ∧ (live.step 0).position = .closed ∧ (live.step 0).state = .energized
      ∧ (ready.step 0).state = .ready ∧ (ready.cd 0).duty + 2 ≤ ready.y .dutyLimit
      ∧ (live.step 0).state ≠ .ready
      ∧ (flying (op .opening .station .pulsing) live).swu.slot ≠ none
      ∧ ((flying (op .opening .protection .pulsing) live).sw 0).op ≠ none := by
  unfold State.queueSound Entry.before
  decide +kernel

theorem test_order_is_dispatched :
    after (exec (.orderExecute 1#8 1#8) { live with swu := { live.swu with staged := some ⟨0, .opening, 110000⟩ } })
      (fun t => decide ((t.step 0).state = .opening ∧ (t.sw 0).tripA = true ∧ t.swu.slot = some 0)) = true := by
  decide +kernel

/-- A dispatch away from the target and one that finds it; and a capture of the step. -/
theorem test_hyp_dispatch :
    (live.step 0).position ≠ Kind.target .opening ∧ (live.step 0).position = Kind.target .close
      ∧ (ready.step 0).position = Kind.target .opening ∧ (ready.step 0).state = .ready
      ∧ ((locked .closed .noCurrent).step 0).state = .lockedOut := by decide +kernel

theorem test_hyp_protection_opens :
    ((flying (op .opening .station .pulsing) live).sw 0).op = some (op .opening .station .pulsing)
      ∧ ((flying (op .close .station .awaiting) ready).sw 0).op = some (op .close .station .awaiting)
      ∧ ((flying (op .close .station .settling) live).sw 0).op = some (op .close .station .settling)
      ∧ ((flying (op .close .station .settling) live).step 0).state = .energized
      ∧ (ready.step 0).state ≠ .energized ∧ (ready.step 0).state ≠ .lockedOut
      ∧ ((locked .closed .noCurrent).step 0).position ≠ .opened ∧ (live.sw 0).op = none
      ∧ (queueing [entry .opening .evr] live).swu.queue = [entry .opening .evr]
      ∧ (queueing [entry .close .hlk] live).swu.queue = [entry .close .hlk] := by decide +kernel

theorem test_hyp_operation_timers :
    let o : OpRecord := { op .opening .station .pulsing with pulseDue := 100000, limitDue := 100001 }
    ((flying o live).sw 0).op = some o ∧ o.phase = .pulsing ∧ o.pulseDue ≤ live.now ∧ live.now < o.limitDue
      ∧ (op .opening .station .pulsing).limitDue ≤ live.now ∧ (op .opening .station .pulsing).phase ≠ .settling
      ∧ (op .close .station .settling).phase = .settling ∧ (op .close .station .settling).settleDue ≤ live.now := by
  decide +kernel

theorem test_close_fails_to_operate :
    after (exec (.operateLimitExpiry 0)
        (flying (op .close .station .awaiting) (yard (stepRec .closing .opened none none)))) (fun t =>
      decide ((t.step 0).state = .lockedOut ∧ (t.step 0).cause = some .failToClose ∧ t.swu.slot = none)) = true := by
  decide +kernel

theorem test_hyp_failures :
    (op .close .station .awaiting).kind = .close ∧ ((yard (stepRec .closing .opened none none)).step 0).state = .closing
      ∧ ((yard (stepRec .opening .closed none none)).step 0).state = .opening
      ∧ ((locked .closed .noCurrent).step 0).cause ≠ some .failToOpen
      ∧ ((locked .closed .failToOpen).step 0).cause = some .failToOpen
      ∧ (op .opening .protection .awaiting).origin = .protection
      ∧ (op .opening .station .awaiting).protMerged = false
      ∧ (((locked .closed .failToOpen).sw 0).retries).getD 0 < (locked .closed .failToOpen).y .tripRetries
      ∧ (locked .closed .failToOpen).y .tripRetries
          ≤ ((((locked .closed .failToOpen).onSw 0 (fun r => { r with retries := some 1 })).sw 0).retries).getD 0 := by
  decide +kernel

/-- A settled event with both snapshots: a rise within the limit and one above it, marks that are set, kept and
cleared, and phase currents below and at the presence level. -/
theorem test_hyp_settled_events :
    (0 : Int) < 4 * (live.su.active.expectedRise 0 : Int) ∧ live.su.active.la 2 ≠ 0 ∧ (setting (.qty .la 11) 0 live).su.active.la 11 = 0
      ∧ (0 : Nat) * 100 < 1 * live.y .amplification ∧ 100 * live.y .amplification ≤ 150 * 100
      ∧ live.su.active.la 2 ≤ 10000 * 2 ∧ 0 * 2 < live.su.active.la 2
      ∧ 199 < live.y .presenceLevel * 10 ∧ ¬200 < live.y .presenceLevel * 10 := by decide +kernel

theorem test_hyp_station_orders :
    stepOfCode (0#8 : Byte).toNat = none ∧ stepOfCode (9#8 : Byte).toNat = none
      ∧ stepOfCode (1#8 : Byte).toNat = some 0 ∧ stepOfCode (8#8 : Byte).toNat = some 7
      ∧ Kind.ofCode (2#8 : Byte).toNat = none ∧ Kind.ofCode (1#8 : Byte).toNat = some .opening
      ∧ ({ Reset.switching with staged := some ⟨0, .close, 100000⟩ } : Switching).staged = some ⟨0, .close, 100000⟩
      ∧ live.vrg.mode = .auto ∧ ({ watching with mode := .manual } : Regulator).mode ≠ .auto
      ∧ (ready.step 0).state = .ready ∧ (ready.cd 0).duty + 2 ≤ ready.y .dutyLimit
      ∧ (ready.onCd 0 (fun c => { c with duty := 5 })).y .dutyLimit
          < ((ready.onCd 0 (fun c => { c with duty := 5 })).cd 0).duty + 2
      ∧ (ready.step 0).position ≠ .closed ∧ (live.step 0).position = .closed := by decide +kernel

theorem test_hyp_order_conflict :
    let s := queueing [entry .opening .evr] ready
    s.queueSound ∧ (∃ e ∈ s.swu.queue, e.step = 0 ∧ e.kind = .opening)
      ∧ ¬∃ o, (s.sw 0).op = some o ∧ o.phase ≠ .settling ∧ o.kind = .close := by
  refine ⟨?_, ?_, no_op (by decide +kernel)⟩
  · unfold State.queueSound Entry.before; decide +kernel
  · decide +kernel

/-! ### Witnesses: cooldown, regulator -/

theorem test_hyp_cooldown :
    let s := (yard (stepRec .discharging .opened none (some .own))).onCd 0 (fun c =>
      { c with discharge := some 100000, dutyTimer := some 100000 })
    let u : State := { s with cdu := { s.cdu with startUp := .running 100000, yardTimer := some 100000, budget := 12 } }
    (s.step 0).state = .discharging ∧ (s.step 0).basis = some .own ∧ (s.cd 0).discharge = some 100000
      ∧ (live.step 0).state ≠ .discharging ∧ (s.cd 0).dutyTimer = some 100000 ∧ 100000 ≤ s.now
      ∧ u.cdu.startUp = .running 100000 ∧ u.cdu.yardTimer = some 100000 := by decide +kernel

theorem test_discharged_step_is_ready :
    after (exec (.dischargeExpiry 0) ((yard (stepRec .discharging .opened none (some .own))).onCd 0 (fun c =>
        { c with discharge := some 100000 })))
      (fun t => decide ((t.step 0).state = .ready ∧ t.st.ring = [0] ∧ (t.cd 0).discharged = true)) = true := by
  decide +kernel

theorem test_hyp_hold_causes :
    (watching.holds.put .freeze true).any = true ∧ watching.reg ≠ .hold
      ∧ Reset.regulator.mode ≠ .auto ∧ Reset.regulator.reg = .hold
      ∧ (let v : Regulator := { watching with reg := .hold, holds := watching.holds.put .freeze true }
         (v.holds.put .freeze false).any = false ∧ v.mode = .auto ∧ v.reg = .hold)
      ∧ ({ watching with startHold := .running 100000 } : Regulator).startHold = .running 100000 := by decide +kernel

theorem test_hyp_modes :
    2 < (3#8 : Byte).toNat ∧ live.holdSound ∧ live.vrg.mode = .auto ∧ live.vrg.reg ≠ .hold
      ∧ State.reset.holdSound ∧ State.reset.vrg.mode = .off ∧ State.reset.vrg.holds.any = true
      ∧ (let s : State := { live with vrg := { watching with mode := .manual, reg := .hold, silence := some 100000 } }
         s.holdSound ∧ s.vrg.mode = .manual ∧ s.vrg.silence = some 100000 ∧ 100000 ≤ s.now
           ∧ s.vrg.holds.any = false)
      ∧ (let s : State := { live with vrg := { watching with reg := .hold, holds := ⟨false, false, false, true, false, false⟩ } }
         s.holdSound ∧ s.vrg.mode = .auto ∧ s.vrg.reg = .hold) := by
  unfold State.holdSound
  decide +kernel

theorem test_hyp_mode_manual_hold :
    let m : State := { live with vrg := { watching with mode := .manual, reg := .hold } }
    let q := queueing [entry .opening .regulator] { live with vrg := { watching with reg := .hold } }
    m.vrg.mode = .manual ∧ q.vrg.reg = .hold
      ∧ (withdrawRegulation q).swu.queue = [] := by decide +kernel

theorem test_off_holds_the_regulator :
    after (exec (.modeSet 2#8) live) (fun t => decide (t.vrg.mode = .off ∧ t.vrg.reg = .hold)) = true := by
  decide +kernel

/-- The regulator's accumulators as given, and the voltage of the next frame. -/
def banded (s : State) (below above : Nat) : State := { s with vrg := { s.vrg with below := below, above := above } }

/-- A frame at 9000 V fills the insert delay: with a candidate, without one, and suppressed. -/
theorem test_hyp_insert_delay :
    let f := meas 1 8 0 9000 0 0 0
    (((banded ready 59990 0).posting .a f).any (fun p =>
        let v := vrgGuards p.1 p.2.1 p.2.2
        decide (v.vrg.reg = .watch ∧ min (v.vrg.below + p.2.1) (v.ySec .ti) = v.ySec .ti ∧ v.st.ring = [] ++ 0 :: []
          ∧ v.harmBlock = false ∧ v.blockInsert = false ∧ v.cdu.budget < v.y .yardLimit
          ∧ v.swu.queue = [] ∧ 9000 + v.rise 0 ≤ v.y .vh))) = true
      ∧ (((banded live 59990 0).posting .a f).any (fun p => decide ((vrgGuards p.1 p.2.1 p.2.2).st.ring = []))) = true
      ∧ (({ banded ready 59990 0 with cdu := { ready.cdu with budget := 12 } } : State).posting .a f).any (fun p =>
        decide ((vrgGuards p.1 p.2.1 p.2.2).y .yardLimit ≤ (vrgGuards p.1 p.2.1 p.2.2).cdu.budget)) = true := by
  decide +kernel

/-- A frame at 10900 V fills the remove delay: with a candidate, without one, and suppressed. -/
theorem test_hyp_remove_delay :
    let f := meas 1 8 0 10900 0 0 0
    (((banded live 0 59990).posting .a f).any (fun p =>
        let v := vrgGuards p.1 p.2.1 p.2.2
        decide (v.vrg.reg = .watch ∧ min (v.vrg.above + p.2.1) (v.ySec .tr) = v.ySec .tr ∧ 0 ≠ v.ySec .ti
          ∧ v.st.service = [] ++ 0 :: [] ∧ v.y .vl + v.rise 0 ≤ 10900 ∧ v.cdu.budget < v.y .yardLimit))) = true
      ∧ (((banded ready 0 59990).posting .a f).any (fun p =>
        decide ((vrgGuards p.1 p.2.1 p.2.2).st.service = []))) = true
      ∧ (({ banded live 0 59990 with cdu := { live.cdu with budget := 12 } } : State).posting .a f).any (fun p =>
        decide ((vrgGuards p.1 p.2.1 p.2.2).y .yardLimit ≤ (vrgGuards p.1 p.2.1 p.2.2).cdu.budget)) = true := by
  decide +kernel

/-- In WATCH short of both delays, outside WATCH, and with NO_CANDIDATE on, under and at the yard limit. -/
theorem test_hyp_band_short :
    let on : State := { live with vrg := { live.vrg with noCandidate := true } }
    (live.posting .a quiet).any (fun p =>
        let v := vrgGuards p.1 p.2.1 p.2.2
        decide (v.vrg.reg = .watch ∧ v.vrg.below - p.2.1 ≠ v.ySec .ti ∧ v.vrg.above - p.2.1 ≠ v.ySec .tr)) = true
      ∧ (({ live with vrg := { live.vrg with reg := .settling } } : State).posting .a quiet).any (fun p =>
        decide ((vrgGuards p.1 p.2.1 p.2.2).vrg.reg ≠ .watch)) = true
      ∧ on.vrg.noCandidate = true ∧ on.cdu.budget < on.y .yardLimit
      ∧ on.y .yardLimit ≤ ({ on with cdu := { on.cdu with budget := 12 } } : State).cdu.budget := by decide +kernel

/-- The guards short of their delays, at the end of their conditions, and not evaluated in OFF. -/
theorem test_hyp_guards_short :
    let off : State := { live with vrg := { live.vrg with mode := .off } }
    let new : State := { live with vrg := { live.vrg with startHold := .notStarted,
                                                          holds := live.vrg.holds.put .switchover true } }
    (off.posting .a quiet).isSome = true ∧ (new.posting .a quiet).any (fun p => decide (
        p.2.2.vrg.holds.switchover = true ∧ p.2.2.vrg.startHold = .notStarted)) = true
      ∧ live.vrg.ovAcc + 20 < live.y .tx ∧ live.vrg.lovAcc + 20 < live.y .tlov
      ∧ 11000 ≤ live.y .vx ∧ live.y .vx < 11001 ∧ live.y .vu ≤ 3000 ∧ live.y .vl < 9801 ∧ 9800 ≤ live.y .vl := by
  decide +kernel

theorem test_insertion_is_requested :
    after (exec (.insertDelayReached .a (meas 1 8 0 9000 0 0 0)) (banded ready 59990 0)) (fun t =>
      decide ((t.step 0).state = .closing ∧ (t.sw 0).closeCoil = true ∧ t.vrg.reg = .pending)) = true := by
  decide +kernel

/-- A frame at 11001 V with the overvoltage accumulators full, and one at 2999 V with the other full. -/
theorem test_hyp_voltage_guards :
    let f := meas 1 8 0 11001 0 0 0
    let low := meas 1 8 0 2999 0 0 0
    let s : State := { live with vrg := { watching with ovAcc := 1980, repeatAcc := 1980, lovAcc := 480 } }
    let t : State := { s with vrg := { s.vrg with overvoltage := true } }
    s.vrg.mode ≠ .off ∧ s.vrg.overvoltage = false ∧ t.vrg.overvoltage = true ∧ s.vrg.lossOfVoltage = false
      ∧ (s.posting .a f).any (fun p => decide ((vrgArrival p.2.2).y .vx < max p.1.v1 (max p.1.v2 p.1.v3)
          ∧ (vrgArrival p.2.2).y .tx ≤ (vrgArrival p.2.2).vrg.ovAcc + p.2.1)) = true
      ∧ (t.posting .a f).any (fun p =>
          decide ((vrgArrival p.2.2).y .tx ≤ (vrgArrival p.2.2).vrg.repeatAcc + p.2.1)) = true
      ∧ (s.posting .a low).any (fun p => decide ((p.1.v1 + p.1.v2 + p.1.v3) / 3 < (vrgArrival p.2.2).y .vu
          ∧ (vrgArrival p.2.2).y .tlov ≤ (vrgArrival p.2.2).vrg.lovAcc + p.2.1)) = true := by decide +kernel

theorem test_loss_of_voltage_opens :
    after (exec (.lossOfVoltageDelay .a (meas 1 8 0 2999 0 0 0))
        { live with vrg := { watching with lovAcc := 480 } }) (fun t =>
      decide (t.vrg.lossOfVoltage = true ∧ t.vrg.reg = .hold ∧ (t.sw 0).tripA = true)) = true := by decide +kernel

/-! ### Witnesses: the Harmonic Supervisor -/

/-- THD in a state with both counts one short of full and the remove-repeat timer given. -/
def harmonic (h : HarmState) (due : Option Nat) : State :=
  live.onQty 0 (fun r => { r with state := h, up := 29, down := 59, repeatDue := due })

theorem test_hyp_harmonic_moves :
    let f := meas 1 8 0 10000 10000 0 0
    live.su.active.la 0 ≠ 0 ∧ live.su.active.lb 0 ≠ 0 ∧ live.su.active.lr 0 ≠ 0
      ∧ live.su.active.y .pUp ≠ 0 ∧ live.su.active.y .pDown ≠ 0
      ∧ ((harmonic .normal none).posting .a f).any (fun p => decide (p.1.status.getLsbD 1 = false
          ∧ live.su.active.lr 0 ≤ p.1.harm.get 0)) = true
      ∧ live.su.active.y .pUp ≤ ((harmonic .alarm none).qty 0).up + 1
      ∧ ((harmonic .alarm none).posting .a quiet).any (fun p => decide (
          p.1.harm.get 0 < live.su.active.la 0 - live.su.active.hyst 0
          ∧ ¬live.su.active.lb 0 ≤ p.1.harm.get 0)) = true
      ∧ live.su.active.y .pDown ≤ ((harmonic .alarm none).qty 0).down + 1
      ∧ 0 + 1 < live.su.active.y .pUp := by decide +kernel

theorem test_hyp_removal_choice :
    ((harmonic .remove (some 100000)).qty 0).state = .remove
      ∧ ((harmonic .remove (some 100000)).qty 0).repeatDue = some 100000 ∧ 100000 ≤ live.now
      ∧ live.st.service = [] ++ 0 :: [] ∧ ready.st.service = []
      ∧ ((live.onHsv (fun h => { h with marks := Tab.put h.marks 0 (Tab.build (fun q => q == 2)) })).marked 0 2) = true
      ∧ live.marked 0 2 = false ∧ 8 < (9#8 : Byte).toNat := by decide +kernel

/-- A record with the frequency flag is set aside; one that fills a count enters REMOVE. -/
theorem test_hyp_harmonic_posting :
    (live.posting .a (meas 1 8 2 10000 0 0 0)).any (fun p => decide (p.1.status.getLsbD 1 = true)) = true
      ∧ ((harmonic .block none).posting .a (meas 1 8 0 10000 10000 0 0)).any (fun p =>
        let w := vrgPosting p.1 p.2.1 p.2.2
        decide ((w.qty 0).state ≠ .remove ∧ ((w.qty 0).apply w.su.active 0 (w.now + w.ySec .removeRepeat)
          (p.1.harm.get 0)).state = .remove)) = true := by decide +kernel

theorem test_frequency_flag_sets_the_record_aside :
    after (exec (.measFrame .a (meas 1 8 2 10000 10000 0 0)) live) (fun t => decide (
      t.hsv.skipped = 1 ∧ t.hsv.qtys = live.hsv.qtys ∧ t.mi.posted.isSome = true)) = true := by decide +kernel

theorem test_remove_repeat_opens :
    after (exec (.removeRepeatExpiry 0) (harmonic .remove (some 100000))) (fun t =>
      decide ((t.step 0).state = .opening ∧ (t.qty 0).repeatDue = some 220000)) = true := by decide +kernel

/-- Step 1 and step 2 ENERGIZED, step 1 with its breaker CLOSED, step 2 at a position. -/
def twoBanks (p : Position) : State :=
  { live with st := { live.st with
      steps := Tab.put live.st.steps 1 (stepRec .energized p none none), service := [0, 1] } }

/-- A removal takes no result of an earlier request for its step: the request of THD ends ALREADY, and that of order 7
for the same step waits for the slot. -/
theorem test_removals_keep_to_their_requests :
    let t := takeRemovals [(0, some 1), (3, some 0), (6, some 1)] (twoBanks .travel)
    (t.qty 0).removal = some ⟨some 1, 100, some .already⟩ ∧ (t.qty 3).removal = some ⟨some 0, 100, none⟩
      ∧ (t.qty 6).removal = some ⟨some 1, 100, none⟩ ∧ t.swu.queue.map (·.step) = [1] := by decide +kernel

/-! ### Witnesses: Unbalance Protection -/

theorem test_hyp_magnitude :
    compensated (some ⟨-32768, -32768, false⟩) ⟨0, 0, 0, 32767, 32767⟩ = 92680
      ∧ compensated none ⟨0, 0, 0, 3, -4⟩ = 5 := by decide +kernel

/-- The three rows of the stage table at the limits of the hold band of a level of 100. -/
theorem test_hyp_stages :
    Stage.update ⟨.pickedUp, 5⟩ 100 20 100 15 = ⟨.asserted, 20⟩ ∧ Stage.update ⟨.pickedUp, 5⟩ 100 20 100 14 = ⟨.pickedUp, 19⟩
      ∧ Stage.update ⟨.pickedUp, 5⟩ 100 20 95 15 = ⟨.pickedUp, 5⟩ ∧ Stage.update ⟨.asserted, 20⟩ 100 20 94 15 = ⟨.inactive, 0⟩
      ∧ Stage.update ⟨.asserted, 20⟩ 100 20 100 15 = ⟨.asserted, 20⟩ := by decide +kernel

theorem test_hyp_evaluated :
    (live.ub 0).eval = .armed ∧ (live.step 0).position = .closed
      ∧ ¬∃ o, (live.sw 0).op = some o ∧ o.phase ≠ .settling :=
  ⟨by decide +kernel, by decide +kernel, no_op (by decide +kernel)⟩

/-- The first stage one posting short of its delay, and the other two short of theirs. -/
def unbalanced : State :=
  live.onUb 0 (fun u => { u with s1 := ⟨.pickedUp, 9980⟩, s2 := ⟨.pickedUp, 480⟩, s3 := ⟨.pickedUp, 20⟩ })

/-- The frame with a neutral current far above every level. -/
def neutral : List Byte := meas 1 8 0 10000 0 30000 0

theorem test_hyp_alarm_and_trip :
    (unbalanced.posting .a neutral).any (fun p =>
      let w := hsvPosting p.1 (vrgPosting p.1 p.2.1 p.2.2)
      decide ((p.1.blocks.get 0).isSome = true ∧ (w.sw 0).op = none
        ∧ unbalanced.su.active.ySec .d1 ≤ (unbalanced.ub 0).s1.timer + p.2.1
        ∧ unbalanced.su.active.y .d2 ≤ (unbalanced.ub 0).s2.timer + p.2.1
        ∧ unbalanced.su.active.y .d3 ≤ (unbalanced.ub 0).s3.timer + p.2.1)) = true
      ∧ unbalanced.su.active.l1 0 ≤ compensated (unbalanced.ub 0).baseline ⟨300, 300, 300, 30000, 0⟩
      ∧ unbalanced.su.active.l2 0 ≤ 30000 ∧ unbalanced.su.active.l3 0 ≤ 30000
      ∧ (unbalanced.ub 0).s1.state ≠ .asserted ∧ (unbalanced.ub 0).s2.state ≠ .asserted := by decide +kernel

theorem test_trip_locks_out_and_opens :
    after (exec (.unbTrip 0 .a neutral) unbalanced) (fun t =>
      decide ((t.step 0).state = .lockedOut ∧ (t.step 0).cause = some .unbalanceTrip ∧ (t.sw 0).tripB = true
        ∧ t.swu.slot = none ∧ (t.ub 0).history = [100])) = true := by decide +kernel

/-- Two trips on one posting are independent, whatever the route of UNB_TRIP does. -/
theorem test_trips_are_independent :
    let s := (twoBanks .closed).onEvr (fun e => { e with routes := Tab.put e.routes Source.unbTrip.ix .removeAll })
    let t := protect [(0, .s2), (1, .s3)] s
    [0, 1].all (fun i => decide ((t.step i).state = .lockedOut ∧ (t.step i).cause = some .unbalanceTrip
      ∧ ((t.sw i).op).any (fun o => o.origin == .protection) = true)) = true := by decide +kernel

theorem test_hyp_arming :
    let s := live.onUb 0 (fun u => { u with eval := .awaitSettle, arming := some 100000 })
    (s.ub 0).eval = .awaitSettle ∧ (s.ub 0).arming = some 100000 ∧ 100000 ≤ s.now := by decide +kernel

/-- The yard with a capture of step 1 at a count. -/
def capturing (n : Nat) : State :=
  { live with ubp := { live.ubp with capture := some ⟨0, n, -16, 31⟩ } }

theorem test_hyp_capture_requests :
    live.mi.active ≠ none ∧ (live.step 0).state = .energized ∧ (live.sw 0).op = none ∧ (live.ub 0).eval = .armed
      ∧ (live.step 0).position = .closed ∧ (live.ub 0).s1.state = .inactive ∧ (live.ub 0).s2.state = .inactive
      ∧ (live.ub 0).s3.state = .inactive ∧ live.ubp.capture = none ∧ (capturing 3).ubp.capture ≠ none
      ∧ (ready.step 0).state ≠ .energized ∧ 8 < (9#8 : Byte).toNat := by decide +kernel

/-- The state after a posting's unbalance trips, in which its capture advances. -/
def beforeCapture (p : MeasRecord × Nat × State) : State :=
  let w := hsvPosting p.1 (vrgPosting p.1 p.2.1 p.2.2)
  let v := evaluateSteps p.1 p.2.1 w
  protect (tripsBetween w v) v

theorem test_hyp_capture_completes :
    ((capturing 15).posting .a quiet).any (fun p =>
      decide ((beforeCapture p).ubp.capture = (capturing 15).ubp.capture ∧ (p.1.blocks.get 0).isSome = true))
      = true := by
  decide +kernel

theorem test_hyp_capture_aborts :
    live.ubp.capture = none ∧ (capturing 3).ubp.capture = some ⟨0, 3, -16, 31⟩
      ∧ (abortCaptureOf 1 (capturing 3)).ubp.capture = (capturing 3).ubp.capture
      ∧ (abortCaptureOf 0 (capturing 3)).ubp.capture = none := by decide +kernel

theorem test_capture_rounds_toward_zero :
    after (exec (.captureComplete .a quiet) (capturing 15)) (fun t =>
      decide ((t.ub 0).baseline = some ⟨-1, 1, true⟩ ∧ t.ubp.capture = none)) = true := by decide +kernel

/-! ### Witnesses: station requests on a step, and the routes -/

/-- A step that may be enabled, one that may be disabled, and two that may be released. -/
theorem test_hyp_step_requests :
    let off := yard (stepRec .disabled .opened none none)
    let out := locked .opened .failToClose
    let twice := locked .opened .repeatedTrip
    off.st.rebuilt = true ∧ (off.step 0).state = .disabled ∧ off.su.active.installed 0 = true
      ∧ (off.step 0).position = .opened ∧ (ready.sw 0).op = none ∧ (out.step 0).cause ≠ some .repeatedTrip
      ∧ (twice.step 0).cause = some .repeatedTrip ∧ (out.cd 0).discharge = none ∧ (out.sw 0).op = none
      ∧ (out.onCd 0 (fun c => { c with discharge := some 1 })).cd 0 ≠ out.cd 0
      ∧ ({ out.cdu with startUp := .running 1 } : Cooldown).startUp = .running 1
      ∧ (live.step 0).position ≠ .opened ∧ 1 < (2#8 : Byte).toNat := by decide +kernel

theorem test_hyp_no_running_start_up (due : Nat) : (locked .opened .failToClose).cdu.startUp ≠ .running due := by
  show OneShot.notStarted ≠ .running due
  exact fun h => by cases h

theorem test_repeated_trip_needs_confirmation :
    after (exec (.stepRelease 1#8 0#8) (locked .opened .repeatedTrip)) (fun t =>
      decide (t.hlk.answer = some ⟨.wrongState, []⟩)) = true
      ∧ after (exec (.stepRelease 1#8 1#8) (locked .opened .repeatedTrip)) (fun t =>
        decide ((t.step 0).state = .ready)) = true := by decide +kernel

/-- MEAS_LOST active, with a route. -/
def lost (d : Destination) : State :=
  live.onEvr (fun e => { e with
    active := Tab.put e.active Source.measLost.ix true, routes := Tab.put e.routes Source.measLost.ix d })

theorem test_hyp_routes :
    Source.measLost.isPulse = false ∧ (lost .freeze).route .measLost = .freeze
      ∧ (lost .freeze).sourceActive .measLost = true ∧ (lost .freeze).freeze = true
      ∧ (lost .freeze).vrg.holds.freeze ≠ (lost .freeze).freeze ∧ live.vrg.holds.freeze = live.freeze
      ∧ 16 < (17#8 : Byte).toNat ∧ 8 < (9#8 : Byte).toNat ∧ Source.unbTrip.isPulse = true
      ∧ (live.onEvr (fun e => { e with hold := Tab.put e.hold 0 (some 100000) })).evr.hold.get
          PulseSource.unbTrip.source.ix = some 100000
      ∧ (lost .none).route .measLost ≠ .removeAll ∧ (lost .none).route .measLost = .none := by decide +kernel

/-- Sources reported to a route: an edge on a removal, a condition on an AUX output, and a pulse on each. -/
theorem test_hyp_reports :
    let aux : State := live.onEvr (fun e => { e with
      active := Tab.put e.active Source.measLost.ix true, routes := Tab.put e.routes Source.measLost.ix (.aux 2) })
    let removal : State := live.onEvr (fun e => { e with routes := Tab.put e.routes Source.measLost.ix .removeAll })
    let pulsed : State := live.onEvr (fun e => { e with routes := Tab.put e.routes Source.unbTrip.ix (.aux 1) })
    aux.aux 2 = true ∧ aux.aux 1 = false ∧ removal.sourceActive .measLost ≠ true
      ∧ (removal.route .measLost = .removeNewest ∨ removal.route .measLost = .removeAll)
      ∧ ((condition .measLost true removal).step 0).state = .opening
      ∧ ((pulse .unbTrip pulsed).evr.hold.get Source.unbTrip.ix) = some 101000 ∧ (pulse .unbTrip pulsed).aux 1 = true
      ∧ (lost .blockInsert).blockInsert = true ∧ live.blockInsert = false
      ∧ live.route .opFail = .none := by decide +kernel

theorem test_route_delivers_a_removal :
    after (exec (.routeSet 10#8 8#8) (lost .none)) (fun t =>
      decide (t.route .measLost = .removeAll ∧ (t.step 0).state = .opening
        ∧ t.hlk.answer = some ⟨.ok, [1#8, 8#8]⟩)) = true := by decide +kernel

theorem test_route_out_of_range :
    after (exec (.routeSet 10#8 9#8) (lost .none)) (fun t =>
      decide (t.hlk.answer = some ⟨.outOfRange, []⟩ ∧ t.route .measLost = .none)) = true
      ∧ after (exec (.routeSet 1#8 5#8) live) (fun t =>
        decide (t.hlk.answer = some ⟨.outOfRange, []⟩)) = true := by decide +kernel

end Sys2Proof.Tests
end

