-- ==== Sys2Proof/Proofs/Step.lean ====
section
/-! PROOFS. What a step does on an empty queue. -/

namespace Sys2Proof.Machine

/-- An empty queue leaves the step to the clock. -/
theorem step_empty {s : State} (h : s.pending = []) : step s = idle s := by
  simp only [step, h]

/-- A command at the front of the queue is taken on the state with the queue's rest. -/
theorem step_front {s : State} {c : Instr} {rest : List Instr} (h : s.pending = c :: rest) :
    step s = exec c { s with pending := rest } := by
  simp only [step, h]

theorem idle_held {s : State} (h : s.resetHeld.isSome = true) : idle s = .next s := if_pos h

theorem idle_due {s : State} {c : Instr} (live : s.resetHeld = none) (h : s.dueCommand = some c) :
    idle s = exec c s := by
  simp [idle, live, h]

theorem idle_nothing_due {s : State} (live : s.resetHeld = none) (h : s.dueCommand = none) :
    idle s = .next (if s.mi.waiting ≠ [] then selectWaiting s else tick s) := by
  simp [idle, live, h]

/-- Settles O2: the four cases of a step on an empty queue. -/
theorem emptyQueueTakesAnExpiryOrTicks : Obligations.EmptyQueueTakesAnExpiryOrTicks := by
  intro s empty
  rw [step_empty empty]
  refine ⟨idle_held, fun live c => idle_due live, fun live due waits => ?_, fun live due none => ?_⟩
  · rw [idle_nothing_due live due, if_pos waits]
  · rw [idle_nothing_due live due, if_neg (not_not.mpr none)]
    rfl

end Sys2Proof.Machine
end

