-- ==== Sys2Proof/Proofs/Sources.lean ====
section
/-! PROOFS. The source invariant (R10, R11, R17): the active link is LOCKED, and MEAS_DISAGREE with its counts needs
two LOCKED links. What changes no link's state, role or comparison keeps it; so does a link that only gains LOCKED; and
the selector restores it where a link leaves LOCKED. -/

namespace Sys2Proof.Machine

variable {s t u : State}

/-- A change that leaves sound sources sound. -/
def KeepsSources (s t : State) : Prop := s.sourcesSound → t.sourcesSound

theorem KeepsSources.refl (s : State) : KeepsSources s s := id

theorem KeepsSources.trans (h : KeepsSources s t) (k : KeepsSources t u) : KeepsSources s u := k ∘ h

theorem KeepsSources.ite {c : Prop} [Decidable c] (h : c → KeepsSources s t) (k : ¬c → KeepsSources s u) :
    KeepsSources s (if c then t else u) := by
  split
  · exact h ‹_›
  · exact k ‹_›

theorem KeepsSources.foldl {α : Type} {f : State → α → State} (h : ∀ s a, KeepsSources s (f s a)) (xs : List α)
    (s : State) : KeepsSources s (xs.foldl f s) := by
  induction xs generalizing s with
  | nil => exact .refl s
  | cons x xs ih => exact (h s x).trans (ih _)

theorem KeepsSources.onlyIf {b : Bool} {f : State → State} (h : b = true → KeepsSources s (f s)) :
    KeepsSources s (onlyIf b f s) := .ite h (fun _ => .refl s)

/-! ### Changes that the sources do not see -/

/-- The sources read no more of Measurement Intake than which links are LOCKED, the role and the comparison. -/
theorem sourcesSound_congr (locked : ∀ l, t.locked l = s.locked l) (active : t.mi.active = s.mi.active)
    (disagree : t.mi.disagree = s.mi.disagree) (disagrees : t.mi.disagreeCount = s.mi.disagreeCount)
    (agrees : t.mi.agreeCount = s.mi.agreeCount) : KeepsSources s t := by
  intro h
  simpa only [State.sourcesSound, locked, active, disagree, disagrees, agrees] using h

/-- Which links are LOCKED is read from Measurement Intake alone. -/
theorem locked_of_mi (h : t.mi = s.mi) (l : Link) : t.locked l = s.locked l := by
  cases l <;> simp only [State.locked, State.link, h]

theorem KeepsSources.of_mi (h : t.mi = s.mi) : KeepsSources s t :=
  sourcesSound_congr (locked_of_mi h) (by rw [h]) (by rw [h]) (by rw [h]) (by rw [h])

/-- A run that may not write Measurement Intake keeps the sources. -/
theorem Run.keepsSources {free stor : Prop} (c : Run free False stor s t) : KeepsSources s t := .of_mi c.mi

theorem onMi_locked {f : Intake → Intake} (a : (f s.mi).linkA = s.mi.linkA) (b : (f s.mi).linkB = s.mi.linkB)
    (l : Link) : (s.onMi f).locked l = s.locked l := by
  cases l
  · exact congrArg (fun r : LinkRec => r.state == .locked) a
  · exact congrArg (fun r : LinkRec => r.state == .locked) b

/-! ### A link's record changes -/

theorem locked_iff (s : State) (l : Link) : s.locked l = true ↔ (s.link l).state = .locked := beq_iff_eq

theorem locked_eq_false (s : State) (l : Link) : s.locked l = false ↔ (s.link l).state ≠ .locked := by
  rw [← Bool.not_eq_true, locked_iff]

theorem onLink_active (l : Link) (f : LinkRec → LinkRec) (s : State) : (s.onLink l f).mi.active = s.mi.active := by
  cases l <;> rfl

theorem onLink_link_ne {l k : Link} (h : k ≠ l) (f : LinkRec → LinkRec) (s : State) :
    (s.onLink l f).link k = s.link k := by
  match l, k, h with
  | .a, .b, _ => rfl
  | .b, .a, _ => rfl
  | .a, .a, same => exact absurd rfl same
  | .b, .b, same => exact absurd rfl same

theorem onLink_locked_ne {l k : Link} (h : k ≠ l) (f : LinkRec → LinkRec) (s : State) :
    (s.onLink l f).locked k = s.locked k := by
  simp only [State.locked, onLink_link_ne h]

/-- A link's record that stays LOCKED if it was keeps the sources. -/
theorem onLink_keepsSources {l : Link} {f : LinkRec → LinkRec}
    (stays : (s.link l).state = .locked → (f (s.link l)).state = .locked) : KeepsSources s (s.onLink l f) := by
  have mono : ∀ k, s.locked k = true → (s.onLink l f).locked k = true := by
    intro k h
    by_cases e : k = l
    · subst e
      rw [locked_iff, onLink_link]
      exact stays ((locked_iff s k).1 h)
    · rw [onLink_locked_ne e]
      exact h
  rintro ⟨active, two⟩
  refine ⟨fun k h => mono k (active k (onLink_active l f s ▸ h)), fun few => ?_⟩
  have few' : (s.locked .a && s.locked .b) = false := by
    by_contra k
    simp only [Bool.not_eq_false, Bool.and_eq_true] at k
    rw [mono .a k.1, mono .b k.2] at few
    cases few
  cases l <;> exact two few'

/-! ### The selector -/

/-- A link that has left LOCKED leaves sound sources, if every other active source is LOCKED. -/
theorem leftLocked_sourcesSound {l : Link}
    (active : ∀ k, k ≠ l → s.mi.active = some k → s.locked k = true) : (leftLocked l s).sourcesSound := by
  have same : ∀ k, (leftLocked l s).locked k = s.locked k := fun k => by simp only [State.locked, leftLocked_link]
  refine ⟨fun k h => ?_, fun _ => by rw [leftLocked_mi]; exact ⟨rfl, rfl, rfl⟩⟩
  rw [same]
  rw [leftLocked_mi] at h
  by_cases mine : s.mi.active = some l
  · by_cases other : s.locked l.other = true
    · simp only [mine, other, if_true] at h
      cases h
      exact other
    · simp [mine, other] at h
  · simp only [mine, if_false] at h
    exact active k (fun e => mine (e ▸ h)) h

/-- Whatever becomes of its record, a link that the selector takes as having left LOCKED gives up the role, and the
comparison ends. -/
theorem leaves_keepsSources (l : Link) (f : LinkRec → LinkRec) (s : State) :
    KeepsSources s (leftLocked l (s.onLink l f)) := by
  intro h
  refine leftLocked_sourcesSound (fun k ne a => ?_)
  rw [onLink_locked_ne ne]
  exact h.1 k (onLink_active l f s ▸ a)

theorem sourceGained_locked (l k : Link) (s : State) : (sourceGained l s).locked k = s.locked k := by
  cases k <;> simp only [State.locked, State.link, sourceGained_mi]

/-- A LOCKED link may become the active source. -/
theorem sourceGained_keepsSources {l : Link} (h : s.locked l = true) : KeepsSources s (sourceGained l s) := by
  rintro ⟨-, two⟩
  refine ⟨fun k a => ?_, fun few => ?_⟩
  · rw [sourceGained_mi] at a
    cases a
    rw [sourceGained_locked]
    exact h
  · rw [sourceGained_locked, sourceGained_locked] at few
    rw [sourceGained_mi]
    exact two few

theorem sourceSwitched_locked (l k : Link) (s : State) : (sourceSwitched l s).locked k = s.locked k := by
  cases k <;> simp only [State.locked, State.link, sourceSwitched_mi]

/-- The role may move to a LOCKED link. -/
theorem sourceSwitched_keepsSources {l : Link} (h : s.locked l = true) : KeepsSources s (sourceSwitched l s) := by
  rintro ⟨-, two⟩
  refine ⟨fun k a => ?_, fun few => ?_⟩
  · rw [sourceSwitched_mi] at a
    cases a
    rw [sourceSwitched_locked]
    exact h
  · rw [sourceSwitched_locked, sourceSwitched_locked] at few
    rw [sourceSwitched_mi]
    exact two few

theorem enteredLocked_keepsSources {l : Link} (h : s.locked l = true) : KeepsSources s (enteredLocked l s) :=
  .ite (fun _ => sourceGained_keepsSources h) (fun _ => .refl s)

theorem compareUnits_locked (m : MeasRecord) (l : Link) (s : State) : (compareUnits m s).locked l = s.locked l := by
  unfold State.locked State.link
  cases l <;> rw [compareUnits_mi]

/-- No comparison is made unless both links are LOCKED. -/
theorem compareUnits_idle (m : MeasRecord) (h : ¬(s.locked .a = true ∧ s.locked .b = true)) : compareUnits m s = s :=
  if_neg h

theorem compareUnits_keepsSources (m : MeasRecord) : KeepsSources s (compareUnits m s) := by
  by_cases both : s.locked .a = true ∧ s.locked .b = true
  · rintro ⟨active, -⟩
    refine ⟨fun k a => ?_, fun few => ?_⟩
    · rw [compareUnits_locked]
      exact active k (by rw [compareUnits_mi] at a; exact a)
    · rw [compareUnits_locked, compareUnits_locked, both.1, both.2] at few
      cases few
  · rw [compareUnits_idle m both]
    exact .refl s

/-! ### Frames -/

/-- A good frame up to its posting. -/
theorem intake_keepsSources (m : MeasRecord) : KeepsSources s (intake m s) := by
  have record : ∀ v : State, KeepsSources v (v.onLink m.link (fun r => { r with latest := some m })) :=
    fun v => onLink_keepsSources id
  have compare : ∀ (c : Prop) [Decidable c] (v : State), KeepsSources v (if c then compareUnits m v else v) :=
    fun c _ v => .ite (fun _ => compareUnits_keepsSources m) (fun _ => .refl v)
  by_cases was : (s.link m.link).state = .locked <;>
    by_cases new : ((s.link m.link).good m.sequence s.now).state = .locked
  case pos =>
    rw [intake_stays (by simp [was, new])]
    exact (onLink_keepsSources (fun _ => new)).trans ((compare _ _).trans (record _))
  case neg =>
    rw [intake_leaves was new]
    exact (leaves_keepsSources _ _ s).trans ((compare _ _).trans (record _))
  case pos =>
    rw [intake_enters was new]
    have locked : (s.onLink m.link (fun r => r.good m.sequence s.now)).locked m.link = true := by
      rw [locked_iff, onLink_link]
      exact new
    exact (onLink_keepsSources (fun _ => new)).trans
      ((enteredLocked_keepsSources locked).trans ((compare _ _).trans (record _)))
  case neg =>
    rw [intake_stays (by simp [was, new])]
    exact (onLink_keepsSources (fun h => absurd h was)).trans ((compare _ _).trans (record _))

theorem postRecord_keepsSources (s : State) (m : MeasRecord) : KeepsSources s (postRecord s m) := by
  refine KeepsSources.trans ?_ (.of_mi (consumers_mi m s.elapsed (setPosted m s)))
  exact sourcesSound_congr (onMi_locked rfl rfl) rfl rfl rfl rfl

theorem goodFrame_keepsSources (m : MeasRecord) : KeepsSources s (goodFrame m s) := by
  unfold goodFrame
  refine .ite (fun _ => (intake_keepsSources m).trans (postRecord_keepsSources _ m)) (fun _ => .ite (fun _ => ?_)
    (fun _ => intake_keepsSources m))
  exact (intake_keepsSources m).trans (sourcesSound_congr (onMi_locked rfl rfl) rfl rfl rfl rfl)

theorem badFrame_keepsSources (l : Link) (k : FrameClass) : KeepsSources s (badFrame l k s) := by
  unfold badFrame
  refine .ite (fun _ => leaves_keepsSources l _ s) (fun h => onLink_keepsSources (fun was => ?_))
  rw [locked_iff, locked_eq_false, onLink_link, not_and, not_not] at h
  exact h was

theorem frameEnds_keepsSources (l : Link) (e : FrameEnd) (s : State) : KeepsSources s (frameEnds l e s) := by
  unfold frameEnds
  split
  · exact goodFrame_keepsSources _
  · exact badFrame_keepsSources _ _

theorem bytesArrive_keepsSources (l : Link) (bs : List Byte) : KeepsSources s (bytesArrive l bs s) :=
  KeepsSources.trans (.ite (fun _ => .refl s) (fun _ => onLink_keepsSources id))
    (.foldl (fun v e => frameEnds_keepsSources l e v) _ _)

theorem frameFails_keepsSources (l : Link) : KeepsSources s (frameFails l s) :=
  (onLink_keepsSources (f := fun r => { r with rx := none }) id).trans (frameEnds_keepsSources _ _ _)

theorem gapTaken_keepsSources (l : Link) : KeepsSources s (gapTaken l s) :=
  .ite (fun _ => frameFails_keepsSources l) (fun _ => .refl s)

theorem stepCountFails_keepsSources (l : Link) : KeepsSources s (stepCountFails l s) :=
  (gapTaken_keepsSources l).trans (.ite (fun _ => frameFails_keepsSources l) (fun _ => .refl _))

theorem frameArrives_keepsSources (l : Link) (e : FrameEnd) : KeepsSources s (frameArrives l e s) := by
  cases e with
  | complete bs => exact (gapTaken_keepsSources l).trans (bytesArrive_keepsSources l bs)
  | failed => exact .ite (fun _ => frameFails_keepsSources l) (fun _ => .refl s)

theorem onFrame_keepsSources (l : Link) (e : FrameEnd) (p : State → State → Bool) :
    KeepsSources s (onFrame l e p s) := by
  refine KeepsSources.trans ?_ (.onlyIf (fun _ => frameArrives_keepsSources l e))
  cases e
  · exact gapTaken_keepsSources l
  · exact .refl s

theorem onPosting_keepsSources (l : Link) (bs : List Byte) (p : State → Bool) : KeepsSources s (onPosting l bs p s) :=
  (gapTaken_keepsSources l).trans (.onlyIf (fun _ => frameArrives_keepsSources l _))

/-! ### Expiries, the end of a millisecond and the apply -/

theorem silenceLocked_keepsSources (l : Link) : KeepsSources s (silenceLocked l s) := leaves_keepsSources l _ s

/-- Only a link that is not LOCKED goes to SILENT. -/
theorem silenceSeeking_keepsSources {l : Link} (h : s.silence500 l = true) : KeepsSources s (silenceSeeking l s) := by
  have seeking : (s.link l).state = .seeking := by
    simp only [State.silence500, Bool.and_eq_true, beq_iff_eq] at h
    exact h.1
  exact onLink_keepsSources (fun was => by rw [seeking] at was; cases was)

theorem windowEnds_keepsSources (s : State) : KeepsSources s (windowEnds s) := by
  have ended : KeepsSources s (s.onMi (fun m => { m with window := none })) :=
    sourcesSound_congr (onMi_locked rfl rfl) rfl rfl rfl rfl
  refine .ite (fun _ => ended.trans (KeepsSources.trans ?_ (.of_mi (measCondition_chain ..).mi))) (fun _ => ended)
  exact sourcesSound_congr (onMi_locked rfl rfl) rfl rfl rfl rfl

theorem selectWaiting_keepsSources (s : State) : KeepsSources s (selectWaiting s) := by
  unfold selectWaiting
  split
  · exact .refl s
  · refine .ite (fun h => ?_) (fun _ => sourcesSound_congr (onMi_locked rfl rfl) rfl rfl rfl rfl)
    exact (sourceGained_keepsSources h.2).trans (.foldl postRecord_keepsSources _ _)

theorem preferApplied_keepsSources (s : State) : KeepsSources s (preferApplied s) := by
  unfold preferApplied
  simp only
  split
  · exact .ite (fun h => sourceSwitched_keepsSources h.1) (fun _ => .refl s)
  · exact .ite (fun _ => selectWaiting_keepsSources s) (fun _ => .refl s)

theorem takeSettingsApply_keepsSources (s : State) : KeepsSources s (takeSettingsApply s).1 := by
  have applies : ∀ (a b : Settings) (p : Bool) (v : State), v.mi = s.mi → KeepsSources s (applyEffects a b p v) :=
    fun a b p v h => (KeepsSources.of_mi ((applyBlocks_mi a b v).trans h)).trans
      (.ite (fun _ => preferApplied_keepsSources _) (fun _ => .refl _))
  unfold takeSettingsApply
  split
  · exact .refl s
  · simp only
    split
    · exact .refl s
    · exact applies _ _ _ _ rfl

theorem takeLinkRead_keepsSources (a b : Byte) (s : State) : KeepsSources s (takeLinkRead a b s).1 := by
  unfold takeLinkRead
  split
  · exact .ite (fun _ => onLink_keepsSources id) (fun _ => .refl s)
  · exact .refl s

/-! ### Requests and the host line -/

/-- A request other than LINK_READ and SETTINGS_APPLY leaves Measurement Intake as it is. -/
theorem takeOwner_apart (r : Request) (s : State) (link : ∀ a b, r ≠ .linkRead a b) (apply : r ≠ .settingsApply) :
    Run True False True s (takeOwner r s).1 := by
  cases r
  case linkRead => exact absurd rfl (link _ _)
  case settingsApply => exact absurd rfl apply
  case stepRead => exact takeStepRead_run ..
  case measRead => exact takeMeasRead_run ..
  case unbRead => exact takeUnbRead_run ..
  case modeSet => exact takeModeSet_run ..
  case orderStage => exact takeOrderStage_run ..
  case orderExecute => exact takeOrderExecute_run ..
  case orderCancel => exact clearStaged_run s
  case stepEnable => exact takeStepEnable_run ..
  case stepDisable => exact takeStepDisable_run ..
  case stepRelease => exact takeStepRelease_run ..
  case marksClear => exact takeMarksClear_run ..
  case baselineCapture => exact takeBaselineCapture_run ..
  case captureCancel => exact takeCaptureCancel_run s
  case settingWrite => exact takeSettingWrite_run ..
  case settingRead => exact takeSettingRead_run ..
  case settingsDiscard => exact takeSettingsDiscard_run s
  case routeSet => exact takeRouteSet_run ..
  case storeCommit => exact takeStoreCommit_run s
  case baselineUnlock => exact takeBaselineUnlock_run s
  case noticeAck => exact takeNoticeAck_run ..
  case noticeConfig => exact takeNoticeConfig_run ..
  case linkReset => exact linkReset_run ..
  all_goals exact .refl s

theorem takeOwner_keepsSources (r : Request) (s : State) : KeepsSources s (takeOwner r s).1 := by
  by_cases link : ∃ a b, r = .linkRead a b
  · obtain ⟨a, b, rfl⟩ := link
    exact takeLinkRead_keepsSources a b s
  · by_cases apply : r = .settingsApply
    · subst apply
      exact takeSettingsApply_keepsSources s
    · exact (takeOwner_apart r s (fun a b e => link ⟨a, b, e⟩) apply).keepsSources

theorem hostFrameEnds_keepsSources (bs : List Byte) (s : State) : KeepsSources s (hostFrameEnds bs s) := by
  refine .ite (fun _ => .of_mi rfl) (fun _ => .ite (fun _ => .of_mi rfl) (fun _ => ?_))
  have begun : KeepsSources s (goodHostFrame s) := (goodHostFrame_run (free := True) (stor := True) s).keepsSources
  refine begun.trans (KeepsSources.trans ?_ (.of_mi (s := (takeRequestFrame ..).1) rfl))
  unfold takeRequestFrame
  split
  · exact .refl _
  · exact .refl _
  · exact takeOwner_keepsSources _ _

theorem hostByte_keepsSources (s : State) (b : Byte) : KeepsSources s (hostByte s b) := by
  have holds : KeepsSources s (holdHost (receiveHostByte s.hostHeld b).2 s) := .of_mi rfl
  refine holds.trans ?_
  show KeepsSources _ (hostEvent (receiveHostByte s.hostHeld b).1 _)
  unfold hostEvent
  split
  · exact .refl _
  · exact .of_mi rfl
  · exact .of_mi rfl
  · exact hostFrameEnds_keepsSources _ _

theorem hostGapTaken_keepsSources (s : State) : KeepsSources s (hostGapTaken s) :=
  (hostGapTaken_run (free := True) (stor := True) s).keepsSources

theorem hostBytes_keepsSources (bs : List Byte) (s : State) : KeepsSources s (hostBytes bs s) :=
  (hostGapTaken_keepsSources s).trans (.foldl hostByte_keepsSources _ _)

theorem lineByte_keepsSources (b : Byte) (low : Bool) (s : State) : KeepsSources s (lineByte b low s) :=
  .ite (fun _ => (hostGapTaken_keepsSources s).trans (.of_mi rfl))
    (fun _ => (hostGapTaken_keepsSources s).trans (hostByte_keepsSources _ b))

/-! ### Every command -/

theorem live_keepsSources {f : State → State} (h : live s f = .next t) (k : KeepsSources s (f s)) :
    KeepsSources s t := by
  unfold live at h
  split at h
  · cases h; exact .refl s
  · cases h; exact k

/-- A command whose effect does not write Measurement Intake. -/
theorem live_apart {f : State → State} (h : live s f = .next t) (k : Run True False True s (f s)) :
    KeepsSources s t := live_keepsSources h k.keepsSources

theorem exec_request (r : Request) (s : State) : exec r.command s = serve s (takeOwner r) := by
  cases r <;> rfl

theorem request_keepsSources (r : Request) (h : exec r.command s = .next t) : KeepsSources s t := by
  rw [exec_request] at h
  exact live_keepsSources h ((takeOwner_keepsSources r s).trans (.of_mi rfl))

theorem reset_sourcesSound (h : t.mi = Reset.intake) : t.sourcesSound :=
  KeepsSources.of_mi (s := State.reset) h ⟨fun _ k => (by cases k), fun _ => ⟨rfl, rfl, rfl⟩⟩

theorem exec_keepsSources (c : Instr) (h : exec c s = .next t) : KeepsSources s t := by
  cases c
  case fullReset => cases h; exact fun _ => reset_sourcesSound rfl
  case fullResetHeld => cases h; exact .of_mi rfl
  case measFrame => exact live_keepsSources h (frameArrives_keepsSources _ _)
  case measFramingFailure => exact live_keepsSources h (stepCountFails_keepsSources _)
  case measByteGapTimeout => exact live_keepsSources h (gapTaken_keepsSources _)
  case linkLocked => exact live_keepsSources h (onFrame_keepsSources _ _ _)
  case lockedBadFrameLimit => exact live_keepsSources h (onFrame_keepsSources _ _ _)
  case silence100ms => exact live_keepsSources h (.onlyIf (fun _ => silenceLocked_keepsSources _))
  case silence500ms => exact live_keepsSources h (.onlyIf silenceSeeking_keepsSources)
  case acquisitionWindowExpiry => exact live_keepsSources h (.onlyIf (fun _ => windowEnds_keepsSources s))
  case measDisagreeStart => exact live_keepsSources h (onFrame_keepsSources _ _ _)
  case measDisagreeEnd l w =>
    refine live_keepsSources h ?_
    cases w
    · exact onFrame_keepsSources _ _ _
    · exact .onlyIf (fun _ => silenceLocked_keepsSources l)
  case insertDelayReached => exact live_keepsSources h (onPosting_keepsSources _ _ _)
  case removeDelayReached => exact live_keepsSources h (onPosting_keepsSources _ _ _)
  case overvoltageDelay => exact live_keepsSources h (onFrame_keepsSources _ _ _)
  case overvoltageRepeat => exact live_keepsSources h (onPosting_keepsSources _ _ _)
  case lossOfVoltageDelay => exact live_keepsSources h (onFrame_keepsSources _ _ _)
  case harmMoveUp => exact live_keepsSources h (onFrame_keepsSources _ _ _)
  case harmMoveDown => exact live_keepsSources h (onFrame_keepsSources _ _ _)
  case unbAlarm => exact live_keepsSources h (onFrame_keepsSources _ _ _)
  case unbTrip => exact live_keepsSources h (onFrame_keepsSources _ _ _)
  case captureComplete => exact live_keepsSources h (onFrame_keepsSources _ _ _)
  case hostFrame => exact live_keepsSources h (.onlyIf (fun _ => hostBytes_keepsSources _ s))
  case discardedByte => exact live_keepsSources h (.onlyIf (fun _ => lineByte_keepsSources _ _ s))
  case contactLevelChange => cases h; exact .ite (fun _ => .refl s) (fun _ => .of_mi rfl)
  case debounceExpiry => exact live_apart h (onlyIf_run (takeLevels_run ..))
  case positionDisagreementExpiry => exact live_apart h (onlyIf_run (toUnknown_run ..))
  case pulseExpiry => exact live_apart h (onlyIf_run (pulseEnds_run ..))
  case operateLimitExpiry => exact live_apart h (onlyIf_run (opFail_run ..))
  case settleExpiry => exact live_apart h (onlyIf_run (settleEnds_run ..))
  case orderStageExpiry => exact live_apart h (onlyIf_run (clearStaged_run s))
  case dischargeExpiry => exact live_apart h (onlyIf_run (dischargeEnds_run ..))
  case startupDischargeExpiry => exact live_apart h (onlyIf_run (startUpEnds_run s))
  case dutyExpiry => exact live_apart h (onlyIf_run (dutyEnds_run ..))
  case yardTimerExpiry => exact live_apart h (onlyIf_run (yardEnds_run s))
  case startUpHoldExpiry => exact live_apart h (onlyIf_run (startHoldEnds_run s))
  case stationSilenceExpiry => exact live_apart h (onlyIf_run (fallback_run s))
  case removeRepeatExpiry => exact live_apart h (onlyIf_run (repeatEnds_run ..))
  case armingExpiry => exact live_apart h (onlyIf_run (arm_run ..))
  case auxHoldExpiry => exact live_apart h (onlyIf_run (onEvr_run _ s))
  case hostFrameAbandon => exact live_apart h (onlyIf_run (hostAbandon_run ..))
  case hostByteGapTimeout => exact live_apart h (hostGapTaken_run s)
  case replyEnd => exact live_apart h (onlyIf_run (onHlk_run _ s))
  case breakOnHrx => exact live_apart h (onlyIf_run (linkReset_run ..))
  case commitEnd => exact live_apart h (endCommit_run ..)
  case hrxReturnsHigh => exact live_apart h (onHlk_run _ s)
  case debounceTimeFromReset => exact live_apart h (onlyIf_run (endDebounce_run s))
  case ident => exact request_keepsSources .ident h
  case yardStatus => exact request_keepsSources .yardStatus h
  case stepRead i => exact request_keepsSources (.stepRead i) h
  case measRead r => exact request_keepsSources (.measRead r) h
  case linkRead l c => exact request_keepsSources (.linkRead l c) h
  case linkStats => exact request_keepsSources .linkStats h
  case harmRead => exact request_keepsSources .harmRead h
  case unbRead i => exact request_keepsSources (.unbRead i) h
  case queueRead => exact request_keepsSources .queueRead h
  case noticeList => exact request_keepsSources .noticeList h
  case modeSet m => exact request_keepsSources (.modeSet m) h
  case orderStage i k => exact request_keepsSources (.orderStage i k) h
  case orderExecute i k => exact request_keepsSources (.orderExecute i k) h
  case orderCancel => exact request_keepsSources .orderCancel h
  case stepEnable i => exact request_keepsSources (.stepEnable i) h
  case stepDisable i => exact request_keepsSources (.stepDisable i) h
  case stepRelease i c => exact request_keepsSources (.stepRelease i c) h
  case marksClear i => exact request_keepsSources (.marksClear i) h
  case baselineCapture i => exact request_keepsSources (.baselineCapture i) h
  case captureCancel => exact request_keepsSources .captureCancel h
  case settingWrite i x v => exact request_keepsSources (.settingWrite i x v) h
  case settingRead i x c => exact request_keepsSources (.settingRead i x c) h
  case settingsApply => exact request_keepsSources .settingsApply h
  case settingsDiscard => exact request_keepsSources .settingsDiscard h
  case routeSet x d => exact request_keepsSources (.routeSet x d) h
  case routeRead => exact request_keepsSources .routeRead h
  case storeCommit => exact request_keepsSources .storeCommit h
  case storeStatus => exact request_keepsSources .storeStatus h
  case baselineUnlock => exact request_keepsSources .baselineUnlock h
  case noticeFetch => exact request_keepsSources .noticeFetch h
  case noticeAck c => exact request_keepsSources (.noticeAck c) h
  case noticeConfig c p m => exact request_keepsSources (.noticeConfig c p m) h
  case linkReset => exact request_keepsSources .linkReset h

theorem idle_keepsSources (h : idle s = .next t) : KeepsSources s t := by
  unfold idle at h
  split at h
  · cases h; exact .refl s
  · split at h
    · exact exec_keepsSources _ h
    · cases h
      exact .ite (fun _ => selectWaiting_keepsSources s) (fun _ => .of_mi rfl)

/-- Settles O15: every command, every expiry and every tick keeps the source invariant. -/
theorem activeLinkIsLocked : Obligations.ActiveLinkIsLocked := by
  intro s t sound h
  unfold step at h
  split at h
  · rename_i c rest _
    exact exec_keepsSources c h (KeepsSources.of_mi (t := { s with pending := rest }) rfl sound)
  · exact idle_keepsSources h sound

end Sys2Proof.Machine
end

