-- ==== Sys2Proof/Proofs/LinkMoves.lean ====
section
/-! PROOFS. What a good frame makes of its link's record (R4 to R7, R9). -/

namespace Sys2Proof.Machine

/-! ### The missing count (R4) -/

theorem missing_absent {r : LinkRec} (h : r.lastSeq = none) (seq : Word16) : r.missing seq = 0 := by
  simp only [LinkRec.missing, h]

theorem missing_eq {r : LinkRec} {q : Word16} (h : r.lastSeq = some q) (seq : Word16) :
    r.missing seq = (seq - q - 1#16).toNat := by
  simp only [LinkRec.missing, h]

/-- No frame is missing exactly where the sequence is the next one. -/
theorem missing_eq_zero_iff {r : LinkRec} {q : Word16} (h : r.lastSeq = some q) (seq : Word16) :
    r.missing seq = 0 ↔ seq = q + 1#16 := by
  rw [missing_eq h]
  bv_omega

/-- At most two frames are missing where the sequence is one of the next three. -/
theorem missing_le_two_iff {r : LinkRec} {q : Word16} (h : r.lastSeq = some q) (seq : Word16) :
    r.missing seq ≤ 2 ↔ seq = q + 1#16 ∨ seq = q + 2#16 ∨ seq = q + 3#16 := by
  rw [missing_eq h]
  bv_omega

/-! ### The table of SILENT, SEEKING and LOCKED (R6, R7) -/

section
variable {r : LinkRec} {missing : Nat}

theorem advance_silent (h : r.state = .silent) : r.advance missing = (.seeking, 1) := by
  simp only [LinkRec.advance, h]

theorem advance_seeking_gap (h : r.state = .seeking) (gap : missing ≠ 0) : r.advance missing = (.seeking, 1) := by
  simp only [LinkRec.advance, h, if_neg gap]

theorem advance_seeking_run (h : r.state = .seeking) (short : r.run + 1 < 8) :
    r.advance 0 = (.seeking, r.run + 1) := by
  simp only [LinkRec.advance, h, if_true]
  exact if_pos short

theorem advance_seeking_locks (h : r.state = .seeking) (long : 8 ≤ r.run + 1) : r.advance 0 = (.locked, 8) := by
  simp only [LinkRec.advance, h, if_true]
  exact if_neg (Nat.not_lt.mpr long)

theorem advance_locked_stays (h : r.state = .locked) (few : missing ≤ 2) : r.advance missing = (.locked, r.run) := by
  simp only [LinkRec.advance, h]
  exact if_pos few

theorem advance_locked_leaves (h : r.state = .locked) (many : ¬missing ≤ 2) : r.advance missing = (.seeking, 1) := by
  simp only [LinkRec.advance, h]
  exact if_neg many

end

/-! ### The record after a good frame -/

section
variable (r : LinkRec) (seq : Word16) (now : Nat)

theorem good_state : (r.good seq now).state = (r.advance (r.missing seq)).1 := rfl

theorem good_run : (r.good seq now).run = (r.advance (r.missing seq)).2 := rfl

theorem good_gaps : (r.good seq now).counters.gaps
    = if r.missing seq = 0 then r.counters.gaps else satInc 65535 r.counters.gaps := by
  show (if r.missing seq = 0 then _ else _ : LinkCounters).gaps = _
  split <;> rfl

theorem good_counters : (r.good seq now).counters = { r.counters with
    accepted := satInc 65535 r.counters.accepted, gaps := (r.good seq now).counters.gaps } := by
  unfold LinkRec.good
  simp only
  split <;> rfl

end

/-- Settles O33: by the sequence against the last one, and by the state of the link. -/
theorem goodFrameMovesItsLink : Obligations.GoodFrameMovesItsLink := by
  intro r seq now g
  refine ⟨rfl, rfl, rfl, rfl, good_counters r seq now, fun silent => ?_, fun absent => ?_, fun q last => ⟨?_, ?_⟩⟩
  · rw [good_state, good_run, advance_silent silent]
    exact ⟨rfl, rfl⟩
  · rw [good_gaps, if_pos (missing_absent absent seq)]
  · intro next
    have none : r.missing seq = 0 := (missing_eq_zero_iff last seq).2 next
    rw [good_gaps, good_state, good_run, none]
    refine ⟨if_pos rfl, fun seeking short => ?_, fun seeking long => ?_, fun locked => ?_⟩
    · rw [advance_seeking_run seeking short]
      exact ⟨rfl, rfl⟩
    · rw [advance_seeking_locks seeking long]
    · rw [advance_locked_stays locked (Nat.zero_le 2)]
  · intro next
    have some : r.missing seq ≠ 0 := fun h => next ((missing_eq_zero_iff last seq).1 h)
    have few : r.missing seq ≤ 2 ↔ seq = q + 2#16 ∨ seq = q + 3#16 := by
      rw [missing_le_two_iff last]
      exact or_iff_right next
    rw [good_gaps, good_state, good_run]
    refine ⟨if_neg some, fun seeking => ?_, fun locked near => ?_, fun locked far => ?_⟩
    · rw [advance_seeking_gap seeking some]
      exact ⟨rfl, rfl⟩
    · rw [advance_locked_stays locked (few.2 near)]
    · rw [advance_locked_leaves locked (fun h => far (few.1 h))]
      exact ⟨rfl, rfl⟩

end Sys2Proof.Machine
end

