-- ==== Sys2Proof/Proofs/FullReset.lean ====
section
/-! PROOFS. The reset state of every block (R20, R45, R74, R85, R90, R119, R137, R157, R170, R187): one lemma for each
record read from the state at the end of a full reset, then what is computed from them. -/

namespace Sys2Proof.Machine

section
variable (cause : ResetCause) (b1 b0 : Bool) (s : State)

/-! ### The records -/

theorem restart_link (l : Link) :
    (restart cause b1 b0 s).link l = ⟨none, .silent, none, 0, 0, none, ⟨0, 0, 0, 0, 0⟩, none⟩ := by
  cases l <;> rfl

theorem restart_step (i : StepIx) : (restart cause b1 b0 s).step i
    = (s.step i).restart ((restart cause b1 b0 s).su.active.installed i) := Tab.get_build ..

theorem restart_sw (i : StepIx) : (restart cause b1 b0 s).sw i = { Reset.swuStep with
    opCount := match s.loadedImage with | none => 0 | some x => x.opCounts.get i } := Tab.get_build ..

theorem restart_cd (i : StepIx) : (restart cause b1 b0 s).cd i =
    ⟨none, false, (restart cause b1 b0 s).y .dutyLimit - 2,
      if (restart cause b1 b0 s).y .dutyLimit - 2 = 0 then none
      else some ((restart cause b1 b0 s).ySec .dutyInterval)⟩ := Tab.get_build ..

theorem restart_rejected (i : StepIx) : ((restart cause b1 b0 s).vrg.steps.get i).rejected = 0 :=
  congrArg VrgStep.rejected (Tab.get_build ..)

theorem restart_qty (q : QtyIx) : (restart cause b1 b0 s).qty q = ⟨.normal, 0, 0, none, none, none⟩ := Tab.get_build ..

theorem restart_marked (i : StepIx) (q : QtyIx) : (restart cause b1 b0 s).marked i q = false := by
  have marks : (restart cause b1 b0 s).hsv.marks.get i = Tab.build (fun _ => false) := Tab.get_build ..
  rw [State.marked, marks, Tab.get_build]

theorem restart_ub (i : StepIx) : (restart cause b1 b0 s).ub i = { Reset.ubpStep with
    baseline := match s.loadedImage with
      | none => none
      | some x => (x.baselines.get i).map (fun b => ⟨b.1, b.2, false⟩) } := Tab.get_build ..

/-- After a full reset the one condition source that can be active is STORE_FAULT. -/
theorem restart_sourceActive {src : Source} (h : src ≠ .storeFault) :
    (restart cause b1 b0 s).sourceActive src = false := by
  show (loadedRouter s.loadedImage).active.get src.ix = false
  cases s.loadedImage with
  | some img => exact Tab.get_build ..
  | none =>
    refine (Tab.get_build ..).trans ?_
    cases src
    case storeFault => exact absurd rfl h
    all_goals rfl

theorem restart_hold (i : Fin 16) : (restart cause b1 b0 s).evr.hold.get i = none := by
  show (loadedRouter s.loadedImage).hold.get i = none
  cases s.loadedImage <;> exact Tab.get_build ..

/-! ### What is computed from them -/

theorem restart_insertedRating : (restart cause b1 b0 s).insertedRating = 0 := by
  have off : ∀ i, (((restart cause b1 b0 s).step i).state == .energized) = false := by
    intro i
    rw [restart_step]
    show ((if _ then _ else _ : StepState) == _) = false
    split <;> rfl
  simp [State.insertedRating, off]

/-- No quantity stands at a stage. -/
theorem restart_firstAtRank (r : Nat) : (restart cause b1 b0 s).firstAtRank (r + 1) = none := by
  simp [State.firstAtRank, restart_qty, HarmState.rank, HarmState.code]

theorem restart_unbAlarm : (restart cause b1 b0 s).unbAlarm = false := by
  simp [State.unbAlarm, restart_ub, Reset.ubpStep]

/-- STORE_FAULT is active only with the routes of an invalid image, which are NONE, so that no AUX output is
asserted. -/
theorem restart_aux (n : Fin 4) : (restart cause b1 b0 s).aux n = false := by
  have store : (restart cause b1 b0 s).route .storeFault = .aux n →
      (restart cause b1 b0 s).sourceActive .storeFault = false := by
    intro routed
    change (loadedRouter s.loadedImage).routes.get _ = _ at routed
    show (loadedRouter s.loadedImage).active.get _ = false
    generalize s.loadedImage = img at routed ⊢
    cases img with
    | some img => exact Tab.get_build ..
    | none =>
      rw [show (loadedRouter none).routes.get _ = Destination.none from Tab.get_build ..] at routed
      cases routed
  have conditions : (restart cause b1 b0 s).contribution (.aux n) = false := by
    simp only [State.contribution, List.any_eq_false, Bool.and_eq_true, decide_eq_true_eq]
    rintro src - ⟨⟨-, routed⟩, active⟩
    by_cases h : src = .storeFault
    · subst h
      rw [store routed] at active
      cases active
    · rw [restart_sourceActive cause b1 b0 s h] at active
      cases active
  simp [State.aux, conditions, restart_hold]

end

/-- Settles O6: block by block, from the records. -/
theorem fullResetLeavesEveryBlockInItsResetState : Obligations.FullResetLeavesEveryBlockInItsResetState := by
  intro cause b1 b0 s
  refine ⟨restart cause b1 b0 s, rfl, ?mi, ?st, ?swu, ?cdu, ?vrg, ?hsv, ?ubp, ?evr, ?hlk⟩
  case mi => exact ⟨restart_link cause b1 b0 s, rfl, rfl, rfl, rfl, rfl, rfl, rfl, rfl, rfl⟩
  case st =>
    refine ⟨fun i => ?_, rfl, rfl, restart_insertedRating cause b1 b0 s, rfl⟩
    rw [restart_step]
    exact ⟨rfl, rfl, rfl, rfl, rfl, rfl, rfl, rfl⟩
  case swu =>
    refine ⟨rfl, rfl, rfl, rfl, fun i => ?_⟩
    rw [restart_sw]
    exact ⟨rfl, rfl, rfl, rfl, rfl, rfl, rfl⟩
  case cdu =>
    refine ⟨fun i => ?_, rfl, rfl, rfl⟩
    rw [restart_cd]
    refine ⟨rfl, rfl, rfl, ?_⟩
    by_cases h : 2 < (restart cause b1 b0 s).y .dutyLimit
    · rw [if_pos h]
      exact if_neg (by omega)
    · rw [if_neg h]
      exact if_pos (by omega)
  case vrg =>
    exact ⟨rfl, rfl, rfl, rfl, rfl, rfl, rfl, rfl, rfl, rfl, rfl, rfl, rfl, restart_rejected cause b1 b0 s⟩
  case hsv =>
    refine ⟨restart_qty cause b1 b0 s, rfl, restart_marked cause b1 b0 s, ?_, ?_, ?_⟩
    · rw [State.harmAlarm, restart_firstAtRank]; rfl
    · rw [State.harmBlock, restart_firstAtRank]; rfl
    · rw [State.harmRemove, restart_firstAtRank]; rfl
  case ubp =>
    refine ⟨fun i => ?_, restart_unbAlarm cause b1 b0 s, rfl, rfl⟩
    rw [restart_ub]
    exact ⟨rfl, rfl, rfl, rfl, rfl, rfl, rfl, rfl⟩
  case evr =>
    refine ⟨fun src => restart_sourceActive cause b1 b0 s, restart_hold cause b1 b0 s, restart_aux cause b1 b0 s, ?_⟩
    show (loadedRouter s.loadedImage).removal = none
    cases s.loadedImage <;> rfl
  case hlk => exact ⟨rfl, rfl, rfl, rfl, rfl, rfl⟩

end Sys2Proof.Machine
end

