-- ==== Sys2Proof/Proofs/Reception.lean ====
section
/-! PROOFS. What a measurement receiver makes of bytes and of a gap (R1), and how a bad frame is counted (R2, R6, R7,
R9). -/

namespace Sys2Proof.Machine

/-! ### One byte, and bytes one after another -/

theorem receiveBytes_append (held xs ys : List Byte) : receiveBytes held (xs ++ ys)
    = ((receiveBytes held xs).1 ++ (receiveBytes (receiveBytes held xs).2 ys).1,
       (receiveBytes (receiveBytes held xs).2 ys).2) := by
  induction xs generalizing held with
  | nil => rfl
  | cons x xs ih => simp only [List.cons_append, receiveBytes, ih, List.append_assoc]

/-- Inside a frame, a byte ends it at a step count out of range or at the length that the count fixes. -/
theorem receiveByte_begun {held : List Byte} (begun : 2 ≤ held.length) (b : Byte) :
    receiveByte held b =
      if (held ++ [b]).length = 7 ∧ (measCount (held ++ [b]) = 0 ∨ 8 < measCount (held ++ [b])) then (some .failed, [])
      else if 7 ≤ (held ++ [b]).length ∧ (held ++ [b]).length = 43 + 10 * measCount (held ++ [b]) then
        (some (.complete (held ++ [b])), [])
      else (none, held ++ [b]) := by
  match held, begun with
  | _ :: _ :: _, _ => rfl

/-- A hunting receiver makes nothing of bytes that hold no marker byte. -/
theorem receive_junk {junk : List Byte} (h : 0x5A#8 ∉ junk) : receiveBytes [] junk = ([], []) := by
  induction junk with
  | nil => rfl
  | cons b bs ih =>
    obtain ⟨first, rest⟩ := not_or.mp (List.mem_cons.not.mp h)
    have discards : receiveByte [] b = (none, []) := by
      simp only [receiveByte, if_neg (Ne.symm first)]
    simp only [receiveBytes, discards, ih rest, Option.toList, List.append_nil]

theorem measComplete_count {bs : List Byte} (h : measComplete bs = true) :
    1 ≤ measCount bs ∧ measCount bs ≤ 8 ∧ bs.length = 43 + 10 * measCount bs := by
  simp only [measComplete, decide_eq_true_eq] at h
  exact h.2.2

/-- A byte before the last one of a complete frame is held. -/
theorem receiveByte_inside {held more : List Byte} {b : Byte} (whole : measComplete (held ++ [b] ++ more) = true)
    (begun : 2 ≤ held.length) (ahead : more ≠ []) : receiveByte held b = (none, held ++ [b]) := by
  obtain ⟨atLeast, atMost, length⟩ := measComplete_count whole
  have same : 7 ≤ (held ++ [b]).length → measCount (held ++ [b]) = measCount (held ++ [b] ++ more) :=
    fun long => (field_append _ more 6 1 long).symm
  have shorter : (held ++ [b]).length < 43 + 10 * measCount (held ++ [b] ++ more) := by
    have := List.length_pos_of_ne_nil ahead
    rw [← length, List.length_append (as := held ++ [b])]
    omega
  rw [receiveByte_begun begun, if_neg, if_neg]
  · rintro ⟨long, ends⟩
    rw [same long] at ends
    omega
  · rintro ⟨long, out⟩
    rw [same (by omega)] at out
    omega

/-- A proper part of a complete frame that has begun is held. -/
theorem receive_inside {pre post more : List Byte} (whole : measComplete (pre ++ post ++ more) = true)
    (begun : 2 ≤ pre.length) (ahead : more ≠ []) : receiveBytes pre post = ([], pre ++ post) := by
  induction post generalizing pre with
  | nil => simp [receiveBytes]
  | cons b bs ih =>
    have split : pre ++ b :: bs = pre ++ [b] ++ bs := by simp
    rw [split] at whole ⊢
    have holds : receiveByte pre b = (none, pre ++ [b]) :=
      receiveByte_inside (more := bs ++ more) (by rwa [← List.append_assoc]) begun (by simp [ahead])
    have rest := ih whole (by simp; omega)
    simp only [receiveBytes, holds, rest]
    rfl

/-! ### A complete frame -/

theorem field_one (bs : List Byte) (k : Nat) (h : k < bs.length) : field bs k 1 = (bs[k]).toNat := by
  rw [field, List.drop_eq_getElem_cons h]
  simp only [readBytes, List.take_succ_cons, List.take_zero, List.foldl_cons, List.foldl_nil]
  omega

theorem field_marker_iff {bs : List Byte} (h : 2 ≤ bs.length) :
    field bs 0 2 = 0x5AC3 ↔ bs.take 2 = [0x5A#8, 0xC3#8] := by
  match bs, h with
  | x :: y :: rest, _ =>
    simp only [field, readBytes, List.drop_zero, List.take_succ_cons, List.take_zero, List.foldl_cons,
      List.foldl_nil, List.cons.injEq, and_true]
    have := y.isLt
    constructor
    · intro h
      exact ⟨BitVec.eq_of_toNat_eq (by simp; omega), BitVec.eq_of_toNat_eq (by simp; omega)⟩
    · rintro ⟨rfl, rfl⟩
      rfl

/-- A complete frame: the marker, a step count from 1 to 8 at offset 6, and the length that the count fixes. -/
theorem measComplete_iff (bs : List Byte) : measComplete bs = true ↔
    bs.take 2 = [0x5A#8, 0xC3#8] ∧ ∃ n : Byte, bs[6]? = some n ∧ 1 ≤ n.toNat ∧ n.toNat ≤ 8
      ∧ bs.length = 43 + 10 * n.toNat := by
  by_cases long : 7 ≤ bs.length
  · have count : measCount bs = (bs[6]).toNat := field_one bs 6 long
    simp only [measComplete, decide_eq_true_eq, field_marker_iff (by omega : 2 ≤ bs.length), count,
      List.getElem?_eq_getElem long, Option.some.injEq, exists_eq_left', long, true_and]
  · have none : bs[6]? = none := List.getElem?_eq_none (by omega)
    simp [measComplete, none, long]

theorem receive_marker : receiveBytes [] [0x5A#8, 0xC3#8] = ([], [0x5A#8, 0xC3#8]) := by decide

/-- A first part of a complete frame that reaches past its marker is held by a hunting receiver. -/
theorem receive_head {head rest : List Byte} (whole : measComplete (head ++ rest) = true) (begun : 2 ≤ head.length)
    (ahead : rest ≠ []) : receiveBytes [] head = ([], head) := by
  have marker := ((measComplete_iff _).1 whole).1
  match head, begun with
  | x :: y :: tail, _ =>
    obtain ⟨rfl, rfl⟩ : x = 0x5A#8 ∧ y = 0xC3#8 := by simpa using marker
    have inside := receive_inside (pre := [0x5A#8, 0xC3#8]) (post := tail) (more := rest) whole (by simp) ahead
    rw [show 0x5A#8 :: 0xC3#8 :: tail = [0x5A#8, 0xC3#8] ++ tail from rfl, receiveBytes_append, receive_marker, inside]
    rfl

/-- A step count out of range fails the frame (R1). -/
theorem receive_badCount {head : List Byte} {count : Byte} (six : head.length = 6)
    (marker : head.take 2 = [0x5A#8, 0xC3#8]) (out : count.toNat = 0 ∨ 8 < count.toNat) :
    receiveBytes [] (head ++ [count]) = ([.failed], []) := by
  have holds : receiveBytes [] head = ([], head) := by
    match head, six with
    | [x, y, c, d, e, f], _ =>
      obtain ⟨rfl, rfl⟩ : x = 0x5A#8 ∧ y = 0xC3#8 := by simpa using marker
      simp [receiveBytes, receiveByte]
  have read : measCount (head ++ [count]) = count.toNat := by
    rw [measCount, field_one _ 6 (by simp [six])]
    simp [six]
  have fails : receiveByte head count = (some .failed, []) := by
    rw [receiveByte_begun (by omega), if_pos ⟨by simp [six], by rwa [read]⟩]
  rw [receiveBytes_append, holds]
  simp only [receiveBytes, fails]
  rfl

/-! ### Two updates of one link's record -/

theorem onLink_congr {l : Link} {s : State} {f g : LinkRec → LinkRec} (h : f (s.link l) = g (s.link l)) :
    s.onLink l f = s.onLink l g := by
  cases l
  · exact congrArg (fun r => { s with mi := { s.mi with linkA := r } }) h
  · exact congrArg (fun r => { s with mi := { s.mi with linkB := r } }) h

theorem onLink_onLink (l : Link) (f g : LinkRec → LinkRec) (s : State) :
    (s.onLink l f).onLink l g = s.onLink l (g ∘ f) := by
  cases l <;> rfl

/-! ### Gaps (R1) -/

theorem gapOver_iff (l : Link) (s : State) : s.gapOver l = true ↔
    ∃ x, (s.link l).rx = some x ∧ 2 ≤ x.bytes.length ∧ x.gapDue ≤ s.now := by
  unfold State.gapOver gapLasted
  cases (s.link l).rx <;> simp

theorem gapTaken_late {l : Link} {s : State} (h : s.gapOver l = true) : gapTaken l s = frameFails l s := if_pos h

theorem gapTaken_resetHeld (l : Link) (s : State) : (gapTaken l s).resetHeld = s.resetHeld :=
  (gapTaken_run (free := True) (stor := True) l s).outside.2.2

theorem frameFails_hunts (l : Link) (s : State) : ((frameFails l s).link l).rx = none :=
  failed_hunts (by rw [onLink_link])

theorem stepCountFails_late {l : Link} {s : State} (h : s.gapOver l = true) :
    stepCountFails l s = frameFails l s := by
  simp only [stepCountFails, gapTaken_late h, countNext_none (frameFails_hunts l s)]
  rfl

theorem stepCountFails_next {l : Link} {s : State} (inTime : s.gapOver l = false) (six : (s.link l).held.length = 6) :
    stepCountFails l s = frameFails l s := by
  simp [stepCountFails, gapTaken_eq inTime, State.countNext, six]

theorem stepCountFails_idle {l : Link} {s : State} (inTime : s.gapOver l = false)
    (other : (s.link l).held.length ≠ 6) : stepCountFails l s = s := by
  simp [stepCountFails, gapTaken_eq inTime, State.countNext, other]

/-- Bytes are taken after a gap that is over. -/
theorem frameArrives_gapTaken (l : Link) (bs : List Byte) (s : State) :
    frameArrives l (.complete bs) (gapTaken l s) = frameArrives l (.complete bs) s := by
  show bytesArrive l bs (gapTaken l (gapTaken l s)) = bytesArrive l bs (gapTaken l s)
  rw [gapTaken_twice]

theorem onFrame_gapTaken (l : Link) (bs : List Byte) (p : State → State → Bool) (s : State) :
    onFrame l (.complete bs) p (gapTaken l s) = onFrame l (.complete bs) p s := by
  simp only [onFrame, frameFinds, gapTaken_twice]

theorem onPosting_gapTaken (l : Link) (bs : List Byte) (p : State → Bool) (s : State) :
    onPosting l bs p (gapTaken l s) = onPosting l bs p s := by
  simp only [onPosting, gapTaken_twice]

/-- A command whose effect begins with the gap answers the same once the gap has been taken. -/
theorem live_gapTaken {f : State → State} {l : Link} {s : State} (running : s.resetHeld = none)
    (same : f (gapTaken l s) = f s) : live s f = live (gapTaken l s) f := by
  rw [live_eq f running, live_eq f (by rw [gapTaken_resetHeld, running]), same]

/-! ### Bytes within the gap (R1) -/

theorem framesAmong_nil (l : Link) (s : State) : s.framesAmong l [] = [] := rfl

theorem frameArrives_nil {l : Link} {s : State} (inTime : s.gapOver l = false) :
    frameArrives l (.complete []) s = s := by
  show bytesArrive l [] (gapTaken l s) = s
  rw [gapTaken_eq inTime]
  rfl

theorem frameArrives_inTime {l : Link} {s : State} {bs : List Byte} (inTime : s.gapOver l = false) (some : bs ≠ []) :
    frameArrives l (.complete bs) s = (receiveBytes (s.link l).held bs).1.foldl (fun t e => frameEnds l e t)
      (s.onLink l (fun r => { r with rx := inProgress (receiveBytes (s.link l).held bs).2 (s.now + 6) })) := by
  show bytesArrive l bs (gapTaken l s) = _
  rw [gapTaken_eq inTime, bytesArrive, State.framesAmong, received, if_neg some]
  congr 1
  exact onLink_congr rfl

/-! ### Bad frames (R2, R6, R7, R9) -/

theorem frameEnds_bad {l : Link} {e : FrameEnd} {s : State} (h : classify s.su.active l e ≠ .good) :
    frameEnds l e s = badFrame l (classify s.su.active l e) s := by
  unfold frameEnds
  split
  · exact absurd ‹_› h
  · rfl

theorem frameEnds_good {l : Link} {bs : List Byte} {s : State} (h : classify s.su.active l (.complete bs) = .good) :
    frameEnds l (.complete bs) s = goodFrame (measRecord s.su.active l bs s.now) s := by
  unfold frameEnds
  rw [h]

/-- The record after a bad frame that is not the fourth in LOCKED. -/
theorem bad_counts {r : LinkRec} (k : FrameClass) (few : r.state = .locked → r.bad < 3) :
    r.bad_ k = { r with
      counters := r.counters.count k, bad := min (r.bad + 1) 4, run := if r.state = .seeking then 0 else r.run } := by
  obtain ⟨rx, state, lastSeq, run, bad, lastGood, counters, latest⟩ := r
  cases state with
  | silent => rfl
  | seeking => rfl
  | locked => exact if_pos (Nat.succ_lt_succ (few rfl))

/-- A bad frame that is not the fourth in LOCKED is counted, and ends the run in SEEKING. -/
theorem badFrame_counts {l : Link} {s : State} (k : FrameClass)
    (few : (s.link l).state = .locked → (s.link l).bad < 3) :
    badFrame l k s = s.onLink l (fun r => { r with
      counters := r.counters.count k, bad := min (r.bad + 1) 4, run := if r.state = .seeking then 0 else r.run }) := by
  have record := bad_counts k few
  have stays : ¬(s.locked l = true ∧ (s.onLink l (fun r => r.bad_ k)).locked l = false) := by
    rw [locked_iff, locked_eq_false, onLink_link, record]
    exact fun h => h.2 h.1
  exact (if_neg stays).trans (onLink_congr record)

/-- The failure of the frame in progress, where it is not the fourth bad frame in LOCKED. -/
theorem frameFails_counts {l : Link} {s : State} (few : (s.link l).state = .locked → (s.link l).bad < 3) :
    frameFails l s = s.onLink l (fun r => { r with
      rx := none, counters := r.counters.count .corrupt, bad := min (r.bad + 1) 4
      run := if r.state = .seeking then 0 else r.run }) := by
  rw [frameFails, frameEnds_bad (by simp [classify])]
  refine (badFrame_counts .corrupt (by rw [onLink_link]; exact few)).trans ?_
  rw [onLink_onLink]
  rfl

/-- A complete bad frame at a hunting receiver, where it is not the fourth in LOCKED. -/
theorem frameArrives_counts {l : Link} {s : State} {bs : List Byte} {k : FrameClass}
    (few : (s.link l).state = .locked → (s.link l).bad < 3) (hunts : (s.link l).rx = none)
    (whole : measComplete bs = true) (is : classify s.su.active l (.complete bs) = k) (bad : k ≠ .good) :
    frameArrives l (.complete bs) s = s.onLink l (fun r => { r with
      rx := none, counters := r.counters.count k, bad := min (r.bad + 1) 4
      run := if r.state = .seeking then 0 else r.run }) := by
  rw [frameArrives_whole hunts whole, frameEnds_bad (by rwa [is]), is, badFrame_counts k few]
  refine onLink_congr ?_
  rw [hunts]

/-! ### The class of a complete frame (R2) -/

section
variable {c : Settings} {l : Link} {bs : List Byte}

theorem classify_corrupt (whole : measComplete bs = true) (check : measCheckOk bs = false) :
    classify c l (.complete bs) = .corrupt := by
  simp [classify, whole, check]

theorem classify_otherUnit (whole : measComplete bs = true) (check : measCheckOk bs = true)
    (unit : measUnit bs ≠ unitOf l) : classify c l (.complete bs) = .format := by
  simp [classify, whole, check, unit]

theorem classify_otherCount (whole : measComplete bs = true) (check : measCheckOk bs = true)
    (unit : measUnit bs = unitOf l) (count : measCount bs ≠ c.installedCount) :
    classify c l (.complete bs) = .format := by
  simp [classify, whole, check, unit, count]

theorem classify_unitFault (whole : measComplete bs = true) (check : measCheckOk bs = true)
    (unit : measUnit bs = unitOf l) (count : measCount bs = c.installedCount)
    (flag : (measStatus bs).getLsbD 0 = true) : classify c l (.complete bs) = .unitFault := by
  simp [classify, whole, check, unit, count, selfCheckFailed, flag]

end

/-- Settles O31: the receiver byte by byte, the gap, and the count of a bad frame. -/
theorem framesAreReceivedAndBadOnesCounted : Obligations.FramesAreReceivedAndBadOnesCounted := by
  refine ⟨⟨measComplete_iff, fun junk frame none whole => ⟨receive_junk none, ?_, ?_⟩,
    fun head count six marker out => receive_badCount six marker out⟩, ?gaps, ?bad⟩
  · rw [receiveBytes_append, receive_junk none, receive_whole frame whole]
    rfl
  · rintro head rest rfl begun ahead
    exact ⟨receive_head whole begun ahead, receive_rest head rest whole begun ahead⟩
  case gaps =>
    intro l bs s running held left holding late failed
    have isLate : late ↔ s.gapOver l = true := (gapOver_iff l s).symm
    have isHeld : held = (s.link l).held := rfl
    refine ⟨fun h => ?_, fun h => ?_⟩
    · have taken : gapTaken l s = failed := gapTaken_late (isLate.1 h)
      have frame : ∀ p, live s (onFrame l (.complete bs) p) = live failed (onFrame l (.complete bs) p) :=
        fun p => taken ▸ live_gapTaken running (onFrame_gapTaken l bs p s)
      have posting : ∀ p, live s (onPosting l bs p) = live failed (onPosting l bs p) :=
        fun p => taken ▸ live_gapTaken running (onPosting_gapTaken l bs p s)
      refine ⟨(live_eq _ running).trans (congrArg _ taken),
        (live_eq _ running).trans (congrArg _ (stepCountFails_late (isLate.1 h))), ?_,
        fun q => ⟨frame _, frame _⟩, fun i => ⟨frame _, frame _⟩⟩
      simp only [List.forall_mem_cons, List.not_mem_nil, false_implies, implies_true, and_true]
      exact ⟨taken ▸ live_gapTaken running (frameArrives_gapTaken l bs s), frame _, frame _, frame _, frame _,
        posting _, posting _, frame _, posting _, frame _, frame _⟩
    · have inTime : s.gapOver l = false := by simpa [isLate] using h
      refine ⟨(live_eq _ running).trans (congrArg _ (gapTaken_eq inTime)),
        fun six => (live_eq _ running).trans (congrArg _ (stepCountFails_next inTime six)),
        fun other => (live_eq _ running).trans (congrArg _ (stepCountFails_idle inTime other)),
        (live_eq _ running).trans (congrArg _ (frameArrives_nil inTime)),
        fun some => (live_eq _ running).trans (congrArg _ (frameArrives_inTime inTime some))⟩
  case bad =>
    intro l bs s running few k bad corrupt format unitFault
    refine ⟨fun x held begun => ⟨fun due => ?_, fun inTime six => ?_⟩, fun hunts whole => ?_⟩
    · refine (live_eq _ running).trans (congrArg _ ?_)
      rw [gapTaken_late ((gapOver_iff l s).2 ⟨x, held, begun, due⟩), frameFails_counts few]
      exact onLink_congr rfl
    · refine (live_eq _ running).trans (congrArg _ ?_)
      have notOver : s.gapOver l = false := by simp [State.gapOver, gapLasted, held, inTime]
      rw [stepCountFails_next notOver (by simpa [LinkRec.held, bytesHeld, held] using six), frameFails_counts few]
      exact onLink_congr rfl
    · have counts : ∀ k, classify s.su.active l (.complete bs) = k → k ≠ .good → exec (.measFrame l bs) s
          = .next (bad ((s.link l).counters.count k)) := fun k is ne =>
        (live_eq _ running).trans (congrArg _ ((frameArrives_counts few hunts whole is ne).trans (onLink_congr rfl)))
      exact ⟨fun check => counts .corrupt (classify_corrupt whole check) (by decide), fun check =>
        ⟨fun unit => counts .format (classify_otherUnit whole check unit) (by decide), fun unit =>
          ⟨fun count => counts .format (classify_otherCount whole check unit count) (by decide),
            fun count flag => counts .unitFault (classify_unitFault whole check unit count flag) (by decide)⟩⟩⟩

end Sys2Proof.Machine
end

