-- ==== Sys2Proof/Proofs/GoodFrames.lean ====
section
/-! PROOFS. A good frame at a hunting receiver: what the selector and the comparison make of it, whether it is posted,
with which elapsed time, and the entry of its link into LOCKED (R2, R6, R10, R13 to R15). -/

namespace Sys2Proof.Machine

/-! ### What an update of a link's record leaves of Measurement Intake -/

section
variable (l : Link) (f : LinkRec → LinkRec) (s : State)

theorem onLink_waiting : (s.onLink l f).mi.waiting = s.mi.waiting := by cases l <;> rfl
theorem onLink_posted : (s.onLink l f).mi.posted = s.mi.posted := by cases l <;> rfl
theorem onLink_freshStart : (s.onLink l f).mi.freshStart = s.mi.freshStart := by cases l <;> rfl
theorem onLink_disagree : (s.onLink l f).mi.disagree = s.mi.disagree := by cases l <;> rfl
theorem onLink_lost : (s.onLink l f).mi.lost = s.mi.lost := by cases l <;> rfl

end

/-! ### After the selector: the comparison and the latest record -/

/-- What a good frame makes of the state that the selector leaves: the comparison where its link is the active source,
and its record as the latest of its link. -/
def compareAndKeep (m : MeasRecord) (t : State) : State :=
  (if t.mi.active = some m.link then compareUnits m t else t).onLink m.link (fun r => { r with latest := some m })

section
variable {m : MeasRecord} {s : State}

theorem intake_entering (was : (s.link m.link).state ≠ .locked)
    (new : ((s.link m.link).good m.sequence s.now).state = .locked) :
    intake m s = compareAndKeep m (enteredLocked m.link (s.onLink m.link (fun r => r.good m.sequence s.now))) :=
  intake_enters was new

theorem intake_leaving (was : (s.link m.link).state = .locked)
    (new : ((s.link m.link).good m.sequence s.now).state ≠ .locked) :
    intake m s = compareAndKeep m (leftLocked m.link (s.onLink m.link (fun r => r.good m.sequence s.now))) :=
  intake_leaves was new

theorem intake_staying
    (same : ((s.link m.link).good m.sequence s.now).state = .locked ↔ (s.link m.link).state = .locked) :
    intake m s = compareAndKeep m (s.onLink m.link (fun r => r.good m.sequence s.now)) := by
  rw [intake_stays same, compareAndKeep, onLink_active]

/-- A good frame, by whether its link enters LOCKED, leaves it, or does neither. -/
theorem intake_cases {P : State → Prop}
    (enters : (s.link m.link).state ≠ .locked → ((s.link m.link).good m.sequence s.now).state = .locked →
      P (compareAndKeep m (enteredLocked m.link (s.onLink m.link (fun r => r.good m.sequence s.now)))))
    (leaves : (s.link m.link).state = .locked → ((s.link m.link).good m.sequence s.now).state ≠ .locked →
      P (compareAndKeep m (leftLocked m.link (s.onLink m.link (fun r => r.good m.sequence s.now)))))
    (stays : P (compareAndKeep m (s.onLink m.link (fun r => r.good m.sequence s.now)))) : P (intake m s) := by
  by_cases was : (s.link m.link).state = .locked <;>
    by_cases new : ((s.link m.link).good m.sequence s.now).state = .locked
  · rw [intake_staying (iff_of_true new was)]
    exact stays
  · rw [intake_leaving was new]
    exact leaves was new
  · rw [intake_entering was new]
    exact enters was new
  · rw [intake_staying (iff_of_false new was)]
    exact stays

end

/-- The comparison and the latest record leave the role, the posted record and what waits. -/
theorem compareAndKeep_mi (m : MeasRecord) (t : State) : (compareAndKeep m t).mi = { t.mi with
    linkA := (compareAndKeep m t).mi.linkA
    linkB := (compareAndKeep m t).mi.linkB
    disagree := (compareAndKeep m t).mi.disagree
    disagreeCount := (compareAndKeep m t).mi.disagreeCount
    agreeCount := (compareAndKeep m t).mi.agreeCount } := by
  have compared := compareUnits_mi m t
  unfold compareAndKeep
  split
  · cases m.link <;> simp only [State.onLink, onMi_mi] <;> rw [compared]
  · cases m.link <;> rfl

section
variable (m : MeasRecord) (t : State)

theorem compareAndKeep_active : (compareAndKeep m t).mi.active = t.mi.active := by rw [compareAndKeep_mi]
theorem compareAndKeep_posted : (compareAndKeep m t).mi.posted = t.mi.posted := by rw [compareAndKeep_mi]
theorem compareAndKeep_freshStart : (compareAndKeep m t).mi.freshStart = t.mi.freshStart := by rw [compareAndKeep_mi]
theorem compareAndKeep_waiting : (compareAndKeep m t).mi.waiting = t.mi.waiting := by rw [compareAndKeep_mi]
theorem compareAndKeep_lost : (compareAndKeep m t).mi.lost = t.mi.lost := by rw [compareAndKeep_mi]
theorem compareAndKeep_window : (compareAndKeep m t).mi.window = t.mi.window := by rw [compareAndKeep_mi]

end

theorem not_both_locked {l : Link} {s : State} (h : s.locked l.other = false) :
    ¬(s.locked .a = true ∧ s.locked .b = true) := by
  rintro ⟨a, b⟩
  cases l
  · exact Bool.false_ne_true (h.symm.trans b)
  · exact Bool.false_ne_true (h.symm.trans a)

theorem compareAndKeep_compared {m : MeasRecord} {t : State} (h : t.mi.active = some m.link) :
    compareAndKeep m t = (compareUnits m t).onLink m.link (fun r => { r with latest := some m }) := by
  rw [compareAndKeep, if_pos h]

/-- Where the frame's link is not the active source, or the other link is not LOCKED, nothing is compared. -/
theorem compareAndKeep_uncompared {m : MeasRecord} {t : State}
    (h : t.mi.active = some m.link → t.locked m.link.other = false) :
    compareAndKeep m t = t.onLink m.link (fun r => { r with latest := some m }) := by
  by_cases active : t.mi.active = some m.link
  · rw [compareAndKeep_compared active, compareUnits_idle m (not_both_locked (h active))]
  · rw [compareAndKeep, if_neg active]

/-! ### Where a good frame goes (R14) -/

section
variable {l : Link} {bs : List Byte} {s : State}

/-- A good frame that arrives at a hunting receiver is taken as one. -/
theorem measFrame_good (running : s.resetHeld = none) (hunts : (s.link l).rx = none)
    (good : classify s.su.active l (.complete bs) = .good) :
    exec (.measFrame l bs) s = .next (goodFrame (measRecord s.su.active l bs s.now) s) := by
  refine (live_eq _ running).trans (congrArg _ ?_)
  rw [frameArrives_whole hunts (complete_of_good good), frameEnds_good good]

/-- The posting of a good frame at a hunting receiver. -/
theorem posting_good (hunts : (s.link l).rx = none) (good : classify s.su.active l (.complete bs) = .good)
    (active : (intake (measRecord s.su.active l bs s.now) s).mi.active = some l) :
    s.posting l bs = some (measRecord s.su.active l bs s.now, (intake (measRecord s.su.active l bs s.now) s).elapsed,
      setPosted (measRecord s.su.active l bs s.now) (intake (measRecord s.su.active l bs s.now) s)) := by
  rw [posting_whole hunts (complete_of_good good), if_pos good, if_pos active]

/-- A good frame that is posted is one of the active source. -/
theorem posting_some {m : MeasRecord} {e : Nat} {u : State} (hunts : (s.link l).rx = none)
    (good : classify s.su.active l (.complete bs) = .good) (h : s.posting l bs = some (m, e, u)) :
    (intake (measRecord s.su.active l bs s.now) s).mi.active = some l := by
  by_contra active
  rw [posting_whole hunts (complete_of_good good), if_pos good, if_neg active] at h
  cases h

end

section
variable {m : MeasRecord} {s : State}

theorem goodFrame_posted (h : (intake m s).mi.active = some m.link) : goodFrame m s = postRecord (intake m s) m :=
  if_pos h

theorem goodFrame_waits (none : (intake m s).mi.active = none) (locked : (intake m s).locked m.link = true) :
    goodFrame m s = (intake m s).onMi (fun i => { i with waiting := i.waiting ++ [m] }) := by
  simp only [goodFrame, none, locked, reduceCtorEq, if_false, and_self, if_true]

theorem goodFrame_kept (other : (intake m s).mi.active ≠ some m.link)
    (idle : ¬((intake m s).mi.active = none ∧ (intake m s).locked m.link = true)) : goodFrame m s = intake m s := by
  simp only [goodFrame, if_neg other, if_neg idle]

end

/-! ### The elapsed time (R14) -/

theorem elapsed_le (s : State) : s.elapsed ≤ 100 := by
  unfold State.elapsed
  split
  · exact Nat.zero_le _
  · split
    · exact Nat.zero_le _
    · exact Nat.min_le_right _ _

/-- The elapsed time is read from the timebase, the mark of a fresh start and the posted record. -/
theorem elapsed_congr {s t : State} (now : t.now = s.now) (fresh : t.mi.freshStart = s.mi.freshStart)
    (posted : t.mi.posted = s.mi.posted) : t.elapsed = s.elapsed := by
  simp only [State.elapsed, age, now, fresh, posted]

theorem elapsed_fresh {s : State} (h : s.mi.freshStart = true) : s.elapsed = 0 := if_pos h

theorem elapsed_eq (s : State) : s.elapsed = if s.mi.freshStart then 0 else match s.mi.posted with
    | none => 0
    | some p => min (s.now - p.time) 100 := rfl

theorem intake_now (m : MeasRecord) (s : State) : (intake m s).now = s.now :=
  (intake_run (free := True) (stor := True) m s).outside.1

theorem enteredLocked_posted (l : Link) (s : State) : (enteredLocked l s).mi.posted = s.mi.posted := by
  unfold enteredLocked
  split
  · rw [sourceGained_mi]
  · rfl

theorem leftLocked_posted (l : Link) (s : State) : (leftLocked l s).mi.posted = s.mi.posted := by
  rw [leftLocked_mi]
  split
  · split <;> rfl
  · rfl

theorem intake_posted (m : MeasRecord) (s : State) : (intake m s).mi.posted = s.mi.posted := by
  refine intake_cases (P := fun t => t.mi.posted = s.mi.posted) (fun _ _ => ?_) (fun _ _ => ?_) ?_ <;>
    rw [compareAndKeep_posted]
  · rw [enteredLocked_posted, onLink_posted]
  · rw [leftLocked_posted, onLink_posted]
  · rw [onLink_posted]

/-- A frame whose link is the active source after it is a fresh start where there was none before it. -/
theorem intake_freshStart {m : MeasRecord} {s : State} (active : (intake m s).mi.active = some m.link) :
    (intake m s).mi.freshStart = if s.mi.active = none then true else s.mi.freshStart := by
  have kept : ∀ t : State, t.mi.active = some m.link → t.mi.freshStart = s.mi.freshStart → s.mi.active = t.mi.active →
      t.mi.freshStart = if s.mi.active = none then true else s.mi.freshStart :=
    fun t a f e => by rw [if_neg (by rw [e, a]; exact fun h => by cases h), f]
  revert active
  refine intake_cases (P := fun t => t.mi.active = some m.link → t.mi.freshStart = _)
    (fun _ _ => ?_) (fun _ _ => ?_) ?_ <;> rw [compareAndKeep_active, compareAndKeep_freshStart] <;> intro active
  · unfold enteredLocked at active ⊢
    split
    · rename_i gained
      rw [onLink_active] at gained
      rw [sourceGained_mi, if_pos gained.1]
    · rename_i stays
      rw [if_neg stays] at active
      exact kept _ active (onLink_freshStart ..) (onLink_active ..).symm
  · exact absurd active (leftLocked_active _ _)
  · exact kept _ active (onLink_freshStart ..) (onLink_active ..).symm

/-- The elapsed time of a posting: 0 after a time with no active source. -/
theorem intake_elapsed {m : MeasRecord} {s : State} (active : (intake m s).mi.active = some m.link) :
    (intake m s).elapsed = if s.mi.active = none then 0 else s.elapsed := by
  have fresh := intake_freshStart active
  split
  · rename_i none
    rw [if_pos none] at fresh
    exact elapsed_fresh fresh
  · rename_i some
    rw [if_neg some] at fresh
    exact elapsed_congr (intake_now m s) fresh (intake_posted m s)

/-! ### A good frame of a link that stays as it is -/

/-- Where nothing is compared and the link neither enters nor leaves LOCKED, a good frame writes its link's record. -/
theorem intake_records {m : MeasRecord} {s : State}
    (same : ((s.link m.link).good m.sequence s.now).state = .locked ↔ (s.link m.link).state = .locked)
    (alone : s.mi.active = some m.link → s.locked m.link.other = false) :
    intake m s = s.onLink m.link (fun _ => { (s.link m.link).good m.sequence s.now with latest := some m }) := by
  rw [intake_staying same, compareAndKeep_uncompared, onLink_onLink]
  · exact onLink_congr rfl
  · rw [onLink_active]
    intro active
    rw [State.locked, onLink_link_other]
    exact alone active

theorem good_stays {r : LinkRec} {seq : Word16} (now : Nat) (locked : r.state = .locked) (few : r.missing seq ≤ 2) :
    (r.good seq now).state = .locked := by
  rw [good_state, advance_locked_stays locked few]

/-- Settles O32: from the state that the selector leaves. -/
theorem goodFramesAreTakenAndPosted : Obligations.GoodFramesAreTakenAndPosted := by
  intro l bs s running hunts good m g elapsed
  have taken := measFrame_good running hunts good
  have posted : s.mi.active = some l → (s.link l).state = .locked → (s.link l).missing (measSeq bs) ≤ 2 →
      s.posting l bs = some (m, elapsed, setPosted m (intake m s)) := fun active locked few => by
    have after : (intake m s).mi.active = some l := by
      rw [intake_staying ⟨fun _ => locked, fun _ => good_stays s.now locked few⟩, compareAndKeep_active, onLink_active,
        active]
    rw [posting_good hunts good after, intake_elapsed after, active]
    rfl
  refine ⟨fun other same => ?_, fun m' e u found => ?_,
    fun active locked few => ⟨_, posted active locked few⟩, fun active locked alone few => ?_⟩
  · intro kept
    have made : intake m s = kept := intake_records (m := m) same (fun h => absurd h other)
    have active : (intake m s).mi.active = s.mi.active := by rw [made]; exact onLink_active ..
    have locked : (intake m s).locked m.link = true ↔ g.state = .locked := by
      rw [locked_iff, made]
      exact iff_of_eq (congrArg (fun r : LinkRec => r.state = .locked) (onLink_link ..))
    refine ⟨fun idle => ?_, fun none isLocked => ?_⟩
    · rw [taken, goodFrame_kept (by rwa [active]) (by rwa [active, locked]), made]
    · rw [taken, goodFrame_waits (by rw [active, none]) (locked.2 isLocked), made, State.onMi, onLink_waiting]
  · have active := posting_some hunts good found
    rw [posting_good hunts good active] at found
    obtain ⟨rfl, rest⟩ := Prod.mk.inj (Option.some.inj found)
    obtain ⟨rfl, rfl⟩ := Prod.mk.inj rest
    exact ⟨rfl, intake_elapsed active, elapsed_le _, rfl, taken.trans (congrArg _ (goodFrame_posted active))⟩
  · rw [posted active locked few, intake_records (m := m) ⟨fun _ => locked, fun _ => good_stays s.now locked few⟩
      (fun _ => alone)]
    rfl

end Sys2Proof.Machine
end

