-- ==== Sys2Proof/Proofs/LinkLocks.lean ====
section
/-! PROOFS. The entry of a link into LOCKED: it becomes the active source, waits for the end of the millisecond, or is
the standby (R6, R10, R13, R14). -/

namespace Sys2Proof.Machine

/-! ### The records of the links -/

theorem sourceGained_link (l k : Link) (s : State) : (sourceGained l s).link k = s.link k := by
  cases k <;> simp only [State.link, sourceGained_mi]

theorem compareUnits_link (m : MeasRecord) (l : Link) (s : State) : (compareUnits m s).link l = s.link l := by
  unfold State.link
  cases l <;> rw [compareUnits_mi]

section
variable (m : MeasRecord) (t : State)

theorem compareAndKeep_link : (compareAndKeep m t).link m.link = { t.link m.link with latest := some m } := by
  rw [compareAndKeep, onLink_link]
  split
  · rw [compareUnits_link]
  · rfl

theorem compareAndKeep_link_other : (compareAndKeep m t).link m.link.other = t.link m.link.other := by
  rw [compareAndKeep, onLink_link_other]
  split
  · rw [compareUnits_link]
  · rfl

end

/-! ### Occurrences on a complete frame -/

/-- An occurrence on a complete frame at a hunting receiver is the handling of that frame. -/
theorem onFrame_whole {l : Link} {bs : List Byte} {occurs : State → State → Bool} {s : State}
    (hunts : (s.link l).rx = none) (whole : measComplete bs = true)
    (h : occurs s (frameEnds l (.complete bs) s) = true) :
    onFrame l (.complete bs) occurs s = frameEnds l (.complete bs) s := by
  have finds : frameFinds l (.complete bs) s = s := frameFinds_eq (gapOver_none hunts)
  rw [onFrame_true] <;> rw [finds, frameArrives_whole hunts whole]
  exact h

/-- LINK_LOCKED with a good frame at a hunting receiver. -/
theorem linkLocked_good {l : Link} {bs : List Byte} {s : State} (running : s.resetHeld = none)
    (hunts : (s.link l).rx = none) (good : classify s.su.active l (.complete bs) = .good)
    (was : (s.link l).state ≠ .locked)
    (locks : ((goodFrame (measRecord s.su.active l bs s.now) s).link l).state = .locked) :
    exec (.linkLocked l bs) s = .next (goodFrame (measRecord s.su.active l bs s.now) s) := by
  refine (live_eq _ running).trans (congrArg _ ?_)
  rw [onFrame_whole hunts (complete_of_good good), frameEnds_good good]
  rw [Machine.locks, frameEnds_good good, (locked_iff _ l).2 locks, (locked_eq_false s l).2 was]
  rfl

/-! ### The record of a link that locks (R6) -/

/-- The good frame in sequence at a run count of 7. -/
theorem good_locks {r : LinkRec} {seq q : Word16} (now : Nat) (seeking : r.state = .seeking) (run : r.run = 7)
    (last : r.lastSeq = some q) (next : seq = q + 1#16) :
    r.good seq now = { r with
      state := .locked, run := 8, bad := 0, lastSeq := some seq, lastGood := some now
      counters := { r.counters with accepted := satInc 65535 r.counters.accepted } } := by
  have none : r.missing seq = 0 := (missing_eq_zero_iff last seq).2 next
  have locks : r.advance 0 = (.locked, 8) := advance_seeking_locks seeking (by omega)
  simp only [LinkRec.good, none, locks, if_true]
  rfl

/-! ### The selector at the end of a millisecond (R10) -/

/-- A source gained, written out: MEAS_LOST ends with its class and its report, then NO_SOURCE. -/
theorem sourceGained_eq (l : Link) (s : State) : sourceGained l s =
    setHold .noSource false (condition .measLost false (reportClass .measurement s.mi.disagree none 0 0
      { s with mi := { s.mi with
        active := some l, window := none, freshStart := true, waiting := [], lost := false } })) := rfl

theorem selectWaiting_takes {m : MeasRecord} {later : List MeasRecord} {s : State} (waits : s.mi.waiting = m :: later)
    (none : s.mi.active = none) (locked : s.locked m.link = true) :
    selectWaiting s = later.foldl postRecord (postRecord (sourceGained m.link s) m) := by
  simp only [selectWaiting, waits, none, locked, and_self, if_true, List.foldl_cons]

theorem selectWaiting_drops {m : MeasRecord} {later : List MeasRecord} {s : State} (waits : s.mi.waiting = m :: later)
    (idle : ¬(s.mi.active = none ∧ s.locked m.link = true)) :
    selectWaiting s = { s with mi := { s.mi with waiting := [] } } := by
  simp only [selectWaiting, waits, if_neg idle]
  rfl

theorem enteredLocked_gains {l : Link} {s : State} (none : s.mi.active = none) (preferred : s.su.active.preferred = l) :
    enteredLocked l s = sourceGained l s := if_pos ⟨none, preferred⟩

theorem enteredLocked_stands {l : Link} {s : State} (h : ¬(s.mi.active = none ∧ s.su.active.preferred = l)) :
    enteredLocked l s = s := if_neg h

/-! ### A link that locks -/

section
variable {m : MeasRecord} {s : State} (was : (s.link m.link).state ≠ .locked)
  (new : ((s.link m.link).good m.sequence s.now).state = .locked)

include was new

/-- The preferred link becomes the active source with the frame that locks it. -/
theorem intake_gains (free : s.mi.active = none) (preferred : s.su.active.preferred = m.link) : intake m s
    = compareAndKeep m (sourceGained m.link (s.onLink m.link (fun r => r.good m.sequence s.now))) := by
  rw [intake_entering was new, enteredLocked_gains (by rw [onLink_active, free]) (by rw [onLink_su, preferred])]

/-- Another link locks and nothing else changes: it waits, or is the standby. -/
theorem intake_stands (other : s.mi.active ≠ some m.link)
    (h : ¬(s.mi.active = none ∧ s.su.active.preferred = m.link)) : intake m s
      = s.onLink m.link (fun _ => { (s.link m.link).good m.sequence s.now with latest := some m }) := by
  rw [intake_entering was new, enteredLocked_stands (by rwa [onLink_active, onLink_su]),
    compareAndKeep_uncompared (fun a => absurd ((onLink_active ..).symm.trans a) other), onLink_onLink]
  exact onLink_congr rfl

end

theorem postRecord_mi (s : State) (m : MeasRecord) :
    (postRecord s m).mi = { s.mi with posted := some m, freshStart := false } := consumers_mi m s.elapsed (setPosted m s)

theorem postRecord_link (s : State) (m : MeasRecord) (l : Link) : (postRecord s m).link l = s.link l := by
  cases l <;> simp only [State.link, postRecord_mi]

/-- The preferred link locks with no active source: it is the active one, MEAS_LOST and the window have ended, and its
frame is posted. -/
theorem goodFrame_gains {m : MeasRecord} {s : State} (was : (s.link m.link).state ≠ .locked)
    (new : ((s.link m.link).good m.sequence s.now).state = .locked) (free : s.mi.active = none)
    (preferred : s.su.active.preferred = m.link) :
    ((goodFrame m s).link m.link).state = .locked ∧ (goodFrame m s).link m.link.other = s.link m.link.other
      ∧ (goodFrame m s).mi.active = some m.link ∧ (goodFrame m s).mi.lost = false ∧ (goodFrame m s).mi.window = none
      ∧ (goodFrame m s).mi.waiting = [] ∧ (goodFrame m s).mi.posted = some m := by
  have made := intake_gains was new free preferred
  have gained := sourceGained_mi m.link (s.onLink m.link (fun r => r.good m.sequence s.now))
  have active : (intake m s).mi.active = some m.link := by rw [made, compareAndKeep_active, gained]
  rw [goodFrame_posted active, postRecord_link, postRecord_link, postRecord_mi, made]
  refine ⟨?_, ?_, ?_, ?_, ?_, ?_, rfl⟩
  · rw [compareAndKeep_link, sourceGained_link, onLink_link]
    exact new
  · rw [compareAndKeep_link_other, sourceGained_link, onLink_link_other]
  · rw [compareAndKeep_active, gained]
  · rw [compareAndKeep_lost, gained]
  · rw [compareAndKeep_window, gained]
  · rw [compareAndKeep_waiting, gained]

/-- Settles O34: the record of the link locks, then the selector takes it, has it wait, or leaves it the standby. -/
theorem linkEntersLocked : Obligations.LinkEntersLocked := by
  refine ⟨fun l bs s q running hunts good seeking run last next => ?_, fun m later s waits =>
    ⟨fun free locked => selectWaiting_takes waits free locked, fun h => selectWaiting_drops waits (fun k => ?_)⟩⟩
  · intro m locked recorded
    have was : (s.link l).state ≠ .locked := by rw [seeking]; decide
    have record : (s.link l).good m.sequence s.now = locked := good_locks s.now seeking run last next
    have new : ((s.link l).good m.sequence s.now).state = .locked := congrArg LinkRec.state record
    have answers : ((goodFrame m s).link l).state = .locked → exec (.linkLocked l bs) s = .next (goodFrame m s) :=
      linkLocked_good running hunts good was
    have stands : s.mi.active ≠ some l → ¬(s.mi.active = none ∧ s.su.active.preferred = l) →
        intake m s = recorded := fun other idle => by
      rw [intake_stands (m := m) was new other idle]
      exact onLink_congr (congrArg (fun r : LinkRec => { r with latest := some m }) record)
    refine ⟨fun free preferred => ?_, fun free other => ?_, fun other => ?_⟩
    · have after := goodFrame_gains (m := m) was new free preferred
      have made := intake_gains (m := m) was new free preferred
      have gained : (sourceGained m.link (s.onLink m.link (fun r => r.good m.sequence s.now))).mi.active
        = some m.link := by rw [sourceGained_mi]
      have active : (intake m s).mi.active = some m.link := by rw [made, compareAndKeep_active, gained]
      have elapsed : (intake m s).elapsed = 0 := by rw [intake_elapsed active, if_pos free]
      obtain ⟨own, other, mine, found, window, waiting, posted⟩ := after
      refine ⟨goodFrame m s, setPosted m (intake m s), answers own, ?_, ?_, own, other, mine, found, window, waiting,
        posted, ?_⟩
      · rw [posting_good hunts good active, elapsed]
      · rw [goodFrame_posted active, postRecord, elapsed]
        rfl
      · intro v gains w
        have isV : s.onLink m.link (fun r => r.good m.sequence s.now) = v := onLink_congr record
        have written : sourceGained m.link v = gains := by
          rw [sourceGained_eq, ← isV, onLink_disagree, isV]
          rfl
        rw [isV] at made gained
        refine ⟨?_, fun alone => compareUnits_idle m (not_both_locked (l := l) ?_)⟩
        · rw [made, compareAndKeep_compared gained, written]
          rfl
        · rw [← written, sourceGained_locked, State.locked, onLink_link_other]
          exact alone
    · have made := stands (by rw [free]; exact fun h => by cases h) (fun h => other h.2)
      have active : (intake m s).mi.active = none := by rw [made]; exact (onLink_active ..).trans free
      have own : ((intake m s).link l).state = .locked := by rw [made]; exact congrArg LinkRec.state (onLink_link ..)
      have waits := goodFrame_waits (m := m) active ((locked_iff _ _).2 own)
      rw [answers (by rw [waits]; exact own), waits, made, State.onMi]
      exact congrArg (fun w => Host.Outcome.next { recorded with mi := { recorded.mi with waiting := w ++ [m] } })
        (onLink_waiting ..)
    · have made := stands (by rw [other]; cases l <;> decide) (fun h => by rw [other] at h; cases h.1)
      have active : (intake m s).mi.active = some l.other := by rw [made]; exact (onLink_active ..).trans other
      have own : ((intake m s).link l).state = .locked := by rw [made]; exact congrArg LinkRec.state (onLink_link ..)
      have notMine : some l.other ≠ some m.link := by
        show some l.other ≠ some l
        cases l <;> decide
      have kept := goodFrame_kept (m := m) (s := s) (by rwa [active]) (fun h => by rw [active] at h; cases h.1)
      rw [answers (by rw [kept]; exact own), kept, made]
  · rcases h with active | out
    · exact active k.1
    · rw [k.2] at out
      cases out

end Sys2Proof.Machine
end

