-- ==== Sys2Proof/Proofs/LinkLost.lean ====
section
/-! PROOFS. A link that leaves LOCKED, by bad frames, by a good frame with more than two frames missing, or by silence,
with every announcement; the end of SEEKING and of the acquisition window (R7, R8, R9, R10, R11, R13, R17). -/

namespace Sys2Proof.Machine

theorem onLink_locked_other (l : Link) (f : LinkRec → LinkRec) (s : State) :
    (s.onLink l f).locked l.other = s.locked l.other := by
  rw [State.locked, onLink_link_other, State.locked]

/-! ### The announcements written out -/

theorem measCondition_eq (src : Source) (code : Nat) (b : Bool) (s : State) : measCondition src code b s
    = condition src b (reportClass .measurement (s.mi.lost || s.mi.disagree) none code 0 s) := rfl

/-- A comparison dropped: the counts at 0, then the end of MEAS_DISAGREE where it is active. -/
theorem dropComparison_eq (s : State) : dropComparison s =
    (let v : State := { s with mi := { s.mi with disagreeCount := 0, agreeCount := 0 } }
    if v.mi.disagree = true then
      condition .measDisagree false (reportClass .measurement v.mi.lost none 1 0
        (setHold .disagree false { v with mi := { v.mi with disagree := false } }))
    else v) := by
  unfold dropComparison endDisagree
  simp only [measCondition_eq, (setHold_chain ..).mi]
  rw [onMi_mi, onMi_mi, Bool.or_false]
  rfl

/-- With every stage INACTIVE no step makes UNB_ALARM. -/
theorem unbAlarm_off {s : State} (h : ∀ i, (s.ub i).s1 = ⟨.inactive, 0⟩) : s.unbAlarm = false := by
  simp [State.unbAlarm, h]

/-- What UBP makes of a lost source: every stage INACTIVE, UNB_ALARM ended, the capture aborted. -/
theorem ubpSourceLost_eq (s : State) : ubpSourceLost s =
    abortCapture (condition .unbAlarm false (reportClass .unbAlarm false none 0 0 { s with ubp := { s.ubp with
      steps := Tab.build (fun i =>
        { s.ub i with s1 := ⟨.inactive, 0⟩, s2 := ⟨.inactive, 0⟩, s3 := ⟨.inactive, 0⟩ }) } })) := by
  unfold ubpSourceLost unbCondition
  generalize quiet : s.onUbp _ = t
  have silent : t.unbAlarm = false := unbAlarm_off (fun i => by
    rw [← quiet]
    exact congrArg UbpStep.s1 (Tab.get_build (fun i => (s.ub i).resetStages) i))
  rw [silent, ← quiet]
  rfl

theorem ubpSourceLost_mi (s : State) : (ubpSourceLost s).mi = s.mi := by
  unfold ubpSourceLost
  rw [(abortCapture_chain ..).mi, (unbCondition_chain ..).mi]
  rfl

/-- A source lost, with MEAS_LOST reported once UBP has been reset. -/
theorem sourceLost_eq (s : State) : sourceLost s =
    condition .measLost true (reportClass .measurement true none 0 0
      (ubpSourceLost (setHold .switchover false (setHold .noSource true
        { s with mi := { s.mi with active := none, freshStart := true, lost := true } })))) := by
  unfold sourceLost
  simp only [measCondition_eq, ubpSourceLost_mi, (setHold_chain ..).mi]
  rw [onMi_mi, Bool.true_or]
  rfl

/-! ### The records that leave LOCKED -/

/-- The fourth consecutive bad frame in LOCKED (R7). -/
theorem bad_leaves {r : LinkRec} (k : FrameClass) (locked : r.state = .locked) (third : 3 ≤ r.bad) :
    r.bad_ k = { r with state := .seeking, run := 0, bad := 4, counters := r.counters.count k } := by
  have full : min (r.bad + 1) Config.badLimit = 4 := Nat.min_eq_right (by simp only [Config.badLimit]; omega)
  have fourth : ¬(r.bad + 1 < Config.badLimit) := by simp only [Config.badLimit]; omega
  simp only [LinkRec.bad_, locked, if_neg fourth, full]

/-- A good frame with more than two frames missing in LOCKED (R7). -/
theorem good_leaves {r : LinkRec} {seq q : Word16} (now : Nat) (locked : r.state = .locked) (last : r.lastSeq = some q)
    (far : ¬(seq = q + 1#16 ∨ seq = q + 2#16 ∨ seq = q + 3#16)) : r.good seq now = { r with
      state := .seeking, run := 1, bad := 0, lastSeq := some seq, lastGood := some now
      counters := { r.counters with
        accepted := satInc 65535 r.counters.accepted, gaps := satInc 65535 r.counters.gaps } } := by
  have many : ¬r.missing seq ≤ 2 := fun h => far ((missing_le_two_iff last seq).1 h)
  have leaves := advance_locked_leaves locked many
  simp only [LinkRec.good, leaves, if_neg (show r.missing seq ≠ 0 by omega)]
  rfl

/-- The next byte is the step count byte exactly where the frame in progress holds six. -/
theorem countNext_iff (l : Link) (s : State) :
    s.countNext l = true ↔ ∃ x, (s.link l).rx = some x ∧ x.bytes.length = 6 := by
  rw [State.countNext, decide_eq_true_iff]
  unfold LinkRec.held bytesHeld
  cases (s.link l).rx <;> simp

/-! ### Frames that take their link out of LOCKED -/

/-- The record that the fourth bad frame, of a class, leaves its link in. -/
def fourthBad (k : FrameClass) (r : LinkRec) : LinkRec :=
  { r with rx := none, state := .seeking, run := 0, bad := 4, counters := r.counters.count k }

section
variable {l : Link} {s : State} (locked : (s.link l).state = .locked) (third : 3 ≤ (s.link l).bad)

include locked third

/-- The fourth bad frame takes the link out of LOCKED. -/
theorem badFrame_leaves (k : FrameClass) : badFrame l k s = leftLocked l (s.onLink l (fun r =>
    { r with state := .seeking, run := 0, bad := 4, counters := r.counters.count k })) := by
  have record := bad_leaves k locked third
  have leaves : s.locked l = true ∧ (s.onLink l (fun r => r.bad_ k)).locked l = false := by
    rw [locked_iff, locked_eq_false, onLink_link, record]
    exact ⟨locked, fun h => by cases h⟩
  exact (if_pos leaves).trans (congrArg _ (onLink_congr record))

/-- The failure of the frame in progress as the fourth bad frame. -/
theorem frameFails_leaves : frameFails l s = leftLocked l (s.onLink l (fourthBad .corrupt)) := by
  rw [frameFails, frameEnds_bad (by simp [classify])]
  refine (badFrame_leaves (by rwa [onLink_link]) (by rwa [onLink_link]) .corrupt).trans (congrArg _ ?_)
  rw [onLink_onLink]
  rfl

/-- A complete bad frame as the fourth one, at a hunting receiver. -/
theorem frameEnds_leaves {e : FrameEnd} (hunts : (s.link l).rx = none) (bad : classify s.su.active l e ≠ .good) :
    frameEnds l e s = leftLocked l (s.onLink l (fourthBad (classify s.su.active l e))) := by
  rw [frameEnds_bad bad, badFrame_leaves locked third]
  refine congrArg _ (onLink_congr ?_)
  rw [fourthBad, hunts]

/-- The fourth bad frame, however it arrives: as a complete one at a hunting receiver, or as the failure of the frame in
progress. -/
theorem frameArrives_leaves {e : FrameEnd} (bad : classify s.su.active l e ≠ .good)
    (whole : ∀ bs, e = .complete bs → (s.link l).rx = none ∧ measComplete bs = true)
    (began : e = .failed → (s.gapOver l || s.countNext l) = true) : frameFinds l e s = s
      ∧ frameArrives l e s = leftLocked l (s.onLink l (fourthBad (classify s.su.active l e))) := by
  cases e with
  | complete bs =>
    obtain ⟨hunts, isWhole⟩ := whole bs rfl
    refine ⟨frameFinds_eq (gapOver_none hunts), ?_⟩
    rw [frameArrives_whole hunts isWhole, frameEnds_leaves locked third hunts bad]
  | failed => exact ⟨rfl, (if_pos (began rfl)).trans (frameFails_leaves locked third)⟩

end

/-- A link that has left LOCKED with its bad count at its greatest has left it by its fourth bad frame. -/
theorem badLimitHit_leaves {l : Link} {f : LinkRec → LinkRec} {s : State} (locked : (s.link l).state = .locked)
    (out : (f (s.link l)).state ≠ .locked) (bad : (f (s.link l)).bad = 4) :
    badLimitHit l s (leftLocked l (s.onLink l f)) = true := by
  have after : (leftLocked l (s.onLink l f)).link l = f (s.link l) := by rw [leftLocked_link, onLink_link]
  rw [badLimitHit, (locked_iff s l).2 locked, (locked_eq_false _ l).2 (by rwa [after]), after, bad]
  rfl

theorem onLink_window (l : Link) (f : LinkRec → LinkRec) (s : State) : (s.onLink l f).mi.window = s.mi.window := by
  cases l <;> rfl

/-- A link that leaves LOCKED leaves the posted record and the window. -/
theorem leftLocked_keeps (l : Link) (s : State) :
    (leftLocked l s).mi.posted = s.mi.posted ∧ (leftLocked l s).mi.window = s.mi.window := by
  rw [leftLocked_mi]
  split
  · split <;> exact ⟨rfl, rfl⟩
  · exact ⟨rfl, rfl⟩

/-- A good frame that takes its link out of LOCKED: it is not posted. -/
theorem goodFrame_leaves {m : MeasRecord} {s : State} (was : (s.link m.link).state = .locked)
    (new : ((s.link m.link).good m.sequence s.now).state ≠ .locked) :
    goodFrame m s = (leftLocked m.link (s.onLink m.link (fun r => r.good m.sequence s.now))).onLink m.link
      (fun r => { r with latest := some m }) := by
  have notMine := leftLocked_active m.link (s.onLink m.link (fun r => r.good m.sequence s.now))
  have made := intake_leaving was new
  rw [compareAndKeep_uncompared (fun h => absurd h notMine)] at made
  have out : (intake m s).locked m.link = false := by
    rw [locked_eq_false, made, onLink_link, leftLocked_link, onLink_link]
    exact new
  rw [goodFrame_kept (by rwa [made, onLink_active]) (by rw [out]; exact fun h => Bool.false_ne_true h.2), made]

/-! ### Silence and the window -/

theorem silence100_of {l : Link} {s : State} {g : Nat} (locked : (s.link l).state = .locked)
    (last : (s.link l).lastGood = some g) (long : g + 100 ≤ s.now) : s.silence100 l = true := by
  simp only [State.silence100, State.silenceTime, (locked_iff s l).2 locked, last, Option.map_some, Option.getD_some,
    Bool.true_and, decide_eq_true_eq, age, Config.silenceLocked]
  omega

theorem silence500_of {l : Link} {s : State} {g : Nat} (seeking : (s.link l).state = .seeking)
    (last : (s.link l).lastGood = some g) (long : g + 500 ≤ s.now) : s.silence500 l = true := by
  simp only [State.silence500, State.silenceTime, seeking, last, Option.map_some, Option.getD_some, BEq.rfl,
    Bool.true_and, decide_eq_true_eq, age, Config.silenceSeeking]
  omega

theorem windowOver_waiting {s : State} (h : s.mi.waiting ≠ []) : s.windowOver = false := by
  simp [State.windowOver, h]

theorem windowOver_due {s : State} {due : Nat} (h : s.mi.waiting = []) (window : s.mi.window = some due)
    (past : due ≤ s.now) : s.windowOver = true := by
  simp [State.windowOver, h, window, expired, past]

/-- The end of the window with an active source. -/
theorem windowEnds_active {s : State} (h : s.mi.active ≠ none) :
    windowEnds s = { s with mi := { s.mi with window := none } } := if_neg h

/-- The end of the window with no active source starts MEAS_LOST. -/
theorem windowEnds_lost {s : State} (h : s.mi.active = none) :
    windowEnds s = condition .measLost true (reportClass .measurement true none 0 0
      { s with mi := { s.mi with window := none, lost := true } }) := if_pos h

/-- Settles O35: a link leaves LOCKED by the selector's rule on the record that the frame or the silence leaves it. -/
theorem linksAreLostToBadFramesAndSilence : Obligations.LinksAreLostToBadFramesAndSilence := by
  intro s running
  refine ⟨fun l locked => ?_, fun l g seeking last long => ?_, fun due window past => ⟨fun waits => ?_, fun idle active => ?_,
    fun idle lost => ?_⟩⟩
  · intro off moved ended leaves k out late counting
    have drops : ∀ u, ended u = dropComparison u := fun u => (dropComparison_eq u).symm
    have moves : ∀ f : LinkRec → LinkRec, moved (s.onLink l f) = (if (s.onLink l f).mi.active = some l then
        if (s.onLink l f).locked l.other then sourceSwitched l.other (s.onLink l f) else sourceLost (s.onLink l f)
        else stopWaiting l (s.onLink l f)) := by
      intro f
      rw [onLink_active, onLink_locked_other, sourceLost_eq, ubpSourceLost_eq]
      cases l <;> rfl
    have isLeft : ∀ r, leaves r = leftLocked l (s.onLink l (fun _ => r)) := fun r => by
      show ended (moved _) = _
      rw [drops, moves]
      rfl
    have left : ∀ f : LinkRec → LinkRec, leftLocked l (s.onLink l f) = leaves (f (s.link l)) := fun f => by
      rw [isLeft]
      exact congrArg _ (onLink_congr rfl)
    refine ⟨fun e third bad whole began => ?_, fun bs q hunts good last next second fourth => ?_,
      fun g last long => ?_, fun r => ?_⟩
    · intro counted t
      have same : (s.link l).counters.count (classify s.su.active l e) = counted := by
        cases class_ : classify s.su.active l e with
        | good => exact absurd class_ bad
        | _ => simp only [counted, class_]; rfl
      have isT : leftLocked l (s.onLink l (fourthBad (classify s.su.active l e))) = t := by
        rw [left, fourthBad, same]
      have isLate : late ↔ s.gapOver l = true := (gapOver_iff l s).symm
      obtain ⟨finds, arrives⟩ := frameArrives_leaves locked third bad whole (fun failed => by
        rw [Bool.or_eq_true, ← isLate, countNext_iff]
        exact began failed)
      rw [isT] at arrives
      have fails : e = .failed → frameFails l s = t := by
        rintro rfl
        rw [frameFails_leaves locked third]
        exact isT
      refine ⟨(live_eq _ running).trans (congrArg _ ?_), ?_, fun failed => ⟨fun h => ?_, fun h => ?_⟩⟩
      · rw [onFrame_true] <;> rw [finds, arrives]
        rw [← isT]
        exact badLimitHit_leaves locked (fun h => by cases h) rfl
      · rintro bs rfl
        exact (live_eq _ running).trans (congrArg _ arrives)
      · refine (live_eq _ running).trans (congrArg _ ?_)
        rw [gapTaken_late (isLate.1 h), fails failed]
      · refine (live_eq _ running).trans (congrArg _ ?_)
        have inTime : s.gapOver l = false := by simpa [isLate] using h
        obtain ⟨x, rx, six⟩ := (began failed).resolve_left h
        rw [stepCountFails_next inTime (by rw [LinkRec.held, rx]; exact six), fails failed]
    · have record := good_leaves (seq := measSeq bs) s.now locked last
        (fun h => h.elim next (fun h => h.elim second fourth))
      have made := goodFrame_leaves (m := measRecord s.su.active l bs s.now) locked
        (fun h => by cases (congrArg LinkRec.state record).symm.trans h)
      refine (measFrame_good running hunts good).trans (congrArg _ (made.trans ?_))
      refine congrArg (fun u : State => u.onLink l _) ((left _).trans (congrArg leaves ?_))
      exact record
    · refine (live_eq _ running).trans (congrArg _ ?_)
      rw [onlyIf_true _ _ (silence100_of locked last long)]
      exact left _
    · intro t
      have isT : t = leftLocked l (s.onLink l (fun _ => r)) := isLeft r
      have mi := leftLocked_mi l (s.onLink l (fun _ => r))
      rw [onLink_active, onLink_locked_other, ← isT] at mi
      have link : ∀ k, t.link k = (s.onLink l (fun _ => r)).link k := fun k => by rw [isT, leftLocked_link]
      refine ⟨(link l).trans (onLink_link ..), (link l.other).trans (onLink_link_other ..), ?_⟩
      have kept := leftLocked_keeps l (s.onLink l (fun _ => r))
      rw [onLink_posted, onLink_window, ← isT] at kept
      rw [mi]
      refine ⟨rfl, rfl, rfl, ?_⟩
      rw [← mi]
      refine ⟨kept.1, kept.2, fun mine other => ?_, fun mine other => ?_, fun other => ?_⟩
      · rw [mi, if_pos mine, if_pos other]
      · rw [mi, if_pos mine, if_neg (by rw [other]; decide)]
        exact ⟨rfl, rfl⟩
      · rw [mi, if_neg other]
        exact ⟨onLink_active .., onLink_lost ..⟩
  · exact (live_eq _ running).trans (congrArg _ (onlyIf_true _ _ (silence500_of seeking last long)))
  · exact (live_eq _ running).trans (congrArg _ (onlyIf_false _ _ (windowOver_waiting waits)))
  · refine (live_eq _ running).trans (congrArg _ ((onlyIf_true _ _ (windowOver_due idle window past)).trans ?_))
    exact windowEnds_active active
  · refine (live_eq _ running).trans (congrArg _ ((onlyIf_true _ _ (windowOver_due idle window past)).trans ?_))
    exact windowEnds_lost lost

end Sys2Proof.Machine
end

