-- ==== Sys2Proof/Proofs/Disagreement.lean ====
section
/-! PROOFS. The comparison of a posting, and the start and the end of MEAS_DISAGREE (R16, R17). -/

namespace Sys2Proof.Machine

/-! ### The two counts (R16) -/

theorem compare_differ (i : Intake) :
    i.compare true = { i with disagreeCount := min (i.disagreeCount + 1) 50, agreeCount := 0 } := rfl

theorem compare_agree (i : Intake) :
    i.compare false = { i with agreeCount := min (i.agreeCount + 1) 50, disagreeCount := 0 } := rfl

theorem meansDisagree_eq (limit a b : Nat) : meansDisagree limit a b = decide (limit < max a b - min a b) := by
  rw [meansDisagree, decide_eq_decide]
  omega

/-! ### MEAS_DISAGREE after a comparison (R17) -/

section
variable {s : State}

theorem followCounts_starts (full : s.mi.disagreeCount = 50) (off : s.mi.disagree = false) :
    followCounts s = startDisagree s := if_pos ⟨full, off⟩

theorem followCounts_ends (full : s.mi.agreeCount = 50) (on : s.mi.disagree = true) :
    followCounts s = endDisagree s := by
  rw [followCounts, if_neg (by rw [on]; exact fun h => Bool.false_ne_true h.2.symm), if_pos ⟨full, on⟩]

theorem followCounts_stays (starts : s.mi.disagreeCount = 50 → s.mi.disagree = true)
    (ends : s.mi.agreeCount = 50 → s.mi.disagree = false) : followCounts s = s := by
  rw [followCounts, if_neg, if_neg]
  · exact fun h => Bool.false_ne_true ((ends h.1).symm.trans h.2)
  · exact fun h => Bool.false_ne_true (h.2.symm.trans (starts h.1))

/-- MEAS_DISAGREE starts, written out: the hold, then the class, then EVR. -/
theorem startDisagree_eq (s : State) : startDisagree s = condition .measDisagree true
    (reportClass .measurement true none 1 0
      (setHold .disagree true { s with mi := { s.mi with disagree := true } })) := by
  unfold startDisagree
  rw [measCondition_eq, (setHold_chain ..).mi, onMi_mi, Bool.or_true]
  rfl

/-- MEAS_DISAGREE ends, written out: the hold, then the class, then EVR. -/
theorem endDisagree_eq {lost : Bool} (on : s.mi.disagree = true) (was : s.mi.lost = lost) :
    endDisagree s = condition .measDisagree false (reportClass .measurement lost none 1 0
      (setHold .disagree false { s with mi := { s.mi with disagree := false } })) := by
  rw [endDisagree, if_pos on, measCondition_eq, (setHold_chain ..).mi, onMi_mi, Bool.or_false, ← was]
  rfl

theorem followCounts_counts (s : State) : (followCounts s).mi.disagreeCount = s.mi.disagreeCount
    ∧ (followCounts s).mi.agreeCount = s.mi.agreeCount := by
  unfold followCounts
  split
  · rw [startDisagree_mi]
    exact ⟨rfl, rfl⟩
  · split
    · rw [endDisagree_mi]
      exact ⟨rfl, rfl⟩
    · exact ⟨rfl, rfl⟩

end

/-- A comparison that finds a disagreement: its count goes up, and MEAS_DISAGREE starts at 50. -/
theorem compare_differs (v : State) {u : State} (made : u = followCounts (v.onMi (fun i => i.compare true))) :
    u.mi.disagreeCount = min (v.mi.disagreeCount + 1) 50 ∧ u.mi.agreeCount = 0
      ∧ (v.mi.disagreeCount < 49 → u.mi.disagree = v.mi.disagree)
      ∧ (49 ≤ v.mi.disagreeCount → u.mi.disagree = true ∧ (v.mi.disagree = false →
          u = startDisagree { v with mi := { v.mi with disagreeCount := 50, agreeCount := 0 } })) := by
  subst made
  have counts := followCounts_counts (v.onMi (fun i => i.compare true))
  rw [onMi_mi, compare_differ] at counts
  refine ⟨counts.1, counts.2, fun short => ?_, fun long => ?_⟩
  · have below : min (v.mi.disagreeCount + 1) 50 ≠ 50 := by omega
    have stays : followCounts (v.onMi (fun i => i.compare true)) = _ :=
      followCounts_stays (fun full => absurd full below) (fun none => absurd none (by decide : 0 ≠ 50))
    rw [stays]
    rfl
  · have full : min (v.mi.disagreeCount + 1) 50 = 50 := by omega
    cases was : v.mi.disagree
    · have starts : followCounts (v.onMi (fun i => i.compare true)) = _ := followCounts_starts full was
      rw [starts, startDisagree_mi]
      refine ⟨rfl, fun _ => ?_⟩
      rw [State.onMi, compare_differ, full]
    · have stays : followCounts (v.onMi (fun i => i.compare true)) = _ :=
        followCounts_stays (fun _ => was) (fun none => absurd none (by decide : 0 ≠ 50))
      rw [stays]
      exact ⟨was, fun h => by cases h⟩

/-- A comparison that finds none: the other count goes up, and MEAS_DISAGREE ends at 50. -/
theorem compare_agrees (v : State) {u : State} (made : u = followCounts (v.onMi (fun i => i.compare false))) :
    u.mi.agreeCount = min (v.mi.agreeCount + 1) 50 ∧ u.mi.disagreeCount = 0
      ∧ (v.mi.agreeCount < 49 → u.mi.disagree = v.mi.disagree)
      ∧ (49 ≤ v.mi.agreeCount → u.mi.disagree = false ∧ (v.mi.disagree = true →
          u = endDisagree { v with mi := { v.mi with disagreeCount := 0, agreeCount := 50 } })) := by
  subst made
  have counts := followCounts_counts (v.onMi (fun i => i.compare false))
  rw [onMi_mi, compare_agree] at counts
  refine ⟨counts.2, counts.1, fun short => ?_, fun long => ?_⟩
  · have below : min (v.mi.agreeCount + 1) 50 ≠ 50 := by omega
    have stays : followCounts (v.onMi (fun i => i.compare false)) = _ :=
      followCounts_stays (fun none => absurd none (by decide : 0 ≠ 50)) (fun full => absurd full below)
    rw [stays]
    rfl
  · have full : min (v.mi.agreeCount + 1) 50 = 50 := by omega
    cases was : v.mi.disagree
    · have stays : followCounts (v.onMi (fun i => i.compare false)) = _ :=
        followCounts_stays (fun none => absurd none (by decide : 0 ≠ 50)) (fun _ => was)
      rw [stays]
      exact ⟨was, fun h => by cases h⟩
    · have ends : followCounts (v.onMi (fun i => i.compare false)) = _ := followCounts_ends full was
      rw [ends, endDisagree_mi]
      refine ⟨rfl, fun _ => ?_⟩
      rw [State.onMi, compare_agree, full]

/-! ### The comparison of a posting (R16) -/

section
variable {m : MeasRecord} {s : State}

/-- With both links LOCKED and a record of the standby at most 100 ms old, the two means are compared. -/
theorem compareUnits_made {x : MeasRecord} (own : s.locked m.link = true) (other : s.locked m.link.other = true)
    (latest : (s.link m.link.other).latest = some x) (fresh : s.now - x.time ≤ 100) : compareUnits m s
      = followCounts (s.onMi (fun i => i.compare (meansDisagree (s.y .disagreeLimit) m.mean x.mean))) := by
  have both : s.locked .a = true ∧ s.locked .b = true := by
    cases e : m.link <;> rw [e] at own other
    · exact ⟨own, other⟩
    · exact ⟨other, own⟩
  rw [compareUnits, if_pos both, latest]
  exact if_pos fresh

/-- Without such a record nothing is compared. -/
theorem compareUnits_none (h : ∀ x, ¬(s.locked m.link.other = true ∧ (s.link m.link.other).latest = some x
    ∧ s.now - x.time ≤ 100)) : compareUnits m s = s := by
  by_cases other : s.locked m.link.other = true
  · unfold compareUnits
    split
    · split
      · rfl
      · rename_i x latest
        exact if_neg (fun fresh => h x ⟨other, latest, fresh⟩)
    · rfl
  · exact compareUnits_idle m (not_both_locked (by simpa using other))

end

theorem onLink_counts (l : Link) (f : LinkRec → LinkRec) (s : State) :
    (s.onLink l f).mi.disagreeCount = s.mi.disagreeCount ∧ (s.onLink l f).mi.agreeCount = s.mi.agreeCount := by
  cases l <;> exact ⟨rfl, rfl⟩

/-- What a posted frame leaves of the comparison. -/
theorem postRecord_comparison (m : MeasRecord) (l : Link) (f : LinkRec → LinkRec) (u : State) :
    (postRecord (u.onLink l f) m).mi.disagree = u.mi.disagree
      ∧ (postRecord (u.onLink l f) m).mi.disagreeCount = u.mi.disagreeCount
      ∧ (postRecord (u.onLink l f) m).mi.agreeCount = u.mi.agreeCount := by
  rw [postRecord_mi]
  cases l <;> exact ⟨rfl, rfl, rfl⟩

/-- MEAS_DISAGREE_START with a frame at a hunting receiver. -/
theorem measDisagreeStart_whole {l : Link} {bs : List Byte} {s : State} (running : s.resetHeld = none)
    (hunts : (s.link l).rx = none) (whole : measComplete bs = true) (off : s.mi.disagree = false)
    (on : (frameEnds l (.complete bs) s).mi.disagree = true) :
    exec (.measDisagreeStart l bs) s = .next (frameEnds l (.complete bs) s) := by
  refine (live_eq _ running).trans (congrArg _ (onFrame_whole hunts whole ?_))
  rw [disagreeStarts, off, on]
  rfl

/-- MEAS_DISAGREE_END with a frame that ends it. -/
theorem measDisagreeEnd_frame {l : Link} {e : FrameEnd} {s t : State} (running : s.resetHeld = none)
    (finds : frameFinds l e s = s) (arrives : frameArrives l e s = t) (on : s.mi.disagree = true)
    (off : t.mi.disagree = false) : exec (.measDisagreeEnd l (.frame e)) s = .next t := by
  refine (live_eq _ running).trans (congrArg _ ((onFrame_true ?_).trans ?_)) <;> rw [finds, arrives]
  rw [disagreeEnds, on, off]
  rfl

/-- A link that leaves LOCKED ends MEAS_DISAGREE and its counts. -/
theorem leftLocked_comparison (l : Link) (s : State) : (leftLocked l s).mi.disagree = false
    ∧ (leftLocked l s).mi.disagreeCount = 0 ∧ (leftLocked l s).mi.agreeCount = 0 := by
  rw [leftLocked_mi]
  exact ⟨rfl, rfl, rfl⟩

/-- Settles O36: the counts of a comparison, then what MEAS_DISAGREE makes of them. -/
theorem disagreementStartsAndEnds : Obligations.DisagreementStartsAndEnds := by
  intro l s running
  refine ⟨fun bs hunts good active locked few => ?_, fun on locked => ⟨fun g last long => ?_,
    fun e third bad whole began => ?_⟩⟩
  · intro m a elapsed counted posted compared
    have whole := complete_of_good good
    let v : State := s.onLink l (fun r => r.good (measSeq bs) s.now)
    have vLocked : v.locked l = true := by
      rw [locked_iff, onLink_link]
      exact good_stays s.now locked few
    have vActive : v.mi.active = some l := (onLink_active ..).trans active
    have vDisagree : v.mi.disagree = s.mi.disagree := onLink_disagree ..
    have vLost : v.mi.lost = s.mi.lost := onLink_lost ..
    obtain ⟨vDisagrees, vAgrees⟩ := onLink_counts l (fun r => r.good (measSeq bs) s.now) s
    have made : intake m s = (compareUnits m v).onLink l (fun r => { r with latest := some m }) :=
      (intake_staying (m := m) ⟨fun _ => locked, fun _ => good_stays s.now locked few⟩).trans
        (compareAndKeep_compared vActive)
    have mine : (intake m s).mi.active = some l := by
      rw [made, onLink_active, compareUnits_mi]
      exact vActive
    have frame : frameEnds l (.complete bs) s = goodFrame m s := frameEnds_good good
    have posts : goodFrame m s = postRecord (intake m s) m := goodFrame_posted mine
    have answers : exec (.measFrame l bs) s = .next (goodFrame m s) := measFrame_good running hunts good
    have isPosted : (goodFrame m s).mi.posted = some m := by rw [posts, postRecord_mi]
    obtain ⟨disagree, disagrees, agrees⟩ : (goodFrame m s).mi.disagree = (compareUnits m v).mi.disagree
        ∧ (goodFrame m s).mi.disagreeCount = (compareUnits m v).mi.disagreeCount
        ∧ (goodFrame m s).mi.agreeCount = (compareUnits m v).mi.agreeCount := by
      rw [posts, made]
      exact postRecord_comparison ..
    have posting : s.posting l bs = some (m, elapsed, posted (compareUnits m v)) := by
      rw [posting_good hunts good mine, intake_elapsed (m := m) mine, active, show intake _ s = _ from made]
      rfl
    refine ⟨fun x ⟨other, latest, fresh⟩ => ?_, fun none => ?_⟩
    · intro b differ
      have cmp : compareUnits m v = followCounts (v.onMi (fun i => i.compare (decide differ))) := by
        rw [compareUnits_made (m := m) vLocked ((onLink_locked_other ..).trans other)
          ((congrArg LinkRec.latest (onLink_link_other ..)).trans latest) ((onLink_now ..).symm ▸ fresh),
          meansDisagree_eq, onLink_y]
        rfl
      refine ⟨goodFrame m s, answers, isPosted, ?_⟩
      rw [disagree, disagrees, agrees, posting]
      by_cases h : differ
      · rw [decide_eq_true h] at cmp
        obtain ⟨up, zero, stays, starts⟩ := compare_differs v cmp
        rw [vDisagree] at stays starts
        rw [vDisagrees] at up stays starts
        refine ⟨fun _ => ⟨up, zero⟩, fun n => absurd h n, fun _ => stays, fun n => absurd h n, fun _ long => ?_,
          fun n => absurd h n⟩
        refine ⟨(starts long).1, fun off => ⟨?_, ?_⟩⟩
        · rw [measDisagreeStart_whole running hunts whole off, frame]
          rw [frame, disagree]
          exact (starts long).1
        · rw [(starts long).2 off, startDisagree_eq]
      · rw [decide_eq_false h] at cmp
        obtain ⟨up, zero, stays, ends⟩ := compare_agrees v cmp
        rw [vDisagree] at stays ends
        rw [vAgrees] at up stays ends
        refine ⟨fun n => absurd n h, fun _ => ⟨up, zero⟩, fun n => absurd n h, fun _ => stays, fun n => absurd n h,
          fun _ long => ?_⟩
        refine ⟨(ends long).1, fun on => ⟨?_, ?_⟩⟩
        · refine measDisagreeEnd_frame running (frameFinds_eq (gapOver_none hunts))
            ((frameArrives_whole hunts whole).trans frame) on ?_
          rw [disagree]
          exact (ends long).1
        · rw [(ends long).2 on]
          exact congrArg (fun u => some (m, elapsed, posted u)) (endDisagree_eq (vDisagree.trans on) vLost)
    · have cmp : compareUnits m v = v := compareUnits_none (m := m) (fun x h => none x
        ⟨(onLink_locked_other ..).symm.trans h.1, (congrArg LinkRec.latest (onLink_link_other ..)).symm.trans h.2.1,
          onLink_now s l _ ▸ h.2.2⟩)
      refine ⟨goodFrame m s, answers, isPosted, ?_⟩
      rw [disagree, disagrees, agrees, cmp]
      exact ⟨vDisagrees, vAgrees, vDisagree⟩
  · have left := leftLocked_comparison l (s.onLink l (fun r => { r with state := .seeking, run := 0 }))
    refine ⟨silenceLocked l s, (live_eq _ running).trans (congrArg _ (onlyIf_true _ _ ?_)), left.1, left.2.1, left.2.2, ?_⟩
    · rw [silence100_of locked last long, disagreeEnds, on, silenceLocked, left.1]
      rfl
    · rw [silenceLocked, leftLocked_link, onLink_link]
  · obtain ⟨finds, arrives⟩ := frameArrives_leaves locked third bad whole (fun failed => by
      obtain ⟨x, rx, ends⟩ := began failed
      rw [Bool.or_eq_true, gapOver_iff, countNext_iff]
      exact ends.imp (fun h => ⟨x, rx, h⟩) (fun h => ⟨x, rx, h⟩))
    obtain ⟨off, noDisagree, noAgree⟩ := leftLocked_comparison l
      (s.onLink l (fourthBad (classify s.su.active l e)))
    refine ⟨_, measDisagreeEnd_frame running finds arrives on off, off, noDisagree, noAgree, ?_⟩
    rw [leftLocked_link, onLink_link, fourthBad]

end Sys2Proof.Machine
end

