-- ==== Sys2Proof/Proofs/Encodings.lean ====
section
/-! PROOFS. The encodings of R204: the bits of a set, and how many bytes a field takes. -/

namespace Sys2Proof.Machine

/-! ### The bits of a set -/

theorem foldl_bits (is : List Nat) (a k : Nat) :
    (is.foldl (fun a i => a ||| 1 <<< i) a).testBit k = (a.testBit k || decide (k ∈ is)) := by
  induction is generalizing a with
  | nil => simp
  | cons i is ih =>
    have one : (1 <<< i).testBit k = decide (k = i) := by
      rw [Nat.one_shiftLeft, Nat.testBit_two_pow, decide_eq_decide]
      exact eq_comm
    simp only [List.foldl_cons, ih, Nat.testBit_or, one, Bool.or_assoc, List.mem_cons, Bool.decide_or]

theorem bitSet_testBit (is : List Nat) (k : Nat) : (bitSet is).testBit k = decide (k ∈ is) := by
  rw [bitSet, foldl_bits, Nat.zero_testBit, Bool.false_or]

/-- A bit of a set's field, for a field wide enough. -/
theorem bitSet_getLsbD (w : Nat) (is : List Nat) {k : Nat} (h : k < w) :
    (BitVec.ofNat w (bitSet is)).getLsbD k = true ↔ k ∈ is := by
  rw [BitVec.getLsbD_ofNat, bitSet_testBit, decide_eq_true h, Bool.true_and, decide_eq_true_iff]

theorem mem_allSteps (i : StepIx) : i ∈ allSteps := by
  revert i
  decide

theorem mem_allQtys (q : QtyIx) : q ∈ allQtys := by
  revert q
  decide

theorem qtyNo_injective : Function.Injective qtyNo := fun _ _ h => Fin.ext (Nat.succ.inj h)

theorem cls_injective : Function.Injective Origin.cls := by
  intro o p h
  cases o <;> cases p <;> cases h <;> rfl

/-- A set of steps has bit s - 1 for step s. -/
theorem stepSet_bits (f : StepIx → Bool) : ∃ b : Byte, stepSet f = [b] ∧ ∀ i : StepIx, b.getLsbD i.val = f i := by
  refine ⟨_, rfl, fun i => ?_⟩
  have mem : i.val ∈ (allSteps.filter f).map Fin.val ↔ f i = true := by
    rw [List.mem_map_of_injective Fin.val_injective, List.mem_filter]
    exact and_iff_right (mem_allSteps i)
  exact Bool.eq_iff_iff.mpr ((bitSet_getLsbD 8 _ i.isLt).trans mem)

theorem u16_ofNat (n : Nat) : u16 n = u16 (BitVec.ofNat 16 n).toNat := by
  have high : BitVec.ofNat 8 (n / 256) = BitVec.ofNat 8 (n % 65536 / 256) := by
    apply BitVec.eq_of_toNat_eq
    simp only [BitVec.toNat_ofNat]
    omega
  have low : BitVec.ofNat 8 n = BitVec.ofNat 8 (n % 65536) := by
    apply BitVec.eq_of_toNat_eq
    simp only [BitVec.toNat_ofNat]
    omega
  rw [BitVec.toNat_ofNat, u16, u16, high, low]

/-- A set of orders has bit h for order h, and no other bit. -/
theorem orderSet_bits (m : Vector Bool 13) : ∃ w : Word16, orderSet m = u16 w.toNat
    ∧ (∀ q : QtyIx, w.getLsbD (qtyNo q) = m.get q)
    ∧ w.getLsbD 0 = false ∧ w.getLsbD 14 = false ∧ w.getLsbD 15 = false := by
  have free : ∀ k < 16, (∀ q, qtyNo q ≠ k) →
      (BitVec.ofNat 16 (bitSet ((allQtys.filter m.get).map qtyNo))).getLsbD k = false := fun k small none => by
    rw [← Bool.not_eq_true, bitSet_getLsbD 16 _ small]
    exact fun h => (List.mem_map.mp h).elim (fun q h => none q h.2)
  refine ⟨_, u16_ofNat _, fun q => ?_, free 0 (by decide) (by decide), free 14 (by decide) (by decide),
    free 15 (by decide) (by decide)⟩
  have mem : qtyNo q ∈ (allQtys.filter m.get).map qtyNo ↔ m.get q = true := by
    rw [List.mem_map_of_injective qtyNo_injective, List.mem_filter]
    exact and_iff_right (mem_allQtys q)
  have small : qtyNo q < 16 := by
    have := q.isLt
    rw [qtyNo]
    omega
  exact Bool.eq_iff_iff.mpr ((bitSet_getLsbD 16 _ small).trans mem)

/-- A set of origins has bit c for class c. -/
theorem originSet_bits (qs : List Requester) : ∃ b : Byte, originSet qs = [b]
    ∧ ∀ o : Origin, b.getLsbD o.cls = true ↔ ∃ q ∈ qs, q.origin = o := by
  refine ⟨_, rfl, fun o => ?_⟩
  have small : o.cls < 8 := by cases o <;> decide
  rw [bitSet_getLsbD 8 _ small, List.mem_map]
  exact exists_congr (fun q => and_congr_right (fun _ => cls_injective.eq_iff))

/-- The bits of six flags in one byte. -/
theorem flags_bits : ∀ a b c d e f : Bool,
    let byte := BitVec.ofNat 8
      (flagCode a + 2 * flagCode b + 4 * flagCode c + 8 * flagCode d + 16 * flagCode e + 32 * flagCode f)
    byte.getLsbD 0 = a ∧ byte.getLsbD 1 = b ∧ byte.getLsbD 2 = c ∧ byte.getLsbD 3 = d ∧ byte.getLsbD 4 = e
      ∧ byte.getLsbD 5 = f ∧ byte.getLsbD 6 = false ∧ byte.getLsbD 7 = false := by
  decide

/-! ### How many bytes a field takes -/

@[simp] theorem u8_length (n : Nat) : (u8 n).length = 1 := rfl

@[simp] theorem u16_length (n : Nat) : (u16 n).length = 2 := rfl

@[simp] theorem u32_length (n : Nat) : (u32 n).length = 4 := rfl

@[simp] theorem flag_length (b : Bool) : (flag b).length = 1 := rfl

@[simp] theorem opt8_length (x : Option Nat) : (opt8 x).length = 1 := by cases x <;> rfl

@[simp] theorem opt16_length (x : Option Nat) : (opt16 x).length = 2 := by cases x <;> rfl

@[simp] theorem optStep_length (x : Option StepIx) : (optStep x).length = 1 := opt8_length _

@[simp] theorem stepSet_length (f : StepIx → Bool) : (stepSet f).length = 1 := rfl

@[simp] theorem orderSet_length (m : Vector Bool 13) : (orderSet m).length = 2 := rfl

@[simp] theorem originSet_length (qs : List Requester) : (originSet qs).length = 1 := rfl

theorem present_length {α : Type} {n : Nat} {f : α → List Byte} (h : ∀ x, (f x).length = n) (x : Option α) :
    (present n f x).length = n + 1 := by
  cases x with
  | none => simp [present, Nat.add_comm]
  | some x => simp [present, h, Nat.add_comm]

theorem flatMap_length {α : Type} {n : Nat} {f : α → List Byte} (h : ∀ x, (f x).length = n) (xs : List α) :
    (xs.flatMap f).length = xs.length * n := by
  rw [List.length_flatMap, funext h, List.map_const', List.sum_replicate, smul_eq_mul]

theorem listOf_length {α : Type} {n : Nat} {f : α → List Byte} (h : ∀ x, (f x).length = n) (xs : List α) :
    (listOf f xs).length = 1 + xs.length * n := by
  rw [listOf, List.length_append, u8_length, flatMap_length h]

end Sys2Proof.Machine
end

