-- ==== Sys2Proof/Proofs/Reads.lean ====
section
/-! PROOFS. The read requests: each answers with its owner's table. -/

namespace Sys2Proof.Machine

/-! ### The request forms -/

/-- A request that leaves the state and answers OK. -/
theorem serve_okay {s : State} {f : State → Taken} {bytes written : List Byte} (running : s.resetHeld = none)
    (takes : f s = (s, .okay bytes)) (same : bytes = written) : serve s f = .next (s.replied ⟨.ok, written⟩) := by
  rw [serve_eq f running, takes, same]
  rfl

theorem serve_refuse {s : State} {f : State → Taken} (running : s.resetHeld = none)
    (takes : f s = refuse .outOfRange s) : serve s f = .next (s.replied ⟨.outOfRange, []⟩) := by
  rw [serve_eq f running, takes]
  rfl

/-! ### The operands -/

theorem stepOfCode_none {n : Nat} (h : n = 0 ∨ 8 < n) : stepOfCode n = none := dif_neg (by omega)

theorem stepOfCode_stepNo : ∀ i : StepIx, stepOfCode (BitVec.ofNat 8 (stepNo i)).toNat = some i := by decide

theorem linkOfCode_none {n : Nat} (h : 1 < n) : linkOfCode n = none := by
  match n, h with
  | _ + 2, _ => rfl

theorem flagOfCode_none {n : Nat} (h : 1 < n) : flagOfCode n = none := by
  match n, h with
  | _ + 2, _ => rfl

theorem namedRecord_none {n : Nat} (s : State) (h : 2 < n) : s.namedRecord n = none := by
  match n, h with
  | _ + 3, _ => rfl

theorem linkRead_refuses {link clear : Byte} (h : 1 < link.toNat ∨ 1 < clear.toNat) (s : State) :
    takeLinkRead link clear s = refuse .outOfRange s := by
  unfold takeLinkRead
  rcases h with h | h
  · rw [linkOfCode_none h]
  · rw [flagOfCode_none h]
    cases linkOfCode link.toNat <;> rfl

/-! ### The sizes of the tables -/

theorem queue_short {s : State} (sound : s.queueSound) : s.swu.queue.length ≤ 8 := by
  have short := sound.1.length_le_card
  rwa [List.length_map, Fintype.card_fin] at short

theorem opList_short (s : State) : s.opList.length ≤ 8 := List.length_filterMap_le _ allSteps

theorem Removal.bytes_length (m : Removal) : m.bytes.length = 6 := by simp [Removal.bytes]

theorem quantityBytes_length (s : State) (r : Quantity) : (s.quantityBytes r).length = 16 := by
  simp [State.quantityBytes, present_length Removal.bytes_length]

theorem harmBytes_length (s : State) : s.harmBytes.length = 229 := by
  simp only [State.harmBytes, List.length_append, flatMap_length (fun q => quantityBytes_length s (s.qty q)),
    flatMap_length (fun i => orderSet_length (s.hsv.marks.get i))]
  rfl

theorem noticeRecord_length (c : NoticeClass) (n : Notice) : (noticeRecord c n).length = 14 := by
  have detail : (detailBytes n.detail).length = 8 := present_length (fun d => by simp) _
  simp [noticeRecord, conditionByte, detail]

theorem noticeListBytes_length (s : State) : s.noticeListBytes.length = 197 := by
  rw [State.noticeListBytes, List.length_append, flatMap_length (fun c => noticeRecord_length c (s.notice c))]
  rfl

theorem Entry.bytes_length (e : Entry) : e.bytes.length = 8 := by simp [Entry.bytes]

theorem opBytes_length (s : State) (p : StepIx × OpRecord) : (s.opBytes p).length = 16 := by simp [State.opBytes]

theorem queueBytes_length {s : State} (sound : s.queueSound) : s.queueBytes.length ≤ 219 := by
  have queue := queue_short sound
  have records := opList_short s
  have staged : ∀ g : Option StagedOrder, (present 6 (fun g : StagedOrder =>
      u8 (stepNo g.step) ++ u8 g.kind.code ++ u32 (remaining s g.due)) g).length = 7 :=
    present_length (fun g => by simp)
  have result : ∀ r : Option StationResult, (present 7 (fun r : StationResult =>
      u8 (stepNo r.step) ++ u8 r.kind.code ++ u8 r.result.code ++ u32 r.uptime) r).length = 8 :=
    present_length (fun r => by simp)
  simp only [State.queueBytes, List.length_append, listOf_length Entry.bytes_length,
    listOf_length (opBytes_length s), optStep_length, stepSet_length, staged, result,
    flatMap_length (fun i => opt8_length (s.sw i).retries), allSteps, List.length_cons, List.length_nil]
  omega

/-! ### Fields of the tables, case by case -/

section
variable {s : State}

theorem append_congr {xs xs' ys ys' : List Byte} (left : xs = xs') (right : ys = ys') : xs ++ ys = xs' ++ ys' :=
  congrArg₂ (· ++ ·) left right

theorem flatMap_congr_left {α : Type} {f g : α → List Byte} (h : ∀ x, f x = g x) (xs : List α) :
    xs.flatMap f = xs.flatMap g := congrArg (xs.flatMap ·) (funext h)

theorem present_if (p : Prop) [Decidable p] (n : Nat) : present 4 u32 (if p then some n else none)
    = if p then 1#8 :: u32 n else List.replicate 5 0#8 := by
  split <;> rfl

theorem opt8_if (p : Prop) [Decidable p] (b : Bool) : opt8 (if p then some (flagCode b) else none)
    = if p then flag b else [0xFF#8] := by
  split <;> rfl

theorem committing_eq : s.committing = decide (s.su.store ≠ .idle) := by
  unfold State.committing
  cases s.su.store <;> rfl

theorem placeIn_eq (i : StepIx) (xs : List StepIx) : opt8 (placeIn i xs)
    = if i ∈ xs then u8 (xs.findIdx (· == i) + 1) else [0xFF#8] := by
  unfold placeIn
  split <;> rfl

theorem roleCode_eq (l : Link) : s.roleCode l
    = if s.mi.active = some l then 0 else if (s.link l).state = .locked then 1 else 2 := by
  simp only [State.roleCode, State.locked, beq_iff_eq]

end

/-- Settles O23: each table is its owner's, in the encodings of R204. -/
theorem readRequestsReportTheState : Obligations.ReadRequestsReportTheState := by
  refine ⟨fun s running => ?_, ⟨stepSet_bits, orderSet_bits, originSet_bits, fun h => ⟨_, rfl, flags_bits ..⟩⟩, ?_⟩
  · intro fl o8 o16 p32 seconds once places place baseline
    have flEq : fl = flag := funext (fun b => by cases b <;> rfl)
    have o8Eq : o8 = opt8 := funext (fun x => by cases x <;> rfl)
    have o16Eq : o16 = opt16 := funext (fun x => by cases x <;> rfl)
    have p32Eq : p32 = present 4 u32 := funext (fun x => by cases x <;> rfl)
    have secondsEq : seconds = s.shownSeconds := funext (fun x => by cases x <;> rfl)
    have onceEq : once = s.oneShotBytes := funext (fun x => by cases x <;> rfl)
    have placesEq : places = listOf (fun i => u8 (stepNo i)) := rfl
    have placeEq : place = fun i xs => opt8 (placeIn i xs) := funext₂ (fun i xs => (placeIn_eq i xs).symm)
    have baselineEq : baseline = baselineBytes := funext (fun x => by
      cases x with
      | none => rfl
      | some b => exact congrArg (fun f => 1#8 :: (i16 b.inPhase ++ i16 b.quad ++ f b.uncommitted)) flEq)
    clear_value fl o8 o16 p32 seconds once places place baseline
    subst flEq o8Eq o16Eq p32Eq secondsEq onceEq placesEq placeEq baselineEq
    refine ⟨⟨fun k hk => ?_, fun link clear => ⟨fun h => serve_refuse running (linkRead_refuses h s), fun l hl => ?_⟩⟩,
      ?_, ?_, ?_, ⟨_, serve_okay running rfl rfl, harmBytes_length s, ?_⟩,
      ⟨_, serve_okay running rfl rfl, noticeListBytes_length s, ?_⟩,
      ⟨_, serve_okay running rfl rfl, queueBytes_length, ?_⟩, fun i => ?_, fun i => ?_, fun n h => ?_, fun n m h => ?_,
      fun n h => ?_⟩
    · -- LINK_STATS
      subst hk
      refine serve_okay running rfl ?_
      unfold State.linkStatsBytes
      repeat' with_reducible refine append_congr ?_ ?_
      any_goals rfl
      cases s.hlk.lastLinkReset with
      | none => rfl
      | some cause => cases cause <;> rfl
    · -- LINK_READ
      intro r reply
      have bytes : Reply.okay (s.linkBytes l) = reply := by
        refine congrArg Reply.okay ?_
        unfold State.linkBytes
        rw [roleCode_eq, State.silenceTime, Option.map_map]
        repeat' with_reducible refine append_congr ?_ ?_
        any_goals rfl
        cases (s.link l).lastSeq <;> rfl
      refine ⟨fun keep => ?_, fun drop => ?_⟩
      · refine (serve_eq (takeLinkRead link clear) running).trans ?_
        rw [takeLinkRead, hl, keep]
        exact congrArg (fun r => Host.Outcome.next (s.replied r)) bytes
      · refine (serve_eq (takeLinkRead link clear) running).trans ?_
        rw [takeLinkRead, hl, drop]
        exact congrArg (fun r => Host.Outcome.next ((clearLinkCounters l s).replied r)) bytes
    · -- YARD_STATUS
      refine serve_okay running rfl ?_
      unfold State.yardStatusBytes State.regulatorBytes
      rw [committing_eq, optStep, Option.map_map]
      simp only [List.append_assoc]
      repeat' with_reducible refine append_congr ?_ ?_
      any_goals rfl
      cases s.vrg.target <;> rfl
    · -- STORE_STATUS
      refine serve_okay running rfl ?_
      unfold State.storeStatusBytes
      repeat' with_reducible refine append_congr ?_ ?_
      any_goals rfl
      · cases s.su.lastCommit with
        | none => rfl
        | some p =>
          obtain ⟨result, time⟩ := p
          cases result <;> rfl
      · refine congrArg stepSet (funext fun i => ?_)
        cases (s.ub i).baseline <;> rfl
    · -- ROUTE_READ
      refine serve_okay running rfl ?_
      unfold State.routeRead
      repeat' with_reducible refine append_congr ?_ ?_
      any_goals with_reducible rfl
      · refine flatMap_congr_left (fun x => ?_) _
        unfold State.routeBytes
        cases x.isPulse
        · rfl
        · cases s.evr.hold.get x.ix <;> rfl
      · cases s.evr.removal <;> rfl
    · -- HARM_READ
      unfold State.harmBytes
      repeat' with_reducible refine append_congr ?_ ?_
      any_goals rfl
      refine flatMap_congr_left (fun q => ?_) _
      unfold State.quantityBytes
      repeat' with_reducible refine append_congr ?_ ?_
      any_goals rfl
      cases (s.qty q).removal with
      | none => rfl
      | some m =>
        obtain ⟨step, uptime, result⟩ := m
        cases step <;> rfl
    · -- NOTICE_LIST
      unfold State.noticeListBytes
      refine append_congr (flatMap_congr_left (fun c => ?_) _) rfl
      unfold noticeRecord
      repeat' with_reducible refine append_congr ?_ ?_
      any_goals rfl
      · exact opt8_if ..
      · cases (s.notice c).detail <;> rfl
    · -- QUEUE_READ
      unfold State.queueBytes listOf
      simp only [List.append_assoc]
      repeat' with_reducible refine append_congr ?_ ?_
      any_goals rfl
      · cases s.swu.staged <;> rfl
      · cases s.swu.stationResult <;> rfl
    · -- STEP_READ
      refine serve_okay (f := takeStepRead _) running (bytes := s.stepBytes i) ?_ ?_
      · rw [takeStepRead, stepOfCode_stepNo]
      · unfold State.stepBytes listOf
        simp only [List.append_assoc]
        repeat' with_reducible refine append_congr ?_ ?_
        any_goals rfl
        cases (s.sw i).op with
        | none => rfl
        | some o =>
          dsimp only [operationCode]
          cases o.phase <;> rfl
    · -- UNB_READ
      refine serve_okay (f := takeUnbRead _) running (bytes := s.unbBytes i) ?_ ?_
      · rw [takeUnbRead, stepOfCode_stepNo]
      · unfold State.unbBytes stageBytes listOf
        simp only [present_if, List.append_assoc]
        repeat' with_reducible refine append_congr ?_ ?_
        any_goals rfl
        · cases (s.ub i).lastTrip <;> rfl
        · cases s.ubp.capture <;> rfl
        · cases s.ubp.lastCapture <;> rfl
    · exact ⟨serve_refuse running (by rw [takeStepRead, stepOfCode_none h]),
        serve_refuse running (by rw [takeUnbRead, stepOfCode_none h])⟩
    · -- MEAS_READ
      refine serve_okay (f := takeMeasRead n) running (bytes := present recordWidth s.recordBytes m) ?_ ?_
      · rcases h with ⟨rfl, rfl⟩ | ⟨rfl, rfl⟩ | ⟨rfl, rfl⟩ <;> rfl
      · cases m with
        | none => rfl
        | some r =>
          simp only [present, State.recordBytes, listOf, List.append_assoc]
          rfl
    · exact serve_refuse running (by rw [takeMeasRead, namedRecord_none s h])
  · decide

end Sys2Proof.Machine
end

