-- ==== Sys2Proof/Proofs/Candidate.lean ====
section
/-! PROOFS. The candidate of an apply and the first of its checks that fails (R192). -/

namespace Sys2Proof.Machine

/-! ### The value of one setting -/

theorem YardItem.ix_injective : Function.Injective YardItem.ix := by
  have back : ∀ i : YardItem, allYardItems[i.ix.val]? = some i := fun i => by cases i <;> rfl
  intro i j h
  exact Option.some.inj ((back i).symm.trans ((congrArg (fun n : Fin 39 => allYardItems[n.val]?) h).trans (back j)))

theorem StepItem.ix_injective : Function.Injective StepItem.ix := by
  have back : ∀ i : StepItem, allStepItems[i.ix.val]? = some i := fun i => by cases i <;> rfl
  intro i j h
  exact Option.some.inj ((back i).symm.trans ((congrArg (fun n : Fin 6 => allStepItems[n.val]?) h).trans (back j)))

theorem QtyItem.ix_injective : Function.Injective QtyItem.ix := by
  have back : ∀ i : QtyItem, allQtyItems[i.ix.val]? = some i := fun i => by cases i <;> rfl
  intro i j h
  exact Option.some.inj ((back i).symm.trans ((congrArg (fun n : Fin 4 => allQtyItems[n.val]?) h).trans (back j)))

@[simp] theorem Settings.get_put_self (c : Settings) (k : SettingKey) (v : Nat) : (c.put k v).get k = v := by
  cases k <;> simp [Settings.put, Settings.get]

theorem get_upd_put_ne {m n : Nat} (t : Vector (Vector Nat n) m) {i j : Fin m} {x y : Fin n} (v : Nat)
    (h : j = i → y ≠ x) : ((Tab.upd t i (fun r => Tab.put r x v)).get j).get y = (t.get j).get y := by
  rw [Tab.get_upd]
  split
  · next same => rw [Tab.get_put_ne _ _ (h same), same]
  · rfl

theorem Settings.get_put_ne (c : Settings) {k l : SettingKey} (v : Nat) (h : l ≠ k) :
    (c.put k v).get l = c.get l := by
  cases k with
  | yard i =>
    cases l with
    | yard j => exact Tab.get_put_ne _ _ (fun e => h (congrArg SettingKey.yard (YardItem.ix_injective e)))
    | step j y => rfl
    | qty j y => rfl
  | step i x =>
    cases l with
    | yard j => rfl
    | step j y =>
      exact get_upd_put_ne _ _ (fun e f => h (congrArg₂ SettingKey.step (StepItem.ix_injective e) f))
    | qty j y => rfl
  | qty i x =>
    cases l with
    | yard j => rfl
    | step j y => rfl
    | qty j y =>
      exact get_upd_put_ne _ _ (fun e f => h (congrArg₂ SettingKey.qty (QtyItem.ix_injective e) f))

/-! ### The candidate -/

theorem readEntry_cons_self (k : SettingKey) (v : Nat) (ps : List (SettingKey × Nat)) :
    readEntry k ((k, v) :: ps) = some v := by
  simp [readEntry]

theorem readEntry_cons_ne {k : SettingKey} {p : SettingKey × Nat} (h : p.1 ≠ k) (ps : List (SettingKey × Nat)) :
    readEntry k (p :: ps) = readEntry k ps := by
  simp [readEntry, h]

theorem readEntry_none {k : SettingKey} {ps : List (SettingKey × Nat)} (h : k ∉ ps.map Prod.fst) :
    readEntry k ps = none := by
  rw [readEntry, Option.map_eq_none_iff, List.find?_eq_none]
  exact fun p mem same => h (List.mem_map.mpr ⟨p, mem, of_decide_eq_true same⟩)

/-- Entries of different settings put in place: each setting has its entry's value, or keeps its own. -/
theorem get_foldl_put (k : SettingKey) (ps : List (SettingKey × Nat)) (a : Settings)
    (different : (ps.map Prod.fst).Nodup) :
    (ps.foldl (fun x p => x.put p.1 p.2) a).get k = (readEntry k ps).getD (a.get k) := by
  induction ps generalizing a with
  | nil => rfl
  | cons p ps ih =>
    obtain ⟨key, value⟩ := p
    rw [List.map_cons, List.nodup_cons] at different
    rw [List.foldl_cons, ih _ different.2]
    by_cases same : key = k
    · subst same
      rw [readEntry_none different.1, readEntry_cons_self, Settings.get_put_self]
      rfl
    · rw [readEntry_cons_ne same, Settings.get_put_ne _ _ (fun e => same e.symm)]

/-! ### The checks as R192 says them -/

section
variable (c : Settings)

theorem check1_iff : c.check1 = true ↔ c.y .vu < c.y .vl ∧ c.y .vl < c.y .vh ∧ c.y .vh < c.y .vx := by
  simp [Settings.check1, and_assoc]

theorem check2Step_iff (i : StepIx) :
    c.check2Step i = true ↔ (c.installed i = true → c.expectedRise i + c.y .vl ≤ c.y .vh) := by
  cases h : c.installed i <;> simp [Settings.check2Step, h]

theorem check3_iff : c.check3 = true ↔ c.y .closePulse ≤ c.y .closeLimit ∧ c.y .tripPulse ≤ c.y .openLimit := by
  simp [Settings.check3]

theorem check4Qty_iff (q : QtyIx) : c.check4Qty q = true ↔ (c.la q ≠ 0 → c.hyst q < c.la q
    ∧ (c.lb q ≠ 0 → c.la q ≤ c.lb q ∧ (c.lr q ≠ 0 → c.lb q ≤ c.lr q))) := by
  by_cases a : c.la q = 0
  · simp [Settings.check4Qty, Settings.alarmEnabled, a]
  · by_cases b : c.lb q = 0 <;> by_cases r : c.lr q = 0 <;>
      simp [Settings.check4Qty, Settings.alarmEnabled, Settings.blockEnabled, Settings.removeEnabled, a, b, r, and_assoc]

theorem check5Step_iff (i : StepIx) : c.check5Step i = true ↔ c.l1 i < c.l2 i ∧ c.l2 i < c.l3 i := by
  simp [Settings.check5Step]

theorem check6Step_iff (s : State) (i : StepIx) : s.check6Step c i = true
    ↔ (c.installed i ≠ s.su.active.installed i → (s.step i).state = .disabled) := by
  by_cases h : c.installed i = s.su.active.installed i <;> simp [State.check6Step, h]

end

/-! ### The first that fails -/

/-- The search along an ascending list finds the least element that fails. -/
theorem find?_least {α : Type} [LinearOrder α] {p : α → Bool} {xs : List α} {i : α}
    (ascending : xs.Pairwise (· < ·)) (mem : i ∈ xs) (fails : p i = false) (before : ∀ j, j < i → p j = true) :
    xs.find? (fun x => !p x) = some i := by
  induction xs with
  | nil => cases mem
  | cons x xs ih =>
    rw [List.pairwise_cons] at ascending
    rcases List.mem_cons.mp mem with rfl | later
    · exact List.find?_cons_of_pos (by rw [fails]; rfl)
    · have passes := before x (ascending.1 i later)
      rw [List.find?_cons_of_neg (by rw [passes]; exact Bool.false_ne_true)]
      exact ih ascending.2 later

theorem find?_all {α : Type} {p : α → Bool} {xs : List α} (h : ∀ x, p x = true) :
    xs.find? (fun x => !p x) = none := by
  simp [h]

section
variable {c : Settings}

theorem firstFailure_check1 (h : c.check1 = false) : c.firstFailure = some (1, 0) := by
  simp [Settings.firstFailure, h]

theorem firstFailure_check2 {i : StepIx} (ok1 : c.check1 = true) (h : c.check2Step i = false)
    (before : ∀ j, j < i → c.check2Step j = true) : c.firstFailure = some (2, stepNo i) := by
  simp [Settings.firstFailure, ok1, find?_least (by decide : allSteps.Pairwise (· < ·)) (mem_allSteps i) h before]

theorem firstFailure_check3 (ok1 : c.check1 = true) (ok2 : ∀ i, c.check2Step i = true) (h : c.check3 = false) :
    c.firstFailure = some (3, 0) := by
  simp [Settings.firstFailure, ok1, find?_all ok2, h]

theorem firstFailure_check4 {q : QtyIx} (ok1 : c.check1 = true) (ok2 : ∀ i, c.check2Step i = true)
    (ok3 : c.check3 = true) (h : c.check4Qty q = false) (before : ∀ p, p < q → c.check4Qty p = true) :
    c.firstFailure = some (4, qtyNo q) := by
  simp [Settings.firstFailure, ok1, find?_all ok2, ok3,
    find?_least (by decide : allQtys.Pairwise (· < ·)) (mem_allQtys q) h before]

theorem firstFailure_check5 {i : StepIx} (ok1 : c.check1 = true) (ok2 : ∀ i, c.check2Step i = true)
    (ok3 : c.check3 = true) (ok4 : ∀ q, c.check4Qty q = true) (h : c.check5Step i = false)
    (before : ∀ j, j < i → c.check5Step j = true) : c.firstFailure = some (5, stepNo i) := by
  simp [Settings.firstFailure, ok1, find?_all ok2, ok3, find?_all ok4,
    find?_least (by decide : allSteps.Pairwise (· < ·)) (mem_allSteps i) h before]

theorem firstFailure_none (ok1 : c.check1 = true) (ok2 : ∀ i, c.check2Step i = true) (ok3 : c.check3 = true)
    (ok4 : ∀ q, c.check4Qty q = true) (ok5 : ∀ i, c.check5Step i = true) : c.firstFailure = none := by
  simp [Settings.firstFailure, ok1, find?_all ok2, ok3, find?_all ok4, find?_all ok5]

variable {s : State}

theorem applyFailure_first {f : Nat × Nat} (h : c.firstFailure = some f) : s.applyFailure c = some f := by
  rw [State.applyFailure, h]

theorem applyFailure_check6 {i : StepIx} (ok : c.firstFailure = none) (h : s.check6Step c i = false)
    (before : ∀ j, j < i → s.check6Step c j = true) : s.applyFailure c = some (6, stepNo i) := by
  simp [State.applyFailure, ok, find?_least (by decide : allSteps.Pairwise (· < ·)) (mem_allSteps i) h before]

theorem applyFailure_none (ok : c.firstFailure = none) (ok6 : ∀ i, s.check6Step c i = true) :
    s.applyFailure c = none := by
  simp [State.applyFailure, ok, find?_all ok6]

end

end Sys2Proof.Machine
end

