-- ==== Sys2Proof/Proofs/Apply.lean ====
section
/-! PROOFS. What an accepted apply makes of the state, block by block (R193). -/

namespace Sys2Proof.Machine

/-! ### The monitor (R23 to R25) -/

section
variable {a b c : Settings} {s : State}

/-- Two folds that agree wherever no reset is held. -/
theorem foldl_of_running {α : Type} {f g : State → α → State} (keeps : ∀ s x, (g s x).resetHeld = s.resetHeld)
    (same : ∀ s x, s.resetHeld = none → f s x = g s x) (xs : List α) (s : State) (running : s.resetHeld = none) :
    xs.foldl f s = xs.foldl g s := by
  induction xs generalizing s with
  | nil => rfl
  | cons x xs ih =>
    rw [List.foldl_cons, List.foldl_cons, same s x running]
    exact ih _ ((keeps s x).trans running)

theorem takeIfSteady_resetHeld (s : State) (i : StepIx) : (takeIfSteady i s).resetHeld = s.resetHeld :=
  (takeIfSteady_run (free := False) (meas := False) (stor := False) i s).outside.2.2

theorem unknownIfDue_run {free meas stor : Prop} (i : StepIx) (s : State) :
    Run free meas stor s (unknownIfDue i s) := .ite (fun _ => toUnknown_run ..) (fun _ => .refl s)

/-- The filters that are steady for a changed debounce time, and its end from the full reset (R23, R25). -/
def filtersApplied (s : State) : State :=
  let u := allSteps.foldl (fun r i => takeIfSteady i r) s
  if u.debounceEndDue then endDebounce u else u

theorem steadyTaken_run {free meas stor : Prop} (s : State) :
    Run free meas stor s (allSteps.foldl (fun r i => takeIfSteady i r) s) :=
  Run.foldl _ (fun r i => takeIfSteady_run i r) allSteps s

theorem filtersApplied_run {free meas stor : Prop} (s : State) : Run free meas stor s (filtersApplied s) := by
  unfold filtersApplied
  dsimp only
  have taken := steadyTaken_run (free := free) (meas := meas) (stor := stor) s
  exact .ite (fun _ => taken.trans (endDebounce_run _)) (fun _ => taken)

/-- The state that a command leaves where it is taken. -/
def Leaves (run : Instr → State → State) : Prop := ∀ x u v, exec x u = .next v → run x u = v

section
variable {run : Instr → State → State} (leaves : Leaves run)
include leaves

theorem run_debounceExpiries (i : StepIx) (running : s.resetHeld = none) :
    run (.debounceExpiry i .openContact) (run (.debounceExpiry i .closedContact) s) = takeIfSteady i s := by
  have first : run (.debounceExpiry i .closedContact) s = onlyIf (s.debounceDue i .closedContact) (takeLevels i) s :=
    leaves _ _ _ (live_eq _ running)
  have still : (onlyIf (s.debounceDue i .closedContact) (takeLevels i) s).resetHeld = none :=
    (onlyIf_run (takeLevels_run (free := False) (meas := False) (stor := False) i s)).outside.2.2.trans running
  rw [first, takeIfSteady_eq]
  exact leaves _ _ _ (live_eq _ still)

theorem run_debounceTimeFromReset (running : s.resetHeld = none) :
    run .debounceTimeFromReset s = if s.debounceEndDue then endDebounce s else s :=
  leaves _ _ _ (live_eq _ running)

theorem run_positionDisagreementExpiry (i : StepIx) (running : s.resetHeld = none) :
    run (.positionDisagreementExpiry i) s = unknownIfDue i s := leaves _ _ _ (live_eq _ running)

/-- The filters that an apply takes are those of their expiries. -/
theorem run_filters (running : s.resetHeld = none) :
    allSteps.foldl (fun u i => run (.debounceExpiry i .openContact) (run (.debounceExpiry i .closedContact) u)) s
      = allSteps.foldl (fun u i => takeIfSteady i u) s :=
  foldl_of_running takeIfSteady_resetHeld (fun _ i => run_debounceExpiries leaves i) _ s running

/-- The decoders that an apply takes to UNKNOWN are those of their expiries. -/
theorem run_decoders (running : s.resetHeld = none) :
    allSteps.foldl (fun u i => run (.positionDisagreementExpiry i) u) s = allSteps.foldl (fun u i => unknownIfDue i u) s :=
  foldl_of_running (fun u i => (unknownIfDue_run (free := False) (meas := False) (stor := False) i u).outside.2.2)
    (fun _ i => run_positionDisagreementExpiry leaves i) _ s running

/-- The monitor's part of an apply, by the commands of its expiries. -/
theorem applyMonitor_eq (running : s.resetHeld = none) :
    let s2 := if changedY a b .debounceTime = true then run .debounceTimeFromReset (allSteps.foldl (fun u i =>
        run (.debounceExpiry i .openContact) (run (.debounceExpiry i .closedContact) u)) s) else s
    applyMonitor a b s = if changedY a b .disagreementTime = true then
      allSteps.foldl (fun u i => run (.positionDisagreementExpiry i) u) s2 else s2 := by
  intro s2
  have taken : (allSteps.foldl (fun r i => takeIfSteady i r) s).resetHeld = none :=
    (steadyTaken_run (free := False) (meas := False) (stor := False) s).outside.2.2.trans running
  have filters : s2 = whenB (changedY a b .debounceTime) filtersApplied s := by
    dsimp only [s2]
    rw [run_filters leaves running, run_debounceTimeFromReset leaves taken]
    rfl
  have still : s2.resetHeld = none := by
    rw [filters]
    exact (whenB_run (free := False) (meas := False) (stor := False) filtersApplied_run _ s).outside.2.2.trans running
  rw [run_decoders leaves still, filters]
  rfl

end

/-! ### The learned rises and the marks (R101, R110, R132) -/

/-- The rises and the marks that an apply takes from some steps. -/
def stepsApplied (a b : Settings) (xs : List StepIx) (s : State) : State :=
  { s with
    vrg := { s.vrg with steps := Tab.build (fun i => { s.vrg.steps.get i with
      rise := if i ∈ xs ∧ (changed a b (.step .rating i) = true ∨ changed a b (.step .expectedRise i) = true) then none
        else (s.vrg.steps.get i).rise }) }
    hsv := { s.hsv with marks := Tab.build (fun i =>
      if i ∈ xs ∧ changed a b (.step .rating i) = true then Tab.build (fun _ => false) else s.hsv.marks.get i) } }

theorem stepsApplied_nil (s : State) : stepsApplied a b [] s = s := by
  have rises : Tab.build s.vrg.steps.get = s.vrg.steps := Tab.ext_get (fun i => Tab.get_build ..)
  have marks : Tab.build s.hsv.marks.get = s.hsv.marks := Tab.ext_get (fun i => Tab.get_build ..)
  simp [stepsApplied, rises, marks]

theorem put_get {α : Type} {n : Nat} (v : Vector α n) (i : Fin n) : Tab.put v i (v.get i) = v :=
  Tab.ext_get (fun j => by
    rw [Tab.get_put]
    split
    · next same => rw [same]
    · rfl)

theorem applyStep_eq (x : StepIx) (s : State) : applyStep a b x s =
    { s with
      vrg := { s.vrg with steps := Tab.upd s.vrg.steps x (fun v => { v with
        rise := if changed a b (.step .rating x) = true ∨ changed a b (.step .expectedRise x) = true then none
          else v.rise }) }
      hsv := { s.hsv with marks := Tab.upd s.hsv.marks x (fun m =>
        if changed a b (.step .rating x) = true then Tab.build (fun _ => false) else m) } } := by
  have sameStep : Tab.put s.vrg.steps x ⟨(s.vrg.steps.get x).rise, (s.vrg.steps.get x).rejected⟩ = s.vrg.steps :=
    put_get ..
  unfold applyStep
  cases changed a b (.step .rating x) <;> cases changed a b (.step .expectedRise x) <;>
    simp [whenB, State.onVr, State.onVrg, clearMarks, State.onHsv, sameStep, put_get, Tab.upd]

theorem stepsApplied_cons (x : StepIx) (xs : List StepIx) (s : State) :
    stepsApplied a b xs (applyStep a b x s) = stepsApplied a b (x :: xs) s := by
  rw [applyStep_eq]
  refine congrArg₂ (fun v m => { s with vrg := { s.vrg with steps := v }, hsv := { s.hsv with marks := m } })
    (Tab.ext_get fun i => ?_) (Tab.ext_get fun i => ?_)
  · simp only [Tab.get_build, List.mem_cons]
    by_cases same : i = x
    · subst same
      rw [Tab.get_upd_self]
      split <;> simp_all
    · rw [Tab.get_upd_ne _ _ same]
      simp only [same, false_or]
  · simp only [Tab.get_build, List.mem_cons]
    by_cases same : i = x
    · subst same
      rw [Tab.get_upd_self]
      split <;> simp_all
    · rw [Tab.get_upd_ne _ _ same]
      simp only [same, false_or]

theorem applySteps_eq (xs : List StepIx) (s : State) :
    xs.foldl (fun t i => applyStep a b i t) s = stepsApplied a b xs s := by
  induction xs generalizing s with
  | nil => exact (stepsApplied_nil s).symm
  | cons x xs ih => exact (ih _).trans (stepsApplied_cons x xs s)

theorem stepsApplied_all (s : State) : stepsApplied a b allSteps s =
    { s with
      vrg := { s.vrg with steps := Tab.build (fun i => { s.vrg.steps.get i with
        rise := if changed a b (.step .rating i) = true ∨ changed a b (.step .expectedRise i) = true then none
          else (s.vrg.steps.get i).rise }) }
      hsv := { s.hsv with marks := Tab.build (fun i =>
        if changed a b (.step .rating i) = true then Tab.build (fun _ => false) else s.hsv.marks.get i) } } := by
  simp only [stepsApplied, mem_allSteps, true_and]

/-- A block that takes a changed setting leaves the Settings Unit as it is. -/
theorem whenB_su {f : State → State} (h : ∀ s, Run False False False s (f s)) (x : Bool) (s : State) :
    (whenB x f s).su = s.su := (whenB_run h x s).su

/-! ### The levels of the Cooldown Unit (R84, R89) -/

theorem applyDuty_eq (inForce : s.su.active = c) :
    whenB (decide (c.y .dutyLimit < a.y .dutyLimit)) clampDuty s
      = if c.y .dutyLimit < a.y .dutyLimit then { s with cdu := { s.cdu with
          steps := Tab.build (fun i => { s.cd i with duty := min (s.cd i).duty (c.y .dutyLimit) }) } } else s := by
  subst inForce
  simp only [whenB, decide_eq_true_eq]
  rfl

theorem clampBudget_eq (inForce : s.su.active = c) :
    let low : State := { s with cdu := { s.cdu with budget := min s.cdu.budget (c.y .yardLimit) } }
    let full := decide (c.y .yardLimit ≤ low.cdu.budget)
    clampBudget s = condition .budgetExhausted full
      (reportClass .regLimit (full || low.vrg.noCandidate) none 0 0 low) := by
  subst inForce
  rfl

/-! ### The regulator (R101, R116) -/

theorem applySilence_eq (x : Bool) (inForce : s.su.active = c) :
    whenB x refreshSilence s = if x = true ∧ s.vrg.mode = .manual then { s with vrg := { s.vrg with
      silence := if c.y .fallbackInterval = 0 then none else some (s.now + c.y .fallbackInterval * 1000) } } else s := by
  subst inForce
  unfold whenB refreshSilence
  rw [← ite_and]
  rfl

/-! ### The harmonic stages (R130) -/

theorem highestStage_eq (q : QtyIx) : c.highestStage q
    = if c.la q = 0 then .normal else if c.lb q = 0 then .alarm else if c.lr q = 0 then .block else .remove := by
  by_cases a : c.la q = 0 <;> by_cases b : c.lb q = 0 <;> by_cases r : c.lr q = 0 <;>
    simp [Settings.highestStage, Settings.alarmEnabled, Settings.blockEnabled, Settings.removeEnabled, a, b, r]

/-- REMOVE is the highest stage: a fall never enters it. -/
theorem relevel_eq (q : QtyIx) (r : Quantity) : r.relevel c q
    = if (c.highestStage q).code < r.state.code then
        { r with state := c.highestStage q, up := 0, down := 0, repeatDue := none }
      else { r with up := 0, down := 0 } := by
  unfold Quantity.relevel
  by_cases falls : (c.highestStage q).code < r.state.code
  · have below : c.highestStage q ≠ .remove := by
      intro top
      rw [top] at falls
      cases state : r.state <;> rw [state] at falls <;> exact absurd falls (by decide)
    rw [if_pos falls]
    refine (if_pos falls).trans ?_
    rw [Quantity.moveTo, if_neg below]
  · rw [if_neg falls]
    exact if_neg falls

theorem levelsChanged_iff (q : QtyIx) : levelsChanged a b q = true ↔ changed a b (.qty .la q) = true
    ∨ changed a b (.qty .lb q) = true ∨ changed a b (.qty .lr q) = true ∨ changed a b (.qty .hyst q) = true := by
  simp only [levelsChanged, Bool.or_eq_true, or_assoc]

/-- The harmonic part of an apply, with the stages that stay enabled written out. -/
theorem relevelQuantities_eq (inForce : s.su.active = c) :
    relevelQuantities (levelsChanged a c) s = harmConditions
      { s with hsv := { s.hsv with qtys := Tab.build (fun q =>
        let r := s.qty q
        if changed a c (.qty .la q) = true ∨ changed a c (.qty .lb q) = true ∨ changed a c (.qty .lr q) = true
            ∨ changed a c (.qty .hyst q) = true then
          let top : HarmState := if c.la q = 0 then .normal else if c.lb q = 0 then .alarm
            else if c.lr q = 0 then .block else .remove
          if top.code < r.state.code then { r with state := top, up := 0, down := 0, repeatDue := none }
          else { r with up := 0, down := 0 }
        else r) } } := by
  subst inForce
  refine congrArg (fun t => harmConditions { s with hsv := { s.hsv with qtys := t } }) (congrArg Tab.build (funext fun q => ?_))
  simp only [levelsChanged_iff, relevel_eq, highestStage_eq]
  rfl

/-! ### The unbalance stages (R149) -/

theorem resetIf_or (g : Stage) (x y : Bool) :
    g.resetIf (x || y) = if x = true ∨ y = true then ⟨.inactive, 0⟩ else g := by
  simp only [Stage.resetIf, Bool.or_eq_true]

theorem applyUnbalance_eq (s : State) :
    let off (g : Stage) (l : StepItem) (d : YardItem) (i : StepIx) : Stage :=
      if changed a b (.step l i) = true ∨ changed a b (.yard d) = true then ⟨.inactive, 0⟩ else g
    let quiet : State := { s with ubp := { s.ubp with steps := Tab.build (fun i =>
      let r := s.ub i
      { r with s1 := off r.s1 .l1 .d1 i, s2 := off r.s2 .l2 .d2 i, s3 := off r.s3 .l3 .d3 i }) } }
    applyUnbalance a b s
      = condition .unbAlarm quiet.unbAlarm (reportClass .unbAlarm quiet.unbAlarm none 0 0 quiet) := by
  intro off quiet
  refine congrArg (unbCondition none) (?_ : _ = quiet)
  simp only [resetIf_or]
  rfl

/-! ### The selector (R12) -/

/-- The preferred link takes over from the other where it is LOCKED, or is taken where it waits. -/
theorem preferApplied_eq {u : State} {l : Link} (mi : u.mi = s.mi) (preferred : u.su.active.preferred = l) :
    preferApplied u = if s.locked l = true ∧ s.mi.active = some l.other then sourceSwitched l u
      else if s.mi.active = none ∧ ∃ m ∈ s.mi.waiting, m.link = l then selectWaiting u else u := by
  have locked : u.locked l = s.locked l := locked_of_mi mi l
  unfold preferApplied
  simp only [preferred, mi, locked]
  cases s.mi.active with
  | none => simp
  | some k =>
    have ne : k ≠ l ↔ k = l.other := by cases k <;> cases l <;> decide
    simp [ne]

end

end Sys2Proof.Machine
end

