-- ==== Sys2Proof/Proofs/Settings.lean ====
section
/-! PROOFS. SETTINGS_APPLY: the checks, then the effects of what changed (R192, R193). -/

namespace Sys2Proof.Machine

section
variable {s : State}

theorem settingsApply_empty (running : s.resetHeld = none) (none : s.su.pendingSet = []) :
    exec .settingsApply s = .next (s.replied ⟨.ok, [0#8]⟩) := by
  refine (serve_eq takeSettingsApply running).trans ?_
  rw [takeSettingsApply, if_pos none]
  rfl

theorem settingsApply_fails {check index : Nat} (running : s.resetHeld = none) (some_ : s.su.pendingSet ≠ [])
    (fails : s.applyFailure s.candidate = some (check, index)) :
    exec .settingsApply s = .next (s.replied ⟨.invalidSettings, u8 check ++ u8 index⟩) := by
  refine (serve_eq takeSettingsApply running).trans ?_
  simp only [takeSettingsApply, if_neg some_, fails]
  rfl

theorem settingsApply_passes (running : s.resetHeld = none) (some_ : s.su.pendingSet ≠ [])
    (passes : s.applyFailure s.candidate = none) : exec .settingsApply s
      = .next ((applyEffects s.su.active s.candidate (readEntry (.yard .preferredLink) s.su.pendingSet).isSome
          { s with su := { s.su with active := s.candidate, pendingSet := [] } }).replied
        ⟨.ok, u8 (allSettings.filter (changed s.su.active s.candidate)).length⟩) := by
  refine (serve_eq takeSettingsApply running).trans ?_
  simp only [takeSettingsApply, if_neg some_, passes]
  rfl

end

theorem eq_false_of_iff {b : Bool} {p : Prop} (h : b = true ↔ p) (fails : ¬p) : b = false :=
  Bool.eq_false_iff.mpr (fun t => fails (h.mp t))

/-- Settles O28: the candidate, the first check that fails, and the effects of an accepted apply. -/
theorem settingsApplyPutsTheCandidateInForce : Obligations.SettingsApplyPutsTheCandidateInForce := by
  intro s running
  refine ⟨settingsApply_empty running, fun entries => ?_⟩
  intro a c fails ok1 ok2 ok3 ok4 ok5 ok6 upTo5
  have isCheck1 : c.check1 = true ↔ ok1 := check1_iff c
  have isCheck2 : ∀ i, c.check2Step i = true ↔ ok2 i := check2Step_iff c
  have isCheck3 : c.check3 = true ↔ ok3 := check3_iff c
  have isCheck4 : ∀ q, c.check4Qty q = true ↔ ok4 q := check4Qty_iff c
  have isCheck5 : ∀ i, c.check5Step i = true ↔ ok5 i := check5Step_iff c
  have isCheck6 : ∀ i, s.check6Step c i = true ↔ ok6 i := check6Step_iff c s
  have upTo5_passes : upTo5 → c.firstFailure = none := fun ⟨one, two, three, four, five⟩ =>
    firstFailure_none (isCheck1.mpr one) (fun i => (isCheck2 i).mpr (two i)) (isCheck3.mpr three)
      (fun q => (isCheck4 q).mpr (four q)) (fun i => (isCheck5 i).mpr (five i))
  refine ⟨fun different k => get_foldl_put k _ a different, fun no => ?_, fun i one no before => ?_,
    fun one two no => ?_, fun q one two three no before => ?_, fun i one two three four no before => ?_,
    fun i five no before => ?_, fun five six => ?_⟩
  · exact settingsApply_fails running entries
      (applyFailure_first (firstFailure_check1 (eq_false_of_iff isCheck1 no)))
  · exact settingsApply_fails running entries
      (applyFailure_first (firstFailure_check2 (isCheck1.mpr one) (eq_false_of_iff (isCheck2 i) no)
        (fun j less => (isCheck2 j).mpr (before j less))))
  · exact settingsApply_fails running entries
      (applyFailure_first (firstFailure_check3 (isCheck1.mpr one) (fun i => (isCheck2 i).mpr (two i))
        (eq_false_of_iff isCheck3 no)))
  · exact settingsApply_fails running entries
      (applyFailure_first (firstFailure_check4 (isCheck1.mpr one) (fun i => (isCheck2 i).mpr (two i))
        (isCheck3.mpr three) (eq_false_of_iff (isCheck4 q) no) (fun p less => (isCheck4 p).mpr (before p less))))
  · exact settingsApply_fails running entries
      (applyFailure_first (firstFailure_check5 (isCheck1.mpr one) (fun i => (isCheck2 i).mpr (two i))
        (isCheck3.mpr three) (fun q => (isCheck4 q).mpr (four q)) (eq_false_of_iff (isCheck5 i) no)
        (fun j less => (isCheck5 j).mpr (before j less))))
  · exact settingsApply_fails running entries
      (applyFailure_check6 (upTo5_passes five) (eq_false_of_iff (isCheck6 i) no)
        (fun j less => (isCheck6 j).mpr (before j less)))
  · intro differs run s0 s2 s3 s4 s5 low full s6 band s7 silence s8 s9 off quiet s10 p s11
    have leaves : Leaves run := fun x u v h => by
      dsimp only [run]
      rw [h]
    have su0 : s0.su.active = c := rfl
    have monitor : rebuildIfDue (applyMonitor a c s0) = s3 := congrArg rebuildIfDue (applyMonitor_eq leaves running)
    have run3 : Run False False False s0 s3 := monitor ▸ (applyMonitor_run a c s0).trans (rebuildIfDue_run _)
    have su3 : s3.su = s0.su := run3.su
    have steps : allSteps.foldl (fun t i => applyStep a c i t) s3 = s4 := by
      rw [applySteps_eq]
      exact stepsApplied_all s3
    have su4 : s4.su = s0.su := su3
    have duty : whenB (decide (c.y .dutyLimit < a.y .dutyLimit)) clampDuty s4 = s5 :=
      applyDuty_eq (congrArg SettingsUnit.active su4)
    have su5 : s5.su = s0.su := (congrArg State.su duty).symm.trans
      ((whenB_su clampDuty_run _ s4).trans su4)
    have budget : whenB (changedY a c .yardLimit) clampBudget s5 = s6 := by
      rw [whenB, clampBudget_eq (congrArg SettingsUnit.active su5)]
      rfl
    have su6 : s6.su = s0.su := (congrArg State.su budget).symm.trans
      ((whenB_su clampBudget_run _ s5).trans su5)
    have zeroed : whenB band zeroBand s6 = s7 := rfl
    have su7 : s7.su = s0.su := by
      dsimp only [s7]
      split <;> exact su6
    have silenced : whenB (changedY a c .fallbackInterval) refreshSilence s7 = s8 :=
      applySilence_eq _ (congrArg SettingsUnit.active su7)
    have su8 : s8.su = s0.su := (congrArg State.su silenced).symm.trans
      ((whenB_su refreshSilence_run _ s7).trans su7)
    have levels : relevelQuantities (levelsChanged a c) s8 = s9 := relevelQuantities_eq (congrArg SettingsUnit.active su8)
    have stages : applyUnbalance a c s9 = s10 := applyUnbalance_eq s9
    have blocks : applyBlocks a c s0 = s10 := by
      rw [← stages, ← levels, ← silenced, ← zeroed, ← budget, ← duty, ← steps, ← monitor]
      rfl
    have mi10 : s10.mi = s.mi := (congrArg State.mi blocks).symm.trans (applyBlocks_mi a c s0)
    have run10 : Run False False False s0 s10 := blocks ▸ applyBlocks_run a c s0
    have preferred : c.preferred = p := rfl
    clear_value p
    have selected : whenB (readEntry (.yard .preferredLink) s.su.pendingSet).isSome preferApplied s10 = s11 := by
      rw [whenB, preferApplied_eq mi10 ((congrArg (fun u => u.active.preferred) run10.su).trans preferred)]
      cases p <;> rfl
    have effects : applyEffects a c (readEntry (.yard .preferredLink) s.su.pendingSet).isSome s0 = s11 := by
      rw [applyEffects, blocks, selected]
    have run11 : Run False True False s0 s11 := effects ▸ applyEffects_run a c _ s0
    refine ⟨?_, mi10, run11.su, run11.outside.1, run11.outside.2.2.trans running⟩
    rw [← effects]
    exact settingsApply_passes running entries
      (applyFailure_none (upTo5_passes five) (fun i => (isCheck6 i).mpr (six i)))

end Sys2Proof.Machine
end

