-- ==== Sys2Proof/Proofs/Invariants.lean ====
section
/-! PROOFS. A property that every effect of a command, the beginning and the end of a full reset and the clock keep is
kept by every step. That the lists agree with the states (R41), and that the fields follow the state (R21, R68), are
two of them. -/

namespace Sys2Proof.Machine

/-- What has to be shown of a property of states for every step to keep it. -/
structure Kept (P : State → Prop) : Prop where
  effect : ∀ s t, Effect True True True s t → P s → P t
  begins : ∀ cause s, P s → P (holdReset cause s)
  ends : ∀ cause b1 b0 s, P s → P (restart cause b1 b0 s)
  ticks : ∀ s, P s → P (tick s)
  queue : ∀ s q, P s → P { s with pending := q }

section
variable {P : State → Prop} {s t : State}

theorem Kept.run (k : Kept P) (r : Run True True True s t) (p : P s) : P t := r.keeps k.effect p

theorem Kept.exec (k : Kept P) (c : Instr) (h : exec c s = .next t) (p : P s) : P t := by
  cases c with
  | fullReset cause b1 b0 => cases h; exact k.ends cause b1 b0 s p
  | fullResetHeld cause => cases h; exact k.begins cause s p
  | _ => exact k.run (exec_run _ s t h id (fun _ => trivial)) p

theorem Kept.idle (k : Kept P) (h : idle s = .next t) (p : P s) : P t := by
  unfold Machine.idle at h
  split at h
  · cases h
    exact p
  · split at h
    · exact k.exec _ h p
    · cases h
      split
      · exact k.run (selectWaiting_run s) p
      · exact k.ticks s p

theorem Kept.step (k : Kept P) (p : P s) (h : step s = .next t) : P t := by
  unfold Machine.step at h
  split at h
  · exact k.exec _ h (k.queue s _ p)
  · exact k.idle h p

end

/-- Every step is DISCHARGING or DISABLED at the end of a full reset, and both lists are empty (R42, R45). -/
theorem restart_listsAgree (cause : ResetCause) (b1 b0 : Bool) (s : State) :
    (restart cause b1 b0 s).listsAgree := by
  have off : ∀ i, ((restart cause b1 b0 s).step i).state = .discharging
      ∨ ((restart cause b1 b0 s).step i).state = .disabled := by
    intro i
    rw [restart_step]
    show (if _ then _ else _ : StepState) = _ ∨ (if _ then _ else _ : StepState) = _
    split
    · exact .inl rfl
    · exact .inr rfl
  refine ⟨List.nodup_nil, List.nodup_nil, fun i => ?_, fun i => ?_⟩
  · obtain h | h := off i <;> simp [h, show (restart cause b1 b0 s).st.ring = [] from rfl]
  · obtain h | h := off i <;> simp [h, show (restart cause b1 b0 s).st.service = [] from rfl]

theorem listsAgree_kept : Kept State.listsAgree where
  effect _ _ := Effect.listsAgree
  begins _ _ p := p
  ends cause b1 b0 s _ := restart_listsAgree cause b1 b0 s
  ticks _ p := p
  queue _ _ p := p

/-- Settles O10: every effect keeps the lists, a beginning reset does not touch them, and its end empties them. -/
theorem listsAgreeWithTheStates : Obligations.ListsAgreeWithTheStates :=
  fun _ _ => listsAgree_kept.step

/-- At the end of a full reset a step has a basis exactly where it is DISCHARGING, and neither a cause, nor a time of
energization, nor retries (R42, R45, R74). -/
theorem restart_fieldsFollow (cause : ResetCause) (b1 b0 : Bool) (s : State) :
    (restart cause b1 b0 s).fieldsFollow := by
  intro i
  rw [restart_step, restart_sw]
  cases h : (restart cause b1 b0 s).su.active.installed i <;>
    simp [StepRec.restart, Reset.step, Reset.swuStep]

/-- The beginning of a full reset leaves the retries used as they are. -/
theorem holdReset_fieldsFollow {s : State} (cause : ResetCause) (h : s.fieldsFollow) :
    (holdReset cause s).fieldsFollow := by
  intro i
  have sw : (holdReset cause s).sw i
      = { s.sw i with op := none, closeCoil := false, tripA := false, tripB := false } := Tab.get_build ..
  rw [sw]
  exact h i

theorem fieldsFollow_kept : Kept State.fieldsFollow where
  effect _ _ := Effect.fieldsFollow
  begins cause _ := holdReset_fieldsFollow cause
  ends cause b1 b0 s _ := restart_fieldsFollow cause b1 b0 s
  ticks _ p := p
  queue _ _ p := p

/-- Settles O13: every move sets the four fields with the state, and nothing else writes one of them but the failure of
an open, which writes its cause before the retries. -/
theorem fieldsFollowTheStepState : Obligations.FieldsFollowTheStepState :=
  fun _ _ => fieldsFollow_kept.step

end Sys2Proof.Machine
end

