-- ==== Sys2Proof/Proofs/Moves.lean ====
section
/-! PROOFS. A move of a step and a lockout, field by field: what the abort of a capture, the delivery of results, the
withdrawal of a queue entry, a move and a lockout each leave and write (R21, R31, R39, R40, R46, R49, R154). -/

namespace Sys2Proof.Machine

/-! ### The abort of a capture (R154) -/

section
variable (i : StepIx) (s : State)

/-- An abort writes the capture and the notice table alone. -/
theorem abortCapture_eq :
    abortCapture s = { s with ubp := (abortCapture s).ubp, hlk := (abortCapture s).hlk } := by
  unfold abortCapture
  split <;> rfl

theorem abortCaptureOf_eq :
    abortCaptureOf i s = { s with ubp := (abortCaptureOf i s).ubp, hlk := (abortCaptureOf i s).hlk } := by
  unfold abortCaptureOf
  split
  · rfl
  · split
    · exact abortCapture_eq s
    · rfl

@[simp] theorem abortCaptureOf_now : (abortCaptureOf i s).now = s.now := by rw [abortCaptureOf_eq]
@[simp] theorem abortCaptureOf_st : (abortCaptureOf i s).st = s.st := by rw [abortCaptureOf_eq]
@[simp] theorem abortCaptureOf_swu : (abortCaptureOf i s).swu = s.swu := by rw [abortCaptureOf_eq]

theorem abortCaptureOf_idle (h : s.ubp.capture = none) : abortCaptureOf i s = s := by
  simp only [abortCaptureOf, h]

/-- An abort raises LONG_OP and no other notice. -/
theorem abortCaptureOf_notice {d : NoticeClass} (h : d ≠ .longOp) : (abortCaptureOf i s).notice d = s.notice d := by
  unfold abortCaptureOf
  split
  · rfl
  · split
    · unfold abortCapture
      split
      · rfl
      · rw [raiseNotice, onNotice_notice, if_neg h]
        rfl
    · rfl

/-- The capture of the step named ends ABORTED. -/
theorem abortCaptureOf_capture {p : Capture} (running : s.ubp.capture = some p) (own : p.step = i) :
    (abortCaptureOf i s).ubp.capture = none
      ∧ (abortCaptureOf i s).ubp.lastCapture = some ⟨i, .aborted, s.uptime⟩ := by
  simp only [abortCaptureOf, running, own, if_true, abortCapture]
  exact ⟨rfl, rfl⟩

end

/-! ### Results (R46) -/

section
variable (i : StepIx) (k : Kind) (r : OpResult) (qs : List Requester) (s : State)

/-- A reading that no single result changes is changed by none of the deliveries. -/
theorem deliverAll_keeps {α : Type} (g : State → α) (h : ∀ q s, g (deliver i k r q s) = g s) :
    g (deliverAll i k r qs s) = g s := foldl_keeps g _ (fun s q => h q s) qs s

@[simp] theorem deliverAll_now : (deliverAll i k r qs s).now = s.now :=
  deliverAll_keeps i k r qs s State.now (fun q _ => by cases q <;> rfl)

@[simp] theorem deliverAll_st : (deliverAll i k r qs s).st = s.st :=
  deliverAll_keeps i k r qs s State.st (fun q _ => by cases q <;> rfl)

@[simp] theorem deliverAll_ubp : (deliverAll i k r qs s).ubp = s.ubp :=
  deliverAll_keeps i k r qs s State.ubp (fun q _ => by cases q <;> rfl)

@[simp] theorem deliverAll_hlk : (deliverAll i k r qs s).hlk = s.hlk :=
  deliverAll_keeps i k r qs s State.hlk (fun q _ => by cases q <;> rfl)

@[simp] theorem deliverAll_step (j : StepIx) : (deliverAll i k r qs s).step j = s.step j :=
  congrArg (fun t => t.steps.get j) (deliverAll_st i k r qs s)

@[simp] theorem deliverAll_sw (j : StepIx) : (deliverAll i k r qs s).sw j = s.sw j :=
  congrArg (fun t => t.get j) (deliverAll_swu i k r qs s).1

end

/-! ### The withdrawal of a queue entry (R49) -/

section
variable {i : StepIx} {s : State}

theorem entryOf_absent (h : ∀ e ∈ s.swu.queue, e.step ≠ i) : s.entryOf i = none := by
  simpa [State.entryOf, List.find?_eq_none] using h

/-- In a sound queue the entry of a step is the one that is found. -/
theorem entryOf_mem {e : Entry} (sound : s.queueSound) (mem : e ∈ s.swu.queue) (own : e.step = i) :
    s.entryOf i = some e := by
  cases found : s.entryOf i with
  | none => exact absurd (own ▸ List.mem_map_of_mem mem) (entryOf_none found)
  | some x =>
    obtain ⟨mem', own'⟩ := entryOf_some found
    rw [List.inj_on_of_nodup_map sound.1 mem' mem (own'.trans own.symm)]

theorem withdrawStep_absent (h : ∀ e ∈ s.swu.queue, e.step ≠ i) : withdrawStep i s = s := by
  simp only [withdrawStep, entryOf_absent h]

theorem withdrawStep_mem {e : Entry} (sound : s.queueSound) (mem : e ∈ s.swu.queue) (own : e.step = i) :
    withdrawStep i s = deliverAll i e.kind .withdrawn e.requesters { s with swu := { s.swu with
      queue := s.swu.queue.filter (fun x => decide (x.step ≠ i)) } } := by
  simp only [withdrawStep, entryOf_mem sound mem own]
  rfl

end

section
variable (i : StepIx) (s : State)

/-- A withdrawal keeps what neither the queue nor a result changes. -/
theorem withdrawStep_keeps {α : Type} (g : State → α) (queue : ∀ s q, g (s.onSwu (fun w => { w with queue := q })) = g s)
    (results : ∀ j k r q s, g (deliver j k r q s) = g s) : g (withdrawStep i s) = g s := by
  unfold withdrawStep
  split
  · rfl
  · exact (deliverAll_keeps _ _ _ _ _ g (results _ _ _)).trans (queue s _)

@[simp] theorem withdrawStep_now : (withdrawStep i s).now = s.now :=
  withdrawStep_keeps i s State.now (fun _ _ => rfl) (fun _ _ _ q _ => by cases q <;> rfl)

@[simp] theorem withdrawStep_st : (withdrawStep i s).st = s.st :=
  withdrawStep_keeps i s State.st (fun _ _ => rfl) (fun _ _ _ q _ => by cases q <;> rfl)

@[simp] theorem withdrawStep_ubp : (withdrawStep i s).ubp = s.ubp :=
  withdrawStep_keeps i s State.ubp (fun _ _ => rfl) (fun _ _ _ q _ => by cases q <;> rfl)

@[simp] theorem withdrawStep_hlk : (withdrawStep i s).hlk = s.hlk :=
  withdrawStep_keeps i s State.hlk (fun _ _ => rfl) (fun _ _ _ q _ => by cases q <;> rfl)

@[simp] theorem withdrawStep_sw (j : StepIx) : (withdrawStep i s).sw j = s.sw j :=
  withdrawStep_keeps i s (fun t => t.sw j) (fun _ _ => rfl) (fun _ _ _ q _ => by cases q <;> rfl)

/-- A withdrawal takes every entry of the step, and no other, out of the queue. -/
theorem withdrawStep_queue : (withdrawStep i s).swu.queue = dropStep i s.swu.queue := by
  unfold withdrawStep
  split
  · next none =>
    refine (List.filter_eq_self.mpr (fun e mem => ?_)).symm
    have : e.step ≠ i := fun own => entryOf_none none (own ▸ List.mem_map_of_mem mem)
    simpa using this
  · exact deliverAll_queue ..

end

/-! ### A move (R21, R39, R40, R154) -/

section
variable (i : StepIx) (new : StepState) (b : Basis) (c : Cause) (s : State)

/-- A move writes the Step Table and the retries used, and may abort a capture. -/
theorem moveStep_eq : moveStep i new b c s = { s with
    st := s.st.move i new b c s.uptime
    swu := { s.swu with steps := Tab.upd s.swu.steps i (fun r => { r with retries := none }) }
    ubp := (moveStep i new b c s).ubp
    hlk := (moveStep i new b c s).hlk } := by
  unfold moveStep
  simp only
  split
  · exact abortCaptureOf_eq ..
  · rfl

@[simp] theorem moveStep_now : (moveStep i new b c s).now = s.now := by rw [moveStep_eq]

@[simp] theorem moveStep_st : (moveStep i new b c s).st = s.st.move i new b c s.uptime :=
  congrArg State.st (moveStep_eq i new b c s)

@[simp] theorem moveStep_queue : (moveStep i new b c s).swu.queue = s.swu.queue :=
  congrArg (fun t => t.swu.queue) (moveStep_eq i new b c s)

@[simp] theorem moveStep_slot : (moveStep i new b c s).swu.slot = s.swu.slot :=
  congrArg (fun t => t.swu.slot) (moveStep_eq i new b c s)

theorem moveStep_sw (j : StepIx) :
    (moveStep i new b c s).sw j = if j = i then { s.sw i with retries := none } else s.sw j :=
  (congrArg (fun t => t.sw j) (moveStep_eq i new b c s)).trans (Tab.get_upd ..)

theorem moveStep_step (j : StepIx) :
    (moveStep i new b c s).step j = if j = i then (s.step i).move new b c s.uptime else s.step j := by
  show (moveStep i new b c s).st.steps.get j = _
  rw [moveStep_st]
  exact StepTable.move_get ..

theorem moveStep_step_self : (moveStep i new b c s).step i = (s.step i).move new b c s.uptime :=
  (moveStep_step ..).trans (if_pos rfl)

theorem moveStep_step_ne {j : StepIx} (h : j ≠ i) : (moveStep i new b c s).step j = s.step j :=
  (moveStep_step ..).trans (if_neg h)

/-- A move raises no notice but the LONG_OP of an aborted capture. -/
theorem moveStep_notice {d : NoticeClass} (h : d ≠ .longOp) : (moveStep i new b c s).notice d = s.notice d := by
  unfold moveStep
  simp only
  split
  · exact abortCaptureOf_notice _ _ h
  · rfl

/-- A running capture is either left as it is, or aborted by a step that leaves ENERGIZED. -/
theorem moveStep_capture {p : Capture} (running : s.ubp.capture = some p) (own : p.step = i) :
    (moveStep i new b c s).ubp.capture = some p ∨ ((moveStep i new b c s).ubp.capture = none
      ∧ (moveStep i new b c s).ubp.lastCapture = some ⟨i, .aborted, s.uptime⟩) := by
  unfold moveStep
  simp only
  split
  · exact .inr (abortCaptureOf_capture i _ running own)
  · exact .inl running

theorem moveStep_queueSound (h : s.queueSound) : (moveStep i new b c s).queueSound := by
  simpa only [State.queueSound, moveStep_queue] using h

/-- The ready ring and the service list after a move. -/
theorem move_ring (t : StepTable) (u : Nat) : (t.move i new b c u).ring
    = (if (t.steps.get i).state = .ready then t.ring.filter (· ≠ i) else t.ring)
      ++ (if new = .ready then [i] else []) := by
  show (if new = .ready then (t.leave i (t.steps.get i).state).ring ++ [i] else _) = _
  split
  · rfl
  · exact (List.append_nil _).symm

theorem move_service (t : StepTable) (u : Nat) : (t.move i new b c u).service
    = (if (t.steps.get i).state = .energized then t.service.filter (· ≠ i) else t.service)
      ++ (if new = .energized then [i] else []) := by
  show (if new = .energized then (t.leave i (t.steps.get i).state).service ++ [i] else _) = _
  split
  · rfl
  · exact (List.append_nil _).symm

end

/-! ### A lockout (R31) -/

section
variable (i : StepIx) (c : Cause) (s : State)

theorem lockOut_st : (lockOut i c s).st = s.st.move i .lockedOut .own c s.uptime := by
  show (abortCaptureOf i (withdrawStep i (moveStep i .lockedOut .own c s))).st = _
  rw [abortCaptureOf_st, withdrawStep_st, moveStep_st]

theorem lockOut_step (j : StepIx) :
    (lockOut i c s).step j = if j = i then (s.step i).move .lockedOut .own c s.uptime else s.step j := by
  show (lockOut i c s).st.steps.get j = _
  rw [lockOut_st]
  exact StepTable.move_get ..

theorem lockOut_queue : (lockOut i c s).swu.queue = dropStep i s.swu.queue := by
  show (abortCaptureOf i (withdrawStep i (moveStep i .lockedOut .own c s))).swu.queue = _
  rw [abortCaptureOf_swu, withdrawStep_queue, moveStep_queue]

theorem lockOut_notice : (lockOut i c s).notice .lockout
    = (s.notice .lockout).raise ⟨s.uptime, some i, c.code, 0⟩ := by
  have now : (abortCaptureOf i (withdrawStep i (moveStep i .lockedOut .own c s))).now = s.now := by simp
  have notice : (abortCaptureOf i (withdrawStep i (moveStep i .lockedOut .own c s))).notice .lockout
      = s.notice .lockout := by
    rw [abortCaptureOf_notice _ _ (by decide), State.notice, withdrawStep_hlk]
    exact moveStep_notice _ _ _ _ _ (by decide)
  rw [lockOut, raiseNotice, onNotice_notice, if_pos rfl, notice, State.detail, State.uptime, now]
  rfl

theorem lockOut_capture {p : Capture} (running : s.ubp.capture = some p) (own : p.step = i) :
    (lockOut i c s).ubp.capture = none
      ∧ (lockOut i c s).ubp.lastCapture = some ⟨i, .aborted, s.uptime⟩ := by
  show (abortCaptureOf i (withdrawStep i (moveStep i .lockedOut .own c s))).ubp.capture = none
    ∧ (abortCaptureOf i (withdrawStep i (moveStep i .lockedOut .own c s))).ubp.lastCapture = _
  obtain still | ⟨gone, last⟩ := moveStep_capture i .lockedOut .own c s running own
  · have aborted := abortCaptureOf_capture i (withdrawStep i (moveStep i .lockedOut .own c s))
      ((congrArg Unbalance.capture (withdrawStep_ubp ..)).trans still) own
    simpa [State.uptime] using aborted
  · rw [abortCaptureOf_idle _ _ ((congrArg Unbalance.capture (withdrawStep_ubp ..)).trans gone), withdrawStep_ubp]
    exact ⟨gone, last⟩

end

/-- Settles O39: a move and a lockout, field by field. -/
theorem movesKeepTheListsAndLockoutsAnnounce : Obligations.MovesKeepTheListsAndLockoutsAnnounce := by
  refine fun i s => ⟨fun new b c => ?move, fun c => ?lockout⟩
  case move =>
    refine ⟨moveStep_step_self .., fun j ne => moveStep_step_ne _ _ _ _ _ ne, ?_, ?_, ?_⟩
    · rw [moveStep_st]
      exact move_ring ..
    · rw [moveStep_st]
      exact move_service ..
    · rw [moveStep_sw, if_pos rfl]
  case lockout =>
    have own := (lockOut_step i c s i).trans (if_pos rfl)
    refine ⟨congrArg StepRec.state own, congrArg StepRec.cause own, congrArg StepRec.energizedAt own,
      fun j ne => (lockOut_step ..).trans (if_neg ne), lockOut_queue .., ⟨fun none => ?_, fun e mem at_ sound => ?_⟩,
      fun p running own => lockOut_capture i c s running own, lockOut_notice ..⟩
    · rw [lockOut, withdrawStep_absent (by simpa using none)]
    · rw [lockOut, withdrawStep_mem (moveStep_queueSound _ _ _ _ _ sound) (by simpa using mem) at_, moveStep_queue]

end Sys2Proof.Machine
end

