-- ==== Sys2Proof/Proofs/StepRequests.lean ====
section
/-! PROOFS. STEP_RELEASE, STEP_DISABLE and STEP_ENABLE: the checks as the rules say them, where a released or enabled
step goes, and the answers (R32 to R35, R49). -/

namespace Sys2Proof.Machine

section
variable (i : StepIx) (s : State)

/-! ### The checks -/

theorem inFlight_iff : s.inFlight i = true ↔ ∃ o, (s.sw i).op = some o ∧ o.phase ≠ .settling := by
  unfold State.inFlight
  cases (s.sw i).op <;> simp

theorem enableAllowed_iff : s.enableAllowed i = true ↔ s.st.rebuilt = true ∧ (s.step i).state = .disabled
    ∧ s.su.active.installed i = true ∧ (s.step i).position = .opened := by
  simp [State.enableAllowed, and_assoc]

theorem disableAllowed_iff : s.disableAllowed i = true ↔ s.st.rebuilt = true
    ∧ ((s.step i).state = .ready ∨ (s.step i).state = .discharging ∨ (s.step i).state = .lockedOut)
    ∧ (s.step i).position = .opened ∧ ¬∃ o, (s.sw i).op = some o ∧ o.phase ≠ .settling := by
  simp [State.disableAllowed, ← inFlight_iff, and_assoc, or_assoc]

theorem anyStageActive_eq_false_iff : s.anyStageActive i = false ↔ (s.ub i).s1.state = .inactive
    ∧ (s.ub i).s2.state = .inactive ∧ (s.ub i).s3.state = .inactive := by
  simp [State.anyStageActive, Stage.active, and_assoc]

theorem releaseAllowed_iff (confirm : Bool) : s.releaseAllowed i confirm = true ↔ s.st.rebuilt = true
    ∧ (s.step i).state = .lockedOut ∧ (¬∃ o, (s.sw i).op = some o ∧ o.phase ≠ .settling)
    ∧ (s.step i).position = .opened ∧ (s.ub i).s1.state = .inactive ∧ (s.ub i).s2.state = .inactive
    ∧ (s.ub i).s3.state = .inactive ∧ ((s.step i).cause ≠ some .repeatedTrip ∨ confirm = true) := by
  simp only [State.releaseAllowed, Bool.and_eq_true, Bool.or_eq_true, Bool.not_eq_true', beq_iff_eq,
    decide_eq_true_eq, anyStageActive_eq_false_iff, ← inFlight_iff, Bool.not_eq_true, and_assoc]

/-! ### The state a released or enabled step enters (R32) -/

theorem toReadyOrDischarging_own (h : (s.cd i).discharge ≠ none) :
    toReadyOrDischarging i s = moveStep i .discharging .own .failToClose s :=
  if_pos (Option.isSome_iff_ne_none.mpr h)

theorem toReadyOrDischarging_startUp {due : Nat} (h : (s.cd i).discharge = none) (runs : s.cdu.startUp = .running due) :
    toReadyOrDischarging i s = moveStep i .discharging .startUp .failToClose s := by
  simp [toReadyOrDischarging, h, runs, toDischarging]

theorem toReadyOrDischarging_ready (h : (s.cd i).discharge = none) (stopped : ∀ due, s.cdu.startUp ≠ .running due) :
    toReadyOrDischarging i s = moveStep i .ready .own .failToClose s := by
  refine (if_neg (by simp [h])).trans ?_
  split
  · next due runs => exact absurd runs (stopped due)
  · rfl

end

/-! ### The answers -/

section
variable {i : StepIx} {s : State} {f : State → Taken}

theorem serve_just {t : State} {c : ReplyCode} (running : s.resetHeld = none) (takes : f s = (t, .just c)) :
    serve s f = .next (t.replied ⟨c, []⟩) := by
  rw [serve_eq f running, takes]
  rfl

theorem takeStepEnable_eq : takeStepEnable (BitVec.ofNat 8 (stepNo i)) s
    = if s.enableAllowed i then (toReadyOrDischarging i s, .just .ok) else refuse .wrongState s := by
  simp only [takeStepEnable, stepOfCode_stepNo]

theorem takeStepDisable_eq : takeStepDisable (BitVec.ofNat 8 (stepNo i)) s
    = if s.disableAllowed i then (disableStep i s, .just .ok) else refuse .wrongState s := by
  simp only [takeStepDisable, stepOfCode_stepNo]

theorem takeStepRelease_eq {c : Byte} {confirm : Bool} (flag : flagOfCode c.toNat = some confirm) :
    takeStepRelease (BitVec.ofNat 8 (stepNo i)) c s
    = if s.releaseAllowed i confirm then
        (if confirm then clearHistory i (toReadyOrDischarging i s) else toReadyOrDischarging i s, .just .ok)
      else refuse .wrongState s := by
  simp only [takeStepRelease, stepOfCode_stepNo, flag]

end

theorem takeStepRelease_refuses {n c : Byte} (h : (n.toNat = 0 ∨ 8 < n.toNat) ∨ 1 < c.toNat) (s : State) :
    takeStepRelease n c s = refuse .outOfRange s := by
  unfold takeStepRelease
  obtain h | h := h
  · rw [stepOfCode_none h]
  · rw [flagOfCode_none h]
    cases stepOfCode n.toNat <;> rfl

/-- Settles O59: the withdrawal, the operands out of range, and for each request its checks and its effect. -/
theorem stepsAreReleasedDisabledAndEnabled : Obligations.StepsAreReleasedDisabledAndEnabled := by
  intro s move flies
  refine ⟨fun i => ⟨fun none => withdrawStep_absent (by simpa using none),
    fun e mem own sound => withdrawStep_mem sound mem own⟩, fun running => ⟨fun n c out => ?range,
    fun n c out => serve_just running (takeStepRelease_refuses (.inr out) s), fun i => ?step⟩⟩
  case range =>
    refine ⟨serve_just running ?_, serve_just running ?_,
      serve_just running (takeStepRelease_refuses (.inl out) s)⟩
    · simp only [takeStepEnable, stepOfCode_none out]
      rfl
    · simp only [takeStepDisable, stepOfCode_none out]
      rfl
  case step =>
    intro n placed enables disables releases
    have goes : placed (toReadyOrDischarging i s) := ⟨toReadyOrDischarging_own i s,
      fun stopped due => toReadyOrDischarging_startUp i s stopped, toReadyOrDischarging_ready i s⟩
    refine ⟨fun ok => ⟨_, goes, serve_just running ?_⟩, fun fails => serve_just running ?_,
      fun ok => serve_just running ?_, fun fails => serve_just running ?_,
      fun ok => ⟨_, goes, serve_just running ?_⟩, fun fails => serve_just running ?_,
      fun ok => ⟨_, goes, serve_just running ?_⟩, fun fails => serve_just running ?_⟩
    · exact takeStepEnable_eq.trans (if_pos ((enableAllowed_iff i s).mpr ok))
    · exact takeStepEnable_eq.trans (if_neg (fun h => fails ((enableAllowed_iff i s).mp h)))
    · exact takeStepDisable_eq.trans (if_pos ((disableAllowed_iff i s).mpr ok))
    · exact takeStepDisable_eq.trans (if_neg (fun h => fails ((disableAllowed_iff i s).mp h)))
    · exact (takeStepRelease_eq rfl).trans (if_pos ((releaseAllowed_iff i s false).mpr ok))
    · exact (takeStepRelease_eq rfl).trans (if_neg (fun h => fails ((releaseAllowed_iff i s false).mp h)))
    · exact (takeStepRelease_eq rfl).trans (if_pos ((releaseAllowed_iff i s true).mpr ok))
    · exact (takeStepRelease_eq rfl).trans (if_neg (fun h => fails ((releaseAllowed_iff i s true).mp h)))

end Sys2Proof.Machine
end

