-- ==== Sys2Proof/Proofs/Failures.lean ====
section
/-! PROOFS. What ST does with a failed operation, by its kind and the state of its step (R27 to R29), and the rule of
the trip retries (R68, R69). -/

namespace Sys2Proof.Machine

section
variable {i : StepIx} {o : OpRecord} {s : State}

/-! ### The failure (R27 to R29) -/

theorem stFailure_close (kind : o.kind = .close) (was : (s.step i).state = .closing) :
    stFailure i o s = lockOut i .failToClose s := by
  simp only [stFailure, kind, was]

theorem stFailure_opening (kind : o.kind = .opening) (was : (s.step i).state = .opening) :
    stFailure i o s = (lockOut i .failToOpen s).onSw i (fun r => { r with retries := some 0 }) := by
  simp only [stFailure, kind, was]

theorem stFailure_lockedOut (kind : o.kind = .opening) (was : (s.step i).state = .lockedOut) : stFailure i o s
    = if (o.origin = .protection ∨ o.protMerged = true) ∧ (s.step i).cause ≠ some .failToOpen then
        raiseNotice .lockout (some i) Cause.failToOpen.code 0
          ((s.onStep i (fun r => { r with cause := some .failToOpen })).onSw i (fun r => { r with retries := some 0 }))
      else s := by
  simp only [stFailure, kind, was]

/-! ### The trip retries (R68, R69) -/

/-- The open that failed is one that the retry rule takes. -/
def RetryFalls (i : StepIx) (o : OpRecord) (wasOpening : Bool) (s : State) : Prop :=
  o.kind = .opening ∧ (s.step i).state = .lockedOut ∧ (s.step i).cause = some .failToOpen
    ∧ (o.origin = .protection ∨ o.protMerged = true ∨ wasOpening = true)

variable {moved : Bool}

theorem tripRetry_other (h : ¬RetryFalls i o moved s) : tripRetry i o moved s = s := if_neg h

theorem tripRetry_again (h : RetryFalls i o moved s) (left : ((s.sw i).retries).getD 0 < s.y .tripRetries) :
    tripRetry i o moved s = takeProtection i .swu
      (s.onSw i (fun r => { r with retries := some (((s.sw i).retries).getD 0 + 1) })) :=
  (if_pos h).trans (if_pos left)

theorem tripRetry_fails (h : RetryFalls i o moved s) (none : s.y .tripRetries ≤ ((s.sw i).retries).getD 0) :
    tripRetry i o moved s = breakerCondition (some i) (s.onSw i (fun r => { r with breakerFail := true })) :=
  (if_pos h).trans (if_neg (Nat.not_lt.mpr none))

/-- A step whose BREAKER_FAIL has just become active makes the yard's condition. -/
theorem breakerFailAny_onSw : (s.onSw i (fun r => { r with breakerFail := true })).breakerFailAny = true :=
  List.any_eq_true.mpr ⟨i, mem_allSteps i, by rw [onSw_sw, if_pos rfl]⟩

end

/-- Settles O47: the failure by kind and state, then the retry rule. -/
theorem failuresLockOutAndRetry : Obligations.FailuresLockOutAndRetry := by
  intro i o s retries was
  refine ⟨stFailure_close, stFailure_opening, fun kind out => ⟨fun claimed new => ?_, fun stays => ?_⟩,
    fun moved => ⟨tripRetry_other, tripRetry_again, fun falls none => ?_⟩⟩
  · exact (stFailure_lockedOut kind out).trans (if_pos ⟨claimed, new⟩)
  · refine (stFailure_lockedOut kind out).trans (if_neg ?_)
    rintro ⟨claimed, new⟩
    obtain ⟨origin, merged⟩ | old := stays
    · obtain h | h := claimed
      · exact origin h
      · rw [merged] at h
        cases h
    · exact new old
  · rw [tripRetry_fails falls none, breakerCondition, breakerFailAny_onSw]
    rfl

end Sys2Proof.Machine
end

