-- ==== Sys2Proof/Proofs/Operations.lean ====
section
/-! PROOFS. The success of an operation and its dispatch, field by field (R27, R28, R54, R59 to R63, R81, R86, R154). -/

namespace Sys2Proof.Machine

/-! ### At most one move of one step -/

/-- The step makes one move, or nothing happens: what ST does at a dispatch and at a success. -/
def MayMove (i : StepIx) (s t : State) : Prop := t = s ∨ ∃ new b c, t = moveStep i new b c s

section
variable {i : StepIx} {s t : State}

theorem MayMove.queue (h : MayMove i s t) : t.swu.queue = s.swu.queue := by
  obtain rfl | ⟨new, b, c, rfl⟩ := h
  · rfl
  · exact moveStep_queue ..

theorem MayMove.slot (h : MayMove i s t) : t.swu.slot = s.swu.slot := by
  obtain rfl | ⟨new, b, c, rfl⟩ := h
  · rfl
  · exact moveStep_slot ..

theorem MayMove.cdu (h : MayMove i s t) : t.cdu = s.cdu := by
  obtain rfl | ⟨new, b, c, rfl⟩ := h
  · rfl
  · exact moveStep_cdu ..

/-- The other steps are left alone. -/
theorem MayMove.other (h : MayMove i s t) {j : StepIx} (ne : j ≠ i) : t.step j = s.step j ∧ t.sw j = s.sw j := by
  obtain rfl | ⟨new, b, c, rfl⟩ := h
  · exact ⟨rfl, rfl⟩
  · exact ⟨moveStep_step_ne _ _ _ _ _ ne, (moveStep_sw ..).trans (if_neg ne)⟩

/-- Of the executor a move writes the retries used alone. -/
theorem MayMove.sw (h : MayMove i s t) : t.sw i = { s.sw i with retries := (t.sw i).retries } := by
  obtain rfl | ⟨new, b, c, rfl⟩ := h
  · rfl
  · rw [moveStep_sw, if_pos rfl]

/-- No move begins a capture. -/
theorem MayMove.noCapture (h : MayMove i s t) (idle : s.ubp.capture = none) : t.ubp.capture = none := by
  obtain rfl | ⟨new, b, c, rfl⟩ := h
  · exact idle
  · unfold moveStep
    simp only
    split
    · rw [abortCaptureOf_idle _ _ (by exact idle)]
      exact idle
    · exact idle

/-- A capture of the step goes on or ends. -/
theorem MayMove.capture (h : MayMove i s t) {p : Capture} (running : s.ubp.capture = some p) (own : p.step = i) :
    t.ubp.capture = some p ∨ t.ubp.capture = none := by
  obtain rfl | ⟨new, b, c, rfl⟩ := h
  · exact .inl running
  · exact (moveStep_capture i new b c s running own).imp_right And.left

end

section
variable (i : StepIx) (k : Kind) (s : State)

/-- ST at a dispatch (R27, R28). -/
theorem stDispatch_eq : stDispatch i k s
    = if k = .close ∧ (s.step i).state = .ready then moveStep i .closing .own .failToClose s
      else if k = .opening ∧ ((s.step i).state = .energized ∨ (s.step i).state = .closing) then
        moveStep i .opening .own .failToClose s
      else s := by
  unfold stDispatch
  split
  · next was => simp [was]
  · next was => simp [was]
  · next was => simp [was]
  · next kind notReady notEnergized notClosing =>
    rw [if_neg (fun h => notReady h.1 h.2), if_neg]
    rintro ⟨opens, was | was⟩
    · exact notEnergized opens was
    · exact notClosing opens was

theorem stDispatch_moves : MayMove i s (stDispatch i k s) := by
  rw [stDispatch_eq]
  split
  · exact .inr ⟨_, _, _, rfl⟩
  · split
    · exact .inr ⟨_, _, _, rfl⟩
    · exact .inl rfl

theorem stDispatch_state : ((stDispatch i k s).step i).state
    = if k = .close ∧ (s.step i).state = .ready then .closing
      else if k = .opening ∧ ((s.step i).state = .energized ∨ (s.step i).state = .closing) then .opening
      else (s.step i).state := by
  rw [stDispatch_eq]
  split
  · rw [moveStep_step_self]
    rfl
  · split
    · rw [moveStep_step_self]
      rfl
    · rfl

theorem stDispatch_lockedOut (out : (s.step i).state = .lockedOut) : stDispatch i k s = s := by
  rw [stDispatch_eq]
  simp [out]

theorem stSuccess_moves : MayMove i s (stSuccess i s) := by
  unfold stSuccess
  split
  · exact .inr ⟨_, _, _, rfl⟩
  · exact .inr ⟨_, _, _, rfl⟩
  · exact .inl rfl

/-! ### The success of an operation (R63) -/

theorem onSw_onSw (f g : SwuStep → SwuStep) : (s.onSw i f).onSw i g = s.onSw i (g ∘ f) := by
  have upd : Tab.upd (Tab.upd s.swu.steps i f) i g = Tab.upd s.swu.steps i (g ∘ f) := by
    refine Tab.ext_get (fun j => ?_)
    rw [Tab.get_upd, Tab.get_upd, Tab.get_upd, Tab.get_upd]
    split <;> simp
  exact congrArg (fun v => { s with swu := { s.swu with steps := v } }) upd

/-- The executor at a success: no coil, the last result, and the record in SETTLING. -/
def settleOp (o : OpRecord) : State := s.onSw i (fun r =>
  { r with
    closeCoil := false
    tripA := false
    tripB := false
    lastResult := some .success
    op := some { o with phase := .settling, settleDue := s.now + s.ySec .settleWindow } })

theorem opSuccess_eq {o : OpRecord} (h : (s.sw i).op = some o) :
    opSuccess i s = deliverAll i o.kind .success o.requesters (stSuccess i (settleOp i s o)) := by
  simp only [opSuccess, h, coilsOff, onSw_onSw]
  rfl

end

section
variable {i : StepIx} {s : State} {o : OpRecord}

/-- A success leaves the queue, the slot and the other steps alone. -/
theorem opSuccess_queue (h : (s.sw i).op = some o) : (opSuccess i s).swu.queue = s.swu.queue := by
  rw [opSuccess_eq i s h, deliverAll_queue]
  exact (stSuccess_moves ..).queue

theorem opSuccess_slot (h : (s.sw i).op = some o) : (opSuccess i s).swu.slot = s.swu.slot := by
  rw [opSuccess_eq i s h, (deliverAll_swu ..).2]
  exact (stSuccess_moves ..).slot

theorem opSuccess_other (h : (s.sw i).op = some o) {j : StepIx} (ne : j ≠ i) :
    (opSuccess i s).step j = s.step j ∧ (opSuccess i s).sw j = s.sw j := by
  obtain ⟨step, sw⟩ := (stSuccess_moves i (settleOp i s o)).other ne
  rw [opSuccess_eq i s h, deliverAll_step, deliverAll_sw, step, sw, settleOp, onSw_sw, if_neg ne]
  exact ⟨rfl, rfl⟩

theorem opSuccess_sw (h : (s.sw i).op = some o) : (opSuccess i s).sw i =
    { s.sw i with
      closeCoil := false
      tripA := false
      tripB := false
      lastResult := some .success
      op := some { o with phase := .settling, settleDue := s.now + s.ySec .settleWindow }
      retries := ((opSuccess i s).sw i).retries } := by
  rw [opSuccess_eq i s h, deliverAll_sw, (stSuccess_moves ..).sw, settleOp, onSw_sw, if_pos rfl]

theorem opSuccess_noCapture (h : (s.sw i).op = some o) (idle : s.ubp.capture = none) :
    (opSuccess i s).ubp.capture = none := by
  rw [opSuccess_eq i s h, deliverAll_ubp]
  exact (stSuccess_moves ..).noCapture idle

theorem opSuccess_closing (h : (s.sw i).op = some o) (was : (s.step i).state = .closing) :
    (opSuccess i s).step i = (s.step i).move .energized .own .failToClose s.uptime := by
  have moves : stSuccess i (settleOp i s o) = toEnergized i (settleOp i s o) := by
    simp only [stSuccess, settleOp, onSw_step, was]
  rw [opSuccess_eq i s h, deliverAll_step, moves]
  exact moveStep_step_self ..

theorem opSuccess_opening (h : (s.sw i).op = some o) (was : (s.step i).state = .opening) :
    (opSuccess i s).step i = (s.step i).move .discharging .own .failToClose s.uptime := by
  have moves : stSuccess i (settleOp i s o) = toDischarging i .own (settleOp i s o) := by
    simp only [stSuccess, settleOp, onSw_step, was]
  rw [opSuccess_eq i s h, deliverAll_step, moves]
  exact moveStep_step_self ..

theorem opSuccess_lockedOut (h : (s.sw i).op = some o) (was : (s.step i).state = .lockedOut) :
    (opSuccess i s).step i = s.step i := by
  have stays : stSuccess i (settleOp i s o) = settleOp i s o := by
    simp only [stSuccess, settleOp, onSw_step, was]
  rw [opSuccess_eq i s h, deliverAll_step, stays]
  rfl

end

/-! ### A dispatch up to the first comparison with the target (R54) -/

section
variable (i : StepIx) (k : Kind) (g : Origin) (qs : List Requester) (s : State)

/-- The record, the operation count and the slot. -/
def recordOp : State :=
  let t := s.onSw i (fun r =>
    { r with op := some (s.newOp i k g qs), opCount := satInc Config.count32 r.opCount })
  if g = .protection then t else t.onSwu (fun w => { w with slot := some i })

/-- With ST's state, the coils, the duty level and the end of a capture. -/
def startOp : State := abortCaptureOf i (dutyPulse i (coilsOn i k (stDispatch i k (recordOp i k g qs s))))

/-- With the success where the position is the target already. -/
def beginOp : State :=
  if ((startOp i k g qs s).step i).position = k.target then opSuccess i (startOp i k g qs s) else startOp i k g qs s

theorem dispatchOp_eq : dispatchOp i k g qs s
    = if g = .regulation then reportBudget (budgetPulse (beginOp i k g qs s)) else beginOp i k g qs s := rfl

/-! #### The record -/

theorem recordOp_eq : recordOp i k g qs s = { s with swu := { s.swu with
    steps := (recordOp i k g qs s).swu.steps, slot := if g = .protection then s.swu.slot else some i } } := by
  unfold recordOp
  simp only
  split <;> rfl

theorem recordOp_sw (j : StepIx) : (recordOp i k g qs s).sw j
    = if j = i then { s.sw i with
        op := some (s.newOp i k g qs), opCount := satInc Config.count32 (s.sw i).opCount }
      else s.sw j := by
  unfold recordOp
  simp only
  split <;> exact onSw_sw ..

theorem recordOp_step (j : StepIx) : (recordOp i k g qs s).step j = s.step j := by rw [recordOp_eq]; rfl

/-! #### The coils -/

theorem coilsOn_eq : coilsOn i k s = s.onSw i (fun r =>
    { r with closeCoil := decide (k = .close), tripA := decide (k = .opening), tripB := decide (k = .opening) }) := by
  cases k <;> rfl

/-! #### What the start writes and leaves -/

/-- The pulse start on the duty level reads the timebase, the settings and the Cooldown Unit. -/
theorem dutyPulse_cdu_congr {s t : State} (now : t.now = s.now) (su : t.su = s.su) (cdu : t.cdu = s.cdu) :
    (dutyPulse i t).cdu = (dutyPulse i s).cdu := by
  simp only [dutyPulse, State.onCd, onCdu_cdu, State.ySec, now, su, cdu]

theorem startOp_chain : Chain (recordOp i k g qs s) (startOp i k g qs s) :=
  (((stDispatch_chain ..).trans (coilsOn_chain ..)).trans (dutyPulse_chain ..)).trans (abortCaptureOf_chain ..)

theorem startOp_now : (startOp i k g qs s).now = s.now := by rw [(startOp_chain ..).now, recordOp_eq]

theorem startOp_su : (startOp i k g qs s).su = s.su := by rw [(startOp_chain ..).su, recordOp_eq]

theorem startOp_position : ((startOp i k g qs s).step i).position = (s.step i).position := by
  rw [(startOp_chain ..).position, recordOp_step]

theorem startOp_cdu : (startOp i k g qs s).cdu = (dutyPulse i s).cdu := by
  have chain := (stDispatch_chain i k (recordOp i k g qs s)).trans (coilsOn_chain i k _)
  rw [startOp, abortCaptureOf_cdu]
  refine dutyPulse_cdu_congr i (chain.now.trans ?_) (chain.su.trans ?_) ?_
  · rw [recordOp_eq]
  · rw [recordOp_eq]
  · rw [coilsOn_eq, onSw_cdu, (stDispatch_moves ..).cdu, recordOp_eq]

theorem startOp_swu : (startOp i k g qs s).swu = (coilsOn i k (stDispatch i k (recordOp i k g qs s))).swu := by
  rw [startOp, abortCaptureOf_swu]
  rfl

theorem startOp_queue : (startOp i k g qs s).swu.queue = s.swu.queue := by
  rw [startOp_swu, coilsOn_eq, onSw_queue, (stDispatch_moves ..).queue, recordOp_eq]

theorem startOp_slot : (startOp i k g qs s).swu.slot = if g = .protection then s.swu.slot else some i := by
  rw [startOp_swu, coilsOn_eq, onSw_slot, (stDispatch_moves ..).slot, recordOp_eq]

theorem startOp_sw : (startOp i k g qs s).sw i =
    { s.sw i with
      op := some (s.newOp i k g qs)
      opCount := satInc Config.count32 (s.sw i).opCount
      closeCoil := decide (k = .close)
      tripA := decide (k = .opening)
      tripB := decide (k = .opening)
      retries := ((startOp i k g qs s).sw i).retries } := by
  have same : (startOp i k g qs s).sw i = (coilsOn i k (stDispatch i k (recordOp i k g qs s))).sw i :=
    congrArg (fun w => w.steps.get i) (startOp_swu i k g qs s)
  rw [same, coilsOn_eq, onSw_sw, if_pos rfl, (stDispatch_moves ..).sw, recordOp_sw, if_pos rfl]

theorem startOp_step (j : StepIx) :
    (startOp i k g qs s).step j = (stDispatch i k (recordOp i k g qs s)).step j := by
  show (startOp i k g qs s).st.steps.get j = _
  rw [startOp, abortCaptureOf_st, coilsOn_eq]
  rfl

theorem startOp_other {j : StepIx} (ne : j ≠ i) :
    (startOp i k g qs s).step j = s.step j ∧ (startOp i k g qs s).sw j = s.sw j := by
  obtain ⟨step, sw⟩ := (stDispatch_moves i k (recordOp i k g qs s)).other ne
  refine ⟨by rw [startOp_step, step, recordOp_step], ?_⟩
  have same : (startOp i k g qs s).sw j = (coilsOn i k (stDispatch i k (recordOp i k g qs s))).sw j :=
    congrArg (fun w => w.steps.get j) (startOp_swu i k g qs s)
  rw [same, coilsOn_eq, onSw_sw, if_neg ne, sw, recordOp_sw, if_neg ne]

theorem startOp_state : ((startOp i k g qs s).step i).state
    = if k = .close ∧ (s.step i).state = .ready then .closing
      else if k = .opening ∧ ((s.step i).state = .energized ∨ (s.step i).state = .closing) then .opening
      else (s.step i).state := by
  rw [startOp_step, stDispatch_state, recordOp_step]

theorem startOp_lockedOut (out : (s.step i).state = .lockedOut) : (startOp i k g qs s).step i = s.step i := by
  rw [startOp_step, stDispatch_lockedOut _ _ _ (by rwa [recordOp_step]), recordOp_step]

/-- A dispatch on the step of a capture ends it (R154). -/
theorem startOp_capture {c : Capture} (running : s.ubp.capture = some c) (own : c.step = i) :
    (startOp i k g qs s).ubp.capture = none := by
  have record : (recordOp i k g qs s).ubp.capture = some c := by rw [recordOp_eq]; exact running
  have pulsed : (dutyPulse i (coilsOn i k (stDispatch i k (recordOp i k g qs s)))).ubp
      = (stDispatch i k (recordOp i k g qs s)).ubp := by rw [coilsOn_eq]; rfl
  obtain still | gone := (stDispatch_moves i k (recordOp i k g qs s)).capture record own
  · exact (abortCaptureOf_capture i _ ((congrArg Unbalance.capture pulsed).trans still) own).1
  · rw [startOp, abortCaptureOf_idle _ _ ((congrArg Unbalance.capture pulsed).trans gone)]
    exact (congrArg Unbalance.capture pulsed).trans gone

/-! #### The first comparison with the target -/

theorem startOp_op : ((startOp i k g qs s).sw i).op = some (s.newOp i k g qs) := by rw [startOp_sw]

theorem beginOp_other (h : (s.step i).position ≠ k.target) : beginOp i k g qs s = startOp i k g qs s :=
  if_neg (by rwa [startOp_position])

theorem beginOp_target (h : (s.step i).position = k.target) :
    beginOp i k g qs s = opSuccess i (startOp i k g qs s) := if_pos (by rwa [startOp_position])

/-- What the start leaves and its success does not change. -/
theorem beginOp_reads {α : Type} (f : State → α) {x : α} (start : f (startOp i k g qs s) = x)
    (success : f (opSuccess i (startOp i k g qs s)) = f (startOp i k g qs s)) : f (beginOp i k g qs s) = x := by
  unfold beginOp
  split
  · exact success.trans start
  · exact start

theorem beginOp_now : (beginOp i k g qs s).now = s.now :=
  beginOp_reads i k g qs s State.now (startOp_now ..) (opSuccess_chain ..).now

theorem beginOp_su : (beginOp i k g qs s).su = s.su :=
  beginOp_reads i k g qs s State.su (startOp_su ..) (opSuccess_chain ..).su

theorem beginOp_cdu : (beginOp i k g qs s).cdu = (dutyPulse i s).cdu :=
  beginOp_reads i k g qs s State.cdu (startOp_cdu ..) (opSuccess_cdu ..)

theorem beginOp_queue : (beginOp i k g qs s).swu.queue = s.swu.queue :=
  beginOp_reads i k g qs s (fun t => t.swu.queue) (startOp_queue ..) (opSuccess_queue (startOp_op ..))

theorem beginOp_slot : (beginOp i k g qs s).swu.slot = if g = .protection then s.swu.slot else some i :=
  beginOp_reads i k g qs s (fun t => t.swu.slot) (startOp_slot ..) (opSuccess_slot (startOp_op ..))

theorem beginOp_others {j : StepIx} (ne : j ≠ i) :
    (beginOp i k g qs s).step j = s.step j ∧ (beginOp i k g qs s).sw j = s.sw j := by
  obtain ⟨step, sw⟩ := startOp_other i k g qs s ne
  obtain ⟨step', sw'⟩ := opSuccess_other (startOp_op i k g qs s) ne
  exact ⟨beginOp_reads i k g qs s (fun t => t.step j) step step', beginOp_reads i k g qs s (fun t => t.sw j) sw sw'⟩

theorem beginOp_opCount : ((beginOp i k g qs s).sw i).opCount = satInc Config.count32 (s.sw i).opCount :=
  beginOp_reads i k g qs s (fun t => (t.sw i).opCount) (by rw [startOp_sw]) (by rw [opSuccess_sw (startOp_op ..)])

theorem beginOp_noCapture {c : Capture} (running : s.ubp.capture = some c) (own : c.step = i) :
    (beginOp i k g qs s).ubp.capture = none := by
  have start := startOp_capture i k g qs s running own
  exact beginOp_reads i k g qs s (fun t => t.ubp.capture) start
    ((opSuccess_noCapture (startOp_op ..) start).trans start.symm)

/-- The pulse start on the yard budget counts from the level before the dispatch. -/
theorem budgetPulse_beginOp : budgetPulse (beginOp i k g qs s) = { beginOp i k g qs s with
    cdu := { (beginOp i k g qs s).cdu with
      budget := s.cdu.budget + 1
      yardTimer := if s.cdu.budget = 0 then some (s.now + s.ySec .yardInterval) else s.cdu.yardTimer } } := by
  have budget : (beginOp i k g qs s).cdu.budget = s.cdu.budget := by rw [beginOp_cdu]; rfl
  have timer : (beginOp i k g qs s).cdu.yardTimer = s.cdu.yardTimer := by rw [beginOp_cdu]; rfl
  simp only [budgetPulse, State.onCdu, State.ySec, budget, timer, beginOp_now, beginOp_su]

end

/-- A count that holds at its greatest value, and is not lowered to it. -/
theorem satInc_eq (top n : Nat) : satInc top n = min (n + 1) (max top n) := by
  unfold satInc
  split <;> omega

/-- Settles O44: what the start of the operation writes, and what its success does where the target is observed at once. -/
theorem dispatchStartsAnOperation : Obligations.DispatchStartsAnOperation := by
  intro i k g qs s o was
  have record : s.newOp i k g qs = o := by cases k <;> rfl
  have op : ((startOp i k g qs s).sw i).op = some o := record ▸ startOp_op ..
  have cdu : (beginOp i k g qs s).cdu = (dutyPulse i s).cdu := beginOp_cdu ..
  have cd : ∀ j, (beginOp i k g qs s).cd j = (dutyPulse i s).cd j :=
    fun j => congrArg (fun c => c.steps.get j) cdu
  have cdSelf := (cd i).trans ((onCd_cd s i i _).trans (if_pos rfl))
  refine ⟨beginOp i k g qs s, ?_, (congrArg Cooldown.budget cdu :), (congrArg Cooldown.yardTimer cdu :), beginOp_slot ..,
    beginOp_queue .., fun j ne => ?others, (congrArg CduStep.duty cdSelf).trans (satInc_eq ..),
    congrArg CduStep.dutyTimer cdSelf, (congrArg CduStep.discharge cdSelf :), beginOp_opCount ..,
    fun c running own => beginOp_noCapture i k g qs s running own, fun elsewhere => ?starts, fun there => ?succeeds⟩
  · rw [dispatchOp_eq, budgetPulse_beginOp]
  case others =>
    obtain ⟨step, sw⟩ := beginOp_others i k g qs s ne
    exact ⟨step, sw, (cd j).trans ((onCd_cd s i j _).trans (if_neg ne))⟩
  case starts =>
    rw [beginOp_other _ _ _ _ _ elsewhere]
    refine ⟨op, ?_, ?_, ?_, ?_, startOp_state ..⟩ <;> rw [startOp_sw]
  case succeeds =>
    rw [beginOp_target _ _ _ _ _ there]
    have sw := opSuccess_sw op
    have from_ := startOp_state i k g qs s
    refine ⟨?_, ?_, ?_, ?_, ?_, fun closes ready => ?_, fun opens closed => ?_, fun out => ?_⟩
    · rw [sw, State.ySec, startOp_now, startOp_su]
      rfl
    · rw [sw]
    · rw [sw]
    · rw [sw]
    · rw [sw]
    · rw [if_pos ⟨closes, ready⟩] at from_
      rw [opSuccess_closing op from_]
      rfl
    · rw [if_neg (fun h => by rw [opens] at h; cases h.1), if_pos ⟨opens, closed⟩] at from_
      rw [opSuccess_opening op from_]
      exact ⟨rfl, rfl⟩
    · have stays := startOp_lockedOut i k g qs s out
      rw [opSuccess_lockedOut op ((congrArg StepRec.state stays).trans out), stays]

end Sys2Proof.Machine
end

