-- ==== Sys2Proof/Proofs/Positions.lean ====
section
/-! PROOFS. The contacts, the filters and the decoder (R23, R24), and what a position change hands to its consumers
(R26, R37, R38, R61 to R63, R69, R76, R140, R141, R154). -/

namespace Sys2Proof.Machine

/-! ### The filters and the decoder (R23, R24) -/

section
variable {i : StepIx} {s : State}

theorem onStep_congr {f g : StepRec → StepRec} (h : f (s.step i) = g (s.step i)) : s.onStep i f = s.onStep i g :=
  congrArg (fun r => { s with st := { s.st with steps := Tab.put s.st.steps i r } }) h

theorem debounceDue_iff (d : Contact) : s.debounceDue i d = true ↔
    ((s.step i).contact d).value ≠ levelValue ((s.step i).contact d).raw
      ∧ s.y .debounceTime ≤ s.now - ((s.step i).contact d).since := by
  simp only [State.debounceDue, Bool.and_eq_true, bne_iff_ne, decide_eq_true_eq]
  exact and_congr_left' ne_comm

theorem disagreementDue_of {d : Nat} (travel : (s.step i).position = .travel) (runs : (s.step i).disagreeFrom = some d)
    (long : s.y .disagreementTime ≤ s.now - d) : s.disagreementDue i = true := by
  simp [State.disagreementDue, age, travel, runs, long]

theorem pairPosition_none {r : StepRec} (notClosed : ¬(r.closedIn.value = .made ∧ r.openIn.value = .notMade))
    (notOpened : ¬(r.closedIn.value = .notMade ∧ r.openIn.value = .made)) : pairPosition r = none := by
  unfold pairPosition
  split
  · exact absurd ⟨‹_›, ‹_›⟩ notClosed
  · exact absurd ⟨‹_›, ‹_›⟩ notOpened
  · rfl

/-- The filters of a step that are due, taken as one change of its pair. -/
theorem takeLevels_eq : takeLevels i s = decodePosition i (s.onStep i (fun _ => { s.step i with
    closedIn := s.filtered i .closedContact, openIn := s.filtered i .openContact })) :=
  congrArg (decodePosition i) (onStep_congr rfl)

/-- A valid pair gives its position. -/
theorem decodePosition_pair {p : Position} (h : pairPosition (s.step i) = some p) :
    decodePosition i s = positionChange i p (s.onStep i (fun x => { x with disagreeFrom := none })) := by
  simp only [decodePosition, h]

/-- A pair that is not valid gives TRAVEL from a definite position, and nothing else. -/
theorem decodePosition_none (h : pairPosition (s.step i) = none) : decodePosition i s
    = if (s.step i).position = .opened ∨ (s.step i).position = .closed then
        positionChange i .travel (s.onStep i (fun x => { x with disagreeFrom := some s.now }))
      else s := by
  simp only [decodePosition, h]

end

/-! ### The consumers of a position change -/

section
variable (i : StepIx) (s : State)

/-- UBP's part: the alarm and the capture where CLOSED is left, OFF at OPEN, and the arming delay. -/
theorem ubpPosition_eq (old new : Position) (arms : Bool) : ubpPosition i old new arms s =
    let told := if old = .closed then abortCaptureOf i (unbCondition none s) else s
    let unarmed := if new = .opened then told.onUb i (fun x => { x with eval := .off, arming := none }) else told
    if arms = true ∧ unarmed.st.rebuilt = true ∧ (unarmed.step i).state ≠ .disabled ∧ (unarmed.ub i).eval = .off then
      unarmed.onUb i (fun x =>
        { x with eval := .awaitSettle, arming := some (unarmed.now + unarmed.ySec .settleWindow) })
    else unarmed := by
  unfold ubpPosition startArming
  simp only [Bool.and_eq_true, decide_eq_true_eq]
  generalize (if new = .opened then State.onUb _ i _ else _) = u
  by_cases off : (u.ub i).eval = .off
  · simp only [off, if_true, and_true, and_assoc]
  · simp [off]

end

/-! ### A position change (R26, R37) -/

section
variable {i : StepIx} {new : Position} {s : State}

theorem putPosition_now : (putPosition i new s).now = s.now := by
  unfold putPosition
  simp only
  split <;> rfl

theorem putPosition_su : (putPosition i new s).su = s.su := by
  unfold putPosition
  simp only
  split <;> rfl

/-- The discharge time is loaded from the present reading. -/
theorem loadDischarge_putPosition : loadDischarge i (putPosition i new s) = (putPosition i new s).onCd i (fun x =>
    { x with discharge := some (s.now + s.ySec .dischargeTime), discharged := false }) := by
  rw [loadDischarge, putPosition_now, State.ySec, putPosition_su]
  rfl

/-- A change goes to CDU, UBP and SWU, then to ST where it is uncommanded, and the rebuild follows where it is due. -/
theorem positionChange_eq (moves : (s.step i).position ≠ new) : positionChange i new s =
    let taken := putPosition i new s
    let loaded := if new = .opened ∧ (s.step i).lastDefinite = some .closed then loadDischarge i taken else taken
    let done := swuPosition i new (ubpPosition i (s.step i).position new
      (decide (new = .closed ∧ (s.step i).lastDefinite = some .opened) && !s.inFlight i) loaded)
    rebuildIfDue (if s.inFlight i = false ∧ done.st.rebuilt = true then uncommanded i new done else done) := by
  simp only [positionChange, if_neg moves, decide_eq_true_eq, Bool.and_eq_true, Bool.not_eq_true']

/-! ### An uncommanded change (R38) -/

theorem uncommanded_energized_opened (was : (s.step i).state = .energized) : uncommanded i .opened s
    = dispatcher (overtake i (positionNotice i .opened (toDischarging i .own s))) := by
  simp only [uncommanded, was]

theorem uncommanded_ready_closed (was : (s.step i).state = .ready) : uncommanded i .closed s
    = dispatcher (overtake i (startArming i (positionNotice i .closed (toEnergized i s)))) := by
  simp only [uncommanded, was]

theorem uncommanded_discharging_closed (was : (s.step i).state = .discharging) : uncommanded i .closed s
    = dispatcher (overtake i (lockOut i .uncommandedClose (positionNotice i .closed s))) := by
  simp only [uncommanded, was]

theorem uncommanded_unknown
    (was : (s.step i).state = .ready ∨ (s.step i).state = .discharging ∨ (s.step i).state = .energized) :
    uncommanded i .unknown s = dispatcher (overtake i (lockOut i .positionUnknown (positionNotice i .unknown s))) := by
  obtain was | was | was := was <;> simp only [uncommanded, was]

/-- Every other pair of a state and a new position is left alone. -/
theorem uncommanded_stays
    (energized : ¬((s.step i).state = .energized ∧ (new = .opened ∨ new = .unknown)))
    (idle : ¬(((s.step i).state = .ready ∨ (s.step i).state = .discharging) ∧ (new = .closed ∨ new = .unknown))) :
    uncommanded i new s = s := by
  unfold uncommanded
  simp only
  split
  · next was => exact absurd ⟨was, .inl rfl⟩ energized
  · next was => exact absurd ⟨.inl was, .inl rfl⟩ idle
  · next was => exact absurd ⟨.inr was, .inl rfl⟩ idle
  · next was => exact absurd ⟨.inl was, .inr rfl⟩ idle
  · next was => exact absurd ⟨.inr was, .inr rfl⟩ idle
  · next was => exact absurd ⟨was, .inr rfl⟩ energized
  · rfl

end

/-- The success of an operation, by the state in which it finds its step (R27, R28, R63). -/
theorem opSuccess_byState {i : StepIx} {s : State} {o : OpRecord} (h : (s.sw i).op = some o) : opSuccess i s
    = deliverAll i o.kind .success o.requesters (match (s.step i).state with
      | .closing => moveStep i .energized .own .failToClose (settleOp i s o)
      | .opening => moveStep i .discharging .own .failToClose (settleOp i s o)
      | _ => settleOp i s o) := by
  rw [opSuccess_eq i s h, stSuccess]
  rfl

/-- Settles O37: the filters and the decoder, the change with its consumers, a success, and an uncommanded change. -/
theorem contactsGiveThePositionToItsConsumers : Obligations.ContactsGiveThePositionToItsConsumers := by
  refine ⟨fun i c s => ?contacts, fun i new s => ?change, fun i o s op => ?success, fun i new s => ?uncommanded⟩
  case contacts =>
    intro on
    refine ⟨fun made new => ?_, ?_, fun running => ?_⟩
    · exact congrArg Host.Outcome.next (if_neg new)
    · exact congrArg Host.Outcome.next (if_pos rfl)
    intro level due filtered r v closed opened definite
    have dueIff : ∀ d, s.debounceDue i d = true ↔ due d := debounceDue_iff
    have taken : ∀ d, s.filtered i d = filtered d := fun d => if_congr (dueIff d) rfl rfl
    have levels : takeLevels i s = decodePosition i v := by
      rw [takeLevels_eq, taken, taken]
      rfl
    have record : v.step i = r := (onStep_step ..).trans (if_pos rfl)
    refine ⟨fun isDue => ?_, fun d travel runs long => ?_⟩
    · have takes : ∀ {u}, decodePosition i v = u → exec (.debounceExpiry i c) s = .next u := fun h =>
        (live_eq _ running).trans (congrArg _ ((onlyIf_true _ s ((dueIff c).mpr isDue)).trans (levels.trans h)))
      have invalid : ¬closed → ¬opened → pairPosition (v.step i) = none :=
        fun notClosed notOpened => record ▸ pairPosition_none notClosed notOpened
      refine ⟨fun made => takes (decodePosition_pair ?_), fun made => takes (decodePosition_pair ?_),
        fun notClosed notOpened from_ => takes ?_, fun notClosed notOpened other => takes ?_⟩
      · simp only [record, pairPosition, made.1, made.2]
      · simp only [record, pairPosition, made.1, made.2]
      · rw [decodePosition_none (invalid notClosed notOpened), record, if_pos from_]
        rfl
      · rw [decodePosition_none (invalid notClosed notOpened), record, if_neg other]
    · exact (live_eq _ running).trans (congrArg _ (onlyIf_true _ s (disagreementDue_of travel runs long)))
  case change =>
    intro r t off ub reset taken loaded told unarmed arms armed healed cleared done
    have position := fun j => positionChange_contacts i j new s
    refine ⟨fun same => (if_pos same : positionChange i new s = s), fun moves => ?_, inFlight_iff i s,
      (position i).1.trans (if_pos rfl), (position i).2.2.2,
      fun j => ⟨(position j).2.1, (position j).2.2.1, fun ne => (position j).1.trans (if_neg ne)⟩⟩
    have isLoaded : (if new = .opened ∧ (s.step i).lastDefinite = some .closed then
        loadDischarge i (putPosition i new s) else putPosition i new s) = loaded := by
      rw [loadDischarge_putPosition]
      rfl
    have isArmed : ubpPosition i (s.step i).position new
        (decide (new = .closed ∧ (s.step i).lastDefinite = some .opened) && !s.inFlight i) loaded = armed := by
      rw [ubpPosition_eq]
      refine if_congr ?_ rfl rfl
      simp only [Bool.and_eq_true, decide_eq_true_eq, Bool.not_eq_true', and_assoc]
      rfl
    have isDone : swuPosition i new armed = done := rfl
    rw [show t = _ from positionChange_eq moves]
    simp only [isLoaded, isArmed, isDone]
  case success =>
    exact opSuccess_byState op
  case uncommanded =>
    intro was noted after closed armed
    refine ⟨?_, ?_, ?_, ?_, fun energized idle => uncommanded_stays energized idle⟩
    · rintro from_ rfl
      exact uncommanded_energized_opened from_
    · rintro from_ rfl
      exact uncommanded_ready_closed from_
    · rintro from_ rfl
      exact uncommanded_discharging_closed from_
    · rintro from_ rfl
      exact uncommanded_unknown from_

end Sys2Proof.Machine
end

