-- ==== Sys2Proof/Proofs/Rebuild.lean ====
section
/-! PROOFS. The start-up rebuild: its point, and the state after it, by an invariant of its walk over the steps in
ascending index (R25, R43, R79, R140). -/

namespace Sys2Proof.Machine

/-! ### The point of the rebuild (R25, R43) -/

theorem rebuildDue_iff (s : State) : s.rebuildDue = true ↔ s.st.rebuilt = false
    ∧ (∀ i, s.su.active.installed i = true → (s.step i).position ≠ .travel)
    ∧ ((∃ i, s.su.active.installed i = true) ∨ s.st.debounceEnded = true) := by
  simp only [State.rebuildDue, Bool.and_eq_true, Bool.not_eq_true', Bool.or_eq_true, List.all_eq_true,
    List.any_eq_true, mem_allSteps, true_and, true_implies, bne_iff_ne, and_assoc, ← Bool.not_eq_true,
    ← imp_iff_not_or]

/-- The end of the debounce time from the full reset begins the disagreement time of every step in TRAVEL. -/
theorem endDebounce_eq (s : State) : endDebounce s = rebuildIfDue { s with st := { s.st with
    debounceEnded := true
    steps := Tab.build (fun i => { s.step i with disagreeFrom :=
      if (s.step i).position = .travel ∧ (s.step i).disagreeFrom = none then some s.now
      else (s.step i).disagreeFrom }) } } := by
  refine congrArg (fun f => rebuildIfDue { s with st := { s.st with debounceEnded := true, steps := Tab.build f } })
    (funext fun i => ?_)
  show (if (s.step i).position = .travel ∧ (s.step i).disagreeFrom = none then _ else s.step i) = _
  split <;> rfl

/-! ### One step of the rebuild (R43, R140) -/

theorem Chain.startHold {s t : State} (h : Chain s t) : t.vrg.startHold = s.vrg.startHold :=
  h.same (fun s => s.vrg.startHold) (fun _ _ a => by cases a <;> rfl)

/-- Where a step found CLOSED waits for the start-up hold, or is armed after it. -/
def OneShot.rebuiltEval : OneShot → EvalState
  | .over => .armed
  | _ => .awaitHold

section
variable {i : StepIx} {u : State}

theorem rebuildStep_closed (installed : u.su.active.installed i = true) (closed : (u.step i).position = .closed) :
    rebuildStep i u = (toEnergized i u).onUb i (fun r =>
      { r with eval := u.vrg.startHold.rebuiltEval, arming := none }) := by
  simp only [rebuildStep, installed, closed, if_true]
  rfl

theorem rebuildStep_unknown (installed : u.su.active.installed i = true) (unknown : (u.step i).position = .unknown) :
    rebuildStep i u = lockOut i .positionUnknown u := by
  simp only [rebuildStep, installed, unknown, if_true]

/-- A step that is already DISCHARGING stays so at any other position. -/
theorem rebuildStep_stays (placed : u.su.active.installed i = true → (u.step i).state = .discharging)
    (notClosed : ¬(u.su.active.installed i = true ∧ (u.step i).position = .closed))
    (known : ¬(u.su.active.installed i = true ∧ (u.step i).position = .unknown)) : rebuildStep i u = u := by
  unfold rebuildStep
  split
  · next installed =>
    split
    · next closed => exact absurd ⟨installed, closed⟩ notClosed
    · next unknown => exact absurd ⟨installed, unknown⟩ known
    · exact if_pos (placed installed)
  · rfl

end

/-! ### The walk over the steps -/

section
variable (s : State)

/-- An installed step that the rebuild finds CLOSED. -/
def State.foundClosed (i : StepIx) : Bool := s.su.active.installed i && (s.step i).position == .closed

/-- An installed step that the rebuild finds at UNKNOWN. -/
def State.foundLost (i : StepIx) : Bool := s.su.active.installed i && (s.step i).position == .unknown

/-- ST's record of a step after the rebuild. -/
def State.rebuiltStep (i : StepIx) : StepRec :=
  if s.foundClosed i then (s.step i).move .energized .own .failToClose s.uptime
  else if s.foundLost i then (s.step i).move .lockedOut .own .positionUnknown s.uptime
  else s.step i

/-- UBP's record of a step after the rebuild. -/
def State.rebuiltUb (i : StepIx) : UbpStep :=
  if s.foundClosed i then
    { s.ub i with eval := s.vrg.startHold.rebuiltEval, arming := none }
  else s.ub i

/-- The LOCKOUT class with the notices of the steps lost, in their order. -/
def State.lockoutNotice (lost : List StepIx) : Notice :=
  lost.foldl (fun n i => n.raise ⟨s.uptime, some i, Cause.positionUnknown.code, 0⟩) (s.notice .lockout)

/-- The state in which the rebuild stands when it has taken the steps of a list. -/
structure RebuiltTo (taken : List StepIx) (u : State) : Prop where
  now : u.now = s.now
  su : u.su = s.su
  hold : u.vrg.startHold = s.vrg.startHold
  rebuilt : u.st.rebuilt = true
  step : ∀ i, u.step i = if i ∈ taken then s.rebuiltStep i else s.step i
  ub : ∀ i, u.ub i = if i ∈ taken then s.rebuiltUb i else s.ub i
  ring : u.st.ring = []
  service : u.st.service = taken.filter s.foundClosed
  notice : u.notice .lockout = s.lockoutNotice (taken.filter s.foundLost)

end

section
variable {s u : State} {taken : List StepIx} {i : StepIx}

/-- What the walk has to show of a step that has not been taken. -/
theorem RebuiltTo.snoc {t : State} (r : RebuiltTo s taken u) (same : t.now = u.now ∧ t.su = u.su
      ∧ t.vrg.startHold = u.vrg.startHold ∧ t.st.rebuilt = u.st.rebuilt ∧ t.st.ring = u.st.ring)
    (step : ∀ j, t.step j = if j = i then s.rebuiltStep i else u.step j)
    (ub : ∀ j, t.ub j = if j = i then s.rebuiltUb i else u.ub j)
    (service : t.st.service = u.st.service ++ [i].filter s.foundClosed)
    (notice : t.notice .lockout = ([i].filter s.foundLost).foldl
      (fun n i => n.raise ⟨s.uptime, some i, Cause.positionUnknown.code, 0⟩) (u.notice .lockout)) :
    RebuiltTo s (taken ++ [i]) t := by
  obtain ⟨now, su, hold, rebuilt, ring⟩ := same
  refine ⟨now.trans r.now, su.trans r.su, hold.trans r.hold, rebuilt.trans r.rebuilt, fun j => ?_, fun j => ?_,
    ring.trans r.ring, ?_, ?_⟩
  · rw [step, r.step]
    by_cases h : j = i <;> simp [h]
  · rw [ub, r.ub]
    by_cases h : j = i <;> simp [h]
  · rw [service, r.service, List.filter_append]
  · rw [notice, r.notice, List.filter_append, State.lockoutNotice, State.lockoutNotice, List.foldl_append]

/-- A reading of every step, as if one of them had been written with what it already is. -/
theorem eq_ite_self {α : Type} (f : StepIx → α) (i j : StepIx) : f j = if j = i then f i else f j := by
  split
  · next same => rw [same]
  · rfl

theorem ub_of_chain {t : State} (c : Chain u t) (j : StepIx) : t.ub j = u.ub j := congrArg (fun v => v.get j) c.ub

/-- An installed step that is CLOSED goes to ENERGIZED, at the tail of the service list. -/
theorem RebuiltTo.closed (fresh : i ∉ taken) (r : RebuiltTo s taken u) (was : (s.step i).state = .discharging)
    (found : s.foundClosed i = true) : RebuiltTo s (taken ++ [i]) (rebuildStep i u) := by
  have self : u.step i = s.step i := (r.step i).trans (if_neg fresh)
  have selfUb : u.ub i = s.ub i := (r.ub i).trans (if_neg fresh)
  have uptime : u.uptime = s.uptime := congrArg (· / 1000) r.now
  have leaves : (u.st.steps.get i).state = .discharging := (congrArg StepRec.state self).trans was
  obtain ⟨installed, position⟩ : s.su.active.installed i = true ∧ (s.step i).position = .closed := by
    simpa [State.foundClosed] using found
  have known : s.foundLost i = false := by simp [State.foundLost, position]
  have chain := toEnergized_chain i u
  rw [rebuildStep_closed (by rw [r.su]; exact installed) (by rw [self]; exact position)]
  refine r.snoc ⟨chain.now, chain.su, chain.startHold, ?_, ?_⟩ (fun j => ?_) (fun j => ?_) ?_ ?_
  · rw [onUb_st, toEnergized, moveStep_st]
    rfl
  · rw [onUb_st, toEnergized, moveStep_st, move_ring, leaves]
    simp
  · rw [onUb_step, toEnergized, moveStep_step, self, uptime, State.rebuiltStep, if_pos found]
  · rw [onUb_ub, ub_of_chain chain, ub_of_chain chain, selfUb, r.hold, State.rebuiltUb, if_pos found]
  · rw [onUb_st, toEnergized, moveStep_st, move_service, leaves]
    simp [found]
  · rw [onUb_notice, toEnergized, moveStep_notice _ _ _ _ _ (by decide)]
    simp [known]

/-- An installed step at UNKNOWN is locked out, with its notice. -/
theorem RebuiltTo.lost (fresh : i ∉ taken) (r : RebuiltTo s taken u) (was : (s.step i).state = .discharging)
    (gone : s.foundLost i = true) : RebuiltTo s (taken ++ [i]) (rebuildStep i u) := by
  have self : u.step i = s.step i := (r.step i).trans (if_neg fresh)
  have selfUb : u.ub i = s.ub i := (r.ub i).trans (if_neg fresh)
  have uptime : u.uptime = s.uptime := congrArg (· / 1000) r.now
  have leaves : (u.st.steps.get i).state = .discharging := (congrArg StepRec.state self).trans was
  obtain ⟨installed, position⟩ : s.su.active.installed i = true ∧ (s.step i).position = .unknown := by
    simpa [State.foundLost] using gone
  have notFound : ¬s.foundClosed i = true := by simp [State.foundClosed, position]
  have chain := lockOut_chain i .positionUnknown u
  rw [rebuildStep_unknown (by rw [r.su]; exact installed) (by rw [self]; exact position)]
  refine r.snoc ⟨chain.now, chain.su, chain.startHold, ?_, ?_⟩ (fun j => ?_) (fun j => ?_) ?_ ?_
  · rw [lockOut_st]
    rfl
  · rw [lockOut_st, move_ring, leaves]
    simp
  · rw [lockOut_step, self, uptime, State.rebuiltStep, if_neg notFound, if_pos gone]
  · rw [ub_of_chain chain, State.rebuiltUb, if_neg notFound, ← selfUb]
    exact eq_ite_self u.ub i j
  · rw [lockOut_st, move_service, leaves]
    simp [notFound]
  · rw [lockOut_notice, uptime]
    simp [gone]

/-- Any other step is left as it is. -/
theorem RebuiltTo.stays (fresh : i ∉ taken) (r : RebuiltTo s taken u)
    (placed : s.su.active.installed i = true → (s.step i).state = .discharging)
    (notFound : ¬s.foundClosed i = true) (known : ¬s.foundLost i = true) :
    RebuiltTo s (taken ++ [i]) (rebuildStep i u) := by
  have self : u.step i = s.step i := (r.step i).trans (if_neg fresh)
  have selfUb : u.ub i = s.ub i := (r.ub i).trans (if_neg fresh)
  have same : rebuildStep i u = u := by
    refine rebuildStep_stays ?_ ?_ ?_ <;> rw [r.su, self]
    · exact placed
    · simpa [State.foundClosed] using notFound
    · simpa [State.foundLost] using known
  rw [same]
  refine r.snoc ⟨rfl, rfl, rfl, rfl, rfl⟩ (fun j => ?_) (fun j => ?_) ?_ ?_
  · rw [State.rebuiltStep, if_neg notFound, if_neg known, ← self]
    exact eq_ite_self u.step i j
  · rw [State.rebuiltUb, if_neg notFound, ← selfUb]
    exact eq_ite_self u.ub i j
  · simp [notFound]
  · simp [known]

/-- The walk takes one more step. -/
theorem RebuiltTo.next (fresh : i ∉ taken) (r : RebuiltTo s taken u)
    (placed : s.su.active.installed i = true → (s.step i).state = .discharging) :
    RebuiltTo s (taken ++ [i]) (rebuildStep i u) := by
  by_cases found : s.foundClosed i = true
  · exact r.closed fresh (placed (Bool.and_eq_true_iff.mp found).1) found
  · by_cases gone : s.foundLost i = true
    · exact r.lost fresh (placed (Bool.and_eq_true_iff.mp gone).1) gone
    · exact r.stays fresh placed found gone

/-- The walk takes the steps of a list. -/
theorem RebuiltTo.walk (placed : ∀ i, s.su.active.installed i = true → (s.step i).state = .discharging) :
    ∀ (is taken : List StepIx) (u : State), (taken ++ is).Nodup → RebuiltTo s taken u →
      RebuiltTo s (taken ++ is) (is.foldl (fun t i => rebuildStep i t) u)
  | [], taken, u, _, r => by simpa using r
  | i :: is, taken, u, distinct, r => by
    have fresh : i ∉ taken := fun mem =>
      (List.nodup_append.mp distinct).2.2 i mem i List.mem_cons_self rfl
    have rest := RebuiltTo.walk placed is (taken ++ [i]) (rebuildStep i u) (by simpa using distinct)
      (r.next fresh (placed i))
    simpa using rest

end

/-! ### The rebuild -/

section
variable {s : State}

/-- The state after the rebuild of installed steps in DISCHARGING with both lists empty. -/
theorem rebuild_walk (placed : ∀ i, s.su.active.installed i = true → (s.step i).state = .discharging)
    (ring : s.st.ring = []) (service : s.st.service = []) : ∃ u, RebuiltTo s allSteps u ∧ rebuild s
      = u.onCdu (fun c => { c with startUp := .running (s.now + s.ySec .dischargeTime) }) :=
  ⟨_, RebuiltTo.walk placed allSteps [] (s.onSt (fun t => { t with rebuilt := true })) (by decide)
    ⟨rfl, rfl, rfl, rfl, fun _ => rfl, fun _ => rfl, ring, service, rfl⟩, rfl⟩

/-- A class raised for one step after another counts them, holding at 255, and shows the last. -/
theorem lockoutNotice_snoc (before : List StepIx) (i : StepIx) :
    s.lockoutNotice (before ++ [i]) = { s.notice .lockout with
      pending := true
      occurrences := max (s.notice .lockout).occurrences
        (min 255 ((s.notice .lockout).occurrences + (before ++ [i]).length))
      detail := some ⟨s.uptime, some i, Cause.positionUnknown.code, 0⟩ } := by
  induction before using List.reverseRecOn generalizing i with
  | nil =>
    simp only [State.lockoutNotice, List.nil_append, List.foldl_cons, List.foldl_nil, Notice.raise, satInc_eq]
    congr 1
    simp only [List.length_singleton, Config.count8]
    omega
  | append_singleton before j ih =>
    rw [State.lockoutNotice, List.foldl_append, ← State.lockoutNotice, ih]
    simp only [List.foldl_cons, List.foldl_nil, Notice.raise, satInc_eq]
    congr 1
    simp only [List.length_append, List.length_singleton, Config.count8]
    omega

end

/-- Settles O38: the point of the rebuild, then each step, the lists and the notice from the walk. -/
theorem rebuildPlacesEveryInstalledStep : Obligations.RebuildPlacesEveryInstalledStep := by
  refine ⟨fun s => ?point, fun s states bases ring service => ?places⟩
  case point =>
    intro due ended
    have iff : s.rebuildDue = true ↔ due := rebuildDue_iff s
    refine ⟨fun h => if_pos (iff.mpr h), fun h => if_neg (fun k => h (iff.mp k)), fun running first passed => ?_⟩
    have isDue : s.debounceEndDue = true := by simp [State.debounceEndDue, first, passed]
    exact (live_eq _ running).trans (congrArg _ ((onlyIf_true _ s isDue).trans (endDebounce_eq s)))
  case places =>
    intro t lost
    have placed : ∀ i, s.su.active.installed i = true → (s.step i).state = .discharging :=
      fun i installed => (states i).trans (if_pos installed)
    obtain ⟨u, r, rebuilt⟩ := rebuild_walk placed ring service
    have at_ : t = u.onCdu _ := rebuilt
    have step : ∀ i, t.step i = s.rebuiltStep i := fun i => by rw [at_, onCdu_step, r.step, if_pos (mem_allSteps i)]
    have ub : ∀ i, t.ub i = s.rebuiltUb i := fun i => by rw [at_, onCdu_ub, r.ub, if_pos (mem_allSteps i)]
    have notice : t.notice .lockout = s.lockoutNotice lost := by rw [at_, onCdu_notice, r.notice]; rfl
    refine ⟨by rw [at_]; exact r.rebuilt, by rw [at_]; rfl, fun i => ⟨(rebuild_contacts s i).1, ?_, ?_⟩,
      by rw [at_]; exact r.ring, by rw [at_]; exact r.service, fun none => ?_, fun before i last => ?_⟩
    · intro installed
      refine ⟨fun closed => ?_, fun unknown => ?_, fun opened => ?_, fun other => ?_⟩
      · have found : s.foundClosed i = true := by simp [State.foundClosed, installed, closed]
        rw [step, State.rebuiltStep, if_pos found, ub, State.rebuiltUb, if_pos found]
        exact ⟨rfl, rfl, rfl⟩
      · have notFound : ¬s.foundClosed i = true := by simp [State.foundClosed, unknown]
        have gone : s.foundLost i = true := by simp [State.foundLost, installed, unknown]
        rw [step, State.rebuiltStep, if_neg notFound, if_pos gone]
        exact ⟨rfl, rfl⟩
      · have notFound : ¬s.foundClosed i = true := by simp [State.foundClosed, opened]
        have known : ¬s.foundLost i = true := by simp [State.foundLost, opened]
        rw [step, State.rebuiltStep, if_neg notFound, if_neg known]
        exact ⟨placed i installed, bases i installed⟩
      · rw [ub, State.rebuiltUb, if_neg (by simp [State.foundClosed, other])]
    · intro absent
      rw [step, State.rebuiltStep, if_neg (by simp [State.foundClosed, absent]),
        if_neg (by simp [State.foundLost, absent]), ub, State.rebuiltUb, if_neg (by simp [State.foundClosed, absent])]
      exact ⟨rfl, rfl⟩
    · rw [notice, none]
      rfl
    · rw [notice, last, lockoutNotice_snoc]
      rfl

end Sys2Proof.Machine
end

