-- ==== Sys2Proof/Proofs/Interlocks.lean ====
section
/-! PROOFS. The interlocks of the Switching Unit: the coils (R60), the queue (R47) and the slot (R50) are kept by every
step, and a full reset that begins leaves no work in flight (R60, R74, R154, R196, R201, R202). -/

namespace Sys2Proof.Machine

/-! ### A full reset -/

/-- A full reset that begins leaves a step without an operation and without a coil. -/
theorem holdReset_sw (cause : ResetCause) (s : State) (i : StepIx) : (holdReset cause s).sw i
    = { s.sw i with op := none, closeCoil := false, tripA := false, tripB := false } := Tab.get_build ..

/-- Coils that are all off are as the interlock wants them. -/
theorem CoilsOk.of_off {w : SwuStep} (close : w.closeCoil = false) (a : w.tripA = false) (b : w.tripB = false) :
    CoilsOk w := by
  simp [CoilsOk, close, a, b]

/-- Where the queue is empty there is nothing to be in order. -/
theorem queueSound_of_empty {s : State} (h : s.swu.queue = []) : s.queueSound := by
  simp [State.queueSound, h]

/-- Where no step has a record, no record holds the slot. -/
theorem slotSound_of_idle {s : State} (h : ∀ i, (s.sw i).op = none) : s.slotSound :=
  fun i o flies => by rw [h i] at flies; cases flies

/-! ### What every step keeps -/

theorem coilsSafe_kept : Kept State.coilsSafe where
  effect _ _ := Effect.coilsSafe
  begins cause s _ i := by
    rw [holdReset_sw]
    exact CoilsOk.of_off rfl rfl rfl
  ends cause b1 b0 s _ i := by
    rw [restart_sw]
    exact CoilsOk.of_off rfl rfl rfl
  ticks _ p := p
  queue _ _ p := p

/-- Settles O9: the effects that write a coil write the close coil or the two trip coils, and a reset writes none. -/
theorem coilInterlockIsKept : Obligations.CoilInterlockIsKept :=
  fun _ _ => coilsSafe_kept.step

theorem queueSound_kept : Kept State.queueSound where
  effect _ _ := Effect.queueSound
  begins _ _ _ := queueSound_of_empty rfl
  ends _ _ _ _ _ := queueSound_of_empty rfl
  ticks _ p := p
  queue _ _ p := p

/-- Settles O11: an entry is put at its place, replaced at its place or taken out, and a reset empties the queue. -/
theorem queueStaysInOrder : Obligations.QueueStaysInOrder :=
  fun _ _ => queueSound_kept.step

theorem slotSound_kept : Kept State.slotSound where
  effect _ _ := Effect.slotSound
  begins cause s _ := slotSound_of_idle (fun i => by rw [holdReset_sw])
  ends cause b1 b0 s _ := slotSound_of_idle (fun i => by rw [restart_sw]; rfl)
  ticks _ p := p
  queue _ _ p := p

/-- Settles O12: a dispatch takes the free slot for its own step, a record gives the slot back as it goes, and a reset
loses every record. -/
theorem slotNamesItsHolder : Obligations.SlotNamesItsHolder :=
  fun _ _ => slotSound_kept.step

/-! ### The work in flight -/

/-- While a reset is held no AUX output is asserted (R202). -/
theorem aux_of_held {s : State} (h : s.resetHeld.isSome = true) (n : Fin 4) : s.aux n = false := by
  simp [State.aux, Option.isNone_eq_false_iff.mpr h]

/-- Settles O7: field by field, from the work that is lost. -/
theorem heldResetLosesTheWorkInFlight : Obligations.HeldResetLosesTheWorkInFlight :=
  fun cause s => ⟨holdReset cause s, rfl, rfl, holdReset_sw cause s, rfl, rfl, rfl, rfl, aux_of_held rfl,
    fun _ => Tab.get_build .., rfl, rfl, rfl, rfl, rfl, rfl, rfl, rfl, rfl, rfl, rfl, rfl, rfl⟩

end Sys2Proof.Machine
end

