-- ==== Sys2Proof/Proofs/MachineryFrame.lean ====
section
/-! PROOFS. What the switching machinery leaves unchanged (R46, R47, R51, R158): each reading of the state that no
elementary change touches, and for a record that is written in part, the rest of it. -/

namespace Sys2Proof.Machine

/-! ### Readings that no elementary change touches -/

theorem skipped_untouched : Untouched (fun s => s.hsv.skipped) := fun _ _ a => by cases a <;> rfl

theorem rebuilt_untouched : Untouched (fun s => s.st.rebuilt) := fun _ _ a => by cases a <;> rfl

theorem debounceEnded_untouched : Untouched (fun s => s.st.debounceEnded) := fun _ _ a => by cases a <;> rfl

theorem startUp_untouched : Untouched (fun s => s.cdu.startUp) := fun _ _ a => by
  cases a with
  | cooldown c _ _ start => exact start
  | _ => rfl

theorem breakerFail_untouched (i : StepIx) : Untouched (fun s => (s.sw i).breakerFail) := fun s t a => by
  have put : ∀ (j : StepIx) (w : SwuStep), w.breakerFail = (s.sw j).breakerFail →
      ((Tab.put s.swu.steps j w).get i).breakerFail = (s.sw i).breakerFail := by
    intro j w same
    rw [Tab.get_put]
    split
    · next own => rw [own]; exact same
    · rfl
  cases a with
  | executor j w _ _ _ failed => exact put j w failed
  | dispatch j => exact put j _ rfl
  | move j => exact put j _ rfl
  | _ => rfl

/-! ### Records that are written in part -/

/-- Of the regulator the machinery may write its state, target, hold causes, accumulators and NO_CANDIDATE. -/
theorem regulator_untouched (h : HoldSet) : Untouched (fun s =>
    ({ s.vrg with reg := .hold, target := none, holds := h, below := 0, above := 0, noCandidate := false } :
      Regulator)) := fun _ _ a => by cases a <;> rfl

/-- Of a step's record a move writes the state and the fields that follow it. -/
theorem stepRest_untouched (i : StepIx) : Untouched (fun s =>
    ({ s.step i with state := .disabled, basis := none, cause := none, energizedAt := none } : StepRec)) :=
  fun s t a => by
    cases a with
    | move j new b c =>
      have moved : ((s.onSt (fun t => t.move j new b c s.uptime)).onSw j (fun r => { r with retries := none })).step i
          = if i = j then (s.step j).move new b c s.uptime else s.step i := StepTable.move_get ..
      beta_reduce
      rw [moved]
      split
      · next own => rw [own]; rfl
      · rfl
    | _ => rfl

section
variable {s t : State} (c : Chain s t)
include c

theorem Chain.regulatorRest : t.vrg = { s.vrg with
    reg := t.vrg.reg, target := t.vrg.target, holds := t.vrg.holds, below := t.vrg.below,
    above := t.vrg.above, noCandidate := t.vrg.noCandidate } :=
  congrArg (fun v : Regulator => { v with
    reg := t.vrg.reg, target := t.vrg.target, holds := t.vrg.holds, below := t.vrg.below,
    above := t.vrg.above, noCandidate := t.vrg.noCandidate }) ((regulator_untouched t.vrg.holds).chain c)

theorem Chain.stepRest (i : StepIx) : t.step i = { s.step i with
    state := (t.step i).state, basis := (t.step i).basis, cause := (t.step i).cause,
    energizedAt := (t.step i).energizedAt } :=
  congrArg (fun r : StepRec => { r with
    state := (t.step i).state, basis := (t.step i).basis, cause := (t.step i).cause,
    energizedAt := (t.step i).energizedAt }) ((stepRest_untouched i).chain c)

theorem Chain.quantityRest (q : QtyIx) : t.qty q = { s.qty q with removal := (t.qty q).removal } :=
  congrArg (fun x : Quantity => { x with removal := (t.qty q).removal }) (c.quantity q)

theorem Chain.hlkRest : t.hlk = { s.hlk with notices := t.hlk.notices } :=
  congrArg (fun h : HostLink => { h with notices := t.hlk.notices }) c.hlk

end

/-- Settles O40: each of the operations is a chain of elementary changes, and these leave the rest alone. -/
theorem switchingChangesOnlyItsOwn : Obligations.SwitchingChangesOnlyItsOwn := by
  intro s t made
  have c : Chain s t := by
    obtain rfl | ⟨i, k, q, allowed, rfl⟩ | ⟨i, q, rfl⟩ | ⟨i, cause, rfl⟩ | ⟨src, b, rfl⟩ | ⟨src, rfl⟩
      | ⟨cause, b, rfl⟩ := made
    · exact dispatcher_chain s
    · exact request_chain i k q s allowed
    · exact protectionOpen_chain i q s
    · exact lockOut_chain i cause s
    · exact condition_chain src b s
    · exact pulse_chain src s
    · exact setHold_chain cause b s
  exact ⟨c.now, c.resetHeld, c.pending, c.mi, c.su, c.hlkRest, c.routes, c.ub, c.marks, skipped_untouched.chain c,
    c.quantityRest, c.regulatorRest, c.staged, fun i => (breakerFail_untouched i).chain c, startUp_untouched.chain c,
    rebuilt_untouched.chain c, debounceEnded_untouched.chain c, c.stepRest⟩

end Sys2Proof.Machine
end

