-- ==== Sys2Proof/Proofs/Results.lean ====
section
/-! PROOFS. What each requester does with a result, how a request enters the queue, and what the dispatcher takes out of
it (R46 to R48, R51 to R53, R107, R129, R166). -/

namespace Sys2Proof.Machine

/-! ### Results (R46) -/

section
variable (i : StepIx) (k : Kind) (r : OpResult) (s : State)

theorem regulatorResult_waiting (pending : s.vrg.reg = .pending) (target : s.vrg.target = some ⟨i, k⟩) :
    regulatorResult i k r s
      = { s with vrg := if r = .success then { s.vrg with reg := .settling } else s.vrg.toWatch } :=
  congrArg (fun v => { s with vrg := v }) (if_pos ⟨pending, target⟩)

theorem regulatorResult_other (h : s.vrg.reg ≠ .pending ∨ s.vrg.target ≠ some ⟨i, k⟩) :
    regulatorResult i k r s = s :=
  congrArg (fun v => { s with vrg := v }) (if_neg (fun both => h.elim (· both.1) (· both.2)))

theorem hsvResult_qty (q : QtyIx) : (hsvResult i r s).qty q
    = { s.qty q with removal := (s.qty q).removal.map (fun m => m.take i r) } := Tab.get_build ..

end

/-- Settles O42: one requester after the other. -/
theorem resultsReachTheirRequesters : Obligations.ResultsReachTheirRequesters := by
  refine fun i k r s => ⟨rfl, regulatorResult_waiting i k r s, regulatorResult_other i k r s,
    ⟨hsvResult i r s, rfl, rfl, hsvResult_qty i r s⟩, rfl, fun q deaf => ?_⟩
  obtain rfl | rfl | rfl | rfl := deaf <;> rfl

/-! ### The place of an entry (R47) -/

/-- The entry stands behind exactly those of the old queue that are before it. -/
def Entry.Placed (e : Entry) (old new : List Entry) : Prop :=
  ∃ a b, old = a ++ b ∧ new = a ++ e :: b ∧ (∀ x ∈ a, x.before e) ∧ (∀ x ∈ b, ¬x.before e)

theorem insertEntry_placed (e : Entry) {q : List Entry} (sorted : q.Pairwise Entry.before) :
    e.Placed q (insertEntry e q) := by
  induction q with
  | nil => exact ⟨[], [], rfl, rfl, by simp, by simp⟩
  | cons x xs ih =>
    obtain ⟨first, rest⟩ := List.pairwise_cons.mp sorted
    by_cases h : x.before e
    · obtain ⟨a, b, rfl, new, ahead, behind⟩ := ih rest
      refine ⟨x :: a, b, rfl, (if_pos h).trans (congrArg (x :: ·) new), fun y mem => ?_, behind⟩
      obtain rfl | mem := List.mem_cons.mp mem
      · exact h
      · exact ahead y mem
    · refine ⟨[], x :: xs, rfl, if_neg h, by simp, fun y mem late => ?_⟩
      obtain rfl | mem := List.mem_cons.mp mem
      · exact h late
      · exact h (Entry.before_trans (first y mem) late)

/-! ### A merge (R48) -/

section
variable {e : Entry} {q : Requester}

theorem outranking_of_lt {a b : Origin} (h : b.cls < a.cls) : outranking a b ≠ a := by
  rw [outranking, if_pos h]
  rintro rfl
  exact Nat.lt_irrefl _ h

/-- A request that outranks the entry takes it to the place of its class. -/
theorem mergeEntry_outranked (h : q.origin.cls < e.origin.cls) (es : List Entry) :
    mergeEntry e q es = insertEntry (e.merge q) (dropStep e.step es) := if_neg (outranking_of_lt h)

/-- A request that does not leaves it at its place. -/
theorem mergeEntry_stays (h : ¬q.origin.cls < e.origin.cls) {es : List Entry} (mem : e ∈ es)
    (nodup : (es.map (·.step)).Nodup) :
    mergeEntry e q es = es.map (fun x => if x.step = e.step then e.merge q else x) := by
  refine (if_pos (if_neg h)).trans (List.map_congr_left (fun x hx => ?_))
  split
  · next own => rw [List.inj_on_of_nodup_map nodup hx mem own]
  · rfl

end

/-! ### A request (R47, R48) -/

section
variable {i : StepIx} {k : Kind} {q : Requester} {s : State}

theorem inFlightKind_iff : s.inFlightKind i k = true
    ↔ ∃ o, (s.sw i).op = some o ∧ o.phase ≠ .settling ∧ o.kind = k := by
  unfold State.inFlightKind
  cases (s.sw i).op <;> simp

theorem takeRequest_joins (flies : s.inFlightKind i k = true) : takeRequest i k q s = joinOp i q s := if_pos flies

theorem takeRequest_enters (rests : ¬s.inFlightKind i k = true) (new : s.entryOf i = none) :
    takeRequest i k q s = s.onSwu (fun w => { w with queue := insertEntry (s.newEntry i k q) w.queue }) := by
  simp only [takeRequest, if_neg rests, new]

variable {e : Entry}

theorem takeRequest_merges (rests : ¬s.inFlightKind i k = true) (meets : s.entryOf i = some e) (same : e.kind = k) :
    takeRequest i k q s = s.onSwu (fun w => { w with queue := mergeEntry e q w.queue }) := by
  simp only [takeRequest, if_neg rests, meets, if_pos same]

theorem takeRequest_supersedes (rests : ¬s.inFlightKind i .opening = true) (meets : s.entryOf i = some e)
    (close : e.kind = .close) : takeRequest i .opening q s
      = (deliverAll i .close .superseded e.requesters s).onSwu (fun w =>
          { w with queue := insertEntry (s.newEntry i .opening q) (dropStep i s.swu.queue) }) := by
  simp only [takeRequest, if_neg rests, meets, close, State.onSwu, deliverAll_queue]
  rfl

theorem takeRequest_conflicts (rests : ¬s.inFlightKind i .close = true) (meets : s.entryOf i = some e)
    (opens : e.kind = .opening) : takeRequest i .close q s = deliver i .close .queueConflict q s := by
  simp only [takeRequest, if_neg rests, meets, opens]
  rfl

end

/-- Settles O41: what the request meets decides, then the dispatcher acts. -/
theorem requestsEnterTheQueue : Obligations.RequestsEnterTheQueue := by
  intro i k q s _ sound flies join queued placed new
  have flies_iff : s.inFlightKind i k = true ↔ flies := inFlightKind_iff
  refine ⟨fun h => congrArg dispatcher (takeRequest_joins (flies_iff.mpr h)), fun rests absent => ?enters,
    fun rests e mem own => ?meets⟩
  case enters =>
    exact ⟨_, insertEntry_placed new sound.2.2,
      congrArg dispatcher (takeRequest_enters (fun h => rests (flies_iff.mp h)) (entryOf_absent absent))⟩
  case meets =>
    have idle : ¬s.inFlightKind i k = true := fun h => rests (flies_iff.mp h)
    have found : s.entryOf i = some e := entryOf_mem sound mem own
    have others : (dropStep i s.swu.queue).Pairwise Entry.before := sound.2.2.sublist List.filter_sublist
    refine ⟨fun same => ⟨_, congrArg dispatcher (takeRequest_merges idle found same), ?_⟩, fun close opens => ?_,
      fun opens closes => ?_⟩
    · subst own
      by_cases up : q.origin.cls < e.origin.cls
      · refine (if_pos up).mpr ?_
        rw [mergeEntry_outranked up]
        exact insertEntry_placed (e.merge q) others
      · exact (if_neg up).mpr (mergeEntry_stays up mem sound.1)
    · subst opens
      exact ⟨_, insertEntry_placed new others, congrArg dispatcher (takeRequest_supersedes idle found close)⟩
    · subst closes
      exact congrArg dispatcher (takeRequest_conflicts idle found opens)

/-! ### The dispatch checks (R52, R53) -/

section
variable {s : State} {e : Entry}

theorem budgetExhausted_eq_false_iff : s.budgetExhausted = false ↔ s.cdu.budget < s.y .yardLimit := by
  simp [State.budgetExhausted]

theorem budgetExhausted_iff : s.budgetExhausted = true ↔ s.y .yardLimit ≤ s.cdu.budget := by
  simp [State.budgetExhausted]

theorem dutyOk_iff {i : StepIx} : s.dutyOk i = true ↔ (s.cd i).duty + 2 ≤ s.y .dutyLimit := decide_eq_true_iff

theorem closePasses_iff : s.closePasses e = true ↔ (s.step e.step).state = .ready
    ∧ (s.cd e.step).duty + 2 ≤ s.y .dutyLimit
    ∧ (e.origin = .regulation → s.vrg.mode = .auto ∧ s.cdu.budget < s.y .yardLimit)
    ∧ (e.origin = .station → s.vrg.mode ≠ .auto) := by
  simp only [State.closePasses, Bool.and_eq_true, beq_iff_eq, dutyOk_iff, and_assoc]
  cases e.origin <;> simp [budgetExhausted_eq_false_iff]

theorem openPasses_iff : s.openPasses e = true ↔ (s.step e.step).position = .closed
    ∧ ((s.step e.step).state = .energized ∨ (s.step e.step).state = .lockedOut ∧ Requester.hlk ∈ e.requesters) := by
  simp [State.openPasses]

theorem dispatchFailure_close (kind : e.kind = .close) :
    s.dispatchFailure e = if s.closePasses e = true then none else some .notEligible := by
  simp only [State.dispatchFailure, kind]

theorem dispatchFailure_opening (kind : e.kind = .opening) : s.dispatchFailure e
    = if e.origin = .regulation ∧ s.y .yardLimit ≤ s.cdu.budget then some .notEligible
      else if s.openPasses e = true then none else some .already := by
  simp only [State.dispatchFailure, kind, budgetExhausted_iff]

end

/-! ### The dispatcher's search (R51) -/

section
variable {s : State}

theorem dispatcher_held (h : s.swu.slot ≠ none) : dispatcher s = s := if_pos (Option.isSome_iff_ne_none.mpr h)

theorem dispatcher_free (h : s.swu.slot = none) : dispatcher s = dispatchRounds s.swu.queue.length s :=
  if_neg (by simp [h])

theorem dispatchRounds_none (h : s.nextEntry = none) (n : Nat) : dispatchRounds n s = s := by
  cases n with
  | zero => rfl
  | succ n => simp only [dispatchRounds, h]

theorem dispatcher_none (h : s.nextEntry = none) : dispatcher s = s := by
  by_cases free : s.swu.slot = none
  · rw [dispatcher_free free, dispatchRounds_none h]
  · exact dispatcher_held free

theorem nextEntry_none (h : ∀ e ∈ s.swu.queue, (s.sw e.step).op ≠ none) : s.nextEntry = none :=
  List.find?_eq_none.mpr (fun e mem => by simpa using h e mem)

variable {before after : List Entry} {e : Entry}

theorem nextEntry_some (queue : s.swu.queue = before ++ e :: after) (busy : ∀ x ∈ before, (s.sw x.step).op ≠ none)
    (idle : (s.sw e.step).op = none) : s.nextEntry = some e := by
  have passed : before.find? (fun x => (s.sw x.step).op.isNone) = none :=
    List.find?_eq_none.mpr (fun x mem => by simpa using busy x mem)
  simp [State.nextEntry, queue, List.find?_append, passed, idle]

theorem dropStep_middle (nodup : ((before ++ e :: after).map (·.step)).Nodup) :
    dropStep e.step (before ++ e :: after) = before ++ after := by
  simp only [List.map_append, List.map_cons, List.nodup_append, List.nodup_cons, List.mem_cons, List.mem_map] at nodup
  obtain ⟨_, ⟨notAfter, _⟩, apart⟩ := nodup
  have left : dropStep e.step before = before := List.filter_eq_self.mpr (fun x mem =>
    decide_eq_true (apart x.step ⟨x, mem, rfl⟩ e.step (.inl rfl)))
  have right : dropStep e.step after = after := List.filter_eq_self.mpr (fun x mem =>
    decide_eq_true (fun same => notAfter ⟨x, mem, same⟩))
  have own : dropStep e.step (e :: after) = dropStep e.step after := by simp [dropStep]
  calc dropStep e.step (before ++ e :: after)
      = dropStep e.step before ++ dropStep e.step (e :: after) := List.filter_append ..
    _ = before ++ after := by rw [left, own, right]

/-- The dispatcher takes the first entry it may: it dispatches it, or answers it and searches on. -/
theorem dispatcher_next (sound : s.queueSound) (free : s.swu.slot = none) (queue : s.swu.queue = before ++ e :: after)
    (busy : ∀ x ∈ before, (s.sw x.step).op ≠ none) (idle : (s.sw e.step).op = none) :
    let u : State := { s with swu := { s.swu with queue := before ++ after } }
    dispatcher s = match s.dispatchFailure e with
      | none => dispatchOp e.step e.kind e.origin e.requesters u
      | some r => dispatcher (deliverAll e.step e.kind r e.requesters u) := by
  intro u
  have dropped : s.onSwu (fun w => { w with queue := dropStep e.step w.queue }) = u := by
    have shorter := dropStep_middle (queue ▸ sound.1)
    rw [← queue] at shorter
    exact congrArg (fun q => { s with swu := { s.swu with queue := q } }) shorter
  have rounds : s.swu.queue.length = (before ++ after).length + 1 := by simp [queue]; omega
  rw [dispatcher_free free, rounds, dispatchRounds, nextEntry_some queue busy idle]
  simp only [dropped, show u.dispatchFailure e = s.dispatchFailure e from rfl]
  cases s.dispatchFailure e with
  | none => rfl
  | some r =>
    have stillFree : (deliverAll e.step e.kind r e.requesters u).swu.slot = none :=
      (deliverAll_swu ..).2.trans free
    show dispatchRounds _ _ = dispatcher _
    rw [dispatcher_free stillFree, deliverAll_queue]

end

/-- Settles O43: the entry that is taken passes its checks or not, by its kind. -/
theorem dispatcherTakesTheFirstEntryItMay : Obligations.DispatcherTakesTheFirstEntryItMay := by
  refine fun s sound => ⟨dispatcher_held, fun busy => dispatcher_none (nextEntry_none busy),
    fun before after e free queue busy idle => ?_⟩
  intro u budget passes failure
  have next := dispatcher_next sound free queue busy idle
  suffices checks : (passes → s.dispatchFailure e = none) ∧ (¬passes → s.dispatchFailure e = some failure) from
    ⟨fun ok => by rw [next, checks.1 ok], fun fails => by rw [next, checks.2 fails]⟩
  cases kind : e.kind with
  | close =>
    have passes_iff : s.closePasses e = true ↔ passes := by
      simp only [passes, kind]
      exact closePasses_iff
    have failure_eq : failure = .notEligible := by simp only [failure, kind]
    rw [dispatchFailure_close kind, failure_eq]
    exact ⟨fun ok => if_pos (passes_iff.mpr ok), fun fails => if_neg (fun h => fails (passes_iff.mp h))⟩
  | opening =>
    have passes_iff : passes ↔ (e.origin = .regulation → budget) ∧ s.openPasses e = true := by
      simp only [passes, kind, openPasses_iff]
    have failure_eq : failure = if e.origin = .regulation ∧ s.y .yardLimit ≤ s.cdu.budget then .notEligible
        else .already := by simp only [failure, kind]
    rw [dispatchFailure_opening kind, failure_eq, passes_iff]
    by_cases spent : e.origin = .regulation ∧ s.y .yardLimit ≤ s.cdu.budget
    · rw [if_pos spent, if_pos spent]
      exact ⟨fun ok => absurd (ok.1 spent.1) (Nat.not_lt.mpr spent.2), fun _ => rfl⟩
    · have covered : e.origin = .regulation → budget := fun own => Nat.lt_of_not_le (fun full => spent ⟨own, full⟩)
      rw [if_neg spent, if_neg spent]
      exact ⟨fun ok => if_pos ok.2, fun fails => if_neg (fun opens => fails ⟨covered, opens⟩)⟩

end Sys2Proof.Machine
end

