-- ==== Sys2Proof/Proofs/Protection.lean ====
section
/-! PROOFS. A PROTECTION open against its step: how a record is removed, a settle overtaken and a close aborted, what
the step's queue entry does at the dispatch, and which of these it comes to (R50, R55 to R58, R108). -/

namespace Sys2Proof.Machine

theorem onSw_congr {i : StepIx} {s : State} {f g : SwuStep → SwuStep} (h : f (s.sw i) = g (s.sw i)) :
    s.onSw i f = s.onSw i g :=
  congrArg (fun w => { s with swu := { s.swu with steps := Tab.put s.swu.steps i w } }) h

section
variable (i : StepIx) (s : State)

/-! ### The removal of a record (R50, R59) -/

theorem releaseSlot_eq (o : OpRecord) : releaseSlot i o s = { s with swu := { s.swu with
    slot := if o.holdsSlot = true ∧ s.swu.slot = some i then none else s.swu.slot } } := by
  unfold releaseSlot
  split <;> rfl

theorem removeOp_eq {o : OpRecord} (h : (s.sw i).op = some o) : removeOp i s = { s with swu := { s.swu with
    slot := if o.holdsSlot = true ∧ s.swu.slot = some i then none else s.swu.slot
    steps := Tab.upd s.swu.steps i (fun r => { r with op := none }) } } := by
  simp only [removeOp, h, releaseSlot_eq]
  rfl

theorem removeOp_sw {o : OpRecord} (h : (s.sw i).op = some o) (j : StepIx) :
    (removeOp i s).sw j = if j = i then { s.sw i with op := none } else s.sw j := by
  rw [removeOp_eq i s h]
  exact Tab.get_upd ..

/-! ### The settle that is overtaken or over (R57, R65, R108) -/

/-- The regulator leaves SETTLING where it settled for this operation. -/
theorem regulatorSettled_eq (o : OpRecord) : regulatorSettled i o s
    = if s.vrg.reg = .settling ∧ s.vrg.target = some ⟨i, o.kind⟩ ∧ Requester.regulator ∈ o.requesters then
        { s with vrg := s.vrg.toWatch }
      else s := by
  simp only [regulatorSettled, State.onVrg]
  split <;> rfl

theorem regulatorSettled_removeOp {o : OpRecord} (h : (s.sw i).op = some o) :
    regulatorSettled i o (removeOp i s)
      = if s.vrg.reg = .settling ∧ s.vrg.target = some ⟨i, o.kind⟩ ∧ Requester.regulator ∈ o.requesters then
          { removeOp i s with vrg := s.vrg.toWatch }
        else removeOp i s := by
  have vrg : (removeOp i s).vrg = s.vrg := by rw [removeOp_eq i s h]
  rw [regulatorSettled_eq, vrg]

theorem overtake_settling {o : OpRecord} (h : (s.sw i).op = some o) (settles : o.phase = .settling) :
    overtake i s = regulatorSettled i o (removeOp i s) := by
  simp only [overtake, h]
  exact if_pos settles

/-! ### The step's queue entry (R58) -/

theorem dispatchProtection_absent (q : Requester) (absent : ∀ e ∈ s.swu.queue, e.step ≠ i) :
    dispatchProtection i q s = dispatchOp i .opening .protection [q] s := by
  simp only [dispatchProtection, State.joiners, absorbEntry, entryOf_absent absent]
  rfl

section
variable {i s} {e : Entry} (q : Requester) (sound : s.queueSound) (mem : e ∈ s.swu.queue) (own : e.step = i)
include sound mem own

theorem dispatchProtection_joined (opens : e.kind = .opening) : dispatchProtection i q s
    = dispatchOp i .opening .protection (q :: e.requesters.filter (fun x => decide (x ≠ q)))
        { s with swu := { s.swu with queue := s.swu.queue.filter (fun x => decide (x.step ≠ i)) } } := by
  simp only [dispatchProtection, State.joiners, absorbEntry, entryOf_mem sound mem own, opens]
  rfl

theorem dispatchProtection_supersedes (closes : e.kind = .close) : dispatchProtection i q s
    = dispatchOp i .opening .protection [q] (deliverAll i .close .superseded e.requesters
        { s with swu := { s.swu with queue := s.swu.queue.filter (fun x => decide (x.step ≠ i)) } }) := by
  simp only [dispatchProtection, State.joiners, absorbEntry, entryOf_mem sound mem own, closes]
  rfl

end

/-! ### The open against its step (R55, R56) -/

theorem protectionDispatches_iff : s.protectionDispatches i = true
    ↔ (s.step i).state = .energized ∨ (s.step i).state = .lockedOut ∧ (s.step i).position ≠ .opened := by
  simp [State.protectionDispatches]

section
variable {i s}

theorem takeProtection_idle (q : Requester) (h : (s.sw i).op = none) : takeProtection i q s
    = if s.protectionDispatches i = true then dispatchProtection i q s else deliver i .opening .already q s := by
  simp only [takeProtection, h]

theorem abortClose_eq {o : OpRecord} (closes : o.kind = .close) : abortClose i o s
    = loadDischarge i (removeOp i (deliverAll i .close .aborted o.requesters (s.onSw i (fun r =>
        { r with closeCoil := false, tripA := false, tripB := false, lastResult := some .aborted })))) := by
  simp only [abortClose, coilsOff, onSw_onSw, closes]
  rfl

variable {o : OpRecord} (q : Requester) (h : (s.sw i).op = some o)
include h

theorem takeProtection_merges (flies : o.phase ≠ .settling) (opens : o.kind = .opening) :
    takeProtection i q s = s.onSw i (fun r => { r with op := some { o with
      requesters := if q ∈ o.requesters then o.requesters else o.requesters ++ [q]
      protMerged := true } }) := by
  simp only [takeProtection, h, if_neg flies, if_pos opens]
  refine onSw_congr ?_
  rw [h]
  rfl

theorem takeProtection_aborts (flies : o.phase ≠ .settling) (closes : o.kind = .close) :
    takeProtection i q s = dispatchProtection i q (abortClose i o s) := by
  simp only [takeProtection, h, if_neg flies, closes]
  rfl

theorem takeProtection_settling (settles : o.phase = .settling) : takeProtection i q s
    = if s.protectionDispatches i = true then dispatchProtection i q (overtake i s)
      else deliver i .opening .already q s := by
  simp only [takeProtection, h, if_pos settles]

end

end

/-- Settles O45: the record the open meets, the step's state where there is none in flight, and the queue entry. -/
theorem protectionOpensAreTaken : Obligations.ProtectionOpensAreTaken := by
  intro i q s trips ended told
  have trips_iff : s.protectionDispatches i = true ↔ trips := protectionDispatches_iff i s
  refine ⟨fun o h => ?record, fun idle => ⟨fun goes => ?_, fun stays => ?_⟩, dispatchProtection_absent i s q,
    fun e mem own sound => ⟨dispatchProtection_joined q sound mem own, dispatchProtection_supersedes q sound mem own⟩⟩
  case record =>
    refine ⟨takeProtection_merges q h, fun flies closes => ?_, fun settles goes => ?_, fun settles stays => ?_,
      ⟨(removeOp_sw i s h i).trans (if_pos rfl), fun j ne => (removeOp_sw i s h j).trans (if_neg ne), ?_, ?_⟩,
      fun settles => (overtake_settling i s h settles).trans (regulatorSettled_removeOp i s h)⟩
    · rw [takeProtection_aborts q h flies closes, abortClose_eq closes]
      rfl
    · exact (takeProtection_settling q h settles).trans (if_pos (trips_iff.mpr goes))
    · exact (takeProtection_settling q h settles).trans (if_neg (fun goes => stays (trips_iff.mp goes)))
    · rw [removeOp_eq i s h]
    · rw [removeOp_eq i s h]
  · exact (takeProtection_idle q idle).trans (if_pos (trips_iff.mpr goes))
  · exact (takeProtection_idle q idle).trans (if_neg (fun goes => stays (trips_iff.mp goes)))

end Sys2Proof.Machine
end

