-- ==== Sys2Proof/Proofs/Settling.lean ====
section
/-! PROOFS. The consumers of a settled event: the learning of a rise (R109), the resonance marks (R133) and the
no-current check (R66). -/

namespace Sys2Proof.Machine

section
variable (i : StepIx) {o : OpRecord} (s : State)

/-! ### The learning (R109) -/

theorem learn_nothing {post : Option Snapshot}
    (h : o.pre = none ∨ post = none ∨ (o.origin ≠ .station ∧ o.origin ≠ .regulation)) : learn i o post s = s := by
  unfold learn
  split
  · next a b pre =>
    refine if_neg (fun taught => ?_)
    obtain absent | absent | ⟨station, regulation⟩ := h
    · rw [pre] at absent
      cases absent
    · cases absent
    · exact taught.elim station regulation
  · rfl

theorem learn_rise {a b : Snapshot} (pre : o.pre = some a) (taught : o.origin = .station ∨ o.origin = .regulation) :
    learn i o (some b) s
      = s.onVr i (fun v => v.learn (s.su.active.expectedRise i) (measuredRise o.kind a b)) := by
  simp only [learn, pre, if_pos taught]

theorem measuredRise_eq (k : Kind) (a b : Snapshot) : measuredRise k a b
    = if k = .close then (b.voltage : Int) - a.voltage else (a.voltage : Int) - b.voltage := by
  cases k <;> rfl

/-! ### The resonance marks (R133) -/

theorem attribute_nothing {post : Option Snapshot} (h : o.pre = none ∨ post = none ∨ o.kind = .opening) :
    attribute_ i o post s = s := by
  unfold attribute_
  split
  · next a b kind pre =>
    obtain absent | absent | opens := h
    · rw [pre] at absent
      cases absent
    · cases absent
    · rw [kind] at opens
      cases opens
  · rfl

theorem attribute_close {a b : Snapshot} (pre : o.pre = some a) (kind : o.kind = .close) :
    attribute_ i o (some b) s = s.onHsv (fun h =>
      { h with marks := Tab.upd h.marks i (fun m =>
          Tab.build (fun q => attributeOrder s.su.active a b q (m.get q))) }) := by
  simp only [attribute_, pre, kind]

theorem attribute_marked {a b : Snapshot} (pre : o.pre = some a) (kind : o.kind = .close) (j : StepIx) (q : QtyIx) :
    (attribute_ i o (some b) s).marked j q
      = if j = i then attributeOrder s.su.active a b q (s.marked i q) else s.marked j q := by
  rw [attribute_close i s pre kind]
  show ((Tab.upd s.hsv.marks i _).get j).get q = _
  rw [Tab.get_upd]
  split
  · rw [Tab.get_build]
    rfl
  · rfl

end

section
variable {c : Settings} {a b : Snapshot} {q : QtyIx} {old : Bool}

/-- THD and an order without an alarm level take no part. -/
theorem attributeOrder_apart (h : q = 0 ∨ c.la q = 0) : attributeOrder c a b q old = old := if_pos h

/-- The mark of an order that takes part. -/
theorem attributeOrder_part (order : q ≠ 0) (level : c.la q ≠ 0) : attributeOrder c a b q old
    = if b.harm.get q * 100 < a.harm.get q * c.y .amplification then false
      else if c.la q ≤ b.harm.get q * 2 then true
      else old := if_neg (fun h => h.elim order level)

end

/-! ### The no-current check (R66) -/

section
variable (i : StepIx) (s : State)

theorem noCurrentCheck_nothing {k : Kind} {post : Option Snapshot} (h : s.noCurrentFound k post = false) :
    noCurrentCheck i k post s = s := by
  simp [noCurrentCheck, h]

theorem noCurrentFound_nothing {k : Kind} {post : Option Snapshot} (h : post = none ∨ k = .opening) :
    s.noCurrentFound k post = false := by
  obtain rfl | rfl := h
  · cases k <;> rfl
  · rfl

theorem noCurrentFound_currents {b : Snapshot} {x y z : Nat} (h : b.currents = some (x, y, z)) :
    s.noCurrentFound .close (some b)
      = decide (x < s.y .presenceLevel * 10 ∨ y < s.y .presenceLevel * 10 ∨ z < s.y .presenceLevel * 10) := by
  simp only [State.noCurrentFound, h]

end

/-- Settles O48: the three consumers, each where it has nothing to do and where it has. -/
theorem settledEventsTeachAndCheck : Obligations.SettledEventsTeachAndCheck := by
  intro i o s
  refine ⟨fun post => ⟨learn_nothing i s, attribute_nothing i s, fun h => ?_⟩, fun a b pre taught => ?learns,
    fun a b pre kind => ?marks, fun b x y z currents => ?checks⟩
  · exact noCurrentCheck_nothing i s (noCurrentFound_nothing s h)
  case learns =>
    rw [learn_rise i s pre taught, measuredRise_eq]
    rfl
  case marks =>
    have marked := attribute_marked i s (b := b) pre kind
    intro t
    refine ⟨?_, fun j q ne => (marked j q).trans (if_neg ne), ?_, fun q order => ⟨fun none => ?_, fun level => ?_⟩⟩
    · rw [show t = _ from attribute_close i s pre kind]
      rfl
    · exact ((marked i 0).trans (if_pos rfl)).trans (attributeOrder_apart (.inl rfl))
    · exact ((marked i q).trans (if_pos rfl)).trans (attributeOrder_apart (.inr none))
    · have own := ((marked i q).trans (if_pos rfl)).trans (attributeOrder_part order level)
      refine ⟨fun less => own.trans (if_pos less), fun amplified => ?_⟩
      have more := own.trans (if_neg (Nat.not_lt.mpr amplified))
      exact ⟨fun high => more.trans (if_pos high), fun low => more.trans (if_neg (Nat.not_le.mpr low))⟩
  case checks =>
    intro low
    have found := noCurrentFound_currents s currents
    refine ⟨fun none => noCurrentCheck_nothing i s (found.trans (decide_eq_false none)), fun finds => ?_⟩
    exact if_pos (found.trans (decide_eq_true finds))

end Sys2Proof.Machine
end

