-- ==== Sys2Proof/Proofs/OperationTimers.lean ====
section
/-! PROOFS. The timers of an operation: the pulse, the operate limit and the settle window run out (R61, R62, R65, R67,
R108). -/

namespace Sys2Proof.Machine

/-- An occurrence that stands is taken, while no reset is held. -/
theorem live_occurs {s : State} {b : Bool} {f : State → State} (running : s.resetHeld = none) (stands : b = true) :
    live s (onlyIf b f) = .next (f s) :=
  (live_eq _ running).trans (congrArg _ (onlyIf_true f s stands))

section
variable {i : StepIx} {o : OpRecord} {s : State} (h : (s.sw i).op = some o)
include h

/-! ### When a timer has run out -/

theorem pulseOver_eq : s.pulseOver i = (o.phase == .pulsing && decide (o.pulseDue ≤ s.now)) := by
  simp only [State.pulseOver, h]

theorem limitReached_eq : s.limitReached i = (o.phase != .settling && decide (o.limitDue ≤ s.now)) := by
  simp only [State.limitReached, h]

theorem settleOver_eq : s.settleOver i = (o.phase == .settling && decide (o.settleDue ≤ s.now)) := by
  simp only [State.settleOver, h]

theorem pulseOver_of (pulses : o.phase = .pulsing) (due : o.pulseDue ≤ s.now) : s.pulseOver i = true := by
  simp [pulseOver_eq h, pulses, due]

theorem limitReached_of (flies : o.phase ≠ .settling) (due : o.limitDue ≤ s.now) : s.limitReached i = true := by
  simp [limitReached_eq h, flies, due]

theorem limitReached_early (early : s.now < o.limitDue) : s.limitReached i = false := by
  simp [limitReached_eq h, Nat.not_le.mpr early]

theorem settleOver_of (settles : o.phase = .settling) (due : o.settleDue ≤ s.now) : s.settleOver i = true := by
  simp [settleOver_eq h, settles, due]

/-! ### What its expiry does -/

/-- Before the limit the end of the pulse leaves the operation AWAITING (R61). -/
theorem pulseEnds_awaiting (early : s.now < o.limitDue) : pulseEnds i s = s.onSw i (fun r =>
    { r with closeCoil := false, tripA := false, tripB := false, op := some { o with phase := .awaiting } }) := by
  rw [pulseEnds, limitReached_early h early]
  refine (onSw_onSw ..).trans (onSw_congr ?_)
  simp only [Function.comp_apply, h]
  rfl

/-- The failure of an operation, in the order of R67. -/
theorem opFail_eq : opFail i s =
    let failed := s.onSw i (fun r =>
      { r with closeCoil := false, tripA := false, tripB := false, lastResult := some .failToOperate })
    let told := deliverAll i o.kind .failToOperate o.requesters failed
    let announced := pulse .opFail (raiseNotice .opFail (some i) o.kind.code 0 told)
    let taken := stFailure i o (removeOp i announced)
    dispatcher (tripRetry i o (decide ((s.step i).state = .opening))
      (if o.kind = .close then loadDischarge i taken else taken)) := by
  simp only [opFail, h, coilsOff, onSw_onSw]
  rfl

/-- The end of the settle window: the record goes, and the settled event reaches its consumers (R65). -/
theorem settleEnds_eq : settleEnds i s =
    let learned := attribute_ i o (s.snapshot i) (learn i o (s.snapshot i) (regulatorSettled i o (removeOp i s)))
    dispatcher (noCurrentCheck i o.kind (s.snapshot i) (if o.kind = .close then arm i learned else learned)) := by
  simp only [settleEnds, h]

end

/-- Settles O46: each timer that has run out, and what its expiry does. -/
theorem operationTimersRunOut : Obligations.OperationTimersRunOut := by
  intro i o s running h put off
  refine ⟨fun pulses due early => ?pulse, fun pulses due late => ?both, fun flies due => ?limit,
    fun settles due => ?settle⟩
  case pulse =>
    exact (live_occurs running (pulseOver_of h pulses due)).trans (congrArg _ (pulseEnds_awaiting h early))
  case both =>
    have reached : s.limitReached i = true := limitReached_of h (by rw [pulses]; decide) late
    have fails : pulseEnds i s = opFail i s := if_pos reached
    exact ((live_occurs running (pulseOver_of h pulses due)).trans (congrArg _ fails)).trans
      (live_occurs running reached).symm
  case limit =>
    exact (live_occurs running (limitReached_of h flies due)).trans (congrArg _ (opFail_eq h))
  case settle =>
    intro post told learned
    have removed : regulatorSettled i o (removeOp i s) = told := regulatorSettled_removeOp i s h
    refine (live_occurs running (settleOver_of h settles due)).trans (congrArg _ ?_)
    rw [settleEnds_eq h, removed]
    rfl

end Sys2Proof.Machine
end

