-- ==== Sys2Proof/Proofs/StationOrders.lean ====
section
/-! PROOFS. The station orders: staging, execution, cancelling and the stage timer (R70 to R72). -/

namespace Sys2Proof.Machine

/-! ### The staged order (R70) -/

section
variable {step kind : Byte} {i : StepIx} {k : Kind} {s : State}

theorem takeOrderStage_range (h : stepOfCode step.toNat = none ∨ Kind.ofCode kind.toNat = none) :
    takeOrderStage step kind s = refuse .outOfRange s := by
  unfold takeOrderStage
  split
  · next i k hi hk => rw [hi, hk] at h; simp at h
  · rfl

theorem takeOrderExecute_range (h : stepOfCode step.toNat = none ∨ Kind.ofCode kind.toNat = none) :
    takeOrderExecute step kind s = refuse .outOfRange s := by
  unfold takeOrderExecute
  split
  · next i k hi hk => rw [hi, hk] at h; simp at h
  · rfl

/-- The order that is staged names the step and the kind. -/
def State.stages (s : State) (i : StepIx) (k : Kind) : Prop := ∃ due, s.swu.staged = some ⟨i, k, due⟩

theorem stages_iff {g : StagedOrder} (h : s.swu.staged = some g) : s.stages i k ↔ g.step = i ∧ g.kind = k := by
  constructor
  · rintro ⟨due, named⟩
    rw [h] at named
    cases named
    exact ⟨rfl, rfl⟩
  · rintro ⟨rfl, rfl⟩
    exact ⟨g.due, h⟩

theorem clearStaged_none (h : s.swu.staged = none) : clearStaged s = s := by
  show { s with swu := { s.swu with staged := none } } = s
  rw [← h]

variable (hi : stepOfCode step.toNat = some i) (hk : Kind.ofCode kind.toNat = some k)
include hi hk

theorem takeOrderStage_stages (h : s.swu.staged = none ∨ s.stages i k) :
    takeOrderStage step kind s = (stageOrder i k s, .just .ok) := by
  simp only [takeOrderStage, hi, hk]
  cases staged : s.swu.staged with
  | none => rfl
  | some g =>
    obtain free | mine := h
    · rw [staged] at free
      cases free
    · exact if_pos ((stages_iff staged).mp mine)

theorem takeOrderStage_held (held : s.swu.staged ≠ none) (other : ¬s.stages i k) :
    takeOrderStage step kind s = refuse .stageHeld s := by
  simp only [takeOrderStage, hi, hk]
  cases staged : s.swu.staged with
  | none => exact absurd staged held
  | some g => exact if_neg (fun same => other ((stages_iff staged).mpr same))

/-! ### Its execution (R71) -/

theorem takeOrderExecute_none (h : s.swu.staged = none) :
    takeOrderExecute step kind s = (clearStaged s, .just .notStaged) := by
  simp only [takeOrderExecute, hi, hk, h, clearStaged_none h]
  rfl

theorem takeOrderExecute_mismatch (held : s.swu.staged ≠ none) (other : ¬s.stages i k) :
    takeOrderExecute step kind s = (clearStaged s, .just .mismatch) := by
  simp only [takeOrderExecute, hi, hk]
  cases staged : s.swu.staged with
  | none => exact absurd staged held
  | some g => exact if_neg (fun same => other ((stages_iff staged).mpr same))

theorem takeOrderExecute_mine (mine : s.stages i k) : takeOrderExecute step kind s
    = if executeReply i k s = .ok ∨ executeReply i k s = .queueConflict then
        (request i k .hlk (clearStaged s), .just (executeReply i k s))
      else (clearStaged s, .just (executeReply i k s)) := by
  obtain ⟨due, staged⟩ := mine
  simp only [takeOrderExecute, hi, hk, staged, and_self, if_true]

/-- Rows 3 to 5: the order is answered and not passed on. -/
theorem takeOrderExecute_refused {c : ReplyCode} (mine : s.stages i k) (reply : executeReply i k s = c)
    (refused : c ≠ .ok ∧ c ≠ .queueConflict) : takeOrderExecute step kind s = (clearStaged s, .just c) := by
  rw [takeOrderExecute_mine hi hk mine, reply]
  exact if_neg (fun h => h.elim refused.1 refused.2)

/-- Rows 6 and 7: the request is passed to the Switching Unit. -/
theorem takeOrderExecute_passed {c : ReplyCode} (mine : s.stages i k) (reply : executeReply i k s = c)
    (passed : c = .ok ∨ c = .queueConflict) :
    takeOrderExecute step kind s = (request i k .hlk (clearStaged s), .just c) := by
  rw [takeOrderExecute_mine hi hk mine, reply]
  exact if_pos passed

end

/-! ### The rows of R71 -/

section
variable {i : StepIx} {s : State}

theorem dutyOk_eq_false_iff : s.dutyOk i = false ↔ s.y .dutyLimit < (s.cd i).duty + 2 := by
  rw [← Bool.not_eq_true, dutyOk_iff, Nat.not_le]

theorem executeReply_auto (auto : s.vrg.mode = .auto) : executeReply i .close s = .wrongMode := if_pos ⟨rfl, auto⟩

theorem executeReply_ineligible (mode : s.vrg.mode ≠ .auto)
    (h : (s.step i).state ≠ .ready ∨ s.y .dutyLimit < (s.cd i).duty + 2) :
    executeReply i .close s = .notEligible :=
  (if_neg (fun both => mode both.2)).trans (if_pos ⟨rfl, h.imp_right dutyOk_eq_false_iff.mpr⟩)

theorem executeReply_eligible (mode : s.vrg.mode ≠ .auto) (ready : (s.step i).state = .ready)
    (duty : (s.cd i).duty + 2 ≤ s.y .dutyLimit) :
    executeReply i .close s = if s.queueConflict i .close = true then .queueConflict else .ok := by
  have eligible : ¬((s.step i).state ≠ .ready ∨ s.dutyOk i = false) := by
    rw [dutyOk_eq_false_iff]
    exact fun h => h.elim (· ready) (Nat.not_lt.mpr duty)
  simp [executeReply, mode, eligible]

theorem executeReply_notClosed (position : (s.step i).position ≠ .closed) :
    executeReply i .opening s = .notEligible := by
  simp [executeReply, position]

theorem executeReply_closed (position : (s.step i).position = .closed) : executeReply i .opening s = .ok := by
  have meets : s.queueConflict i .opening = false := by
    unfold State.queueConflict
    cases s.entryOf i <;> simp
  simp [executeReply, position, meets]

theorem queueConflict_iff (sound : s.queueSound) : s.queueConflict i .close = true
    ↔ (∃ e ∈ s.swu.queue, e.step = i ∧ e.kind = .opening)
      ∧ ¬∃ o, (s.sw i).op = some o ∧ o.phase ≠ .settling ∧ o.kind = .close := by
  rw [← inFlightKind_iff, State.queueConflict, Bool.and_eq_true, Bool.not_eq_true', Bool.not_eq_true, and_comm]
  refine and_congr_left' ?_
  cases found : s.entryOf i with
  | none =>
    refine ⟨fun h => absurd h (by simp), ?_⟩
    rintro ⟨e, mem, own, -⟩
    rw [entryOf_mem sound mem own] at found
    cases found
  | some x =>
    obtain ⟨mem, own⟩ := entryOf_some found
    refine ⟨fun h => ⟨x, mem, own, by simpa using h⟩, ?_⟩
    rintro ⟨e, mem', own', opens⟩
    rw [entryOf_mem sound mem' own'] at found
    cases found
    simp [opens]

theorem stageOver_of {g : StagedOrder} (staged : s.swu.staged = some g) (due : g.due ≤ s.now) : s.stageOver = true := by
  simpa [State.stageOver, staged, expired] using due

end

/-- Settles O49: the operands, the staging, the rows of the execution, the cancelling and the stage timer. -/
theorem stationOrdersAreStagedAndExecuted : Obligations.StationOrdersAreStagedAndExecuted := by
  intro step kind s running staged
  refine ⟨fun out => ⟨serve_just running (takeOrderStage_range out), serve_just running (takeOrderExecute_range out)⟩,
    fun i k hi hk => ?_, serve_just running rfl, fun g is due => live_occurs running (stageOver_of is due)⟩
  intro mine new answers
  refine ⟨fun h => serve_just running (takeOrderStage_stages hi hk h),
    fun held other => serve_just running (takeOrderStage_held hi hk held other),
    fun none => serve_just running (takeOrderExecute_none hi hk none),
    fun held other => serve_just running (takeOrderExecute_mismatch hi hk held other),
    fun own => ⟨?close, ?opening⟩⟩
  case close =>
    rintro rfl
    refine ⟨fun auto => serve_just running (takeOrderExecute_refused hi hk own (executeReply_auto auto) (by decide)),
      fun mode => ⟨fun h => serve_just running
        (takeOrderExecute_refused hi hk own (executeReply_ineligible mode h) (by decide)), fun ready duty => ?_⟩⟩
    intro conflict sound
    have reply := executeReply_eligible mode ready duty
    have meets : s.queueConflict i .close = true ↔ conflict := queueConflict_iff sound
    refine ⟨fun h => serve_just running ?_, fun h => serve_just running ?_⟩
    · exact takeOrderExecute_passed hi hk own (reply.trans (if_pos (meets.mpr h))) (.inr rfl)
    · exact takeOrderExecute_passed hi hk own (reply.trans (if_neg (fun c => h (meets.mp c)))) (.inl rfl)
  case opening =>
    rintro rfl
    refine ⟨fun position => serve_just running
      (takeOrderExecute_refused hi hk own (executeReply_notClosed position) (by decide)), fun position => ?_⟩
    exact serve_just running (takeOrderExecute_passed hi hk own (executeReply_closed position) (.inl rfl))

end Sys2Proof.Machine
end

