-- ==== Sys2Proof/Proofs/Modes.lean ====
section
/-! PROOFS. The change of mode, by request and at station silence: the regulator in or out of HOLD, the withdrawal of
its requests, and the guards stopped in OFF (R49, R92, R93, R96, R97, R116, R117). -/

namespace Sys2Proof.Machine

/-! ### The regulator where mode and hold causes put it (R95 to R97) -/

section
variable {v : Regulator}

theorem settled_watch (auto : v.mode = .auto) (free : v.holds.any = false) (held : v.reg = .hold) :
    v.settled = v.toWatch := (if_pos ⟨auto, free⟩).trans (if_pos held)

theorem settled_held (stops : v.mode ≠ .auto ∨ v.holds.any = true) (held : v.reg = .hold) : v.settled = v := by
  refine (if_neg ?_).trans (if_pos held)
  rintro ⟨auto, free⟩
  simp [auto, free] at stops

theorem settled_hold (mode : v.mode ≠ .auto) (runs : v.reg ≠ .hold) : v.settled = v.toHold :=
  (if_neg (fun h => mode h.1)).trans (if_neg runs)

end

/-! ### What the machinery leaves of the mode and the guards -/

section
variable {s t : State} (c : Chain s t)
include c

theorem Chain.silence : t.vrg.silence = s.vrg.silence := (congrArg Regulator.silence c.regulatorRest :)

theorem Chain.overvoltage : t.vrg.overvoltage = s.vrg.overvoltage :=
  (congrArg Regulator.overvoltage c.regulatorRest :)

theorem Chain.lossOfVoltage : t.vrg.lossOfVoltage = s.vrg.lossOfVoltage :=
  (congrArg Regulator.lossOfVoltage c.regulatorRest :)

end

/-! ### The withdrawal of the regulator's requests (R49) -/

/-- A regulator in HOLD waits for no result, so the withdrawal changes the queue alone. -/
theorem withdrawRegulation_held {s : State} (h : s.vrg.reg = .hold) : withdrawRegulation s
    = { s with swu := { s.swu with queue := s.swu.queue.filterMap Entry.withoutRegulator } } := by
  have deaf : ∀ (es : List Entry) (t : State), t.vrg.reg = .hold →
      es.foldl (fun t e => regulatorResult e.step e.kind .withdrawn t) t = t := by
    intro es
    induction es with
    | nil => exact fun t _ => rfl
    | cons e es ih =>
      intro t held
      rw [List.foldl_cons, regulatorResult_other _ _ _ _ (.inl (by simp [held]))]
      exact ih t held
  exact deaf _ _ h

/-! ### The guards at the entry into OFF (R93) -/

section
variable (s : State)

theorem endOvervoltage_guards : (endOvervoltage s).vrg.mode = s.vrg.mode
    ∧ (endOvervoltage s).vrg.silence = s.vrg.silence ∧ (endOvervoltage s).vrg.overvoltage = false
    ∧ (endOvervoltage s).swu.staged = s.swu.staged := by
  unfold endOvervoltage
  split
  · have c := condition_chain .overvoltage false
      (s.onVrg (fun v => { v with overvoltage := false, repeatAcc := 0 }))
    exact ⟨c.mode, c.silence, c.overvoltage, c.staged⟩
  · next off => exact ⟨rfl, rfl, by simpa using off, rfl⟩

theorem endLossOfVoltage_guards : (endLossOfVoltage s).vrg.mode = s.vrg.mode
    ∧ (endLossOfVoltage s).vrg.silence = s.vrg.silence
    ∧ (endLossOfVoltage s).vrg.overvoltage = s.vrg.overvoltage ∧ (endLossOfVoltage s).vrg.lossOfVoltage = false
    ∧ (endLossOfVoltage s).swu.staged = s.swu.staged := by
  unfold endLossOfVoltage
  split
  · have c := (setHold_chain .lossOfVoltage false (s.onVrg (fun v => { v with lossOfVoltage := false }))).trans
      (condition_chain .lossOfVoltage false _)
    exact ⟨c.mode, c.silence, c.overvoltage, c.lossOfVoltage, c.staged⟩
  · next off => exact ⟨rfl, rfl, rfl, by simpa using off, rfl⟩

/-- The guards stand still after the entry into OFF, and the mode, the station-silence timer and the staged order are
as the entry finds them. -/
theorem stopGuards_guards : (stopGuards s).vrg.mode = s.vrg.mode
    ∧ (stopGuards s).vrg.overvoltage = false ∧ (stopGuards s).vrg.lossOfVoltage = false
    ∧ (stopGuards s).vrg.ovAcc = 0 ∧ (stopGuards s).vrg.repeatAcc = 0 ∧ (stopGuards s).vrg.lovAcc = 0
    ∧ (stopGuards s).vrg.silence = s.vrg.silence ∧ (stopGuards s).swu.staged = s.swu.staged := by
  obtain ⟨mode, silence, overvoltage, staged⟩ := endOvervoltage_guards s
  obtain ⟨mode', silence', overvoltage', lossOfVoltage, staged'⟩ := endLossOfVoltage_guards (endOvervoltage s)
  exact ⟨mode'.trans mode, overvoltage'.trans overvoltage, lossOfVoltage, rfl, rfl, rfl, silence'.trans silence,
    staged'.trans staged⟩

end

/-! ### The change (R92, R93) -/

/-- The regulator with another mode and the station-silence timer of that mode. -/
def State.regulatorIn (s : State) (m : Mode) : Regulator := { s.vrg with mode := m, silence := s.silenceIn m }

/-- The state with the regulator where the mode it enters puts it. -/
def State.entersMode (s : State) (m : Mode) : State := { s with vrg := (s.regulatorIn m).settled }

section
variable {s : State} {m : Mode}

theorem changeMode_same (h : s.vrg.mode = m) : changeMode m s = s := if_pos h

/-- On leaving AUTO the regulator's requests are withdrawn. -/
theorem changeMode_fromAuto (auto : s.vrg.mode = .auto) (h : m ≠ .auto) : changeMode m s
    = if m = .off then stopGuards (dropRegulation (s.entersMode m)) else dropRegulation (s.entersMode m) := by
  have other : s.vrg.mode ≠ m := fun same => h (same.symm.trans auto)
  simp only [changeMode, if_neg other, if_pos auto]
  rfl

theorem changeMode_elsewhere (stops : s.vrg.mode ≠ .auto) (h : s.vrg.mode ≠ m) :
    changeMode m s = if m = .off then stopGuards (s.entersMode m) else s.entersMode m := by
  simp only [changeMode, if_neg h, if_neg stops]
  rfl

theorem entersMode_held (held : s.vrg.reg = .hold) (stops : m ≠ .auto ∨ s.vrg.holds.any = true) :
    s.entersMode m = { s with vrg := s.regulatorIn m } :=
  congrArg (fun v => { s with vrg := v }) (settled_held (v := s.regulatorIn m) stops held)

theorem entersMode_watch (held : s.vrg.reg = .hold) (free : s.vrg.holds.any = false) :
    s.entersMode .auto = { s with vrg := (s.regulatorIn .auto).toWatch } :=
  congrArg (fun v => { s with vrg := v }) (settled_watch (v := s.regulatorIn .auto) rfl free held)

theorem entersMode_hold (runs : s.vrg.reg ≠ .hold) (stops : m ≠ .auto) :
    s.entersMode m = { s with vrg := (s.regulatorIn m).toHold } :=
  congrArg (fun v => { s with vrg := v }) (settled_hold (v := s.regulatorIn m) stops runs)

theorem entersMode_mode : (s.entersMode m).vrg.mode = m := congrArg Regulator.mode (s.regulatorIn m).settled_eq

theorem entersMode_silence : (s.entersMode m).vrg.silence = s.silenceIn m :=
  congrArg Regulator.silence (s.regulatorIn m).settled_eq

theorem silenceIn_of_ne (h : m ≠ .manual) : s.silenceIn m = none := if_neg (fun both => h both.1)

/-- A change of mode to OFF stops the guards of a state that the machinery has reached in OFF. -/
theorem changeMode_off (runs : s.vrg.mode ≠ .off) :
    ∃ left, Chain (s.entersMode .off) left ∧ changeMode .off s = stopGuards left := by
  by_cases auto : s.vrg.mode = .auto
  · exact ⟨_, dropRegulation_chain _, changeMode_fromAuto auto (by decide)⟩
  · exact ⟨_, .refl _, changeMode_elsewhere auto runs⟩

/-- A sound regulator is in HOLD outside AUTO. -/
theorem held_of_mode (sound : s.holdSound) (stops : s.vrg.mode ≠ .auto) : s.vrg.reg = .hold := sound.mpr (.inl stops)

theorem changeMode_holdSound (sound : s.holdSound) : (changeMode m s).holdSound :=
  (changeMode_run (free := True) (meas := True) (stor := True) m s).keeps (fun _ _ => Effect.holdSound) sound

/-- What the entry into OFF leaves. -/
theorem changeMode_off_guards (sound : s.holdSound) (runs : s.vrg.mode ≠ .off) : (changeMode .off s).vrg.mode = .off
    ∧ (changeMode .off s).vrg.overvoltage = false ∧ (changeMode .off s).vrg.lossOfVoltage = false
    ∧ (changeMode .off s).vrg.ovAcc = 0 ∧ (changeMode .off s).vrg.repeatAcc = 0
    ∧ (changeMode .off s).vrg.lovAcc = 0 ∧ (changeMode .off s).vrg.silence = none
    ∧ (changeMode .off s).vrg.reg = .hold ∧ (changeMode .off s).swu.staged = s.swu.staged := by
  have after : (changeMode .off s).holdSound := changeMode_holdSound sound
  obtain ⟨left, c, changed⟩ := changeMode_off runs
  obtain ⟨mode, overvoltage, lossOfVoltage, ovAcc, repeatAcc, lovAcc, silence, staged⟩ := stopGuards_guards left
  rw [changed] at after ⊢
  have off : (stopGuards left).vrg.mode = .off := (mode.trans c.mode).trans entersMode_mode
  have stopped : (stopGuards left).vrg.silence = none :=
    ((silence.trans c.silence).trans entersMode_silence).trans (silenceIn_of_ne (by decide))
  exact ⟨off, overvoltage, lossOfVoltage, ovAcc, repeatAcc, lovAcc, stopped,
    held_of_mode after (by rw [off]; decide), staged.trans c.staged⟩

/-! ### The request and the station silence (R92, R117) -/

theorem modeOfCode_none {n : Nat} (h : 2 < n) : Mode.ofCode n = none := by
  match n, h with
  | _ + 3, _ => rfl

theorem modeOfCode_code (m : Mode) : Mode.ofCode (BitVec.ofNat 8 m.code).toNat = some m := by cases m <;> rfl

theorem takeModeSet_code : takeModeSet (BitVec.ofNat 8 m.code) s = (changeMode m s, .just .ok) := by
  simp only [takeModeSet, modeOfCode_code]

theorem fallback_auto (stops : s.vrg.mode ≠ .auto) : (fallback s).vrg.mode = .auto
    ∧ (fallback s).vrg.silence = none ∧ (fallback s).swu.staged = none := by
  have entered : changeMode .auto s = s.entersMode .auto := changeMode_elsewhere stops stops
  have c : Chain (clearStaged (s.entersMode .auto)) (fallback s) := by
    rw [fallback, entered]
    exact (raiseNotice_chain ..).trans (pulse_chain ..)
  have stopped := (c.silence.trans entersMode_silence).trans (silenceIn_of_ne (by decide))
  exact ⟨c.mode.trans entersMode_mode, stopped, c.staged⟩

end

/-- Settles O52: the request, then what a change does from each mode, and the fallback. -/
theorem modeChangesTakeEffect : Obligations.ModeChangesTakeEffect := by
  intro s running sound entering kept
  refine ⟨fun code out => serve_just running ?_, fun m same => serve_just running ?_,
    fun m _ => serve_just running takeModeSet_code, fun stops => ⟨fun free => ?_, fun holds => ?_⟩,
    fun auto => ⟨fun runs => ?_, fun held => ?_⟩, fun off => ?_,
    ⟨fun auto runs => ?_, fun auto held => ?_, fun manual => ?_⟩, fun x => withdrawRegulation_held,
    changeMode_off_guards sound, fun due runs passed manual => ?_⟩
  · rw [takeModeSet, modeOfCode_none out]
    rfl
  · rw [takeModeSet_code, changeMode_same same.symm]
  · exact (changeMode_elsewhere stops stops).trans (entersMode_watch (held_of_mode sound stops) free)
  · exact (changeMode_elsewhere stops stops).trans (entersMode_held (held_of_mode sound stops) (.inr holds))
  · exact (changeMode_fromAuto auto (by decide)).trans (congrArg dropRegulation (entersMode_hold runs (by decide)))
  · exact (changeMode_fromAuto auto (by decide)).trans
      (congrArg dropRegulation (entersMode_held held (.inl (by decide))))
  · have stops : s.vrg.mode ≠ .auto := by rw [off]; decide
    exact (changeMode_elsewhere stops (by rw [off]; decide)).trans
      (entersMode_held (held_of_mode sound stops) (.inl (by decide)))
  · exact (changeMode_fromAuto auto (by decide)).trans
      (congrArg (stopGuards ∘ dropRegulation) (entersMode_hold runs (by decide)))
  · exact (changeMode_fromAuto auto (by decide)).trans
      (congrArg (stopGuards ∘ dropRegulation) (entersMode_held held (.inl (by decide))))
  · have stops : s.vrg.mode ≠ .auto := by rw [manual]; decide
    exact (changeMode_elsewhere stops (by rw [manual]; decide)).trans
      (congrArg stopGuards (entersMode_held (held_of_mode sound stops) (.inl (by decide))))
  · have isOver : s.silenceOver = true := by simpa [State.silenceOver, runs, expired] using passed
    obtain ⟨auto, silence, staged⟩ := fallback_auto (s := s) (by rw [manual]; decide)
    exact ⟨fallback s, live_occurs running isOver, rfl, auto, silence, staged⟩

end Sys2Proof.Machine
end

