-- ==== Sys2Proof/Proofs/Levels.lean ====
section
/-! PROOFS. The levels of the Cooldown Unit stay in their ranges (R81, R86, R89): every effect but an apply keeps them,
an apply whose yard limit changes clamps the budget, and a full reset loads levels from settings that are in range. -/

namespace Sys2Proof.Machine

/-! ### The apply (R89, R193) -/

theorem takeSettingsApply_levels {s : State} (h : s.levelsSound) : (takeSettingsApply s).1.levelsSound := by
  obtain ⟨duty, budget⟩ := h
  unfold takeSettingsApply
  split
  · exact ⟨duty, budget⟩
  · simp only
    split
    · exact ⟨duty, budget⟩
    · refine applyEffects_levels _ _ _ _ duty (fun same => ?_)
      have kept : s.su.active.get (.yard .yardLimit) = s.candidate.get (.yard .yardLimit) := by
        simpa [changedY, changed] using same
      calc s.cdu.budget ≤ s.su.active.get (.yard .yardLimit) := budget
        _ = s.candidate.get (.yard .yardLimit) := kept

/-! ### Requests and the host line -/

/-- A run that puts no new settings in force keeps the levels. -/
theorem Run.levelsSound {s t : State} (r : Run False True True s t) (h : s.levelsSound) : t.levelsSound :=
  r.keeps (fun _ _ => Effect.levelsSound) h

theorem takeOwner_levels (r : Request) {s : State} (h : s.levelsSound) : (takeOwner r s).1.levelsSound := by
  by_cases apply : r = .settingsApply
  · subst apply
    exact takeSettingsApply_levels h
  · exact (takeOwner_run r s apply).levelsSound h

theorem hostFrameEnds_levels (bs : List Byte) {s : State} (h : s.levelsSound) : (hostFrameEnds bs s).levelsSound := by
  by_cases apply : decodeRequest (hostType bs) (hostPayload bs) = some (some .settingsApply)
  · unfold hostFrameEnds
    split
    · exact h
    · split
      · exact h
      · have taken : takeRequestFrame (hostType bs) (hostPayload bs) (goodHostFrame s)
            = takeSettingsApply (goodHostFrame s) := by rw [takeRequestFrame, apply]; rfl
        rw [taken]
        exact takeSettingsApply_levels ((goodHostFrame_run s).levelsSound h)
  · exact (hostFrameEnds_run bs s apply).levelsSound h

theorem hostByte_levels (b : Byte) {s : State} (h : s.levelsSound) : (hostByte s b).levelsSound := by
  show (hostEvent (receiveHostByte s.hostHeld b).1 (holdHost (receiveHostByte s.hostHeld b).2 s)).levelsSound
  cases (receiveHostByte s.hostHeld b).1 with
  | none => exact h
  | some e =>
    cases e with
    | complete bs => exact hostFrameEnds_levels bs h
    | _ => exact h

theorem hostGapTaken_levels {s : State} (h : s.levelsSound) : (hostGapTaken s).levelsSound :=
  (hostGapTaken_run s).levelsSound h

theorem hostBytes_levels (bs : List Byte) {s : State} (h : s.levelsSound) : (hostBytes bs s).levelsSound :=
  List.foldlRecOn bs hostByte (hostGapTaken_levels h) (fun _ k b _ => hostByte_levels b k)

theorem lineByte_levels (b : Byte) (low : Bool) {s : State} (h : s.levelsSound) :
    (lineByte b low s).levelsSound := by
  cases low
  · exact hostByte_levels b (hostGapTaken_levels h)
  · exact hostGapTaken_levels h

/-! ### A full reset (R85, R194) -/

/-- A yard-wide setting of settings in range lies between its least and its greatest value (R188). -/
theorem Settings.y_le_of_inRange {c : Settings} (h : c.inRange = true) (i : YardItem) : c.y i ≤ i.row.2.2.1 := by
  have listed : SettingKey.yard i ∈ allSettings := by cases i <;> decide
  have fits : (SettingKey.yard i).inRange (c.y i) = true := List.all_eq_true.mp h _ listed
  simp only [SettingKey.inRange, Bool.and_eq_true, decide_eq_true_eq] at fits
  obtain ⟨⟨-, most⟩, -⟩ := fits
  exact most

/-- The duty limit that a full reset loads is at most its greatest value (R188, R194). -/
theorem loadedSettings_dutyLimit (s : State) : (loadedSettings s.loadedImage).y .dutyLimit ≤ 20 := by
  cases h : s.loadedImage with
  | none => decide
  | some img =>
    have valid : img.valid = true := (Option.filter_eq_some_iff.mp h).2
    simp only [StoreImage.valid, Bool.and_eq_true] at valid
    obtain ⟨⟨⟨⟨inRange, -⟩, -⟩, -⟩, -⟩ := valid
    exact img.settings.y_le_of_inRange inRange .dutyLimit

theorem restart_levels (cause : ResetCause) (b1 b0 : Bool) (s : State) : (restart cause b1 b0 s).levelsSound := by
  refine ⟨fun i => ?_, Nat.zero_le _⟩
  rw [restart_cd]
  have limit : (restart cause b1 b0 s).y .dutyLimit ≤ 20 := loadedSettings_dutyLimit s
  show (restart cause b1 b0 s).y .dutyLimit - 2 ≤ 31
  omega

/-! ### Every command -/

theorem live_levels {s t : State} {f : State → State} (h : live s f = .next t) (k : (f s).levelsSound)
    (p : s.levelsSound) : t.levelsSound := by
  unfold live at h
  split at h
  · cases h; exact p
  · cases h; exact k

theorem exec_levels (c : Instr) {s t : State} (p : s.levelsSound) (h : exec c s = .next t) : t.levelsSound := by
  cases c with
  | fullReset cause b1 b0 => cases h; exact restart_levels cause b1 b0 s
  | fullResetHeld cause => cases h; exact p
  | settingsApply => exact live_levels (f := fun s => (takeSettingsApply s).answered) h (takeSettingsApply_levels p) p
  | hostFrame bs =>
    refine live_levels h ?_ p
    unfold onlyIf
    split
    · exact hostBytes_levels bs p
    · exact p
  | discardedByte b low =>
    refine live_levels h ?_ p
    unfold onlyIf
    split
    · exact lineByte_levels b low p
    · exact p
  | _ => exact (exec_run _ s t h id id).levelsSound p

theorem idle_levels {s t : State} (p : s.levelsSound) (h : idle s = .next t) : t.levelsSound := by
  unfold idle at h
  split at h
  · cases h
    exact p
  · split at h
    · exact exec_levels _ p h
    · cases h
      split
      · exact (selectWaiting_run s).levelsSound p
      · exact p

/-- Settles O17: new settings come into force at an apply alone, which clamps the budget where the yard limit changes;
every other effect keeps the levels, and a full reset loads them from settings in range. -/
theorem levelsStayInTheirRanges : Obligations.LevelsStayInTheirRanges := by
  intro s t sound h
  unfold step at h
  split at h
  · rename_i c rest _
    exact exec_levels c (s := { s with pending := rest }) sound h
  · exact idle_levels sound h

end Sys2Proof.Machine
end

