-- ==== Sys2Proof/Proofs/Cooldown.lean ====
section
/-! PROOFS. The expiries of the Cooldown Unit: a discharge timer (R77), the start-up discharge timer with the walk over
the steps that wait for it (R79), a duty timer (R82) and the yard timer (R87, R88). -/

namespace Sys2Proof.Machine

section
variable (i : StepIx) (s : State)

/-- A timer whose reading has come has run out. -/
theorem expired_of {t : Option Nat} {due : Nat} (runs : t = some due) (passed : due ≤ s.now) : expired s t = true := by
  subst runs
  exact decide_eq_true passed

/-- A step that leaves DISCHARGING for READY has none of the three fields that follow other states. -/
theorem toReady_step : (toReady i s).step i
    = { s.step i with state := .ready, basis := none, cause := none, energizedAt := none } :=
  moveStep_step_self ..

/-- A step that leaves DISCHARGING for READY enters the ready ring at its tail. -/
theorem toReady_ring (was : (s.step i).state = .discharging) : (toReady i s).st.ring = s.st.ring ++ [i] := by
  rw [toReady, moveStep_st, move_ring, if_neg (by rw [show (s.st.steps.get i).state = _ from was]; decide), if_pos rfl]

theorem toReady_service (was : (s.step i).state = .discharging) : (toReady i s).st.service = s.st.service := by
  rw [toReady, moveStep_st, move_service, if_neg (by rw [show (s.st.steps.get i).state = _ from was]; decide),
    if_neg (by decide), List.append_nil]

end

/-! ### The walk at the end of the start-up discharge (R79) -/

/-- The step waits for the start-up discharge timer. -/
def State.awaitsStartUp (s : State) (i : StepIx) : Bool :=
  (s.step i).state == .discharging && (s.step i).basis == some .startUp

/-- The state in which the walk stands when it has taken the steps of a list. -/
structure ReleasedTo (s : State) (taken : List StepIx) (u : State) : Prop where
  cdu : u.cdu = s.cdu
  step : ∀ i, u.step i = if i ∈ taken ∧ s.awaitsStartUp i = true then
    { s.step i with state := .ready, basis := none, cause := none, energizedAt := none } else s.step i
  ring : u.st.ring = s.st.ring ++ taken.filter s.awaitsStartUp
  service : u.st.service = s.st.service

section
variable {s u : State} {taken : List StepIx} {i : StepIx}

theorem awaitsStartUp_iff :
    s.awaitsStartUp i = true ↔ (s.step i).state = .discharging ∧ (s.step i).basis = some .startUp := by
  simp [State.awaitsStartUp]

/-- A step that waits goes to READY, at the tail of the ready ring. -/
theorem ReleasedTo.waits (fresh : i ∉ taken) (r : ReleasedTo s taken u) (waits : s.awaitsStartUp i = true) :
    ReleasedTo s (taken ++ [i]) (releaseStartUp i u) := by
  have self : u.step i = s.step i := (r.step i).trans (if_neg (fun h => fresh h.1))
  have was : (u.step i).state = .discharging ∧ (u.step i).basis = some .startUp := self ▸ awaitsStartUp_iff.mp waits
  rw [releaseStartUp, if_pos was]
  refine ⟨(moveStep_cdu ..).trans r.cdu, fun j => ?_, ?_, (toReady_service i u was.1).trans r.service⟩
  · by_cases same : j = i
    · subst same
      rw [toReady_step, self, if_pos ⟨by simp, waits⟩]
    · rw [toReady, moveStep_step_ne _ _ _ _ _ same, r.step]
      simp [same]
  · rw [toReady_ring i u was.1, r.ring]
    simp [waits]

/-- Any other step is left as it is. -/
theorem ReleasedTo.stays (fresh : i ∉ taken) (r : ReleasedTo s taken u) (free : ¬s.awaitsStartUp i = true) :
    ReleasedTo s (taken ++ [i]) (releaseStartUp i u) := by
  have self : u.step i = s.step i := (r.step i).trans (if_neg (fun h => fresh h.1))
  rw [releaseStartUp, if_neg (by rw [self]; exact fun h => free (awaitsStartUp_iff.mpr h))]
  refine ⟨r.cdu, fun j => (r.step j).trans ?_, ?_, r.service⟩
  · by_cases same : j = i
    · subst same
      simp [free]
    · simp [same]
  · rw [r.ring]
    simp [free]

/-- The walk takes the steps of a list. -/
theorem ReleasedTo.walk (s : State) (is : List StepIx) (distinct : is.Nodup) :
    ReleasedTo s is (is.foldl (fun t i => releaseStartUp i t) s) := by
  induction is using List.reverseRecOn with
  | nil => exact ⟨rfl, fun i => by simp, by simp, rfl⟩
  | append_singleton taken i ih =>
    obtain ⟨before, -, apart⟩ := List.nodup_append.mp distinct
    have fresh : i ∉ taken := fun mem => apart i mem i List.mem_cons_self rfl
    rw [List.foldl_append]
    by_cases waits : s.awaitsStartUp i = true
    · exact (ih before).waits fresh waits
    · exact (ih before).stays fresh waits

end

/-! ### The expiries -/

section
variable {s : State}

/-- The flag at the end of the start-up discharge: YES for every step whose own timer is stopped. -/
def State.startUpStopped (s : State) : State :=
  s.onCdu (fun c => { c with
    startUp := .over
    steps := Tab.build (fun i => { c.steps.get i with
      discharged := if (c.steps.get i).discharge = none then true else (c.steps.get i).discharged }) })

theorem startUpEnds_released (s : State) : ReleasedTo s.startUpStopped allSteps (startUpEnds s) :=
  ReleasedTo.walk s.startUpStopped allSteps (by decide)

theorem startUpEnds_startUp : (startUpEnds s).cdu.startUp = .over :=
  congrArg Cooldown.startUp (startUpEnds_released s).cdu

theorem startUpEnds_cd (i : StepIx) : (startUpEnds s).cd i = { s.cd i with
    discharged := if (s.cd i).discharge = none then true else (s.cd i).discharged } :=
  (congrArg (fun c => c.steps.get i) (startUpEnds_released s).cdu).trans (Tab.get_build ..)

/-- A step that waits goes to READY and loses its basis. -/
theorem startUpEnds_waiting {i : StepIx} (waits : s.awaitsStartUp i = true) :
    ((startUpEnds s).step i).state = .ready ∧ ((startUpEnds s).step i).basis = none := by
  rw [(startUpEnds_released s).step, if_pos ⟨mem_allSteps i, waits⟩]
  exact ⟨rfl, rfl⟩

theorem startUpEnds_other {i : StepIx} (free : ¬s.awaitsStartUp i = true) : (startUpEnds s).step i = s.step i :=
  ((startUpEnds_released s).step i).trans (if_neg (fun h => free h.2))

theorem startUpOver_of {due : Nat} (runs : s.cdu.startUp = .running due) (passed : due ≤ s.now) :
    s.startUpOver = true := by
  simp [State.startUpOver, runs, passed]

end

/-- Settles O50: each timer by its expiry; the start-up discharge by its walk over the steps. -/
theorem cooldownTimersRunOut : Obligations.CooldownTimersRunOut := by
  intro s running
  refine ⟨fun i due runs passed => ?discharge, fun due runs passed => ?startUp, fun i due runs passed => ?duty,
    fun due runs passed => ?yard⟩
  case discharge =>
    intro out
    have ends : exec (.dischargeExpiry i) s = .next (dischargeEnds i s) :=
      live_occurs running (expired_of s runs passed)
    refine ⟨fun was own => ⟨toReady i out, ends.trans ?_, moveStep_cdu .., toReady_step i out,
      fun j ne => moveStep_step_ne _ _ _ _ _ ne, toReady_ring i out was, toReady_service i out was⟩,
      fun free => ends.trans ?_⟩
    · exact congrArg _ (if_pos ⟨was, own⟩)
    · exact congrArg _ (if_neg (fun h => free.elim (· h.1) (· h.2)))
  case startUp =>
    have released := startUpEnds_released s
    exact ⟨startUpEnds s, live_occurs running (startUpOver_of runs passed), startUpEnds_startUp, startUpEnds_cd,
      fun i => ⟨fun waits => startUpEnds_waiting (awaitsStartUp_iff.mpr waits),
        fun free => startUpEnds_other (fun h => free (awaitsStartUp_iff.mp h))⟩, released.ring, released.service⟩
  case duty => exact live_occurs running (expired_of s runs passed)
  case yard => exact live_occurs running (expired_of s runs passed)

end Sys2Proof.Machine
end

