-- ==== Sys2Proof/Proofs/Band.lean ====
section
/-! PROOFS. The band step of a posting (R100): the accumulators, the two searches (R103, R105), the decision
(R102, R104 to R106) and the commands that name it; and how NO_CANDIDATE starts and ends (R88, R106). -/

namespace Sys2Proof.Machine

/-! ### The accumulators (R100) -/

/-- What a band step leaves of the insertion accumulator. -/
def State.belowAfter (s : State) (volts e : Nat) : Nat :=
  if volts < s.y .vl then min (s.vrg.below + e) (s.ySec .ti)
  else if s.y .vh < volts then 0 else s.vrg.below - e

/-- What a band step leaves of the removal accumulator. -/
def State.aboveAfter (s : State) (volts e : Nat) : Nat :=
  if volts < s.y .vl then 0
  else if s.y .vh < volts then min (s.vrg.above + e) (s.ySec .tr) else s.vrg.above - e

section
variable {m : MeasRecord} {e volts : Nat} {s : State}

theorem bandAdvance_eq : bandAdvance m e s = { s with vrg := { s.vrg with
    below := s.belowAfter m.mean e, above := s.aboveAfter m.mean e } } := by
  have band : s.vrg.band s.su.active m.mean e = { s.vrg with
      below := s.belowAfter m.mean e, above := s.aboveAfter m.mean e } := by
    unfold State.belowAfter State.aboveAfter
    by_cases low : m.mean < s.y .vl
    · rw [if_pos low, if_pos low]
      exact if_pos low
    · rw [if_neg low, if_neg low]
      refine (if_neg low).trans ?_
      by_cases high : s.y .vh < m.mean
      · rw [if_pos high, if_pos high]
        exact if_pos high
      · rw [if_neg high, if_neg high]
        exact if_neg high
  exact congrArg (fun v => { s with vrg := v }) band

theorem bandStep_watch (watch : s.vrg.reg = .watch) : bandStep m e s = decide_ m.mean (bandAdvance m e s) := if_pos watch

theorem bandStep_elsewhere (away : s.vrg.reg ≠ .watch) : bandStep m e s = s := if_neg away

/-! ### The insertion search (R103) -/

/-- The four tests of R103 on a step of the ready ring. -/
def State.InsertFits (s : State) (volts : Nat) (i : StepIx) : Prop :=
  (∀ x ∈ s.swu.queue, x.step ≠ i) ∧ (s.cd i).duty + 2 ≤ s.y .dutyLimit
    ∧ (∀ q, s.marked i q = true → (s.qty q).state = .normal) ∧ volts + s.rise i ≤ s.y .vh

theorem one_le_rank_iff (h : HarmState) : 1 ≤ h.rank ↔ h ≠ .normal := by cases h <;> decide

theorem resonanceHit_false_iff (i : StepIx) :
    s.resonanceHit i = false ↔ ∀ q, s.marked i q = true → (s.qty q).state = .normal := by
  simp [State.resonanceHit, one_le_rank_iff]

theorem insertable_iff (i : StepIx) : s.insertable volts i = true ↔ s.InsertFits volts i := by
  simp [State.insertable, State.InsertFits, resonanceHit_false_iff, State.queued, dutyOk_iff, and_assoc]

/-- The first element that passes is the one that a search finds. -/
theorem find?_split {α : Type} {p : α → Bool} {xs passed rest : List α} {x : α} (split : xs = passed ++ x :: rest)
    (fails : ∀ y ∈ passed, ¬p y = true) (fits : p x = true) : xs.find? p = some x :=
  List.find?_eq_some_iff_append.mpr ⟨fits, passed, rest, split, fun y mem => by simpa using fails y mem⟩

theorem insertChoice_none (fails : ∀ i ∈ s.st.ring, ¬s.InsertFits volts i) : s.insertChoice volts = none :=
  List.find?_eq_none.mpr (fun i mem h => fails i mem ((insertable_iff i).mp h))

theorem insertChoice_some {i : StepIx} {passed rest : List StepIx} (ring : s.st.ring = passed ++ i :: rest)
    (fails : ∀ j ∈ passed, ¬s.InsertFits volts j) (fits : s.InsertFits volts i) : s.insertChoice volts = some i :=
  find?_split ring (fun j mem h => fails j mem ((insertable_iff j).mp h)) ((insertable_iff i).mpr fits)

/-! ### The removal search (R105) -/

theorem removeChoice_none (fails : ∀ i ∈ s.st.service, ¬s.y .vl + s.rise i ≤ volts) : s.removeChoice volts = none :=
  List.find?_eq_none.mpr (fun i mem h => fails i mem (of_decide_eq_true h))

theorem removeChoice_some {i : StepIx} {passed rest : List StepIx} (service : s.st.service = passed ++ i :: rest)
    (fails : ∀ j ∈ passed, ¬s.y .vl + s.rise j ≤ volts) (fits : s.y .vl + s.rise i ≤ volts) :
    s.removeChoice volts = some i :=
  find?_split service (fun j mem h => fails j mem (of_decide_eq_true h)) (decide_eq_true fits)

/-! ### The decision (R102, R104 to R106) -/

theorem insertSuppressed_iff : s.insertSuppressed = true
    ↔ s.harmBlock = true ∨ s.blockInsert = true ∨ s.y .yardLimit ≤ s.cdu.budget := by
  simp [State.insertSuppressed, State.budgetExhausted, or_assoc]

theorem decide_short (below : s.vrg.below ≠ s.ySec .ti) (above : s.vrg.above ≠ s.ySec .tr) :
    decide_ volts s = endNoCandidate s := by
  simp [decide_, State.insertWanted, State.removeWanted, below, above]

/-- With the insert delay full the insertion search decides, unless it is suppressed. -/
theorem decide_insert (full : s.vrg.below = s.ySec .ti) : decide_ volts s
    = if s.insertSuppressed then s else afterSearch .close (s.insertChoice volts) s := by
  simp [decide_, State.insertWanted, full]

/-- With the remove delay alone full the removal search decides, unless the yard budget is exhausted. -/
theorem decide_remove (below : s.vrg.below ≠ s.ySec .ti) (full : s.vrg.above = s.ySec .tr) : decide_ volts s
    = if s.budgetExhausted then s else afterSearch .opening (s.removeChoice volts) s := by
  simp [decide_, State.insertWanted, State.removeWanted, below, full]

section
variable (full : s.vrg.below = s.ySec .ti)
include full

theorem decide_insert_suppressed (h : s.harmBlock = true ∨ s.blockInsert = true ∨ s.y .yardLimit ≤ s.cdu.budget) :
    decide_ volts s = s := (decide_insert full).trans (if_pos (insertSuppressed_iff.mpr h))

variable (free : ¬(s.harmBlock = true ∨ s.blockInsert = true ∨ s.y .yardLimit ≤ s.cdu.budget))
include free

theorem decide_insert_searches : decide_ volts s = afterSearch .close (s.insertChoice volts) s :=
  (decide_insert full).trans (if_neg (fun h => free (insertSuppressed_iff.mp h)))

theorem decide_insert_none (fails : ∀ i ∈ s.st.ring, ¬s.InsertFits volts i) : decide_ volts s = startNoCandidate s := by
  rw [decide_insert_searches full free, insertChoice_none fails]
  rfl

theorem decide_insert_some {i : StepIx} {passed rest : List StepIx} (ring : s.st.ring = passed ++ i :: rest)
    (fails : ∀ j ∈ passed, ¬s.InsertFits volts j) (fits : s.InsertFits volts i) :
    decide_ volts s = regulate i .close s := by
  rw [decide_insert_searches full free, insertChoice_some ring fails fits]
  rfl

end

section
variable (below : s.vrg.below ≠ s.ySec .ti) (full : s.vrg.above = s.ySec .tr)
include below full

theorem decide_remove_suppressed (spent : s.y .yardLimit ≤ s.cdu.budget) : decide_ volts s = s :=
  (decide_remove below full).trans (if_pos (budgetExhausted_iff.mpr spent))

variable (free : ¬s.y .yardLimit ≤ s.cdu.budget)
include free

theorem decide_remove_searches : decide_ volts s = afterSearch .opening (s.removeChoice volts) s :=
  (decide_remove below full).trans (if_neg (fun h => free (budgetExhausted_iff.mp h)))

theorem decide_remove_none (fails : ∀ i ∈ s.st.service, ¬s.y .vl + s.rise i ≤ volts) :
    decide_ volts s = startNoCandidate s := by
  rw [decide_remove_searches below full free, removeChoice_none fails]
  rfl

theorem decide_remove_some {i : StepIx} {passed rest : List StepIx} (service : s.st.service = passed ++ i :: rest)
    (fails : ∀ j ∈ passed, ¬s.y .vl + s.rise j ≤ volts) (fits : s.y .vl + s.rise i ≤ volts) :
    decide_ volts s = regulate i .opening s := by
  rw [decide_remove_searches below full free, removeChoice_some service fails fits]
  rfl

end

end

/-! ### The commands on a posting -/

section
variable {l : Link} {bs : List Byte} {s u w t : State} {m : MeasRecord} {e : Nat}
variable (running : s.resetHeld = none) (p : s.posting l bs = some (m, e, u))
include running p

/-- The consumers of a posting after the band step. -/
theorem measFrame_posted (band : bandStep m e (vrgGuards m e u) = t) :
    exec (.measFrame l bs) s = .next (ubpPosting m e (hsvPosting m t)) := by
  obtain ⟨-, -, -, -, handled⟩ := posting_eq p
  subst band
  exact (live_eq _ running).trans (congrArg _ handled)

/-- A command that names an occurrence on a posting is the posting where the occurrence stands. -/
theorem onPosting_posted {occurs : State → Bool} (stands : occurs s = true) :
    live s (onPosting l bs occurs) = exec (.measFrame l bs) s := by
  obtain ⟨⟨gap, -⟩, -⟩ := posting_eq p
  have same : gapTaken l s = s := gapTaken_eq gap
  rw [live_eq _ running, onPosting_true (by rw [same]; exact stands), same]
  exact (live_eq _ running).symm

variable (watch : (vrgGuards m e u).vrg.reg = .watch) (advanced : bandAdvance m e (vrgGuards m e u) = w)
include watch advanced

omit running in
theorem bandTaken_posted : s.bandTaken l bs = some w := by
  simp [State.bandTaken, p, watch, advanced]

/-- In WATCH a posting is handled by what the band step decides. -/
theorem measFrame_decided (decided : decide_ m.mean w = t) :
    exec (.measFrame l bs) s = .next (ubpPosting m e (hsvPosting m t)) :=
  measFrame_posted running p (by rw [bandStep_watch watch, advanced, decided])

theorem insertDelayReached_decided (full : w.vrg.below = w.ySec .ti) (decided : decide_ m.mean w = t) :
    exec (.insertDelayReached l bs) s = .next (ubpPosting m e (hsvPosting m t)) :=
  (onPosting_posted running p (by rw [bandTaken_posted p watch advanced]; exact decide_eq_true full)).trans
    (measFrame_decided running p watch advanced decided)

theorem removeDelayReached_decided (full : w.vrg.above = w.ySec .tr) (decided : decide_ m.mean w = t) :
    exec (.removeDelayReached l bs) s = .next (ubpPosting m e (hsvPosting m t)) :=
  (onPosting_posted running p (by rw [bandTaken_posted p watch advanced]; exact decide_eq_true full)).trans
    (measFrame_decided running p watch advanced decided)

end

/-! ### NO_CANDIDATE (R88, R106) -/

section
variable {s : State}

theorem startNoCandidate_off (off : s.vrg.noCandidate = false) : startNoCandidate s
    = condition .noCandidate true (reportClass .regLimit true none 1 0
        { s with vrg := { s.vrg with noCandidate := true } }) := by
  rw [startNoCandidate, off]
  rfl

theorem startNoCandidate_on (on : s.vrg.noCandidate = true) : startNoCandidate s = s := if_pos on

theorem endNoCandidate_off (off : s.vrg.noCandidate = false) : endNoCandidate s = s := by
  rw [endNoCandidate, off]
  rfl

/-- The end of NO_CANDIDATE ends REG_LIMIT too, unless the yard budget is exhausted. -/
theorem endNoCandidate_on (on : s.vrg.noCandidate = true) :
    let off : State := { s with
      vrg := { s.vrg with noCandidate := false }
      evr := { s.evr with active := Tab.put s.evr.active Source.noCandidate.ix false } }
    endNoCandidate s = if s.y .yardLimit ≤ s.cdu.budget then off else reportClass .regLimit false none 0 0 off := by
  intro off
  have limit : off.regLimitCondition = decide (s.y .yardLimit ≤ s.cdu.budget) := Bool.or_false _
  have ends : endNoCandidate s = if off.regLimitCondition then off else reportClass .regLimit false none 0 0 off :=
    if_pos on
  simp only [ends, limit, decide_eq_true_eq]

end

/-- Settles O53: the band step, its decision with each search, then NO_CANDIDATE. -/
theorem bandDelaysDecide : Obligations.BandDelaysDecide := by
  refine ⟨fun l bs s u m e running p => ?posting, fun x => ?noCandidate⟩
  case posting =>
    intro v volts below above w after raised spent
    have advanced : bandAdvance m e v = w := bandAdvance_eq
    refine ⟨fun away => measFrame_posted running p (bandStep_elsewhere away), fun watch =>
      ⟨fun notBelow notAbove => measFrame_decided running p watch advanced (decide_short notBelow notAbove),
        fun full => ?insert, fun notBelow full => ?remove⟩⟩
    case insert =>
      intro suppressed fits
      have decides : ∀ t, decide_ volts w = t → exec (.insertDelayReached l bs) s = after t :=
        fun t => insertDelayReached_decided running p watch advanced full
      exact ⟨fun h => decides w (decide_insert_suppressed (s := w) full h),
        fun free none => decides _ (decide_insert_none (s := w) full free none),
        fun free i passed rest ring fails first => decides _ (decide_insert_some (s := w) full free ring fails first)⟩
    case remove =>
      intro fits
      have decides : ∀ t, decide_ volts w = t → exec (.removeDelayReached l bs) s = after t :=
        fun t => removeDelayReached_decided running p watch advanced full
      exact ⟨fun h => decides w (decide_remove_suppressed (s := w) notBelow full h),
        fun free none => decides _ (decide_remove_none (s := w) notBelow full free none),
        fun free i passed rest service fails first =>
          decides _ (decide_remove_some (s := w) notBelow full free service fails first)⟩
  case noCandidate =>
    intro on off
    exact ⟨fun inactive => ⟨startNoCandidate_off inactive, endNoCandidate_off inactive⟩,
      fun active => ⟨startNoCandidate_on active, fun full => (endNoCandidate_on active).trans (if_pos full),
        fun short => (endNoCandidate_on active).trans (if_neg (Nat.not_le.mpr short))⟩⟩

end Sys2Proof.Machine
end

