-- ==== Sys2Proof/Proofs/Hold.lean ====
section
/-! PROOFS. The regulator's hold (R94 to R98): every step keeps it where the mode and the hold causes put it, what a
hold cause that starts or ends does, and the end of the start-up hold with the arming of the steps that await it
(R140). -/

namespace Sys2Proof.Machine

/-! ### What every step keeps (R94, R95) -/

/-- A full reset ends in HOLD with the hold causes NO_SOURCE and START_UP (R119). -/
theorem restart_holdSound (cause : ResetCause) (b1 b0 : Bool) (s : State) : (restart cause b1 b0 s).holdSound :=
  ⟨fun _ => .inr rfl, fun _ => rfl⟩

theorem holdSound_kept : Kept State.holdSound where
  effect _ _ := Effect.holdSound
  begins _ _ p := p
  ends cause b1 b0 s _ := restart_holdSound cause b1 b0 s
  ticks _ p := p
  queue _ _ p := p

/-- Settles O14: every effect that writes the mode or a hold cause puts the regulator where they want it, no other
moves it into HOLD or out of it, and a full reset loads it held. -/
theorem regulatorHoldsExactlyWithACause : Obligations.RegulatorHoldsExactlyWithACause :=
  fun _ _ => holdSound_kept.step

/-! ### The set of hold causes (R95) -/

theorem has_put (h : HoldSet) (c d : HoldCause) (b : Bool) : (h.put c b).has d = if d = c then b else h.has d := by
  cases c <;> cases d <;> rfl

theorem any_iff (h : HoldSet) : h.any = true ↔ ∃ c, h.has c = true := by
  constructor
  · intro some
    simp only [HoldSet.any, Bool.or_eq_true] at some
    obtain ((((c | c) | c) | c) | c) | c := some
    exacts [⟨.noSource, c⟩, ⟨.switchover, c⟩, ⟨.disagree, c⟩, ⟨.freeze, c⟩, ⟨.startUp, c⟩, ⟨.lossOfVoltage, c⟩]
  · rintro ⟨c, stands⟩
    cases c <;> simp only [HoldSet.has] at stands <;> simp [HoldSet.any, stands]

/-! ### A hold cause that starts or ends (R95 to R97) -/

section
variable {v : Regulator}

/-- A regulator that runs goes into HOLD where the mode or a hold cause stops it. -/
theorem settled_stops (stops : v.mode ≠ .auto ∨ v.holds.any = true) (runs : v.reg ≠ .hold) :
    v.settled = v.toHold := by
  refine (if_neg ?_).trans (if_neg runs)
  rintro ⟨auto, free⟩
  simp [auto, free] at stops

/-- A regulator that runs is left as it is in AUTO while no hold cause stands. -/
theorem settled_runs (free : ¬(v.mode ≠ .auto ∨ v.holds.any = true)) (runs : v.reg ≠ .hold) : v.settled = v := by
  obtain ⟨auto, clear⟩ := not_or.mp free
  exact (if_pos ⟨not_not.mp auto, Bool.eq_false_iff.mpr clear⟩).trans (if_neg runs)

end

section
variable {s : State} {c : HoldCause} {b : Bool}

/-- The regulator's record with one hold cause started or ended, before the regulator follows. -/
def State.holding (s : State) (c : HoldCause) (b : Bool) : Regulator := { s.vrg with holds := s.vrg.holds.put c b }

/-- The regulator follows without a withdrawal, unless it goes into HOLD. -/
theorem setHold_stays (stays : s.vrg.reg ≠ .hold → (s.holding c b).settled.reg ≠ .hold) :
    setHold c b s = { s with vrg := (s.holding c b).settled } := if_neg (fun h => stays h.1 h.2)

theorem setHold_starts (stops : s.vrg.mode ≠ .auto ∨ (s.vrg.holds.put c b).any = true) (runs : s.vrg.reg ≠ .hold) :
    setHold c b s = withdrawRegulation (endNoCandidate { s with vrg := (s.holding c b).toHold }) := by
  have follows : (s.holding c b).settled = (s.holding c b).toHold := settled_stops stops runs
  calc setHold c b s = dropRegulation { s with vrg := (s.holding c b).settled } :=
        if_pos ⟨runs, (congrArg Regulator.reg follows :)⟩
    _ = withdrawRegulation (endNoCandidate { s with vrg := (s.holding c b).toHold }) := by rw [follows]; rfl

theorem setHold_ends (free : ¬(s.vrg.mode ≠ .auto ∨ (s.vrg.holds.put c b).any = true)) (held : s.vrg.reg = .hold) :
    setHold c b s = { s with vrg := (s.holding c b).toWatch } := by
  obtain ⟨auto, clear⟩ := not_or.mp free
  rw [setHold_stays (fun runs => absurd held runs),
    settled_watch (v := s.holding c b) (not_not.mp auto) (Bool.eq_false_iff.mpr clear) held]

theorem setHold_same (sound : (s.vrg.mode ≠ .auto ∨ (s.vrg.holds.put c b).any = true) ↔ s.vrg.reg = .hold) :
    setHold c b s = { s with vrg := s.holding c b } := by
  have same : (s.holding c b).settled = s.holding c b := by
    by_cases held : s.vrg.reg = .hold
    · exact settled_held (v := s.holding c b) (sound.mpr held) held
    · exact settled_runs (v := s.holding c b) (fun stops => held (sound.mp stops)) held
  rw [setHold_stays (fun runs => by rw [same]; exact runs), same]

end

/-! ### The end of the start-up hold (R98, R140) -/

/-- The unbalance record of a step as the end of the start-up hold leaves it. -/
def UbpStep.armedAtEnd (r : UbpStep) : UbpStep :=
  if r.eval = .awaitHold then { r with eval := .armed, arming := none } else r

theorem UbpStep.armedAtEnd_twice (r : UbpStep) : r.armedAtEnd.armedAtEnd = r.armedAtEnd := by
  by_cases waits : r.eval = .awaitHold <;> simp [UbpStep.armedAtEnd, waits]

theorem armAwaiting_ub (i j : StepIx) (s : State) :
    (armAwaiting i s).ub j = if j = i then (s.ub i).armedAtEnd else s.ub j := by
  unfold armAwaiting UbpStep.armedAtEnd
  split
  · exact onUb_ub ..
  · exact eq_ite_self s.ub i j

/-- The walk arms each step of a list that waits. -/
theorem armAwaiting_walk (is : List StepIx) (s : State) (i : StepIx) :
    (is.foldl (fun t j => armAwaiting j t) s).ub i = if i ∈ is then (s.ub i).armedAtEnd else s.ub i := by
  induction is generalizing s with
  | nil => rfl
  | cons j is ih =>
    rw [List.foldl_cons, ih, armAwaiting_ub]
    by_cases own : i = j
    · subst own
      simp [UbpStep.armedAtEnd_twice]
    · simp [own]

/-- The walk writes the unbalance records and nothing else. -/
theorem armAwaiting_walk_rest (is : List StepIx) (s : State) : is.foldl (fun t j => armAwaiting j t) s
    = { s with ubp := { s.ubp with steps := (is.foldl (fun t j => armAwaiting j t) s).ubp.steps } } := by
  have kept := foldl_keeps (fun t : State => { t with ubp := { t.ubp with steps := s.ubp.steps } })
    (fun t j => armAwaiting j t) (fun t j => by unfold armAwaiting; split <;> rfl) is s
  exact congrArg (fun t : State => { t with ubp := { t.ubp with
    steps := (is.foldl (fun t j => armAwaiting j t) s).ubp.steps } }) kept

theorem startHoldOver_of {s : State} {due : Nat} (runs : s.vrg.startHold = .running due) (passed : due ≤ s.now) :
    s.startHoldOver = true := by
  simp [State.startHoldOver, runs, passed]

/-- Settles O51: the regulator by where the mode and the hold causes put it, then the walk over the steps that await
the start-up hold. -/
theorem holdCausesMoveTheRegulator : Obligations.HoldCausesMoveTheRegulator := by
  intro s
  refine ⟨fun c b => ⟨fun d => has_put _ c d b, any_iff _, setHold_starts, setHold_ends, setHold_same⟩,
    fun due running runs passed => ?expiry⟩
  case expiry =>
    exact ⟨_, live_occurs running (startHoldOver_of runs passed), armAwaiting_walk_rest ..,
      fun i => (armAwaiting_walk ..).trans (if_pos (mem_allSteps i))⟩

end Sys2Proof.Machine
end

