-- ==== Sys2Proof/Proofs/StoreImage.lean ====
section
/-! PROOFS. What a full reset loads from the store image, valid or not (R91, R150, R179, R194, R199, R201 to R203). -/

namespace Sys2Proof.Machine

/-! ### The image that is loaded (R194, R202) -/

section
variable {s : State}

theorem loadedImage_valid {img : StoreImage} (holds : s.su.image = some img) (valid : img.valid = true) :
    s.loadedImage = some img := by
  simp [State.loadedImage, holds, valid]

theorem loadedImage_invalid (invalid : ∀ img, s.su.image = some img → img.valid = false) : s.loadedImage = none :=
  Option.filter_eq_none_iff.mpr fun img holds => by simp [invalid img holds]

end

section
variable (cause : ResetCause) (b1 b0 : Bool) (s : State)

theorem restart_rise (i : StepIx) : ((restart cause b1 b0 s).vrg.steps.get i).rise
    = match s.loadedImage with | none => none | some x => x.rises.get i :=
  congrArg VrgStep.rise (Tab.get_build ..)

variable {s}

/-! ### From a valid image (R150, R179) -/

section
variable {img : StoreImage} (loaded : s.loadedImage = some img)
include loaded

theorem restart_notice_valid (c : NoticeClass) : (restart cause b1 b0 s).notice c =
    ⟨false, (img.notices.get c.ix).1, (img.notices.get c.ix).2, 0, none, false⟩ := by
  show (loadedNotices s.loadedImage).get c.ix = _
  rw [loaded]
  exact Tab.get_build ..

/-- No condition source is active, STORE_FAULT among them. -/
theorem restart_storeFault_valid : (restart cause b1 b0 s).sourceActive .storeFault = false := by
  show (loadedRouter s.loadedImage).active.get _ = false
  rw [loaded]
  exact Tab.get_build ..

theorem restart_routes_valid : (restart cause b1 b0 s).evr.routes = img.routes := by
  show (loadedRouter s.loadedImage).routes = _
  rw [loaded]
  rfl

theorem restart_step_valid (i : StepIx) :
    ((restart cause b1 b0 s).ub i).baseline = (img.baselines.get i).map (fun b => ⟨b.1, b.2, false⟩)
      ∧ ((restart cause b1 b0 s).vrg.steps.get i).rise = img.rises.get i
      ∧ ((restart cause b1 b0 s).sw i).opCount = img.opCounts.get i := by
  rw [restart_ub, restart_rise, restart_sw, loaded]
  exact ⟨rfl, rfl, rfl⟩

end

/-! ### From the factory defaults (R159, R179, R199) -/

section
variable (absent : s.loadedImage = none)
include absent

/-- The STORE class has taken the edge of the invalid image, every other class is as the factory sets it. -/
theorem restart_notice_invalid (c : NoticeClass) :
    (restart cause b1 b0 s).notice c = if c = .store then Reset.storeNotice else Reset.notice c.ix := by
  show (loadedNotices s.loadedImage).get c.ix = _
  rw [absent]
  refine (Tab.get_build ..).trans ?_
  simp only [ix_inj]

theorem restart_storeFault_invalid : (restart cause b1 b0 s).sourceActive .storeFault = true := by
  show (loadedRouter s.loadedImage).active.get _ = true
  rw [absent]
  exact Tab.get_build ..

theorem restart_route_invalid (src : Source) : (restart cause b1 b0 s).route src = .none := by
  show (loadedRouter s.loadedImage).routes.get _ = _
  rw [absent]
  exact Tab.get_build ..

theorem restart_step_invalid (i : StepIx) : ((restart cause b1 b0 s).ub i).baseline = none
    ∧ ((restart cause b1 b0 s).vrg.steps.get i).rise = none ∧ ((restart cause b1 b0 s).sw i).opCount = 0 := by
  rw [restart_ub, restart_rise, restart_sw, absent]
  exact ⟨rfl, rfl, rfl⟩

end

end

/-- The factory priority of a class: the first four are the most urgent (R179). -/
theorem factory_priority (c : NoticeClass) : (Reset.notice c.ix).priority = if c.number ≤ 4 then 0 else 1 := rfl

/-- Settles O5: block by block, for the image where it is valid, and for the factory defaults. -/
theorem fullResetLoadsTheStoreImage : Obligations.FullResetLoadsTheStoreImage := by
  intro cause b1 b0 s
  refine ⟨restart cause b1 b0 s, rfl, fun img holds valid => ?valid, fun invalid => ?invalid, rfl, rfl, rfl, rfl, rfl,
    rfl, rfl, rfl, rfl⟩
  case valid =>
    have loaded := loadedImage_valid holds valid
    have notice := restart_notice_valid cause b1 b0 loaded
    refine ⟨congrArg loadedSettings loaded, congrArg loadedMode loaded, restart_routes_valid cause b1 b0 loaded,
      fun c => ?_, restart_step_valid cause b1 b0 loaded, loaded, congrArg Option.isSome loaded,
      congrArg Option.isNone loaded, restart_storeFault_valid cause b1 b0 loaded, fun c => ?_⟩
    · rw [notice]
      exact ⟨rfl, rfl⟩
    · rw [notice]
      exact ⟨rfl, rfl, rfl, rfl⟩
  case invalid =>
    have absent := loadedImage_invalid invalid
    have notice := restart_notice_invalid cause b1 b0 absent
    refine ⟨congrArg loadedSettings absent, congrArg loadedMode absent, restart_route_invalid cause b1 b0 absent,
      fun c => ?_, restart_step_invalid cause b1 b0 absent, absent, congrArg Option.isSome absent,
      congrArg Option.isNone absent, restart_storeFault_invalid cause b1 b0 absent, notice .store, fun c other => ?_⟩
    · rw [notice]
      by_cases store : c = .store
      · subst store
        exact ⟨rfl, rfl⟩
      · rw [if_neg store]
        exact ⟨factory_priority c, rfl⟩
    · rw [notice, if_neg other]
      exact ⟨rfl, rfl, rfl, rfl⟩

end Sys2Proof.Machine
end

