-- ==== Sys2Proof/Proofs/HostRequests.lean ====
section
/-! PROOFS. A request in its frame: what the fields of a host frame read back (R204, R205), that a request's operands
are read back from its payload (R206), and that its frame is answered (R116, R172, R173, R175, R176). -/

namespace Sys2Proof.Machine

/-! ### The fields of a host frame (R205) -/

section
variable {ty : Nat} {tag : Byte} {payload : List Byte}

/-- The bytes of a host frame that the check value covers. -/
def hostBody (ty : Nat) (tag : Byte) (payload : List Byte) : List Byte := u8 payload.length ++ u8 ty ++ [tag] ++ payload

theorem hostBody_length : (hostBody ty tag payload).length = payload.length + 3 := by
  simp only [hostBody, List.length_append, u8_length, List.length_singleton]
  omega

theorem hostFrameOf_eq : hostFrameOf ty tag payload
    = u8 0xA5 ++ hostBody ty tag payload ++ u16 (crc16 (hostBody ty tag payload)).toNat := rfl

theorem hostFrameOf_length : (hostFrameOf ty tag payload).length = payload.length + 6 := by
  simp only [hostFrameOf_eq, List.length_append, hostBody_length, u8_length, u16_length]
  omega

/-- One byte read as a field. -/
theorem readBytes_u8 {n : Nat} (small : n < 256) : readBytes (u8 n) = n := by
  simp [readBytes, u8, Nat.mod_eq_of_lt small]

/-- Two bytes read as a field. -/
theorem readBytes_u16 {n : Nat} (small : n < 65536) : readBytes (u16 n) = n := by
  simp only [readBytes, u16, List.foldl_cons, List.foldl_nil, BitVec.toNat_ofNat]
  omega

theorem hostFrameOf_start : field (hostFrameOf ty tag payload) 0 1 = 0xA5 := rfl

theorem hostFrameOf_tag : hostTag (hostFrameOf ty tag payload) = tag := by
  show BitVec.ofNat 8 (readBytes [tag]) = tag
  simp [readBytes]

theorem hostFrameOf_type (small : ty < 256) : hostType (hostFrameOf ty tag payload) = ty := readBytes_u8 small

theorem hostFrameOf_covered :
    ((hostFrameOf ty tag payload).drop 1).take (3 + payload.length) = hostBody ty tag payload := by
  have after : (hostFrameOf ty tag payload).drop 1
      = hostBody ty tag payload ++ u16 (crc16 (hostBody ty tag payload)).toNat := rfl
  rw [after, List.take_left' (by rw [hostBody_length, Nat.add_comm])]

theorem hostFrameOf_check :
    field (hostFrameOf ty tag payload) (4 + payload.length) 2 = (crc16 (hostBody ty tag payload)).toNat := by
  have before : (u8 0xA5 ++ hostBody ty tag payload).length = 4 + payload.length := by
    simp only [List.length_append, hostBody_length, u8_length]
    omega
  rw [field, hostFrameOf_eq, List.drop_left' before]
  exact readBytes_u16 (crc16 _).isLt

section
variable (short : payload.length ≤ 240)
include short

theorem hostFrameOf_lengthByte : field (hostFrameOf ty tag payload) 1 1 = payload.length := readBytes_u8 (by omega)

theorem hostFrameOf_payload : hostPayload (hostFrameOf ty tag payload) = payload := by
  rw [hostPayload, hostFrameOf_lengthByte short]
  exact List.take_left ..

theorem hostFrameOf_complete : hostComplete (hostFrameOf ty tag payload) = true := by
  simp [hostComplete, hostFrameOf_start, hostFrameOf_lengthByte short, hostFrameOf_length, short, Config.maxPayload]

/-- The check value of a frame covers its body. -/
theorem hostFrameOf_checkOk : hostCheckOk (hostFrameOf ty tag payload) = true := by
  have covered := hostFrameOf_covered (ty := ty) (tag := tag) (payload := payload)
  have check := hostFrameOf_check (ty := ty) (tag := tag) (payload := payload)
  simp only [hostCheckOk, hostFrameOf_lengthByte short, covered, check, decide_true]

end

end

/-! ### The request in its frame (R206) -/

theorem requestType_lt (r : Request) : requestType r < 0x80 := by cases r <;> simp [requestType]

theorem requestPayload_short (r : Request) : (requestPayload r).length ≤ 240 := by
  cases r <;> simp [requestPayload]

/-- The four bytes of a value, put together again. -/
theorem word_of_bytes (v : Word32) :
    v.extractLsb' 24 8 ++ v.extractLsb' 16 8 ++ v.extractLsb' 8 8 ++ v.extractLsb' 0 8 = v := by
  ext i
  simp only [BitVec.getElem_append, BitVec.getElem_extractLsb']
  grind

theorem decodeRequest_request (r : Request) : decodeRequest (requestType r) (requestPayload r) = some (some r) := by
  cases r with
  | settingWrite item index v =>
    exact congrArg (fun w => some (some (Request.settingWrite item index w))) (word_of_bytes v)
  | _ => rfl

/-! ### The request is answered (R116, R172, R175, R176) -/

/-- A request's own command is its owner's rule, with the answer recorded. -/
theorem exec_command (r : Request) {s : State} (running : s.resetHeld = none) :
    exec r.command s = .next ((takeOwner r s).1.replied (takeOwner r s).2) := by
  cases r <;> exact serve_eq _ running

theorem takeRequestFrame_request (r : Request) (s : State) :
    takeRequestFrame (requestType r) (requestPayload r) s = takeOwner r s := by
  rw [takeRequestFrame, decodeRequest_request]

theorem requestFrame_complete (r : Request) (tag : Byte) : hostComplete (requestFrame r tag) = true :=
  hostFrameOf_complete (requestPayload_short r)

/-- A request's frame at a link that is free is good: its request is taken, and the reply goes to HTX. -/
theorem hostFrameEnds_request (r : Request) (tag : Byte) {s : State} (free : s.hlk.busy = false) :
    hostFrameEnds (requestFrame r tag) s = sendReply (requestType r) tag (takeOwner r (goodHostFrame s)) := by
  have short := requestPayload_short r
  have type : hostType (requestFrame r tag) = requestType r :=
    hostFrameOf_type (Nat.lt_trans (requestType_lt r) (by decide))
  have check : hostCheckOk (requestFrame r tag) = true := hostFrameOf_checkOk short
  have payload : hostPayload (requestFrame r tag) = requestPayload r := hostFrameOf_payload short
  have tagged : hostTag (requestFrame r tag) = tag := hostFrameOf_tag
  simp only [hostFrameEnds, free, check, type, tagged, payload, takeRequestFrame_request, Bool.not_true,
    Bool.false_eq_true, if_false]

/-- The reply goes to HTX under the request's type plus 0x80, with the code before the fields (R176). -/
theorem sendReply_request (r : Request) (tag : Byte) (t : Taken) : ∃ due, sendReply (requestType r) tag t = { t.1 with
    hlk := { t.1.hlk with
      busy := true
      answer := some t.2
      sending := some (hostFrameOf (requestType r + 0x80) tag (u8 t.2.code.code ++ t.2.body))
      sendDue := some due } } := by
  have type : replyType (requestType r) = requestType r + 0x80 := if_pos (requestType_lt r)
  rw [← type]
  exact ⟨_, rfl⟩

/-- A good frame before its request, with the station-silence timer as the mode has it (R116, R172). -/
theorem goodHostFrame_eq (s : State) : goodHostFrame s = { s with
    hlk := { s.hlk with
      busy := true
      counters := { s.hlk.counters with good := satInc 65535 s.hlk.counters.good } }
    vrg := { s.vrg with
      silence :=
        if s.vrg.mode = .manual then
          if s.y .fallbackInterval = 0 then none else some (s.now + s.ySec .fallbackInterval)
        else s.vrg.silence } } := by
  by_cases manual : s.vrg.mode = .manual
  · rw [if_pos manual]
    exact if_pos manual
  · rw [if_neg manual]
    exact if_neg manual

/-- Settles O19: the command and the frame both run the owner's rule, the frame on the state of a good frame. -/
theorem hostFrameOfARequestIsAnswered : Obligations.HostFrameOfARequestIsAnswered := by
  intro r tag s running hunting rx free g taken
  have good : goodHostFrame s = g := goodHostFrame_eq s
  have frame : hostBytes (requestFrame r tag) s = sendReply (requestType r) tag taken := by
    rw [hostBytes_whole rx (requestFrame_complete r tag), hostFrameEnds_request r tag free, good]
  have receiving : s.receiving = true := by simp [State.receiving, hunting]
  obtain ⟨due, sent⟩ := sendReply_request r tag taken
  exact ⟨exec_command r running, due, (live_occurs running receiving).trans (congrArg _ (frame.trans sent))⟩

end Sys2Proof.Machine
end

