-- ==== Sys2Proof/Proofs/VoltageGuards.lean ====
section
/-! PROOFS. The voltage guards on a posting (R111 to R115): what each guard makes of its accumulators and where its
condition starts and ends, what the machinery it sets off leaves alone, the commands that name a guard, and what a
posting does before them (R98, R99). -/

namespace Sys2Proof.Machine

/-- The state with the accumulators and the conditions of the two guards as given. -/
def State.guarded (s : State) (ov rep lov : Nat) (high lost : Bool) : State := { s with vrg := { s.vrg with
  ovAcc := ov, repeatAcc := rep, lovAcc := lov, overvoltage := high, lossOfVoltage := lost } }

theorem aboveVx_iff {s : State} {m : MeasRecord} : s.aboveVx m = true ↔ s.y .vx < m.highest := decide_eq_true_iff

/-! ### The overvoltage guard (R112, R113) -/

section
variable {s : State} {m : MeasRecord} {e : Nat}

section
variable (low : m.highest ≤ s.y .vx)
include low

theorem overvoltageGuard_low : overvoltageGuard m e s = endOvervoltage (s.onVrg (fun v => { v with ovAcc := 0 })) :=
  if_neg (fun high => Nat.not_lt.mpr low (aboveVx_iff.mp high))

theorem overvoltageGuard_stays_off (off : s.vrg.overvoltage = false) :
    overvoltageGuard m e s = s.guarded 0 s.vrg.repeatAcc s.vrg.lovAcc false s.vrg.lossOfVoltage := by
  rw [overvoltageGuard_low low, endOvervoltage]
  simp [State.onVrg, State.guarded, off]

theorem overvoltageGuard_ends (on : s.vrg.overvoltage = true) : overvoltageGuard m e s
    = condition .overvoltage false (s.guarded 0 0 s.vrg.lovAcc false s.vrg.lossOfVoltage) :=
  (overvoltageGuard_low low).trans (if_pos on)

end

section
variable (high : s.y .vx < m.highest)
include high

theorem overvoltageGuard_high_off (off : s.vrg.overvoltage = false) : overvoltageGuard m e s
    = if min (s.vrg.ovAcc + e) (s.y .tx) = s.y .tx then
        startOvervoltage (s.onVrg (fun v => { v with ovAcc := min (s.vrg.ovAcc + e) (s.y .tx) }))
      else s.onVrg (fun v => { v with ovAcc := min (s.vrg.ovAcc + e) (s.y .tx) }) := by
  simp only [overvoltageGuard, aboveVx_iff.mpr high, off, if_true, Bool.false_eq_true, if_false]

theorem overvoltageGuard_short (off : s.vrg.overvoltage = false) (short : s.vrg.ovAcc + e < s.y .tx) :
    overvoltageGuard m e s
      = s.guarded (s.vrg.ovAcc + e) s.vrg.repeatAcc s.vrg.lovAcc false s.vrg.lossOfVoltage := by
  rw [overvoltageGuard_high_off high off, Nat.min_eq_left (Nat.le_of_lt short), if_neg (Nat.ne_of_lt short)]
  simp [State.onVrg, State.guarded, off]

theorem overvoltageGuard_starts (off : s.vrg.overvoltage = false) (full : s.y .tx ≤ s.vrg.ovAcc + e) :
    overvoltageGuard m e s = condition .overvoltage true
      (guardNewest (s.guarded (s.y .tx) 0 s.vrg.lovAcc true s.vrg.lossOfVoltage)) := by
  rw [overvoltageGuard_high_off high off, Nat.min_eq_right full, if_pos rfl]
  rfl

theorem overvoltageGuard_high_on (on : s.vrg.overvoltage = true) : overvoltageGuard m e s
    = if s.y .tx ≤ s.vrg.repeatAcc + e then
        guardNewest (s.guarded (min (s.vrg.ovAcc + e) (s.y .tx)) 0 s.vrg.lovAcc true s.vrg.lossOfVoltage)
      else s.guarded (min (s.vrg.ovAcc + e) (s.y .tx)) (s.vrg.repeatAcc + e) s.vrg.lovAcc true
        s.vrg.lossOfVoltage := by
  have reached : s.repeatReached m e = decide (s.y .tx ≤ s.vrg.repeatAcc + e) := by
    simp only [State.repeatReached, on, aboveVx_iff.mpr high, Bool.true_and]
  simp only [overvoltageGuard, aboveVx_iff.mpr high, if_true, if_pos on, reached, decide_eq_true_eq]
  rw [← on]
  rfl

end

theorem overvoltageGuard_repeats (high : s.y .vx < m.highest) (on : s.vrg.overvoltage = true)
    (full : s.y .tx ≤ s.vrg.repeatAcc + e) : overvoltageGuard m e s
      = guardNewest (s.guarded (min (s.vrg.ovAcc + e) (s.y .tx)) 0 s.vrg.lovAcc true s.vrg.lossOfVoltage) :=
  (overvoltageGuard_high_on high on).trans (if_pos full)

theorem overvoltageGuard_repeat_short (high : s.y .vx < m.highest) (on : s.vrg.overvoltage = true)
    (short : s.vrg.repeatAcc + e < s.y .tx) : overvoltageGuard m e s
      = s.guarded (min (s.vrg.ovAcc + e) (s.y .tx)) (s.vrg.repeatAcc + e) s.vrg.lovAcc true s.vrg.lossOfVoltage :=
  (overvoltageGuard_high_on high on).trans (if_neg (Nat.not_le.mpr short))

/-- The overvoltage guard writes its own accumulators and condition; the rest is the machinery's. -/
theorem overvoltageGuard_chain (m : MeasRecord) (e : Nat) (s : State) : ∃ ov rep high,
    Chain (s.guarded ov rep s.vrg.lovAcc high s.vrg.lossOfVoltage) (overvoltageGuard m e s) := by
  by_cases above : s.y .vx < m.highest
  · cases state : s.vrg.overvoltage with
    | false =>
      by_cases full : s.y .tx ≤ s.vrg.ovAcc + e
      · rw [overvoltageGuard_starts above state full]
        exact ⟨_, _, _, (guardNewest_chain _).trans (condition_chain ..)⟩
      · rw [overvoltageGuard_short above state (Nat.not_le.mp full)]
        exact ⟨_, _, _, .refl _⟩
    | true =>
      rw [overvoltageGuard_high_on above state]
      split
      · exact ⟨_, _, _, guardNewest_chain _⟩
      · exact ⟨_, _, _, .refl _⟩
  · cases state : s.vrg.overvoltage with
    | false =>
      rw [overvoltageGuard_stays_off (Nat.not_lt.mp above) state]
      exact ⟨_, _, _, .refl _⟩
    | true =>
      rw [overvoltageGuard_ends (Nat.not_lt.mp above) state]
      exact ⟨_, _, _, condition_chain ..⟩

/-- What the other guard reads after the overvoltage guard. -/
theorem overvoltageGuard_rest (m : MeasRecord) (e : Nat) (s : State) : (overvoltageGuard m e s).su = s.su
    ∧ (overvoltageGuard m e s).vrg.lovAcc = s.vrg.lovAcc
    ∧ (overvoltageGuard m e s).vrg.lossOfVoltage = s.vrg.lossOfVoltage := by
  obtain ⟨_, _, _, c⟩ := overvoltageGuard_chain m e s
  exact ⟨c.su, (congrArg Regulator.lovAcc c.regulatorRest :), c.lossOfVoltage⟩

end

/-! ### The loss-of-voltage guard (R114, R115) -/

section
variable {s : State} {m : MeasRecord} {e : Nat}

/-- The accumulator of the loss-of-voltage guard after a posting. -/
def State.lovAdvanced (s : State) (m : MeasRecord) (e : Nat) : Nat :=
  if m.mean < s.y .vu then min (s.vrg.lovAcc + e) (s.y .tlov) else 0

theorem lossOfVoltageGuard_off (off : s.vrg.lossOfVoltage = false) : lossOfVoltageGuard m e s
    = if m.mean < s.y .vu ∧ s.lovAdvanced m e = s.y .tlov then
        startLossOfVoltage (s.guarded s.vrg.ovAcc s.vrg.repeatAcc (s.lovAdvanced m e) s.vrg.overvoltage false)
      else s.guarded s.vrg.ovAcc s.vrg.repeatAcc (s.lovAdvanced m e) s.vrg.overvoltage false := by
  rw [← off]
  exact if_neg (Bool.eq_false_iff.mp off)

theorem lossOfVoltageGuard_on (on : s.vrg.lossOfVoltage = true) : lossOfVoltageGuard m e s
    = if s.y .vl < m.mean then
        endLossOfVoltage (s.guarded s.vrg.ovAcc s.vrg.repeatAcc (s.lovAdvanced m e) s.vrg.overvoltage true)
      else s.guarded s.vrg.ovAcc s.vrg.repeatAcc (s.lovAdvanced m e) s.vrg.overvoltage true := by
  rw [← on]
  exact if_pos on

theorem lossOfVoltageGuard_short (off : s.vrg.lossOfVoltage = false)
    (short : s.y .vu ≤ m.mean ∨ s.vrg.lovAcc + e < s.y .tlov) : lossOfVoltageGuard m e s
      = s.guarded s.vrg.ovAcc s.vrg.repeatAcc (s.lovAdvanced m e) s.vrg.overvoltage false := by
  rw [lossOfVoltageGuard_off off, if_neg]
  rintro ⟨low, full⟩
  rw [State.lovAdvanced, if_pos low] at full
  omega

theorem lossOfVoltageGuard_starts (off : s.vrg.lossOfVoltage = false) (low : m.mean < s.y .vu)
    (full : s.y .tlov ≤ s.vrg.lovAcc + e) : lossOfVoltageGuard m e s
      = startLossOfVoltage (s.guarded s.vrg.ovAcc s.vrg.repeatAcc (s.y .tlov) s.vrg.overvoltage false) := by
  have advanced : s.lovAdvanced m e = s.y .tlov := (if_pos low).trans (Nat.min_eq_right full)
  rw [lossOfVoltageGuard_off off, if_pos ⟨low, advanced⟩, advanced]

theorem lossOfVoltageGuard_stands (on : s.vrg.lossOfVoltage = true) (low : m.mean ≤ s.y .vl) :
    lossOfVoltageGuard m e s = s.guarded s.vrg.ovAcc s.vrg.repeatAcc (s.lovAdvanced m e) s.vrg.overvoltage true :=
  (lossOfVoltageGuard_on on).trans (if_neg (Nat.not_lt.mpr low))

theorem lossOfVoltageGuard_ends (on : s.vrg.lossOfVoltage = true) (high : s.y .vl < m.mean) : lossOfVoltageGuard m e s
    = condition .lossOfVoltage false (setHold .lossOfVoltage false
        (s.guarded s.vrg.ovAcc s.vrg.repeatAcc (s.lovAdvanced m e) s.vrg.overvoltage false)) :=
  (lossOfVoltageGuard_on on).trans (if_pos high)

/-- The hold, the opens together, the dispatcher and the report are the machinery's. -/
theorem startLossOfVoltage_chain (s : State) (ov rep lov : Nat) (high : Bool) :
    Chain (s.guarded ov rep lov high true) (startLossOfVoltage (s.guarded ov rep lov high false)) :=
  (setHold_chain ..).trans ((Chain.foldl _ (fun t i => takeProtection_chain i _ t) _ _).trans
    ((dispatcher_chain _).trans (condition_chain ..)))

/-- The loss-of-voltage guard writes its own accumulator and condition; the rest is the machinery's. -/
theorem lossOfVoltageGuard_chain (m : MeasRecord) (e : Nat) (s : State) : ∃ lov lost,
    Chain (s.guarded s.vrg.ovAcc s.vrg.repeatAcc lov s.vrg.overvoltage lost) (lossOfVoltageGuard m e s) := by
  cases state : s.vrg.lossOfVoltage with
  | false =>
    rw [lossOfVoltageGuard_off state]
    split
    · exact ⟨_, _, startLossOfVoltage_chain ..⟩
    · exact ⟨_, _, .refl _⟩
  | true =>
    by_cases high : s.y .vl < m.mean
    · rw [lossOfVoltageGuard_ends state high]
      exact ⟨_, _, (setHold_chain ..).trans (condition_chain ..)⟩
    · rw [lossOfVoltageGuard_stands state (Nat.not_lt.mp high)]
      exact ⟨_, _, .refl _⟩

end

/-! ### Before the guards (R98, R99) -/

section
variable {s : State}

/-- The state at a posting without SWITCHOVER, which the first posting of a source ends. -/
def State.switchedOver (s : State) : State :=
  if s.vrg.holds.switchover = true then setHold .switchover false s else s

theorem switchedOver_chain (s : State) : Chain s s.switchedOver :=
  .ite (fun _ => setHold_chain ..) (fun _ => .refl s)

theorem vrgArrival_first (first : s.switchedOver.vrg.startHold = .notStarted) :
    vrgArrival s = { s.switchedOver with vrg := { s.switchedOver.vrg with
      startHold := .running (s.now + s.ySec .startUpHold) } } := if_pos first

theorem vrgArrival_later (later : s.switchedOver.vrg.startHold ≠ .notStarted) : vrgArrival s = s.switchedOver :=
  if_neg later

/-- What a posting does before the guards leaves them and the mode alone. -/
theorem vrgArrival_guards (s : State) : (vrgArrival s).vrg.mode = s.vrg.mode
    ∧ (vrgArrival s).vrg.overvoltage = s.vrg.overvoltage
    ∧ (vrgArrival s).vrg.lossOfVoltage = s.vrg.lossOfVoltage := by
  have c := switchedOver_chain s
  by_cases first : s.switchedOver.vrg.startHold = .notStarted
  · rw [vrgArrival_first first]
    exact ⟨c.mode, c.overvoltage, c.lossOfVoltage⟩
  · rw [vrgArrival_later first]
    exact ⟨c.mode, c.overvoltage, c.lossOfVoltage⟩

end

/-! ### After the guards -/

theorem overvoltage_untouched : Untouched (fun s => s.vrg.overvoltage) := fun _ _ a => by cases a <;> rfl

theorem lossOfVoltage_untouched : Untouched (fun s => s.vrg.lossOfVoltage) := fun _ _ a => by cases a <;> rfl

theorem mode_untouched : Untouched (fun s => s.vrg.mode) := fun _ _ a => a.mode

/-- What follows the guards on a posting keeps a reading of the regulator that the machinery does not touch. -/
theorem afterGuards_keeps {α : Type} {g : Regulator → α} (h : Untouched (fun s => g s.vrg)) (m : MeasRecord) (e : Nat)
    (t : State) : g (ubpPosting m e (hsvPosting m (bandStep m e t))).vrg = g t.vrg :=
  calc g (ubpPosting m e (hsvPosting m (bandStep m e t))).vrg
      = g (hsvPosting m (bandStep m e t)).vrg := ubpPosting_keeps h (fun _ _ => rfl) m e _
    _ = g (bandStep m e t).vrg := hsvPosting_keeps h (fun _ _ => rfl) m _
    _ = g t.vrg := h.chain (bandStep_chain m e t)

/-! ### The commands on a posting -/

section
variable {l : Link} {bs : List Byte} {s u : State} {m : MeasRecord} {e : Nat}
variable (running : s.resetHeld = none) (p : s.posting l bs = some (m, e, u))
include running p

/-- A command that names what takes place between the arrival of a frame and its end is the frame where it takes
place. -/
theorem onFrame_posted {occurs : State → State → Bool} {t : State} (posted : exec (.measFrame l bs) s = .next t)
    (stands : occurs s t = true) : live s (onFrame l (.complete bs) occurs) = .next t := by
  obtain ⟨⟨gap, -⟩, -⟩ := posting_eq p
  have same : frameFinds l (.complete bs) s = s := frameFinds_eq gap
  have handled : frameArrives l (.complete bs) s = t :=
    Host.Outcome.next.inj ((live_eq _ running).symm.trans posted)
  rw [live_eq _ running, onFrame_true (by rw [same, handled]; exact stands), same, handled]

omit running in
/-- The mode and the guards as the arrival of a posting finds them. -/
theorem posted_guards : (vrgArrival u).vrg.mode = s.vrg.mode ∧ (vrgArrival u).vrg.overvoltage = s.vrg.overvoltage
    ∧ (vrgArrival u).vrg.lossOfVoltage = s.vrg.lossOfVoltage := by
  obtain ⟨mode, overvoltage, lossOfVoltage⟩ := vrgArrival_guards u
  exact ⟨mode.trans (posted_keeps mode_untouched (fun _ _ => rfl) p),
    overvoltage.trans (posted_keeps overvoltage_untouched (fun _ _ => rfl) p),
    lossOfVoltage.trans (posted_keeps lossOfVoltage_untouched (fun _ _ => rfl) p)⟩

/-- In OFF no guard is evaluated (R111). -/
theorem measFrame_off (off : s.vrg.mode = .off) :
    exec (.measFrame l bs) s = .next (ubpPosting m e (hsvPosting m (bandStep m e (vrgArrival u)))) := by
  obtain ⟨mode, -⟩ := posted_guards p
  exact measFrame_posted running p (congrArg (bandStep m e) (if_pos (mode.trans off)))

variable (evaluates : s.vrg.mode ≠ .off)
include evaluates

theorem measFrame_guarded : exec (.measFrame l bs) s = .next (ubpPosting m e (hsvPosting m (bandStep m e
    (lossOfVoltageGuard m e (overvoltageGuard m e (vrgArrival u)))))) := by
  obtain ⟨mode, -⟩ := posted_guards p
  exact measFrame_posted running p (congrArg (bandStep m e) (if_neg (by rw [mode]; exact evaluates)))

/-- OVERVOLTAGE_DELAY is the posting on which the guard raises OVERVOLTAGE. -/
theorem overvoltageDelay_posted {t : State} (off : s.vrg.overvoltage = false)
    (acts : overvoltageGuard m e (vrgArrival u) = t) (raised : t.vrg.overvoltage = true) :
    exec (.overvoltageDelay l bs) s
      = .next (ubpPosting m e (hsvPosting m (bandStep m e (lossOfVoltageGuard m e t)))) := by
  have posted := measFrame_guarded running p evaluates
  rw [acts] at posted
  obtain ⟨_, _, c⟩ := lossOfVoltageGuard_chain m e t
  have stands := ((afterGuards_keeps overvoltage_untouched m e _).trans c.overvoltage).trans raised
  exact onFrame_posted running p posted (by rw [off, stands]; rfl)

/-- OVERVOLTAGE_REPEAT is the posting on which the repeat accumulator is full. -/
theorem overvoltageRepeat_posted {t : State} (on : s.vrg.overvoltage = true)
    (high : (vrgArrival u).y .vx < m.highest) (full : (vrgArrival u).y .tx ≤ (vrgArrival u).vrg.repeatAcc + e)
    (acts : overvoltageGuard m e (vrgArrival u) = t) : exec (.overvoltageRepeat l bs) s
      = .next (ubpPosting m e (hsvPosting m (bandStep m e (lossOfVoltageGuard m e t)))) := by
  obtain ⟨mode, overvoltage, -⟩ := posted_guards p
  have taken : s.guardTaken l bs = true := by
    simp [State.guardTaken, p, State.repeatReached, mode, evaluates, overvoltage, on, aboveVx_iff.mpr high, full]
  rw [← acts]
  exact (onPosting_posted running p taken).trans (measFrame_guarded running p evaluates)

/-- LOSS_OF_VOLTAGE_DELAY is the posting on which the guard raises LOSS_OF_VOLTAGE. -/
theorem lossOfVoltageDelay_posted {t : State} (off : s.vrg.lossOfVoltage = false)
    (acts : lossOfVoltageGuard m e (overvoltageGuard m e (vrgArrival u)) = t) (raised : t.vrg.lossOfVoltage = true) :
    exec (.lossOfVoltageDelay l bs) s = .next (ubpPosting m e (hsvPosting m (bandStep m e t))) := by
  have posted := measFrame_guarded running p evaluates
  rw [acts] at posted
  have stands := (afterGuards_keeps lossOfVoltage_untouched m e t).trans raised
  exact onFrame_posted running p posted (by rw [off, stands]; rfl)

end

/-- Settles O54: each guard by its cases, and each command as the posting on which its guard acts. -/
theorem voltageGuardsAct : Obligations.VoltageGuardsAct := by
  intro l bs s u m e running p v highest after newest
  obtain ⟨-, overvoltage, lossOfVoltage⟩ := posted_guards p
  refine ⟨fun evaluates => ⟨fun off high full => ?delay, fun on high full => ?repeats, fun off low full => ?loss⟩,
    measFrame_guarded running p, measFrame_off running p, ⟨vrgArrival_first, vrgArrival_later⟩, fun x =>
      ⟨overvoltageGuard_stays_off, overvoltageGuard_ends, overvoltageGuard_short, overvoltageGuard_repeat_short,
        lossOfVoltageGuard_short, lossOfVoltageGuard_stands, lossOfVoltageGuard_ends⟩⟩
  case delay =>
    exact overvoltageDelay_posted running p evaluates off
      (overvoltageGuard_starts high (overvoltage.trans off) full)
      ((guardNewest_chain _).trans (condition_chain ..)).overvoltage
  case repeats =>
    have stands : v.vrg.overvoltage = true := overvoltage.trans on
    have repeats := overvoltageGuard_repeats high stands full
    rw [State.guarded, ← stands] at repeats
    exact overvoltageRepeat_posted running p evaluates on high full repeats
  case loss =>
    obtain ⟨su, lovAcc, before⟩ := overvoltageGuard_rest m e v
    have starts := lossOfVoltageGuard_starts (m := m) (e := e) (before.trans (lossOfVoltage.trans off))
      (by rw [State.y, su]; exact low) (by rw [State.y, su, lovAcc]; exact full)
    exact lossOfVoltageDelay_posted running p evaluates off starts (startLossOfVoltage_chain ..).lossOfVoltage

end Sys2Proof.Machine
end

