-- ==== Sys2Proof/Proofs/SettingRequests.lean ====
section
/-! PROOFS. The settings one by one: the setting that an item and an index name, its range and its factory default
(R120, R188), and the requests that write, read and discard pending entries (R189 to R191). -/

namespace Sys2Proof.Machine

/-! ### The setting that an item and an index name (R188) -/

/-- Among the yard-wide items an item number finds its item. -/
theorem find_yardItem (i : YardItem) : allYardItems.find? (fun j => j.row.1 == i.row.1) = some i := by
  cases i <;> rfl

theorem ofItem_yard (i : YardItem) (index : Nat) :
    SettingKey.ofItem i.row.1 index = if index = 0 then some (.yard i) else none := by
  rw [SettingKey.ofItem, find_yardItem]

theorem ofItem_step (i : StepItem) (index : Nat) :
    SettingKey.ofItem i.row.1 index = (stepOfCode index).map (.step i) := by
  cases i <;> rfl

theorem ofItem_qty (i : QtyItem) (index : Nat) : SettingKey.ofItem i.row.1 index
    = if h : 1 ≤ index ∧ index ≤ 13 then some (.qty i ⟨index - 1, by omega⟩) else none := by
  cases i <;> rfl

theorem stepOfCode_succ (x : StepIx) : stepOfCode (x.val + 1) = some x := dif_pos (by omega)

theorem ofItem_item_index (k : SettingKey) : SettingKey.ofItem k.item k.index = some k := by
  cases k with
  | yard i => exact ofItem_yard i 0
  | step i x => exact (ofItem_step i _).trans (congrArg _ (stepOfCode_succ x))
  | qty i q => exact (ofItem_qty i _).trans (dif_pos (by simp only [SettingKey.index, qtyNo]; omega))

theorem index_of_stepOfCode {index : Nat} {x : StepIx} (names : stepOfCode index = some x) : stepNo x = index := by
  unfold stepOfCode at names
  split at names
  · cases names
    simp only [stepNo]
    omega
  · cases names

theorem item_index_of_ofItem {item index : Nat} {k : SettingKey} (names : SettingKey.ofItem item index = some k) :
    k.item = item ∧ k.index = index := by
  unfold SettingKey.ofItem at names
  split at names
  · next i found =>
    split at names
    · next zero =>
      cases names
      exact ⟨beq_iff_eq.mp (List.find?_some found :), zero.symm⟩
    · cases names
  · split at names
    · next i found =>
      obtain ⟨x, step, rfl⟩ := Option.map_eq_some_iff.mp names
      exact ⟨beq_iff_eq.mp (List.find?_some found :), index_of_stepOfCode step⟩
    · split at names
      · next i found =>
        split at names
        · cases names
          refine ⟨beq_iff_eq.mp (List.find?_some found :), ?_⟩
          simp only [SettingKey.index, qtyNo]
          omega
        · cases names
      · cases names

theorem item_bounds (k : SettingKey) : 1 ≤ k.item ∧ k.item ≤ 49 := by
  cases k with
  | yard i => cases i <;> decide
  | step i x => cases i <;> simp [SettingKey.item, StepItem.row]
  | qty i q => cases i <;> simp [SettingKey.item, QtyItem.row]

/-- The items are numbered 1 to 49. -/
theorem ofItem_outside {item : Nat} (outside : item = 0 ∨ 49 < item) (index : Nat) :
    SettingKey.ofItem item index = none := by
  cases names : SettingKey.ofItem item index with
  | none => rfl
  | some k =>
    obtain ⟨same, -⟩ := item_index_of_ofItem names
    have bounds := item_bounds k
    omega

/-! ### The 139 settings -/

/-- The place of a setting among all of them. -/
def SettingKey.place : SettingKey → Nat
  | .yard i => i.ix
  | .step i x => 39 + 8 * i.ix + x
  | .qty i q => 87 + 13 * i.ix + q

theorem allSettings_place : allSettings.map SettingKey.place = List.range 139 := by decide

theorem allSettings_length : allSettings.length = 139 := by
  rw [← List.length_map SettingKey.place, allSettings_place, List.length_range]

theorem allSettings_nodup : allSettings.Nodup :=
  List.Nodup.of_map SettingKey.place (allSettings_place ▸ List.nodup_range)

theorem mem_allSettings (k : SettingKey) : k ∈ allSettings := by
  cases k with
  | yard i =>
    have mem : i ∈ allYardItems := List.mem_of_find?_eq_some (find_yardItem i)
    simp [allSettings, mem]
  | step i x => cases i <;> simp [allSettings, allStepItems]
  | qty i q => cases i <;> simp [allSettings, allQtyItems]

/-! ### Ranges and factory defaults -/

/-- The row that a table by item gives for an item. -/
theorem row_of_mem {α β : Type} {f : α → β} {xs : List α} {i : α} {row : β}
    (mem : (i, row) ∈ xs.map (fun j => (j, f j))) : f i = row := by
  obtain ⟨j, -, same⟩ := List.mem_map.mp mem
  cases same
  rfl


theorem yard_inRange_iff (i : YardItem) (v : Nat) : (SettingKey.yard i).inRange v = true
    ↔ i.row.2.1 ≤ v ∧ v ≤ i.row.2.2.1 ∧ (i = .fallbackInterval → v = 0 ∨ 60 ≤ v) := by
  simp [SettingKey.inRange, and_assoc, or_assoc, imp_iff_not_or]

theorem step_inRange_iff (i : StepItem) (x : StepIx) (v : Nat) :
    (SettingKey.step i x).inRange v = true ↔ i.row.2.1 ≤ v ∧ v ≤ i.row.2.2.1 := by
  simp [SettingKey.inRange]

theorem qty_inRange_iff (i : QtyItem) (q : QtyIx) (v : Nat) :
    (SettingKey.qty i q).inRange v = true ↔ i.row.2.1 ≤ v ∧ v ≤ i.row.2.2 := by
  simp [SettingKey.inRange]

theorem factory_get (k : SettingKey) : Settings.factory.get k = k.factory := by
  cases k with
  | yard i =>
    rw [Settings.get, Settings.factory, Tab.get_build]
    cases i <;> rfl
  | step i x =>
    rw [Settings.get, Settings.factory, Tab.get_build, Tab.get_build]
    cases i <;> rfl
  | qty i q =>
    rw [Settings.get, Settings.factory, Tab.get_build, Tab.get_build]
    cases i <;> rfl

/-! ### The pending set (R189) -/

section
variable (k : SettingKey) (v : Nat) (ps : List (SettingKey × Nat))

theorem writeEntry_cons_self (w : Nat) : writeEntry k v ((k, w) :: ps) = (k, v) :: ps := if_pos rfl

theorem writeEntry_cons_ne {k : SettingKey} {p : SettingKey × Nat} (h : p.1 ≠ k) :
    writeEntry k v (p :: ps) = p :: writeEntry k v ps := if_neg h

theorem readEntry_writeEntry_self : readEntry k (writeEntry k v ps) = some v := by
  induction ps with
  | nil => exact readEntry_cons_self k v []
  | cons p ps ih =>
    obtain ⟨key, w⟩ := p
    by_cases same : key = k
    · rw [same, writeEntry_cons_self, readEntry_cons_self]
    · rw [writeEntry_cons_ne v ps same, readEntry_cons_ne same, ih]

theorem readEntry_writeEntry_ne {k j : SettingKey} (h : j ≠ k) :
    readEntry j (writeEntry k v ps) = readEntry j ps := by
  induction ps with
  | nil => exact readEntry_cons_ne h.symm []
  | cons p ps ih =>
    obtain ⟨key, w⟩ := p
    by_cases same : key = k
    · rw [same, writeEntry_cons_self, readEntry_cons_ne h.symm, readEntry_cons_ne h.symm]
    · rw [writeEntry_cons_ne v ps same]
      by_cases own : key = j
      · rw [own, readEntry_cons_self, readEntry_cons_self]
      · rw [readEntry_cons_ne own, readEntry_cons_ne own, ih]

theorem writeEntry_length : (writeEntry k v ps).length
    = ps.length + if (readEntry k ps).isSome then 0 else 1 := by
  induction ps with
  | nil => rfl
  | cons p ps ih =>
    obtain ⟨key, w⟩ := p
    by_cases same : key = k
    · rw [same, writeEntry_cons_self, readEntry_cons_self]
      rfl
    · rw [writeEntry_cons_ne v ps same, readEntry_cons_ne same, List.length_cons, List.length_cons, ih]
      omega

end

/-! ### The requests -/

section
variable {item index source : Byte} {value : Word32} {s : State}

theorem settingWrite_unnamed (unnamed : SettingKey.ofItem item.toNat index.toNat = none) :
    takeSettingWrite item index value s = refuse .outOfRange s := by
  simp only [takeSettingWrite, unnamed]

theorem settingRead_refuses (h : SettingKey.ofItem item.toNat index.toNat = none ∨ 1 < source.toNat) :
    takeSettingRead item index source s = refuse .outOfRange s := by
  unfold takeSettingRead
  obtain h | h := h
  · rw [h]
  · rw [flagOfCode_none h]
    cases SettingKey.ofItem item.toNat index.toNat <;> rfl

variable {k : SettingKey} (names : SettingKey.ofItem item.toNat index.toNat = some k)
include names

theorem settingWrite_outside (outside : k.inRange value.toNat = false) :
    takeSettingWrite item index value s = refuse .outOfRange s := by
  simp only [takeSettingWrite, names, outside, Bool.false_eq_true, if_false]

theorem settingWrite_enters (inside : k.inRange value.toNat = true) : takeSettingWrite item index value s
    = (s.onSu (fun u => { u with pendingSet := writeEntry k value.toNat s.su.pendingSet }),
      .okay (u8 (writeEntry k value.toNat s.su.pendingSet).length)) := by
  simp only [takeSettingWrite, names, inside, if_true]

theorem settingRead_named {pending : Bool} (flag : flagOfCode source.toNat = some pending) :
    takeSettingRead item index source s
      = (s, .okay (present 4 u32 (if pending then readEntry k s.su.pendingSet else some (s.su.active.get k))
          ++ u8 s.su.pendingSet.length)) := by
  simp only [takeSettingRead, names, flag]

end

/-- Settles O27: each request by its cases, and each kind of item by its row of R188. -/
theorem settingsAreWrittenReadAndDiscarded : Obligations.SettingsAreWrittenReadAndDiscarded := by
  refine ⟨fun item index source value s running => ⟨⟨serve_eq _ running, fun unnamed => ?_, fun k names outside => ?_,
    fun k names inside => ?writes⟩, fun refuses => ?_, fun k names => ⟨?inForce, ?pending⟩⟩, ?rows⟩
  · exact serve_refuse running (settingWrite_unnamed unnamed)
  · exact serve_refuse running (settingWrite_outside names outside)
  case writes =>
    obtain ⟨sameItem, sameIndex⟩ := item_index_of_ofItem names
    refine ⟨sameItem, sameIndex, writeEntry k value.toNat s.su.pendingSet, ?_, readEntry_writeEntry_self ..,
      fun j other => readEntry_writeEntry_ne _ _ other, writeEntry_length ..⟩
    exact (serve_eq _ running).trans
      (congrArg (fun t => Host.Outcome.next (Taken.answered t)) (settingWrite_enters names inside))
  · exact serve_refuse running (settingRead_refuses refuses)
  case inForce =>
    rintro rfl
    exact serve_okay running (settingRead_named names rfl) rfl
  case pending =>
    rintro rfl
    refine serve_okay running (settingRead_named names rfl) ?_
    cases readEntry k s.su.pendingSet <;> rfl
  case rows =>
    intro yard steps quantities levels
    have yardRows : yard = allYardItems.map (fun i => (i, i.row)) := rfl
    have stepRows : steps = allStepItems.map (fun i => (i, i.row)) := rfl
    have qtyRows : quantities = allQtyItems.map (fun i => (i, i.row)) := rfl
    have qtyLevels : ∀ (i : QtyItem) (q : QtyIx), (levels q)[i.row.1 - 36]? = some (SettingKey.factory (.qty i q)) := by
      intro i
      cases i <;> decide
    refine ⟨fun i item low high default mem => ?_, fun i item low high default mem => ?_,
      fun i item low high mem => ?_, fun item index outside => ofItem_outside outside index, allSettings_length,
      allSettings_nodup, fun k => ⟨mem_allSettings k, ofItem_item_index k⟩⟩
    · have row : i.row = (item, low, high, default) := row_of_mem (yardRows ▸ mem)
      exact ⟨by simpa only [row] using ofItem_yard i, by simpa only [row] using yard_inRange_iff i,
        (factory_get (.yard i)).trans (congrArg (·.2.2.2) row)⟩
    · have row : i.row = (item, low, high, default) := row_of_mem (stepRows ▸ mem)
      have named : ∀ index, SettingKey.ofItem item index = (stepOfCode index).map (.step i) := by
        simpa only [row] using ofItem_step i
      refine ⟨fun index outside => by rw [named, stepOfCode_none outside]; rfl, fun x => ⟨?_, ?_, ?_⟩⟩
      · rw [named, stepOfCode_succ]
        rfl
      · simpa only [row] using step_inRange_iff i x
      · exact (factory_get (.step i x)).trans (congrArg (·.2.2.2) row)
    · have row : i.row = (item, low, high) := row_of_mem (qtyRows ▸ mem)
      have named : ∀ index, SettingKey.ofItem item index
          = if h : 1 ≤ index ∧ index ≤ 13 then some (.qty i ⟨index - 1, by omega⟩) else none := by
        simpa only [row] using ofItem_qty i
      refine ⟨fun index outside => (named index).trans (dif_neg (by omega)), fun q => ⟨?_, ?_, ?_⟩⟩
      · exact (named _).trans (dif_pos (by omega))
      · simpa only [row] using qty_inRange_iff i q
      · simpa only [row, factory_get] using qtyLevels i q

end Sys2Proof.Machine
end

