-- ==== Sys2Proof/Proofs/HarmonicSupervision.lean ====
section
/-! PROOFS. The harmonic supervision: what one value does to a quantity (R122 to R125), the yard conditions (R126), the
removal choice (R128), and the postings and commands that act on them (R123, R129, R135). -/

namespace Sys2Proof.Machine

/-! ### The thresholds (R122) -/

/-- A value calls for a move of the quantity up. -/
def Quantity.CallsUp (r : Quantity) (c : Settings) (q : QtyIx) (v : Nat) : Prop :=
  callsUp v (c.upThreshold q r.state) = true

/-- A value calls for a move of the quantity down. -/
def Quantity.CallsDown (r : Quantity) (c : Settings) (q : QtyIx) (v : Nat) : Prop :=
  callsDown v (c.downThreshold q r.state) = true

section
variable {c : Settings} {q : QtyIx} {r : Quantity} {v : Nat}

theorem callsUp_if (b : Bool) (n : Nat) : callsUp v (if b then some n else none) = true ↔ b = true ∧ n ≤ v := by
  cases b <;> simp [callsUp]

theorem callsUp_iff : r.CallsUp c q v ↔ (r.state = .normal ∧ c.la q ≠ 0 ∧ c.la q ≤ v)
    ∨ (r.state = .alarm ∧ c.la q ≠ 0 ∧ c.lb q ≠ 0 ∧ c.lb q ≤ v)
    ∨ (r.state = .block ∧ c.la q ≠ 0 ∧ c.lb q ≠ 0 ∧ c.lr q ≠ 0 ∧ c.lr q ≤ v) := by
  unfold Quantity.CallsUp
  cases r.state with
  | normal => simp only [Settings.upThreshold, callsUp_if]; simp [Settings.alarmEnabled]
  | alarm => simp only [Settings.upThreshold, callsUp_if]; simp [Settings.blockEnabled, and_assoc]
  | block => simp only [Settings.upThreshold, callsUp_if]; simp [Settings.removeEnabled, and_assoc]
  | remove => simp [Settings.upThreshold, callsUp]

theorem callsDown_iff : r.CallsDown c q v ↔ (r.state = .alarm ∧ v < c.la q - c.hyst q)
    ∨ (r.state = .block ∧ v < c.lb q - c.hyst q) ∨ (r.state = .remove ∧ v < c.lr q - c.hyst q) := by
  unfold Quantity.CallsDown
  cases r.state <;> simp [Settings.downThreshold, callsDown]

/-- A value below the down threshold of a stage and not at its up threshold calls for a move down alone. -/
theorem callsDown_alone (falls : (r.state = .alarm ∧ v < c.la q - c.hyst q ∧ ¬(c.la q ≠ 0 ∧ c.lb q ≠ 0 ∧ c.lb q ≤ v))
    ∨ (r.state = .block ∧ v < c.lb q - c.hyst q ∧ ¬(c.la q ≠ 0 ∧ c.lb q ≠ 0 ∧ c.lr q ≠ 0 ∧ c.lr q ≤ v))
    ∨ (r.state = .remove ∧ v < c.lr q - c.hyst q)) : r.CallsDown c q v ∧ ¬r.CallsUp c q v := by
  rw [callsDown_iff, callsUp_iff]
  obtain ⟨state, below, stays⟩ | ⟨state, below, stays⟩ | ⟨state, below⟩ := falls
  · simpa [state, below] using stays
  · simpa [state, below] using stays
  · simp [state, below]

/-- No value moves a quantity up from REMOVE. -/
theorem Quantity.CallsUp.below (up : r.CallsUp c q v) : r.state ≠ .remove := fun top => by
  rw [Quantity.CallsUp, top] at up
  cases up

/-- No value moves a quantity down from NORMAL. -/
theorem Quantity.CallsDown.above (down : r.CallsDown c q v) : r.state ≠ .normal := fun bottom => by
  rw [Quantity.CallsDown, bottom] at down
  cases down

end

/-- The stages are one rank apart. -/
theorem rank_up {h : HarmState} (below : h ≠ .remove) : h.up.rank = h.rank + 1 := by
  cases h with
  | remove => exact absurd rfl below
  | _ => rfl

theorem rank_down {h : HarmState} (above : h ≠ .normal) : h.down.rank + 1 = h.rank := by
  cases h with
  | normal => exact absurd rfl above
  | _ => rfl

/-- No move down enters REMOVE, where alone the remove-repeat timer runs. -/
theorem down_ne_remove (h : HarmState) : h.down ≠ .remove := by cases h <;> decide

/-! ### One value (R123 to R125) -/

/-- The count of values that call for a move up, with a value taken. -/
def Quantity.ups (r : Quantity) (c : Settings) (q : QtyIx) (v : Nat) : Nat :=
  if callsUp v (c.upThreshold q r.state) then r.up + 1 else 0

/-- The count of values that call for a move down, with a value taken. -/
def Quantity.downs (r : Quantity) (c : Settings) (q : QtyIx) (v : Nat) : Nat :=
  if callsDown v (c.downThreshold q r.state) then r.down + 1 else 0

section
variable (c : Settings) (q : QtyIx) (due v : Nat) (r : Quantity)

/-- A value moves a quantity where a count is full, up before down, and else leaves the counts. -/
theorem apply_eq : r.apply c q due v
    = if c.y .pUp ≤ r.ups c q v then { r with last := some v }.moveTo r.state.up due
      else if c.y .pDown ≤ r.downs c q v then { r with last := some v }.moveTo r.state.down due
      else { r with last := some v, up := r.ups c q v, down := r.downs c q v } := rfl

theorem apply_last_removal : (r.apply c q due v).last = some v ∧ (r.apply c q due v).removal = r.removal := by
  rw [apply_eq]
  split
  · exact ⟨rfl, rfl⟩
  · split <;> exact ⟨rfl, rfl⟩

/-- What a value does reads nothing of the last removal. -/
theorem apply_removal (x : Option Removal) :
    { r with removal := x }.apply c q due v = { r.apply c q due v with removal := x } := by
  have ups : { r with removal := x }.ups c q v = r.ups c q v := rfl
  have downs : { r with removal := x }.downs c q v = r.downs c q v := rfl
  rw [apply_eq, apply_eq c q due v r, ups, downs]
  split_ifs <;> rfl

variable {c q due v r}

theorem ups_of_calls (up : r.CallsUp c q v) : r.ups c q v = r.up + 1 := if_pos up

theorem ups_of_rests (up : ¬r.CallsUp c q v) : r.ups c q v = 0 := if_neg up

theorem downs_of_calls (down : r.CallsDown c q v) : r.downs c q v = r.down + 1 := if_pos down

theorem downs_of_rests (down : ¬r.CallsDown c q v) : r.downs c q v = 0 := if_neg down

theorem apply_moves_up (up : r.CallsUp c q v) (full : c.y .pUp ≤ r.up + 1) :
    r.apply c q due v = { r with last := some v }.moveTo r.state.up due := by
  rw [apply_eq, ups_of_calls up, if_pos full]

theorem apply_moves_down (up : ¬r.CallsUp c q v) (down : r.CallsDown c q v) (pUp : c.y .pUp ≠ 0)
    (full : c.y .pDown ≤ r.down + 1) :
    r.apply c q due v = { r with last := some v }.moveTo r.state.down due := by
  rw [apply_eq, ups_of_rests up, downs_of_calls down, if_neg (by omega), if_pos full]

/-- Where neither count is full, both are as the value leaves them. -/
theorem apply_counts (up : r.ups c q v < c.y .pUp) (down : r.downs c q v < c.y .pDown) :
    r.apply c q due v = { r with last := some v, up := r.ups c q v, down := r.downs c q v } := by
  rw [apply_eq, if_neg (by omega), if_neg (by omega)]

theorem apply_counts_up (up : r.CallsUp c q v) (down : ¬r.CallsDown c q v) (short : r.up + 1 < c.y .pUp)
    (pDown : c.y .pDown ≠ 0) : r.apply c q due v = { r with last := some v, up := r.up + 1, down := 0 } := by
  rw [← ups_of_calls up, ← downs_of_rests down]
  exact apply_counts (by rwa [ups_of_calls up]) (by rw [downs_of_rests down]; omega)

theorem apply_counts_down (up : ¬r.CallsUp c q v) (down : r.CallsDown c q v) (pUp : c.y .pUp ≠ 0)
    (short : r.down + 1 < c.y .pDown) : r.apply c q due v = { r with last := some v, up := 0, down := r.down + 1 } := by
  rw [← ups_of_rests up, ← downs_of_calls down]
  exact apply_counts (by rw [ups_of_rests up]; omega) (by rwa [downs_of_calls down])

theorem apply_clears (up : ¬r.CallsUp c q v) (down : ¬r.CallsDown c q v) (pUp : c.y .pUp ≠ 0) (pDown : c.y .pDown ≠ 0) :
    r.apply c q due v = { r with last := some v, up := 0, down := 0 } := by
  refine (apply_counts ?_ ?_).trans ?_
  · rw [ups_of_rests up]; omega
  · rw [downs_of_rests down]; omega
  · rw [ups_of_rests up, downs_of_rests down]

end

/-! ### The yard conditions (R126) -/

/-- A quantity at a stage or above it is searched for in the order of R121. -/
theorem firstAtRank_isSome (n : Nat) (s : State) :
    (s.firstAtRank n).isSome = allQtys.any (fun q => decide (n ≤ (s.qty q).state.code)) := List.isSome_find? ..

/-! ### The removal choice (R128) -/

section
variable {q : QtyIx} {s : State}

theorem markQualifies_iff {i : StepIx} : s.markQualifies q i = true
    ↔ if q = 0 then ∃ h, s.marked i h = true else s.marked i q = true := by
  unfold State.markQualifies
  split <;> simp

theorem removalChoice_empty (empty : s.st.service = []) : s.removalChoice q = none := by
  simp only [State.removalChoice, empty, List.reverse_nil, List.find?_nil, List.getLast?_nil]

/-- The newest step whose marks qualify it, or the newest of all where none does. -/
theorem removalChoice_some {i : StepIx} {older newer : List StepIx} (service : s.st.service = older ++ i :: newer)
    (newest : (s.markQualifies q i = true ∧ ∀ j ∈ newer, ¬s.markQualifies q j = true)
      ∨ ((∀ j ∈ s.st.service, ¬s.markQualifies q j = true) ∧ newer = [])) : s.removalChoice q = some i := by
  unfold State.removalChoice
  obtain ⟨fits, fails⟩ | ⟨fails, rfl⟩ := newest
  · have split : s.st.service.reverse = newer.reverse ++ i :: older.reverse := by simp [service]
    rw [find?_split split (fun j mem => fails j (List.mem_reverse.mp mem)) fits]
  · rw [List.find?_eq_none.mpr (fun j mem => fails j (List.mem_reverse.mp mem)), service]
    exact List.getLast?_concat

end

/-! ### The removals (R128, R129) -/

section
variable {q : QtyIx} {s : State}

/-- Two updates of one record are one. -/
theorem onQty_onQty (f g : Quantity → Quantity) : (s.onQty q f).onQty q g = s.onQty q (fun r => g (f r)) := by
  have qtys : Tab.upd (Tab.upd s.hsv.qtys q f) q g = Tab.upd s.hsv.qtys q (fun r => g (f r)) := by
    refine Tab.ext_get fun j => ?_
    rw [Tab.get_upd, Tab.get_upd_self, Tab.get_upd, Tab.get_upd]
    split <;> rfl
  exact congrArg (fun t => s.onHsv (fun h => { h with qtys := t })) qtys

/-- The state with the remove-repeat timer of a quantity loaded again and its choice recorded (R129). -/
def State.repeated (s : State) (q : QtyIx) (choice : Option StepIx) : State :=
  { s with hsv := { s.hsv with qtys := Tab.upd s.hsv.qtys q (fun r => { r with
      repeatDue := some (s.now + s.ySec .removeRepeat)
      removal := some ⟨choice, s.now / 1000, none⟩ }) } }

theorem recordRemoval_reloaded (choice : Option StepIx) :
    recordRemoval q choice (s.onQty q (fun r => { r with repeatDue := some (s.now + s.ySec .removeRepeat) }))
      = s.repeated q choice := onQty_onQty ..

theorem repeatEnds_eq : repeatEnds q s = raiseRemoval (s.removalChoice q) (s.repeated q (s.removalChoice q)) :=
  congrArg (raiseRemoval (s.removalChoice q)) (recordRemoval_reloaded (s.removalChoice q))

theorem removeRepeatExpiry_chooses {due : Nat} (running : s.resetHeld = none) (top : (s.qty q).state = .remove)
    (loaded : (s.qty q).repeatDue = some due) (past : due ≤ s.now) {choice : Option StepIx}
    (chosen : s.removalChoice q = choice) :
    exec (.removeRepeatExpiry q) s = .next (raiseRemoval choice (s.repeated q choice)) := by
  have stands : s.repeatOver q = true := by simp [State.repeatOver, top, loaded, expired, past]
  refine (live_occurs running stands).trans ?_
  rw [repeatEnds_eq, chosen]

theorem recordRemoval_at {choice : Option StepIx} {now : Nat} (reading : s.now = now) : recordRemoval q choice s
    = { s with hsv := { s.hsv with qtys := Tab.upd s.hsv.qtys q (fun r =>
        { r with removal := some ⟨choice, now / 1000, none⟩ }) } } := by
  subst reading
  rfl

/-- Removals taken one after another, each as the time of the first has it. -/
theorem takeRemovals_foldl {choice : QtyIx → Option StepIx} {f : State → QtyIx → State} {now : Nat}
    (each : ∀ t q, t.now = now → takeRemoval q (choice q) t = f t q) (qs : List QtyIx) {x : State}
    (start : x.now = now) :
    takeRemovals (qs.map (fun q => (q, choice q))) x = qs.foldl f x := by
  induction qs generalizing x with
  | nil => rfl
  | cons q qs ih =>
    have later : (takeRemoval q (choice q) x).now = now := (takeRemoval_chain q (choice q) x).now.trans start
    rw [List.foldl_cons, ← each x q start]
    exact ih later

end

/-! ### A posting (R123) -/

section
variable {m : MeasRecord} {s : State}

theorem hsvPosting_setAside (flag : m.status.getLsbD 1 = true) : hsvPosting m s
    = { s with hsv := { s.hsv with skipped := satInc 65535 s.hsv.skipped } } := if_pos flag

theorem enteredRemove_taken : enteredRemove s (s.onHsv (fun h =>
      h.takeRecord s.su.active (s.now + s.ySec .removeRepeat) m))
    = allQtys.filter (fun q => decide ((s.qty q).state ≠ .remove
      ∧ ((s.qty q).apply s.su.active q (s.now + s.ySec .removeRepeat) (m.harm.get q)).state = .remove)) := by
  refine List.filter_congr fun q _ => ?_
  have taken : (s.onHsv (fun h => h.takeRecord s.su.active (s.now + s.ySec .removeRepeat) m)).qty q
      = (s.qty q).apply s.su.active q (s.now + s.ySec .removeRepeat) (m.harm.get q) := Tab.get_build ..
  simp only [taken, Bool.decide_and, decide_not, bne, beq_eq_decide]

/-- On a record that is not set aside the quantities move together, and those that enter REMOVE have their choices,
made before the conditions are reported, taken after it. -/
theorem hsvPosting_takes (flag : m.status.getLsbD 1 = false) {f : State → QtyIx → State}
    (each : ∀ t q, t.now = s.now → takeRemoval q (s.removalChoice q) t = f t q) : hsvPosting m s
    = (allQtys.filter (fun q => decide ((s.qty q).state ≠ .remove
        ∧ ((s.qty q).apply s.su.active q (s.now + s.ySec .removeRepeat) (m.harm.get q)).state = .remove))).foldl f
      (harmConditions (s.onHsv (fun h => h.takeRecord s.su.active (s.now + s.ySec .removeRepeat) m))) := by
  rw [← enteredRemove_taken]
  exact (if_neg (Bool.eq_false_iff.mp flag)).trans (takeRemovals_foldl each _ (harmConditions_chain _).now)

theorem harmonicTaken_qty (flag : m.status.getLsbD 1 = false) (q : QtyIx) : (harmonicTaken m s).qty q
    = (s.qty q).apply s.su.active q (s.now + s.ySec .removeRepeat) (m.harm.get q) := by
  have taken : freqOutOfRange m.status = false := flag
  simp only [harmonicTaken, taken]
  exact Tab.get_build ..

end

theorem quantity_untouched (q : QtyIx) : Untouched (fun s => { s.qty q with removal := none }) :=
  fun _ _ a => (Chain.single a).quantity q

section
variable {l : Link} {bs : List Byte} {s u : State} {m : MeasRecord} {e : Nat} {q : QtyIx}
variable (p : s.posting l bs = some (m, e, u)) (flag : m.status.getLsbD 1 = false)
include p

/-- What HSV finds on a posting of a reading that neither Measurement Intake nor the regulator writes. -/
theorem vrgPosting_posted {α : Type} {g : State → α} (h : Untouched g)
    (mi : ∀ (s : State) (v : Intake), g { s with mi := v } = g s)
    (vrg : ∀ (s : State) (v : Regulator), g { s with vrg := v } = g s) : g (vrgPosting m e u) = g s :=
  (vrgPosting_keeps h (fun s v _ => vrg s v) m e u).trans (posted_keeps h mi p)

include flag

/-- A posting applies the value of its record to each quantity, but for its last removal. -/
theorem quantity_posted : { (consumers m e u).qty q with removal := none }
    = { (s.qty q).apply s.su.active q (s.now + s.ySec .removeRepeat) (m.harm.get q) with removal := none } := by
  have su : (vrgPosting m e u).su = s.su := vrgPosting_posted p (fun _ _ a => a.su) (fun _ _ => rfl) (fun _ _ => rfl)
  have now : (vrgPosting m e u).now = s.now :=
    vrgPosting_posted p (fun _ _ a => a.now) (fun _ _ => rfl) (fun _ _ => rfl)
  have before := vrgPosting_posted p (quantity_untouched q) (fun _ _ => rfl) (fun _ _ => rfl)
  calc { (consumers m e u).qty q with removal := none }
      = { (hsvPosting m (vrgPosting m e u)).qty q with removal := none } :=
        ubpPosting_keeps (quantity_untouched q) (fun _ _ => rfl) m e _
    _ = { (harmonicTaken m (vrgPosting m e u)).qty q with removal := none } := (hsvPosting_chain m _).quantity q
    _ = { (vrgPosting m e u).qty q with removal := none }.apply s.su.active q (s.now + s.ySec .removeRepeat)
          (m.harm.get q) := by
        rw [harmonicTaken_qty flag, ← apply_removal, State.ySec, su, now, State.ySec]
    _ = { s.qty q with removal := none }.apply s.su.active q (s.now + s.ySec .removeRepeat) (m.harm.get q) :=
        congrArg (fun r : Quantity => r.apply _ _ _ _) before
    _ = { (s.qty q).apply s.su.active q (s.now + s.ySec .removeRepeat) (m.harm.get q) with removal := none } :=
        apply_removal ..

/-- A posting that moves a quantity leaves it at its new stage with both counts at 0. -/
theorem quantity_moved {h : HarmState}
    (moves : ∀ due, (s.qty q).apply s.su.active q due (m.harm.get q)
      = { s.qty q with last := some (m.harm.get q) }.moveTo h due) :
    ((consumers m e u).qty q).state = h ∧ ((consumers m e u).qty q).up = 0 ∧ ((consumers m e u).qty q).down = 0 := by
  have posted := quantity_posted p flag (q := q)
  rw [moves] at posted
  exact ⟨congrArg Quantity.state posted, congrArg Quantity.up posted, congrArg Quantity.down posted⟩

variable (running : s.resetHeld = none)
include running

/-- HARM_MOVE_UP is the posting on which the up count is full. -/
theorem harmMoveUp_posted (up : (s.qty q).CallsUp s.su.active q (m.harm.get q))
    (full : s.su.active.y .pUp ≤ (s.qty q).up + 1) :
    exec (.harmMoveUp q l bs) s = .next (consumers m e u)
      ∧ ((consumers m e u).qty q).state.rank = (s.qty q).state.rank + 1
      ∧ ((consumers m e u).qty q).up = 0 ∧ ((consumers m e u).qty q).down = 0 := by
  obtain ⟨state, counts⟩ := quantity_moved p flag (fun _ => apply_moves_up up full)
  have rank : ((consumers m e u).qty q).state.rank = (s.qty q).state.rank + 1 := by rw [state, rank_up up.below]
  exact ⟨onFrame_posted running p (measFrame_posted running p rfl) (decide_eq_true (by omega)), rank, counts⟩

/-- HARM_MOVE_DOWN is the posting on which the down count is full. -/
theorem harmMoveDown_posted (up : ¬(s.qty q).CallsUp s.su.active q (m.harm.get q))
    (down : (s.qty q).CallsDown s.su.active q (m.harm.get q)) (pUp : s.su.active.y .pUp ≠ 0)
    (full : s.su.active.y .pDown ≤ (s.qty q).down + 1) :
    exec (.harmMoveDown q l bs) s = .next (consumers m e u)
      ∧ ((consumers m e u).qty q).state.rank + 1 = (s.qty q).state.rank
      ∧ ((consumers m e u).qty q).up = 0 ∧ ((consumers m e u).qty q).down = 0 := by
  obtain ⟨state, counts⟩ := quantity_moved p flag (fun _ => apply_moves_down up down pUp full)
  have rank : ((consumers m e u).qty q).state.rank + 1 = (s.qty q).state.rank := by rw [state, rank_down down.above]
  exact ⟨onFrame_posted running p (measFrame_posted running p rfl) (decide_eq_true (by omega)), rank, counts⟩

end

/-! ### The marks (R135) -/

theorem clearMarks_marked (i j : StepIx) (q : QtyIx) (s : State) :
    (clearMarks i s).marked j q = if j = i then false else s.marked j q := by
  show ((Tab.put s.hsv.marks i (Tab.build (fun _ => false))).get j).get q = _
  rw [Tab.get_put]
  split
  · exact Tab.get_build ..
  · rfl

theorem takeMarksClear_eq (i : StepIx) (s : State) :
    takeMarksClear (BitVec.ofNat 8 (stepNo i)) s = (clearMarks i s, .just .ok) := by
  simp only [takeMarksClear, stepOfCode_stepNo]

/-- Settles O55: one value, the commands, the whole of a posting, the removal choice and the yard conditions. -/
theorem harmonicQuantitiesMoveAndRemove : Obligations.HarmonicQuantitiesMoveAndRemove := by
  refine ⟨?value, fun q s running => ⟨fun l bs m e u p flag => ⟨?movesUp, ?movesDown⟩, ?repeats, ?unnamed, ?clears⟩,
    ?posting, ?choice, ?conditions⟩
  case value =>
    intro c q r due v alarm block remove up down t
    have callsUp : up ↔ r.CallsUp c q v := by rw [callsUp_iff]; simp only [up, remove, block, alarm, and_assoc]
    have callsDown : down ↔ r.CallsDown c q v := callsDown_iff.symm
    obtain ⟨last, removal⟩ := apply_last_removal c q due v r
    refine ⟨last, removal, fun pUp pDown => ?_⟩
    rw [callsUp, callsDown]
    refine ⟨fun rises stays => ⟨fun short => apply_counts_up rises stays short pDown, fun full => ?_⟩,
      fun falls stays => ⟨fun short => apply_counts_down stays falls pUp short, fun full => ?_⟩,
      fun rests stays => apply_clears rests stays pUp pDown⟩
    · have moved : t = { r with last := some v }.moveTo r.state.up due := apply_moves_up rises full
      rw [moved]
      refine ⟨rfl, rfl, fun state => ?_, fun state => ?_, fun state => ?_⟩ <;> (rw [state]; exact ⟨rfl, rfl⟩)
    · have moved : t = { r with last := some v }.moveTo r.state.down due := apply_moves_down stays falls pUp full
      rw [moved]
      refine ⟨rfl, rfl, if_neg (down_ne_remove r.state), fun state => ?_, fun state => ?_, fun state => ?_⟩ <;>
        (rw [state]; rfl)
  case movesUp =>
    exact fun rises full => harmMoveUp_posted p flag running (callsUp_iff.mpr rises) full
  case movesDown =>
    intro falls pUp full
    obtain ⟨down, stays⟩ := callsDown_alone falls
    exact harmMoveDown_posted p flag running stays down pUp full
  case repeats =>
    intro due top loaded past qualifies chosen
    refine ⟨fun empty => ?_, fun older i newer service newest => ?_⟩
    · exact removeRepeatExpiry_chooses running top loaded past (removalChoice_empty empty)
    · refine removeRepeatExpiry_chooses running top loaded past (removalChoice_some service ?_)
      simpa only [markQualifies_iff] using newest
  case unnamed => exact fun n outside => serve_refuse running (by rw [takeMarksClear, stepOfCode_none outside])
  case clears =>
    refine fun i => ⟨(clearMarks i s).replied ⟨.ok, []⟩, serve_just running (takeMarksClear_eq i s), rfl,
      fun h => (clearMarks_marked i i h s).trans (if_pos rfl),
      fun j h other => (clearMarks_marked i j h s).trans (if_neg other)⟩
  case posting =>
    intro l bs s u m e running p w entered after
    have posted : exec (.measFrame l bs) s = after (hsvPosting m w) := measFrame_posted running p rfl
    exact ⟨fun flag => posted.trans (congrArg after (hsvPosting_setAside flag)),
      fun flag => posted.trans (congrArg after (hsvPosting_takes flag (fun _ q now =>
        congrArg (raiseRemoval (w.removalChoice q)) (recordRemoval_at now))))⟩
  case choice =>
    intro q x qualifies
    refine ⟨removalChoice_empty, fun older i newer service newest => removalChoice_some service ?_⟩
    simpa only [markQualifies_iff] using newest
  case conditions =>
    intro x stands some_ lowest
    have alarm : x.harmAlarm = some_ 1 := firstAtRank_isSome 1 x
    have block : x.harmBlock = some_ 2 := firstAtRank_isSome 2 x
    have remove : x.harmRemove = some_ 3 := firstAtRank_isSome 3 x
    have code : ∀ n, edgeCode (x.firstAtRank n) = lowest n := fun _ => rfl
    refine ⟨alarm, block, remove, ?_⟩
    rw [harmConditions, alarm, block, remove, code, code]
    rfl

end Sys2Proof.Machine
end

