-- ==== Sys2Proof/Proofs/Stages.lean ====
section
/-! PROOFS. The compensated magnitude (R139), what a posting does to the stages (R142, R143), and that the stages of a
step whose position is not CLOSED stand at INACTIVE with their timers at 0 (R141). -/

namespace Sys2Proof.Machine

/-! ### The invariant (R141) -/

theorem restart_stagesOff (cause : ResetCause) (b1 b0 : Bool) (s : State) (i : StepIx) :
    StagesOff ((restart cause b1 b0 s).ub i) := by
  rw [restart_ub]
  exact ⟨rfl, rfl, rfl⟩

theorem stagesSound_kept : Kept State.stagesSound where
  effect _ _ := Effect.stagesSound
  begins _ _ p := p
  ends cause b1 b0 s _ i _ := restart_stagesOff cause b1 b0 s i
  ticks _ p := p
  queue _ _ p := p

/-- Settles O16: a stage is written on a posting of a step whose position is CLOSED, or to INACTIVE, a step's stages are
reset as its position leaves CLOSED, and a full reset loads them so. -/
theorem stageTimersAreZeroUnlessClosed : Obligations.StageTimersAreZeroUnlessClosed :=
  fun _ _ => stagesSound_kept.step

/-! ### The compensated magnitude (R139) -/

/-- The bits still to come of a root stay between what has been found and one step above it. -/
theorem rootBits_between (b n r : Nat) (low : r * r ≤ n) (high : n < (r + 2 ^ b) * (r + 2 ^ b)) :
    rootBits b n r * rootBits b n r ≤ n ∧ n < (rootBits b n r + 1) * (rootBits b n r + 1) := by
  induction b generalizing r with
  | zero => exact ⟨low, high⟩
  | succ b ih =>
    unfold rootBits
    split
    · next fits =>
      refine ih _ fits ?_
      rwa [Nat.add_assoc, ← Nat.two_mul, ← Nat.pow_succ']
    · next exceeds => exact ih _ low (Nat.lt_of_not_le exceeds)

theorem root_eq_sqrt {n : Nat} (small : n < 2 ^ 34) : root n = Nat.sqrt n :=
  Nat.eq_sqrt.mpr (rootBits_between 17 n 0 (Nat.zero_le n) small)

/-- The square of a difference of two components. -/
theorem difference_sq_le {a b : Int} (a1 : -32768 ≤ a) (a2 : a ≤ 32767) (b1 : -32768 ≤ b) (b2 : b ≤ 32767) :
    (a - b) ^ 2 ≤ 65535 ^ 2 := sq_le_sq' (by omega) (by omega)

/-- The compensated magnitude is the root of the sum of the two squares, rounded down. -/
theorem compensated_eq_sqrt {b : Option Baseline} {x : StepMeas} {n : Nat}
    (square : (x.inPhase - (b.getD ⟨0, 0, false⟩).inPhase) ^ 2 + (x.quad - (b.getD ⟨0, 0, false⟩).quad) ^ 2 = (n : Int))
    (small : n < 2 ^ 34) : compensated b x = Nat.sqrt n := by
  rw [← root_eq_sqrt small, ← Int.toNat_natCast n, ← square, sq, sq]
  cases b <;> rfl

/-! ### The stages (R143) -/

section
variable {g : Stage} {level delay u e : Nat}

theorem update_asserted (above : level ≤ u) (asserted : g.state = .asserted) : g.update level delay u e = g := by
  rw [Stage.update, if_pos above, if_pos asserted]

theorem update_advances (above : level ≤ u) (notYet : g.state ≠ .asserted) :
    g.update level delay u e = g.advance delay e := by
  rw [Stage.update, if_pos above, if_neg notYet]

theorem update_holds (near : level * 95 ≤ u * 100) (below : u < level) : g.update level delay u e = g := by
  rw [Stage.update, if_neg (by omega), if_pos near]

theorem update_resets (below : u * 100 < level * 95) : g.update level delay u e = ⟨.inactive, 0⟩ := by
  rw [Stage.update, if_neg (by omega), if_neg (by omega)]

theorem advance_state_iff : (g.advance delay e).state = .asserted ↔ delay ≤ g.timer + e := by
  simp only [Stage.advance, min_eq_right_iff]
  split
  · next full => exact iff_of_true rfl full
  · next short => exact iff_of_false nofun short

/-- A stage that has run to its delay. -/
theorem advance_full (full : delay ≤ g.timer + e) : g.advance delay e = ⟨.asserted, delay⟩ := by
  simp only [Stage.advance, min_eq_right full, if_true]

/-- A stage asserts on a posting exactly where the magnitude is at its level and its timer reaches the delay. -/
theorem newlyAsserted_update : newlyAsserted g (g.update level delay u e) = true
    ↔ g.state ≠ .asserted ∧ level ≤ u ∧ delay ≤ g.timer + e := by
  simp only [newlyAsserted, Bool.and_eq_true, bne_iff_ne, beq_iff_eq]
  refine and_congr_right fun notYet => ?_
  by_cases above : level ≤ u
  · rw [update_advances above notYet, advance_state_iff, and_iff_right above]
  · refine iff_of_false (fun asserted => ?_) (fun stands => above stands.1)
    by_cases near : level * 95 ≤ u * 100
    · rw [update_holds near (by omega)] at asserted
      exact notYet asserted
    · rw [update_resets (by omega)] at asserted
      cases asserted

end

/-! ### The evaluated steps (R142) -/

section
variable {m : MeasRecord} {e : Nat} {s : State} {i : StepIx}

theorem evaluated_iff : s.evaluated i = true ↔ (s.ub i).eval = .armed ∧ (s.step i).position = .closed
    ∧ ¬∃ o, (s.sw i).op = some o ∧ o.phase ≠ .settling := by
  simp only [State.evaluated, Bool.and_eq_true, beq_iff_eq, Bool.not_eq_true', ← inFlight_iff,
    Bool.not_eq_true, and_assoc]

theorem evaluateSteps_ub : (evaluateSteps m e s).ub i = s.evaluatedRecord m e i := Tab.get_build ..

theorem evaluateSteps_measured {x : StepMeas} (stands : s.evaluated i = true) (block : m.blocks.get i = some x) :
    (evaluateSteps m e s).ub i
      = (s.ub i).evaluate s.su.active i (compensated (s.ub i).baseline x) e := by
  simp only [evaluateSteps_ub, State.evaluatedRecord, block, stands, if_true]

theorem evaluateSteps_passes (stands : s.evaluated i ≠ true) : (evaluateSteps m e s).ub i = s.ub i := by
  rw [evaluateSteps_ub, State.evaluatedRecord]
  split
  · rfl
  · exact if_neg stands

end

/-- Settles O56: the magnitude as a root, a stage by the rows of its table, and a step by whether it is evaluated. -/
theorem stagesFollowTheMagnitude : Obligations.StagesFollowTheMagnitude := by
  refine ⟨fun b x => ?magnitude, fun g level delay u e => ?stage, fun m e s i => ?step⟩
  case magnitude =>
    intro zero fits ⟨i1, i2⟩ ⟨q1, q2⟩ ⟨bi1, bi2⟩ ⟨bq1, bq2⟩ square
    have inPhase := difference_sq_le i1 i2 bi1 bi2
    have quad := difference_sq_le q1 q2 bq1 bq2
    obtain ⟨n, sum⟩ : ∃ n : Nat, square = n := Int.eq_ofNat_of_zero_le (add_nonneg (sq_nonneg _) (sq_nonneg _))
    have bound : n ≤ 2 * 65535 ^ 2 := by
      have : square ≤ 65535 ^ 2 + 65535 ^ 2 := add_le_add inPhase quad
      omega
    rw [compensated_eq_sqrt sum (by omega), sum]
    refine ⟨?_, ?_, ?_⟩
    · exact_mod_cast Nat.sqrt_le' n
    · exact_mod_cast Nat.lt_succ_sqrt' n
    · exact Nat.le_of_lt_succ (Nat.sqrt_lt'.mpr (lt_of_le_of_lt bound (by decide)))
  case stage =>
    intro t
    refine ⟨update_asserted, fun above notYet => ?_, fun near below => update_holds near (by omega), update_resets⟩
    have advanced : t = g.advance delay e := update_advances above notYet
    rw [advanced]
    exact ⟨rfl, fun full => if_pos full, fun short => if_neg short⟩
  case step =>
    intro evaluated t
    exact ⟨rfl, fun stands x block => evaluateSteps_measured (evaluated_iff.mpr stands) block,
      fun passes => evaluateSteps_passes (fun stands => passes (evaluated_iff.mp stands))⟩

end Sys2Proof.Machine
end

