-- ==== Sys2Proof/Proofs/Captures.lean ====
section
/-! PROOFS. The baseline captures: the request and the cancel (R151, R155), the abort (R154), and what a posting does to
a capture (R152, R153). -/

namespace Sys2Proof.Machine

theorem now_untouched : Untouched State.now := fun _ _ a => a.now

/-- What UBP finds on a posting of a reading that nothing before it writes. -/
theorem hsvPosting_posted {α : Type} {g : State → α} (h : Untouched g)
    (mi : ∀ (s : State) (v : Intake), g { s with mi := v } = g s)
    (vrg : ∀ (s : State) (v : Regulator), g { s with vrg := v } = g s)
    (hsv : ∀ (s : State) (v : Harmonics), g { s with hsv := v } = g s)
    {l : Link} {bs : List Byte} {s u : State} {m : MeasRecord} {e : Nat} (p : s.posting l bs = some (m, e, u)) :
    g (hsvPosting m (vrgPosting m e u)) = g s :=
  (hsvPosting_keeps h hsv m _).trans (vrgPosting_posted p h mi vrg)

/-! ### The requests (R151, R155) -/

section
variable {i : StepIx} {s : State} {c : Capture}

theorem captureAllowed_iff : s.captureAllowed i = true ↔ s.mi.active ≠ none ∧ (s.step i).state = .energized
    ∧ (s.sw i).op = none ∧ (s.ub i).eval = .armed ∧ (s.step i).position = .closed ∧ (s.ub i).s1.state = .inactive
    ∧ (s.ub i).s2.state = .inactive ∧ (s.ub i).s3.state = .inactive := by
  simp only [State.captureAllowed, Bool.and_eq_true, beq_iff_eq, Bool.not_eq_true', anyStageActive_eq_false_iff,
    Option.isSome_iff_ne_none, Option.isNone_iff_eq_none, and_assoc]

theorem takeBaselineCapture_eq : takeBaselineCapture (BitVec.ofNat 8 (stepNo i)) s
    = if s.ubp.capture.isSome then refuse .busy s
      else if s.captureAllowed i then (s.onUbp (fun u => { u with capture := some ⟨i, 0, 0, 0⟩ }), .just .accepted)
      else refuse .wrongState s := by
  simp only [takeBaselineCapture, stepOfCode_stepNo]

theorem takeBaselineCapture_busy (runs : s.ubp.capture ≠ none) :
    takeBaselineCapture (BitVec.ofNat 8 (stepNo i)) s = refuse .busy s :=
  takeBaselineCapture_eq.trans (if_pos (Option.isSome_iff_ne_none.mpr runs))

theorem takeBaselineCapture_idle (idle : s.ubp.capture = none) : takeBaselineCapture (BitVec.ofNat 8 (stepNo i)) s
    = if s.captureAllowed i then (s.onUbp (fun u => { u with capture := some ⟨i, 0, 0, 0⟩ }), .just .accepted)
      else refuse .wrongState s :=
  takeBaselineCapture_eq.trans (if_neg (by simp [idle]))

theorem takeCaptureCancel_idle (idle : s.ubp.capture = none) : takeCaptureCancel s = refuse .wrongState s := by
  simp only [takeCaptureCancel, idle]

theorem takeCaptureCancel_runs (runs : s.ubp.capture = some c) : takeCaptureCancel s = (abortCapture s, .just .ok) := by
  simp only [takeCaptureCancel, runs]

/-! ### The abort (R154) -/

theorem abortCapture_idle (idle : s.ubp.capture = none) : abortCapture s = s := by
  simp only [abortCapture, idle]

theorem abortCapture_runs (runs : s.ubp.capture = some c) : abortCapture s
    = raiseNotice .longOp (some c.step) 0 1 { s with ubp := { s.ubp with
        capture := none, lastCapture := some ⟨c.step, .aborted, s.now / 1000⟩ } } := by
  simp only [abortCapture, runs]
  rfl

theorem abortCaptureOf_runs (runs : s.ubp.capture = some c) :
    abortCaptureOf i s = if c.step = i then abortCapture s else s := by
  simp only [abortCaptureOf, runs]

end

/-! ### A posting (R152, R153) -/

section
variable {m : MeasRecord} {s : State} {c : Capture} {x : StepMeas}

theorem advanceCapture_idle (idle : s.ubp.capture = none) : advanceCapture m s = s := by
  simp only [advanceCapture, idle]

theorem advanceCapture_measured (runs : s.ubp.capture = some c) (block : m.blocks.get c.step = some x) :
    advanceCapture m s = if c.count + 1 = 16 then completeCapture (c.add x) s
      else s.onUbp (fun u => { u with capture := some (c.add x) }) := by
  simp only [advanceCapture, runs, block]
  rfl

theorem advanceCapture_adds (runs : s.ubp.capture = some c) (block : m.blocks.get c.step = some x)
    (more : c.count ≠ 15) : advanceCapture m s = s.onUbp (fun u => { u with capture := some (c.add x) }) :=
  (advanceCapture_measured runs block).trans (if_neg (by omega))

theorem advanceCapture_completes (runs : s.ubp.capture = some c) (block : m.blocks.get c.step = some x)
    (last : c.count = 15) : advanceCapture m s = completeCapture (c.add x) s :=
  (advanceCapture_measured runs block).trans (if_pos (by omega))

/-- A capture that advances writes, of the record of a step, the baseline. -/
theorem advanceCapture_ub (i : StepIx) :
    { (advanceCapture m s).ub i with baseline := none } = { s.ub i with baseline := none } := by
  cases runs : s.ubp.capture with
  | none => rw [advanceCapture_idle runs]
  | some c =>
    cases block : m.blocks.get c.step with
    | none => simp only [advanceCapture, runs, block]
    | some x =>
      rw [advanceCapture_measured runs block]
      split
      · simp only [completeCapture, raiseNotice, onNotice_ub]
        show ({ (s.onUb _ _).ub i with baseline := none } : UbpStep) = _
        rw [onUb_ub]
        split
        · next own => rw [own]
        · rfl
      · rfl

/-- A capture that was one record short and now stands as the last, COMPLETE at this reading, has completed. -/
theorem captureCompletes_of {t : State} (runs : s.ubp.capture = some c) (last : c.count = 15)
    (ended : t.ubp.capture = none) (complete : t.ubp.lastCapture = some ⟨c.step, .complete, s.uptime⟩) :
    captureCompletes s t = true := by
  simp only [captureCompletes, runs]
  exact decide_eq_true ⟨congrArg (· + 1) last, ended, complete⟩

end

/-- CAPTURE_COMPLETE is the posting of the sixteenth record, where the trips of that posting leave the capture. -/
theorem captureComplete_posted {l : Link} {bs : List Byte} {s p z : State} {m : MeasRecord} {e : Nat} {c : Capture}
    {x : StepMeas} (running : s.resetHeld = none) (posted : s.posting l bs = some (m, e, p))
    (runs : s.ubp.capture = some c) (last : c.count = 15) (block : m.blocks.get c.step = some x)
    (posts : ubpPosting m e (hsvPosting m (vrgPosting m e p)) = advanceCapture m z) (now : z.now = s.now)
    (left : z.ubp.capture = some c) : exec (.captureComplete l bs) s = .next (advanceCapture m z) := by
  have frame : exec (.measFrame l bs) s = .next (advanceCapture m z) :=
    posts ▸ measFrame_posted running posted rfl
  have completes := advanceCapture_completes left block last
  refine onFrame_posted running posted frame (captureCompletes_of runs last ?_ ?_)
  · rw [completes]
    rfl
  · rw [completes, State.uptime, ← now]
    rfl

/-- Settles O58: the requests, the abort, a posting that adds a record or completes the capture, and
CAPTURE_COMPLETE. -/
theorem capturesAverageSixteenPostings : Obligations.CapturesAverageSixteenPostings := by
  intro s taken
  refine ⟨fun running => ⟨fun n out => ?unnamed, fun i => ⟨?busy, ?forbidden, ?begins⟩, ?notRunning, ?noAbort, ?aborts,
    ?cancels⟩, fun m => ⟨advanceCapture_idle, fun c x runs block => ⟨?adds, ?completes⟩⟩, ?command⟩
  case unnamed => exact serve_refuse running (by rw [takeBaselineCapture, stepOfCode_none out])
  case busy => exact fun runs => serve_just running (takeBaselineCapture_busy runs)
  case forbidden =>
    exact fun idle fails => serve_just running ((takeBaselineCapture_idle idle).trans
      (if_neg (fun allowed => fails (captureAllowed_iff.mp allowed))))
  case begins =>
    exact fun idle allowed => serve_just running ((takeBaselineCapture_idle idle).trans
      (if_pos (captureAllowed_iff.mpr allowed)))
  case notRunning => exact fun idle => serve_just running (takeCaptureCancel_idle idle)
  case noAbort => exact fun idle => ⟨abortCapture_idle idle, fun i => abortCaptureOf_idle i s idle⟩
  case aborts => exact fun c runs => ⟨abortCapture_runs runs, fun i => abortCaptureOf_runs runs⟩
  case cancels =>
    intro c runs
    rw [← abortCapture_runs runs]
    exact serve_just running (takeCaptureCancel_runs runs)
  case adds => exact fun more => advanceCapture_adds runs block more
  case completes => exact fun last => advanceCapture_completes runs block last
  case command =>
    intro l bs m e p c x running posted runs last block w v z left
    have now : z.now = s.now := calc
      z.now = w.now := protect_keeps now_untouched (fun _ _ => rfl) _ v
      _ = s.now := hsvPosting_posted now_untouched (fun _ _ => rfl) (fun _ _ => rfl) (fun _ _ => rfl) posted
    exact captureComplete_posted running posted runs last block rfl now left

end Sys2Proof.Machine
end

