-- ==== Sys2Proof/Proofs/Trips.lean ====
section
/-! PROOFS. The alarm and the trips of a posting (R143 to R147), and the expiry of an arming timer (R140): the records
of the trips as one change of the table, the claims, opens and announcements over the steps that trip, and UNB_ALARM
and UNB_TRIP. -/

namespace Sys2Proof.Machine

/-! ### The trip of a step (R145) -/

section
variable {a b c : UbpStep}

theorem tripStage_congr (s2 : b.s2 = c.s2) (s3 : b.s3 = c.s3) : tripStage a b = tripStage a c := by
  simp only [tripStage, s2, s3]

/-- A step trips by the stages that assert. -/
theorem tripStage_of {second third : Prop} [Decidable second] [Decidable (second ∧ third)]
    (isSecond : newlyAsserted a.s2 b.s2 = true ↔ second) (isThird : newlyAsserted a.s3 b.s3 = true ↔ third)
    (trips : second ∨ third) :
    tripStage a b = some (if second ∧ third then .both else if second then .s2 else .s3) := by
  by_cases two : second
  · by_cases three : third
    · simp [tripStage, isSecond.mpr two, isThird.mpr three, two, three]
    · simp [tripStage, isSecond.mpr two, Bool.eq_false_iff.mpr (mt isThird.mp three), two, three]
  · have three : third := trips.resolve_left two
    simp [tripStage, Bool.eq_false_iff.mpr (mt isSecond.mp two), isThird.mpr three, two]

end

/-! ### The records of the trips (R145, R146) -/

/-- The record of a step that trips: its stamp, and its last trip with the cause that the history then gives. -/
def State.tripRecord (s : State) (r : UbpStep) (g : TripStage) : UbpStep :=
  let history := appendStamp r.history s.uptime
  { r with
    history := history
    lastTrip := some ⟨s.uptime, g, r.lastMag.getD 0, s.tripCause history⟩ }

/-- The record of a trip reads of the state the timebase and the settings. -/
theorem tripRecord_congr {s t : State} (now : t.now = s.now) (su : t.su = s.su) (r : UbpStep) (g : TripStage) :
    t.tripRecord r g = s.tripRecord r g := by
  obtain ⟨⟩ := s
  obtain ⟨⟩ := t
  subst now su
  rfl

/-- The record of a trip, by the history before it. -/
theorem tripRecord_eq {r : UbpStep} {h : List Nat} (before : r.history = h) (s : State) (g : TripStage) :
    s.tripRecord r g = { r with
      history := appendStamp h s.uptime
      lastTrip := some ⟨s.uptime, g, r.lastMag.getD 0, s.tripCause (appendStamp h s.uptime)⟩ } := by
  subst before
  rfl

/-- The record of a trip of a step that has been evaluated. -/
theorem tripRecord_evaluate (s : State) (r : UbpStep) (c : Settings) (i : StepIx) (u e : Nat) (g : TripStage) :
    (s.tripRecord (r.evaluate c i u e) g).history = appendStamp r.history s.uptime
    ∧ (s.tripRecord (r.evaluate c i u e) g).lastTrip
      = some ⟨s.uptime, g, u, s.tripCause (appendStamp r.history s.uptime)⟩ := ⟨rfl, rfl⟩

/-- The record of a step after the trips that its stages make between two states. -/
def State.tripped (s t : State) (i : StepIx) : UbpStep :=
  match tripStage (s.ub i) (t.ub i) with
  | none => t.ub i
  | some g => t.tripRecord (t.ub i) g

section
variable {s t : State} {i : StepIx}

/-- A trip leaves the stages. -/
theorem tripped_stages : (s.tripped t i).s1 = (t.ub i).s1 ∧ (s.tripped t i).s2 = (t.ub i).s2
    ∧ (s.tripped t i).s3 = (t.ub i).s3 := by
  unfold State.tripped
  split <;> exact ⟨rfl, rfl, rfl⟩

theorem tripped_of {g : TripStage} (trips : tripStage (s.ub i) (t.ub i) = some g) :
    s.tripped t i = t.tripRecord (t.ub i) g := by
  simp only [State.tripped, trips]

theorem recordTrip_trip (j : StepIx) (g : TripStage) :
    (recordTrip i g s).ub j = if j = i then s.tripRecord (s.ub i) g else s.ub j := recordTrip_ub i j g s

/-- The records of trips of different steps, and what they leave. -/
theorem recordTrips_ub (ps : List (StepIx × TripStage)) (apart : (ps.map Prod.fst).Nodup) (t : State) (j : StepIx) :
    (∀ g, (j, g) ∈ ps → (ps.foldl (fun x p => recordTrip p.1 p.2 x) t).ub j
      = t.tripRecord (t.ub j) g)
    ∧ (j ∉ ps.map Prod.fst → (ps.foldl (fun x p => recordTrip p.1 p.2 x) t).ub j = t.ub j) := by
  induction ps generalizing t with
  | nil => exact ⟨fun g mem => absurd mem List.not_mem_nil, fun _ => rfl⟩
  | cons p ps ih =>
    obtain ⟨alone, apart⟩ := List.nodup_cons.mp apart
    obtain ⟨inRest, outside⟩ := ih apart (recordTrip p.1 p.2 t)
    rw [List.foldl_cons]
    refine ⟨fun g mem => ?_, fun absent => ?_⟩
    · obtain own | mem := List.mem_cons.mp mem
      · subst own
        rw [outside alone, recordTrip_trip, if_pos rfl]
      · have other : j ≠ p.1 := fun same => alone (same ▸ List.mem_map_of_mem mem)
        rw [inRest g mem, recordTrip_trip, if_neg other]
        exact tripRecord_congr rfl rfl _ g
    · obtain ⟨other, absent⟩ := not_or.mp (mt List.mem_cons.mpr absent)
      rw [outside absent, recordTrip_trip, if_neg other]

/-- The records of trips write the unbalance records alone. -/
theorem recordTrips_rest (ps : List (StepIx × TripStage)) (t : State) :
    ps.foldl (fun x p => recordTrip p.1 p.2 x) t = { t with ubp := { t.ubp with
      steps := (ps.foldl (fun x p => recordTrip p.1 p.2 x) t).ubp.steps } } := by
  induction ps generalizing t with
  | nil => rfl
  | cons p ps ih => exact ih (recordTrip p.1 p.2 t)

/-! ### The trips of a posting -/

theorem mem_tripsBetween {g : TripStage} : (i, g) ∈ tripsBetween s t ↔ tripStage (s.ub i) (t.ub i) = some g := by
  simp [tripsBetween]

/-- The steps that trip, in ascending index. -/
theorem tripsBetween_steps : (tripsBetween s t).map Prod.fst
    = allSteps.filter (fun i => (tripStage (s.ub i) (t.ub i)).isSome) := by
  unfold tripsBetween
  induction allSteps with
  | nil => rfl
  | cons i is ih => cases stage : tripStage (s.ub i) (t.ub i) <;> simp [stage, ih]

theorem tripsBetween_nodup : ((tripsBetween s t).map Prod.fst).Nodup :=
  tripsBetween_steps ▸ List.Nodup.filter _ (by decide)

/-- The records of the trips of a posting are one change of the table. -/
theorem recordTrips_eq : (tripsBetween s t).foldl (fun x p => recordTrip p.1 p.2 x) t
    = { t with ubp := { t.ubp with steps := Tab.build (s.tripped t) } } := by
  rw [recordTrips_rest]
  refine congrArg (fun v => { t with ubp := { t.ubp with steps := v } }) (Tab.ext_get fun i => ?_)
  obtain ⟨trips, stays⟩ := recordTrips_ub (tripsBetween s t) tripsBetween_nodup t i
  rw [Tab.get_build, State.tripped]
  split
  · next none => exact stays (by simp [tripsBetween_steps, none])
  · next g stage => exact trips g (mem_tripsBetween.mpr stage)

/-- The claims, opens and announcements of trips are made step by step. -/
theorem takeTrips_steps (ps : List (StepIx × TripStage)) (t : State) : takeTrips ps t
    = if ps.map Prod.fst = [] then t else dispatcher ((ps.map Prod.fst).foldl (fun x i => takeProtection i .ubp x)
        ((ps.map Prod.fst).foldl (fun x i => claimTrip i x) (ps.foldl (fun x p => recordTrip p.1 p.2 x) t))) := by
  simp only [takeTrips, List.foldl_map, List.map_eq_nil_iff]

theorem announceTrips_steps (ps : List (StepIx × TripStage)) (t : State) :
    announceTrips ps t = (ps.map Prod.fst).foldl (fun x i => announceTrip i x) t := by
  simp only [announceTrips, List.foldl_map]

end

/-! ### The causes of the trips -/

/-- Two walks that agree wherever a property stands which the first keeps are the same. -/
theorem foldl_congr_of_kept {α : Type} {f g : State → α → State} {P : State → Prop} {xs : List α} {s : State}
    (keeps : ∀ t x, P t → P (f t x)) (same : ∀ t, P t → ∀ x ∈ xs, f t x = g t x) (start : P s) :
    xs.foldl f s = xs.foldl g s := by
  induction xs generalizing s with
  | nil => rfl
  | cons x xs ih =>
    rw [List.foldl_cons, List.foldl_cons, ← same s start x List.mem_cons_self]
    exact ih (fun t k y mem => same t k y (List.mem_cons_of_mem x mem)) (keeps s x start)

/-- A last trip gives its cause. -/
theorem lastTripCause_of {s : State} {i : StepIx} {r : TripRec} (last : (s.ub i).lastTrip = some r) :
    s.lastTripCause i = r.cause := by
  simp only [State.lastTripCause, last]

section
variable {is : List StepIx} {cause : StepIx → Cause} {v : Vector UbpStep 8} {s : State}
variable (causes : ∀ i ∈ is, ∀ x : State, x.ubp.steps = v → x.lastTripCause i = cause i)
include causes

theorem claimTrips_causes (start : s.ubp.steps = v) : is.foldl (fun x i => claimTrip i x) s
    = is.foldl (fun x i => if (x.step i).state = .energized then lockOut i (cause i) x else x) s := by
  refine foldl_congr_of_kept (P := fun x => x.ubp.steps = v)
    (fun x i k => (lockoutClaim_chain i (x.lastTripCause i) x).ub.trans k) (fun x k i mem => ?_) start
  rw [claimTrip, causes i mem x k]
  rfl

theorem announceTrips_causes (start : s.ubp.steps = v) : is.foldl (fun x i => announceTrip i x) s
    = is.foldl (fun x i => pulse .unbTrip (raiseNotice .trip (some i) (cause i).code 0 x)) s := by
  refine foldl_congr_of_kept (P := fun x => x.ubp.steps = v)
    (fun x i k => (announceTrip_chain i x).ub.trans k) (fun x k i mem => ?_) start
  rw [announceTrip, causes i mem x k]

end

/-! ### A posting -/

section
variable {m : MeasRecord} {e : Nat} {s : State} {i : StepIx}

/-- An evaluation leaves the history. -/
theorem evaluateSteps_history : ((evaluateSteps m e s).ub i).history = (s.ub i).history := by
  rw [evaluateSteps_ub, State.evaluatedRecord]
  split
  · rfl
  · split <;> rfl

/-- A step's record after UBP's part in a posting, but for its baseline. -/
theorem ubpPosting_ub : { (ubpPosting m e s).ub i with baseline := none }
    = { s.tripped (evaluateSteps m e s) i with baseline := none } := by
  have protected_ : (protect (tripsBetween s (evaluateSteps m e s)) (evaluateSteps m e s)).ub i
      = s.tripped (evaluateSteps m e s) i := by
    rw [State.ub, protect_ub, recordTrips_eq]
    exact Tab.get_build ..
  rw [ubpPosting, advanceCapture_ub, protected_]

theorem ubpPosting_stages : ((ubpPosting m e s).ub i).s1 = ((evaluateSteps m e s).ub i).s1
    ∧ ((ubpPosting m e s).ub i).s2 = ((evaluateSteps m e s).ub i).s2
    ∧ ((ubpPosting m e s).ub i).s3 = ((evaluateSteps m e s).ub i).s3 := by
  have posted := ubpPosting_ub (m := m) (e := e) (s := s) (i := i)
  obtain ⟨s1, s2, s3⟩ := tripped_stages (s := s) (t := evaluateSteps m e s) (i := i)
  exact ⟨(congrArg UbpStep.s1 posted).trans s1, (congrArg UbpStep.s2 posted).trans s2,
    (congrArg UbpStep.s3 posted).trans s3⟩

/-- A step that trips on a posting has its stamp and its last trip. -/
theorem ubpPosting_trip {g : TripStage} (trips : tripStage (s.ub i) ((evaluateSteps m e s).ub i) = some g) :
    ((ubpPosting m e s).ub i).history = (s.tripRecord ((evaluateSteps m e s).ub i) g).history
    ∧ ((ubpPosting m e s).ub i).lastTrip = (s.tripRecord ((evaluateSteps m e s).ub i) g).lastTrip := by
  have posted := ubpPosting_ub (m := m) (e := e) (s := s) (i := i)
  rw [tripped_of trips, tripRecord_congr (s := s) (t := evaluateSteps m e s) rfl rfl] at posted
  have history := congrArg UbpStep.history posted
  have lastTrip := congrArg UbpStep.lastTrip posted
  exact ⟨history, lastTrip⟩

end

/-! ### The commands -/

theorem ub_untouched (i : StepIx) : Untouched (fun s => s.ub i) := fun _ _ a => congrArg (·.get i) a.ub

theorem position_untouched (i : StepIx) : Untouched (fun s => (s.step i).position) := fun _ _ a => (a.position i).1

section
variable {l : Link} {bs : List Byte} {s u w : State} {m : MeasRecord} {e : Nat} {i : StepIx} {x : StepMeas}
variable (p : s.posting l bs = some (m, e, u)) (before : hsvPosting m (vrgPosting m e u) = w)
include p before

/-- UBP finds on a posting the record of a step, the settings and the reading as they were. -/
theorem ubp_finds : w.ub i = s.ub i ∧ w.su = s.su ∧ w.now = s.now := by
  subst before
  exact ⟨hsvPosting_posted (ub_untouched i) (fun _ _ => rfl) (fun _ _ => rfl) (fun _ _ => rfl) p,
    hsvPosting_posted (fun _ _ a => a.su) (fun _ _ => rfl) (fun _ _ => rfl) (fun _ _ => rfl) p,
    hsvPosting_posted now_untouched (fun _ _ => rfl) (fun _ _ => rfl) (fun _ _ => rfl) p⟩

variable (block : m.blocks.get i = some x) (armed : (s.ub i).eval = .armed) (closed : (s.step i).position = .closed)
variable (rests : ¬∃ o, (w.sw i).op = some o ∧ o.phase ≠ .settling)
include block armed closed rests

/-- A posting evaluates an armed step that is closed and at rest. -/
theorem evaluateSteps_posted : (evaluateSteps m e w).ub i
    = (s.ub i).evaluate s.su.active i (compensated (s.ub i).baseline x) e := by
  obtain ⟨ub, su, -⟩ := ubp_finds p before (i := i)
  have position : (w.step i).position = (s.step i).position := by
    rw [← before]
    exact hsvPosting_posted (position_untouched i) (fun _ _ => rfl) (fun _ _ => rfl) (fun _ _ => rfl) p
  have stands : w.evaluated i = true :=
    evaluated_iff.mpr ⟨(congrArg UbpStep.eval ub).trans armed, position.trans closed, rests⟩
  rw [evaluateSteps_measured stands block, ub, su]

variable (running : s.resetHeld = none)
include running

/-- UNB_ALARM is the posting on which S1 reaches its delay. -/
theorem unbAlarm_posted (notYet : (s.ub i).s1.state ≠ .asserted)
    (above : s.su.active.l1 i ≤ compensated (s.ub i).baseline x)
    (full : s.su.active.ySec .d1 ≤ (s.ub i).s1.timer + e) :
    exec (.unbAlarm i l bs) s = .next (ubpPosting m e w)
      ∧ ((ubpPosting m e w).ub i).s1 = ⟨.asserted, s.su.active.ySec .d1⟩ := by
  have evaluated := evaluateSteps_posted p before block armed closed rests
  obtain ⟨s1, -⟩ := ubpPosting_stages (m := m) (e := e) (s := w) (i := i)
  rw [evaluated] at s1
  refine ⟨onFrame_posted running p (before ▸ measFrame_posted running p rfl) ?_, ?_⟩
  · rw [alarmAsserts, s1]
    exact newlyAsserted_update.mpr ⟨notYet, above, full⟩
  · exact s1.trans ((update_advances above notYet).trans (advance_full full))

/-- UNB_TRIP is the posting on which S2, S3 or both reach their delays. -/
theorem unbTrip_posted {g : TripStage} (trips : tripStage (s.ub i)
      ((s.ub i).evaluate s.su.active i (compensated (s.ub i).baseline x) e) = some g) :
    exec (.unbTrip i l bs) s = .next (ubpPosting m e w)
      ∧ ((ubpPosting m e w).ub i).history = appendStamp (s.ub i).history s.uptime
      ∧ ((ubpPosting m e w).ub i).lastTrip = some ⟨s.uptime, g, compensated (s.ub i).baseline x,
          s.tripCause (appendStamp (s.ub i).history s.uptime)⟩ := by
  have evaluated := evaluateSteps_posted p before block armed closed rests
  obtain ⟨ub, su, now⟩ := ubp_finds p before (i := i)
  obtain ⟨-, s2, s3⟩ := ubpPosting_stages (m := m) (e := e) (s := w) (i := i)
  rw [← evaluated] at trips
  have posted := ubpPosting_trip (ub.symm ▸ trips)
  obtain ⟨history, lastTrip⟩ :=
    tripRecord_evaluate s (s.ub i) s.su.active i (compensated (s.ub i).baseline x) e g
  rw [evaluated, tripRecord_congr now su, history, lastTrip] at posted
  refine ⟨onFrame_posted running p (before ▸ measFrame_posted running p rfl) ?_, posted⟩
  rw [tripAsserts, tripStage_congr s2 s3, trips]
  rfl

end

theorem armingExpiry_arms {i : StepIx} {s : State} {due : Nat} (running : s.resetHeld = none)
    (waits : (s.ub i).eval = .awaitSettle) (loaded : (s.ub i).arming = some due) (past : due ≤ s.now) :
    exec (.armingExpiry i) s = .next (arm i s) :=
  live_occurs running (by simp [State.armingOver, waits, loaded, expired, past])

theorem unbAlarm_iff {s : State} : s.unbAlarm = true ↔ ∃ i, (s.ub i).s1.state = .asserted := by
  simp [State.unbAlarm]

/-- Settles O57: the two commands as the postings on which a stage reaches its delay, the arming expiry, the alarm, and
the whole of UBP's part in a posting, whose trips are walked step by step with their causes as recorded. -/
theorem unbalanceAlarmsAndTrips : Obligations.UnbalanceAlarmsAndTrips := by
  refine ⟨fun i s => ⟨fun l bs m e p x running posted block => ?commands, fun due => armingExpiry_arms⟩,
    fun s => unbAlarm_iff, fun m e s => ?posting⟩
  case commands =>
    intro w t r c u armed closed rests
    refine ⟨unbAlarm_posted posted rfl block armed closed rests running, ?_⟩
    intro second third trips history counted
    exact unbTrip_posted posted rfl block armed closed rests running
      (tripStage_of newlyAsserted_update newlyAsserted_update trips)
  case posting =>
    intro t asserts tripped now history counted cause recorded trips claimed opened lowest alarmed
    have asserted : ∀ a b, newlyAsserted a b = asserts a b := fun a b => by
      simp [newlyAsserted, asserts, Bool.decide_and, bne, beq_eq_decide]
    have stage : ∀ i, tripStage (s.ub i) (t.ub i) = tripped i := fun i => by
      rw [tripStage, asserted, asserted] <;> rfl
    have steps : (tripsBetween s t).map Prod.fst = trips := by
      simp only [tripsBetween_steps, stage]
      rfl
    have record : ∀ i g, t.tripRecord (t.ub i) g = { t.ub i with
        history := history i, lastTrip := some ⟨now, g, (t.ub i).lastMag.getD 0, cause i⟩ } :=
      fun i g => tripRecord_eq evaluateSteps_history t g
    have table : ∀ i, recorded.ub i = s.tripped t i := fun i => by
      refine (Tab.get_build ..).trans ?_
      rw [State.tripped, stage]
      cases tripped i with
      | none => rfl
      | some g => exact (record i g).symm
    have records : (tripsBetween s t).foldl (fun x p => recordTrip p.1 p.2 x) t = recorded :=
      recordTrips_eq.trans (congrArg (fun v => { t with ubp := { t.ubp with steps := v } })
        (Tab.ext_get fun i => (Tab.get_build ..).trans (table i).symm))
    have causes : ∀ i ∈ trips, ∀ x : State, x.ubp.steps = recorded.ubp.steps → x.lastTripCause i = cause i := by
      intro i mem x same
      obtain ⟨g, trip⟩ := Option.isSome_iff_exists.mp (List.mem_filter.mp mem).2
      have own : x.ub i = t.tripRecord (t.ub i) g := calc
        x.ub i = recorded.ub i := congrArg (·.get i) same
        _ = t.tripRecord (t.ub i) g := (table i).trans (tripped_of ((stage i).trans trip))
      rw [record] at own
      exact lastTripCause_of (congrArg UbpStep.lastTrip own)
    have taken : takeTrips (tripsBetween s t) t = opened := by
      rw [takeTrips_steps, steps, records, claimTrips_causes causes rfl]
    have alarm : t.lowestAlarm = lowest := by
      simp only [State.lowestAlarm, beq_eq_decide]
      rfl
    have kept : alarmed.ubp.steps = recorded.ubp.steps := calc
      alarmed.ubp.steps = opened.ubp.steps := (unbCondition_chain lowest opened).ub
      _ = recorded.ubp.steps := by rw [← taken, ← records, (takeTrips_chain (tripsBetween s t) t).ub]
    show advanceCapture m (announceTrips (tripsBetween s t)
      (unbCondition t.lowestAlarm (takeTrips (tripsBetween s t) t))) = _
    rw [taken, alarm, announceTrips_steps, steps]
    exact congrArg (advanceCapture m) (announceTrips_causes causes kept)

end Sys2Proof.Machine
end

