-- ==== Sys2Proof/Proofs/Routes.lean ====
section
/-! PROOFS. The Event Router: what its table contributes (R160, R162, R163), what it does with a report (R158, R160,
R164 to R166), and a route change with its request (R167, R168). -/

namespace Sys2Proof.Machine

/-! ### The sources and the destinations (R158, R159) -/

theorem mem_allSources (x : Source) : x ∈ allSources := by cases x <;> decide

theorem sourceOfCode_number (x : Source) : Source.ofCode x.number = some x := by cases x <;> rfl

theorem sourceOfCode_byte (x : Source) : Source.ofCode (BitVec.ofNat 8 x.number).toNat = some x := by cases x <;> rfl

theorem sourceOfCode_none {n : Nat} (h : n = 0 ∨ 16 < n) : Source.ofCode n = none := by
  obtain zero | above := h
  · exact if_pos zero
  · have past : allSources.length ≤ n - 1 := Nat.le_sub_one_of_lt above
    rw [Source.ofCode, if_neg (Nat.ne_zero_of_lt above), List.getElem?_eq_none past]

theorem Source.ix_injective : Function.Injective Source.ix := fun x y h => by
  have same : x.number = y.number := congrArg (fun i => i.val + 1) h
  exact Option.some.inj ((sourceOfCode_number x).symm.trans (same ▸ sourceOfCode_number y))

theorem destinationOfCode_byte (d : Destination) : Destination.ofCode (BitVec.ofNat 8 d.code).toNat = some d := by
  cases d with
  | aux n => revert n; decide
  | _ => rfl

theorem destinationOfCode_none {n : Nat} (h : 8 < n) : Destination.ofCode n = none := by
  match n, h with
  | _ + 9, _ => rfl

theorem isPulse_iff (x : Source) :
    x.isPulse = true ↔ x = .unbTrip ∨ x = .opFail ∨ x = .sourceSwitch ∨ x = .stationSilent := by
  cases x <;> decide

theorem removes_iff (d : Destination) : d.removes = true ↔ d = .removeNewest ∨ d = .removeAll := by
  cases d <;> simp [Destination.removes]

/-! ### What the table contributes (R160, R162, R163) -/

section
variable {s : State}

theorem contribution_iff (d : Destination) : s.contribution d = true
    ↔ ∃ x : Source, x.isPulse = false ∧ s.route x = d ∧ s.sourceActive x = true := by
  simp [State.contribution, mem_allSources, and_assoc]

/-- An AUX output is driven by the conditions routed to it and the running hold timers of the pulses routed to it. -/
theorem aux_iff (n : Fin 4) : s.aux n = true ↔ s.resetHeld = none ∧ ∃ x : Source, s.route x = .aux n
    ∧ ((x.isPulse = false ∧ s.sourceActive x = true) ∨ (x.isPulse = true ∧ s.evr.hold.get x.ix ≠ none)) := by
  have held : allSources.any (fun x => x.isPulse && decide (s.route x = .aux n) && (s.evr.hold.get x.ix).isSome) = true
      ↔ ∃ x : Source, x.isPulse = true ∧ s.route x = .aux n ∧ s.evr.hold.get x.ix ≠ none := by
    simp [mem_allSources, and_assoc, Option.isSome_iff_ne_none]
  rw [State.aux, Bool.and_eq_true, Bool.or_eq_true, Option.isNone_iff_eq_none, contribution_iff, held, ← exists_or]
  refine and_congr_right fun _ => exists_congr fun x => ?_
  rw [and_left_comm, and_left_comm (a := x.isPulse = true), ← and_or_left]

/-! ### Reports (R158, R160, R164, R165) -/

/-- A condition source has its state, and the FREEZE hold has followed. -/
def State.reported (s : State) (x : Source) (b : Bool) : State :=
  syncFreeze (s.onEvr (fun e => { e with active := Tab.put e.active x.ix b }))

/-- The switching machinery keeps every route. -/
theorem Chain.route {t : State} (h : Chain s t) (x : Source) : t.route x = s.route x :=
  congrArg (·.get x.ix) h.routes

theorem reported_route (x y : Source) (b : Bool) : (s.reported x b).route y = s.route y :=
  ((onEvr_chain _ s rfl).trans (syncFreeze_chain _)).route y

section
variable {x : Source} {b : Bool}

theorem condition_same (h : s.sourceActive x = b) : condition x b s = s := if_pos h

theorem condition_changed (h : s.sourceActive x ≠ b) : condition x b s = dispatcher
    (if b && (s.route x).removes then trigger x (s.route x) (s.reported x b) else s.reported x b) := by
  rw [condition, if_neg h, routeCondition, if_neg h, ← reported_route x x b]
  rfl

/-- A rising edge on a removal destination is a trigger. -/
theorem condition_triggers (h : s.sourceActive x ≠ b)
    (edge : b = true ∧ (s.route x = .removeNewest ∨ s.route x = .removeAll)) :
    condition x b s = dispatcher (trigger x (s.route x) (s.reported x b)) := by
  rw [← removes_iff, ← Bool.and_eq_true] at edge
  rw [condition_changed h, if_pos edge]

theorem condition_follows (h : s.sourceActive x ≠ b)
    (noEdge : ¬(b = true ∧ (s.route x = .removeNewest ∨ s.route x = .removeAll))) :
    condition x b s = dispatcher (s.reported x b) := by
  rw [← removes_iff, ← Bool.and_eq_true] at noEdge
  rw [condition_changed h, if_neg noEdge]

/-- A pulse loads its hold timer on an AUX output. -/
theorem pulse_aux {n : Fin 4} (routed : s.route x = .aux n) : pulse x s = dispatcher (s.onEvr (fun e =>
    { e with hold := Tab.put e.hold x.ix (some (s.now + s.y .auxHold)) })) := by
  rw [pulse, routePulse, routed]

/-- A pulse is a trigger on a removal destination. -/
theorem pulse_triggers (routed : s.route x = .removeNewest ∨ s.route x = .removeAll) :
    pulse x s = dispatcher (trigger x (s.route x) s) := by
  obtain routed | routed := routed <;> rw [pulse, routePulse, routed]

theorem pulse_passes (kept : ¬(s.route x = .removeNewest ∨ s.route x = .removeAll)) (noAux : ∀ n, s.route x ≠ .aux n) :
    pulse x s = dispatcher s := by
  rw [pulse, routePulse]
  split
  · next n routed => exact absurd routed (noAux n)
  · next routed => exact absurd (.inl routed) kept
  · next routed => exact absurd (.inr routed) kept
  · rfl

end

/-! ### A route change (R168) -/

section
variable (s : State) (x : Source) (d : Destination)

/-- The first part of a route change: the hold timer of a pulse is stopped and a contribution withdrawn. -/
def State.routeWithdrawn : State := syncFreeze (putRoute x .none (if x.isPulse then stopHold x s else s))

/-- The second part of a route change: the entry takes its destination, and its contribution starts. -/
def State.routeEntered : State := syncFreeze (putRoute x d (s.routeWithdrawn x))

end

section
variable {x : Source} {d : Destination}

theorem putRoute_route (y : Source) : (putRoute x d s).route y = if y = x then d else s.route y := by
  rw [show (putRoute x d s).route y = (Tab.put s.evr.routes x.ix d).get y.ix from rfl, Tab.get_put]
  exact if_congr Source.ix_injective.eq_iff rfl rfl

theorem syncFreeze_route (y : Source) : (syncFreeze s).route y = s.route y := (syncFreeze_chain s).route y

theorem routeEntered_route (y : Source) : (s.routeEntered x d).route y = if y = x then d else s.route y := by
  have stopped : (if x.isPulse then stopHold x s else s).route y = s.route y := by split <;> rfl
  rw [State.routeEntered, syncFreeze_route, putRoute_route, State.routeWithdrawn, syncFreeze_route, putRoute_route,
    stopped]
  split <;> rfl

theorem deliverRoute_chain : Chain s (deliverRoute x d s) := .ite (fun _ => trigger_chain ..) (fun _ => .refl s)

theorem changeRoute_same (h : s.route x = d) : changeRoute x d s = s := if_pos h

theorem changeRoute_moves (h : s.route x ≠ d) :
    changeRoute x d s = dispatcher (deliverRoute x d (s.routeEntered x d)) := if_neg h

/-- A route change changes the route of its source alone. -/
theorem changeRoute_route (y : Source) : (changeRoute x d s).route y = if y = x then d else s.route y := by
  by_cases h : s.route x = d
  · rw [changeRoute_same h]
    split
    · next same => rw [same, h]
    · rfl
  · rw [changeRoute_moves h, (deliverRoute_chain.trans (dispatcher_chain _)).route, routeEntered_route]

theorem delivers_iff : (!x.isPulse && s.sourceActive x && d.removes) = true
    ↔ x.isPulse = false ∧ s.sourceActive x = true ∧ (d = .removeNewest ∨ d = .removeAll) := by
  rw [Bool.and_eq_true, Bool.and_eq_true, removes_iff, Bool.not_eq_true', and_assoc]

/-- An active condition gives a removal destination its trigger. -/
theorem deliverRoute_triggers (delivers : x.isPulse = false ∧ s.sourceActive x = true
      ∧ (d = .removeNewest ∨ d = .removeAll)) : deliverRoute x d s = trigger x d s :=
  if_pos (delivers_iff.mpr delivers)

theorem deliverRoute_rests (rests : ¬(x.isPulse = false ∧ s.sourceActive x = true
      ∧ (d = .removeNewest ∨ d = .removeAll))) : deliverRoute x d s = s :=
  if_neg (mt delivers_iff.mp rests)

/-! ### ROUTE_SET (R167) -/

/-- The reply of an accepted ROUTE_SET (R207). -/
def State.routeReply (s : State) (x : Source) (d : Destination) : Reply :=
  ⟨.ok, [if x.isPulse then 0xFF#8 else if s.sourceActive x then 1#8 else 0#8, BitVec.ofNat 8 d.code]⟩

theorem routeReply_eq (routed : s.route x = d) :
    Reply.okay (opt8 (s.sourceState x) ++ u8 (s.route x).code) = s.routeReply x d := by
  rw [routed, State.routeReply, State.sourceState]
  cases x.isPulse
  · cases s.sourceActive x <;> rfl
  · rfl

/-- The destinations that are refused (R167, checks 2 and 3). -/
theorem routeAllowed_iff : routeAllowed x d = true
    ↔ ¬((d = .freeze ∨ d = .blockInsert) ∧ (x.isPulse = true ∨ x = .noCandidate)) := by
  simp only [routeAllowed, Bool.or_eq_true, Bool.and_eq_true, Bool.not_eq_true', Bool.or_eq_false_iff,
    decide_eq_true_eq, decide_eq_false_iff_not, not_and_or, not_or, Bool.not_eq_true]

theorem takeRouteSet_range {n m : Byte} (h : n.toNat = 0 ∨ 16 < n.toNat ∨ 8 < m.toNat) :
    takeRouteSet n m s = refuse .outOfRange s := by
  unfold takeRouteSet
  obtain source | destination := or_assoc.mpr h
  · rw [sourceOfCode_none source]
  · rw [destinationOfCode_none destination]
    cases Source.ofCode n.toNat <;> rfl

theorem takeRouteSet_code : takeRouteSet (BitVec.ofNat 8 x.number) (BitVec.ofNat 8 d.code) s
    = if routeAllowed x d then (changeRoute x d s, (changeRoute x d s).routeReply x d) else refuse .outOfRange s := by
  simp only [takeRouteSet, sourceOfCode_byte, destinationOfCode_byte,
    routeReply_eq ((changeRoute_route x).trans (if_pos rfl))]

section
variable (running : s.resetHeld = none)
include running

theorem routeSet_refused (refused : (d = .freeze ∨ d = .blockInsert) ∧ (x.isPulse = true ∨ x = .noCandidate)) :
    exec (.routeSet (BitVec.ofNat 8 x.number) (BitVec.ofNat 8 d.code)) s = .next (s.replied ⟨.outOfRange, []⟩) :=
  serve_refuse running (takeRouteSet_code.trans (if_neg (mt routeAllowed_iff.mp (not_not_intro refused))))

theorem routeSet_taken (allowed : ¬((d = .freeze ∨ d = .blockInsert) ∧ (x.isPulse = true ∨ x = .noCandidate))) :
    exec (.routeSet (BitVec.ofNat 8 x.number) (BitVec.ofNat 8 d.code)) s
      = .next ((changeRoute x d s).replied ((changeRoute x d s).routeReply x d)) := by
  refine (serve_eq _ running).trans ?_
  rw [takeRouteSet_code, if_pos (routeAllowed_iff.mpr allowed)]
  rfl

end

end

theorem auxHoldExpiry_stops {p : PulseSource} {due : Nat} (running : s.resetHeld = none)
    (loaded : s.evr.hold.get p.source.ix = some due) (past : due ≤ s.now) :
    exec (.auxHoldExpiry p) s = .next (stopHold p.source s) :=
  live_occurs running (by simp [State.auxOver, loaded, expired, past])

end

/-- Settles O60: the contributions and the AUX outputs as sums over the sources, a report by its edge and its
destination, and ROUTE_SET as its check followed by the three parts of a route change. -/
theorem routesCarryTheirSources : Obligations.RoutesCarryTheirSources := by
  intro s freezes
  refine ⟨⟨contribution_iff .freeze, fun same => if_pos same, fun differs => if_neg differs,
    contribution_iff .blockInsert, aux_iff, isPulse_iff⟩, fun x b => ?reports, fun x d => ?triggers,
    fun running => ⟨fun p due => auxHoldExpiry_stops running,
      fun n d outside => serve_refuse running (takeRouteSet_range outside), fun x d => ?routeSet⟩⟩
  case reports =>
    exact ⟨condition_same, fun changes => ⟨condition_triggers changes, condition_follows changes⟩,
      fun n => pulse_aux, pulse_triggers, pulse_passes⟩
  case triggers =>
    cases d <;> rfl
  case routeSet =>
    intro command kept refused put stopped withdrawn entered delivers answer answered
    have parts : s.routeEntered x d = entered := rfl
    refine ⟨routeSet_refused running, fun allowed same => ?_,
      fun allowed differs => ⟨fun triggers => ?_, fun rests => ?_⟩,
      fun allowed => ⟨_, routeSet_taken running allowed, ?_, fun y other => ?_⟩⟩
    · rw [routeSet_taken running allowed, changeRoute_same same]
      rfl
    · rw [routeSet_taken running allowed, changeRoute_moves differs, parts, deliverRoute_triggers triggers]
      rfl
    · rw [routeSet_taken running allowed, changeRoute_moves differs, parts, deliverRoute_rests rests]
      rfl
    · exact (changeRoute_route x).trans (if_pos rfl)
    · exact (changeRoute_route y).trans (if_neg other)

end Sys2Proof.Machine
end

