-- ==== Sys2Proof/Proofs/HostLine.lean ====
section
/-! PROOFS. The host line: a complete frame that is discarded or refused (R172, R175, R176), the receiver byte by byte
with its gap and its abandonments (R171), and the link resets (R186). -/

namespace Sys2Proof.Machine

section
variable {s : State}

/-! ### When the receiver takes what arrives (R171, R186) -/

theorem receiving_of (hunts : s.hlk.receiver = .hunting) : s.receiving = true := by
  rw [State.receiving, hunts]
  rfl

theorem receiving_ignores (ignores : s.hlk.receiver = .ignoring) : s.receiving = false := by
  rw [State.receiving, ignores]
  rfl

/-- An occurrence that does not stand changes nothing, while no reset is held. -/
theorem live_rests {b : Bool} {f : State → State} (running : s.resetHeld = none) (absent : b = false) :
    live s (onlyIf b f) = .next s :=
  (live_eq _ running).trans (congrArg _ (onlyIf_false f s absent))

/-! ### A complete frame (R172, R175, R176) -/

section
variable {bs : List Byte}

/-- The bytes of a complete frame, at a hunting receiver that holds none, are the handling of that frame. -/
theorem hostFrame_whole (running : s.resetHeld = none) (hunts : s.hlk.receiver = .hunting) (empty : s.hlk.rx = none)
    (whole : hostComplete bs = true) : exec (.hostFrame bs) s = .next (hostFrameEnds bs s) :=
  (live_occurs running (receiving_of hunts)).trans (congrArg _ (hostBytes_whole empty whole))

theorem hostFrameEnds_overrun (busy : s.hlk.busy = true) : hostFrameEnds bs s
    = countHost (fun k => { k with overruns := satInc 65535 k.overruns }) s := if_pos busy

theorem hostFrameEnds_badCheck (free : s.hlk.busy = false) (bad : hostCheckOk bs = false) : hostFrameEnds bs s
    = countHost (fun k => { k with badChecks := satInc 65535 k.badChecks }) s := by
  rw [hostFrameEnds, free, bad]
  rfl

theorem hostFrameEnds_good (free : s.hlk.busy = false) (good : hostCheckOk bs = true) : hostFrameEnds bs s
    = sendReply (hostType bs) (hostTag bs) (takeRequestFrame (hostType bs) (hostPayload bs) (goodHostFrame s)) := by
  rw [hostFrameEnds, free, good]
  rfl

/-- A request of an unknown type or of a wrong length is refused (R175, checks 1 and 2). -/
theorem takeRequestFrame_refuses {ty : Nat} {payload : List Byte} {code : ReplyCode}
    (refused : decodeRequest ty payload = none ∧ code = .unknownRequest
      ∨ decodeRequest ty payload = some none ∧ code = .badLength) :
    takeRequestFrame ty payload s = refuse code s := by
  obtain ⟨unknown, rfl⟩ | ⟨length, rfl⟩ := refused
  · rw [takeRequestFrame, unknown]
  · rw [takeRequestFrame, length]

end

/-! ### The gap (R171) -/

theorem hostGapOver_iff (hunts : s.hlk.receiver = .hunting) : s.hostGapOver = true ↔
    ∃ x, s.hlk.rx = some x ∧ 1 ≤ x.bytes.length ∧ x.gapDue ≤ s.now := by
  rw [State.hostGapOver, receiving_of hunts, Bool.true_and]
  unfold gapLasted
  cases s.hlk.rx <;> simp

theorem hostGapTaken_late (late : s.hostGapOver = true) : hostGapTaken s
    = countHost (fun k => { k with timeouts := satInc 65535 k.timeouts }) (holdHost [] s) := if_pos late

theorem hostGapTaken_inTime (inTime : s.hostGapOver = false) : hostGapTaken s = s := by
  simp [hostGapTaken, inTime]

/-- After a gap that is over, the receiver holds nothing whose gap could be over. -/
theorem hostGapTaken_twice (s : State) : hostGapTaken (hostGapTaken s) = hostGapTaken s := by
  cases late : s.hostGapOver with
  | true =>
    refine hostGapTaken_inTime ?_
    rw [hostGapTaken_late late]
    exact Bool.and_false _
  | false => rw [hostGapTaken_inTime late, hostGapTaken_inTime late]

theorem hostGapTaken_receiving (s : State) : (hostGapTaken s).receiving = s.receiving := by
  unfold hostGapTaken
  split <;> rfl

/-- What arrives at a receiver is taken after a gap that is over. -/
theorem live_hostGapTaken {f : State → State} (running : s.resetHeld = none) (hunts : s.receiving = true)
    (same : f (hostGapTaken s) = f s) :
    live s (onlyIf s.receiving f) = live (hostGapTaken s) (onlyIf (hostGapTaken s).receiving f) := by
  have stillRunning : (hostGapTaken s).resetHeld = none :=
    (hostGapTaken_run (free := True) (meas := True) (stor := True) s).outside.2.2.trans running
  rw [live_occurs running hunts, live_occurs stillRunning ((hostGapTaken_receiving s).trans hunts), same]

theorem hostBytes_gapTaken (bs : List Byte) (s : State) : hostBytes bs (hostGapTaken s) = hostBytes bs s := by
  rw [hostBytes, hostGapTaken_twice, hostBytes]

theorem lineByte_gapTaken (b : Byte) (low : Bool) (s : State) : lineByte b low (hostGapTaken s) = lineByte b low s := by
  rw [lineByte, hostGapTaken_twice, lineByte]

theorem hostAbandon_gapTaken (cause : AbandonCause) (s : State) :
    hostAbandon cause (hostGapTaken s) = hostAbandon cause s := by
  simp only [hostAbandon, hostGapTaken_twice]

/-! ### One byte within the gap (R171) -/

section
variable {b : Byte}

theorem receiveHostByte_lengthByte {held : List Byte} (one : held.length = 1) : receiveHostByte held b
    = if 240 < b.toNat then (some .lengthError, []) else (none, held ++ [b]) := by
  obtain ⟨x, rfl⟩ := List.length_eq_one_iff.mp one
  rfl

theorem receiveHostByte_begun {held : List Byte} (begun : 2 ≤ held.length) : receiveHostByte held b
    = if (held ++ [b]).length = field (held ++ [b]) 1 1 + 6 then (some (.complete (held ++ [b])), [])
      else (none, held ++ [b]) := by
  match held, begun with
  | _ :: _ :: _, _ => rfl

theorem hostByte_of {e : Option HostEvent} {bytes : List Byte} (makes : receiveHostByte s.hostHeld b = (e, bytes)) :
    hostByte s b = hostEvent e (holdHost bytes s) := by
  simp only [hostByte, makes]

/-- A hunting receiver begins a frame with its marker, and discards every other byte. -/
theorem hostByte_hunting (empty : s.hostHeld = []) : hostByte s b
    = if b = 0xA5#8 then holdHost [b] s else hostEvent (some .discarded) (holdHost [] s) := by
  by_cases marker : b = 0xA5#8
  · rw [if_pos marker]
    exact hostByte_of (e := none) (by rw [empty]; exact if_pos marker)
  · rw [if_neg marker]
    exact hostByte_of (by rw [empty]; exact if_neg marker)

/-- The length byte abandons its frame where it is above 240. -/
theorem hostByte_lengthByte (one : s.hostHeld.length = 1) : hostByte s b
    = if 240 < b.toNat then abandonHost .lengthError s else holdHost (s.hostHeld ++ [b]) s := by
  have makes := receiveHostByte_lengthByte (b := b) one
  by_cases above : 240 < b.toNat
  · rw [if_pos above] at makes ⊢
    exact hostByte_of makes
  · rw [if_neg above] at makes ⊢
    exact hostByte_of makes

section
variable (begun : 2 ≤ s.hostHeld.length)
include begun

/-- A byte before the last one that the length byte gives is held. -/
theorem hostByte_inside {n : Byte} (length : s.hostHeld[1]? = some n) (ahead : s.hostHeld.length + 1 ≠ n.toNat + 6) :
    hostByte s b = holdHost (s.hostHeld ++ [b]) s := by
  have read : field (s.hostHeld ++ [b]) 1 1 = n.toNat := by
    rw [field_append _ _ 1 1 begun, field_one _ 1 begun]
    exact congrArg BitVec.toNat (List.getElem?_eq_some_iff.mp length).2
  exact hostByte_of (e := none) ((receiveHostByte_begun begun).trans (if_neg (by simpa [read] using ahead)))

/-- The last byte of a complete frame ends it. -/
theorem hostByte_last (whole : hostComplete (s.hostHeld ++ [b]) = true) :
    hostByte s b = hostFrameEnds (s.hostHeld ++ [b]) (holdHost [] s) := by
  simp only [hostComplete, decide_eq_true_eq] at whole
  exact hostByte_of ((receiveHostByte_begun begun).trans (if_pos whole.2.2))

end

end

/-! ### Abandonments within the gap (R171) -/

section
variable {cause : AbandonCause} (inTime : s.hostGapOver = false)
include inTime

theorem hostAbandon_abandons (stands : s.abandons cause = true) : hostAbandon cause s = abandonHost cause s := by
  rw [hostAbandon, hostGapTaken_inTime inTime]
  exact onlyIf_true _ s stands

theorem hostAbandon_rests (absent : s.abandons cause = false) : hostAbandon cause s = s := by
  rw [hostAbandon, hostGapTaken_inTime inTime]
  exact onlyIf_false _ s absent

end

end

/-- Settles O20: a complete frame at a busy link, with a wrong check value, and one whose request no owner takes. -/
theorem discardedAndRefusedHostFrames : Obligations.DiscardedAndRefusedHostFrames := by
  intro bs s running hunts empty whole
  have frame := hostFrame_whole running hunts empty whole
  refine ⟨fun busy => ?_, fun free bad => ?_, fun free good code refused => ?_⟩
  · rw [frame, hostFrameEnds_overrun busy]
    rfl
  · rw [frame, hostFrameEnds_badCheck free bad]
    rfl
  · rw [frame, hostFrameEnds_good free good, takeRequestFrame_refuses refused, goodHostFrame_eq]
    exact ⟨_, rfl, rfl, rfl, rfl, rfl, rfl, rfl, rfl, rfl, rfl, rfl, rfl, rfl, rfl, rfl⟩

/-- Settles O21: a reset is one update, a gap that is over is taken before what arrives, and within the gap a byte does
what the number of bytes held makes of it. -/
theorem linkResetsAndLineEvents : Obligations.LinkResetsAndLineEvents := by
  intro s running
  refine ⟨⟨serve_eq _ running, fun hunts => live_occurs running (receiving_of hunts),
    fun ignores => live_rests running (receiving_ignores ignores)⟩, ?_⟩
  intro k held line late timedOut lineError lengthError
  refine ⟨fun hunts isLate => ?late, fun hunts inTime => ?inTime, fun ignores => ?ignoring,
    fun sends => live_occurs running sends, live_eq _ running⟩
  case late =>
    have receives := receiving_of hunts
    have taken : hostGapTaken s = timedOut := hostGapTaken_late ((hostGapOver_iff hunts).mpr isLate)
    rw [← taken]
    exact ⟨live_eq _ running, fun bs => live_hostGapTaken running receives (hostBytes_gapTaken bs s),
      fun b low => live_hostGapTaken running receives (lineByte_gapTaken b low s),
      fun cause => live_hostGapTaken running receives (hostAbandon_gapTaken cause s)⟩
  case inTime =>
    have receives := receiving_of hunts
    have notOver : s.hostGapOver = false := Bool.eq_false_iff.mpr (mt (hostGapOver_iff hunts).mp inTime)
    have stays := hostGapTaken_inTime notOver
    have holds : held = s.hostHeld := rfl
    clear_value held
    subst holds
    have bytes (bs : List Byte) : exec (.hostFrame bs) s = .next (bs.foldl hostByte s) := by
      refine (live_occurs running receives).trans ?_
      rw [hostBytes, stays]
    have byte (b : Byte) : exec (.hostFrame [b]) s = .next (hostByte s b) := bytes [b]
    have lineIs (b : Byte) (low : Bool) : exec (.discardedByte b low) s
        = .next (if low then abandonHost .lineError s else hostByte s b) := by
      refine (live_occurs running receives).trans ?_
      rw [lineByte, stays]
    have abandons (cause : AbandonCause) : exec (.hostFrameAbandon cause) s = .next (hostAbandon cause s) :=
      live_occurs running receives
    refine ⟨(live_eq _ running).trans (congrArg _ stays), fun b => ⟨fun empty => ?_, fun one => ?_,
      fun begun => ⟨fun n length ahead => ?_, fun whole => ?_⟩, byte b, ?_, lineIs b true⟩, bytes,
      fun one => ?_, fun other => ?_, fun begun => ?_, fun empty => ?_⟩
    · exact (byte b).trans (congrArg _ (hostByte_hunting empty))
    · exact (byte b).trans (congrArg _ (hostByte_lengthByte one))
    · exact (byte b).trans (congrArg _ (hostByte_inside begun length ahead))
    · exact ((byte b).trans (congrArg _ (hostByte_last begun whole))).trans
        (hostFrame_whole (s := line [] k) running hunts rfl whole).symm
    · exact (lineIs b false).trans (byte b).symm
    · exact (abandons _).trans (congrArg _ (hostAbandon_abandons notOver (decide_eq_true one)))
    · exact (abandons _).trans (congrArg _ (hostAbandon_rests notOver (decide_eq_false other)))
    · exact (abandons _).trans (congrArg _ (hostAbandon_abandons notOver (decide_eq_true begun)))
    · exact (abandons _).trans (congrArg _ (hostAbandon_rests notOver (decide_eq_false (not_not_intro empty))))
  case ignoring =>
    have rests := receiving_ignores ignores
    have gap : hostGapTaken s = s := hostGapTaken_inTime (by rw [State.hostGapOver, rests, Bool.false_and])
    exact ⟨(live_eq _ running).trans (congrArg _ gap), fun _ => live_rests running rests,
      fun _ _ => live_rests running rests, fun _ => live_rests running rests⟩

end Sys2Proof.Machine
end

