-- ==== Sys2Proof/Proofs/Identity.lean ====
section
/-! PROOFS. IDENT: the part, its installed count, the reset record, the uptime and the link resets (R177). -/

namespace Sys2Proof.Machine

theorem resetCauseCode_eq (cause : ResetCause) :
    u8 (resetCauseCode cause) = [BitVec.ofNat 8 (match cause with | .powerOn => 0 | .supply => 1 | .pin => 2)] := by
  cases cause <;> rfl

/-- Settles O22: the items of R177 in their order; the reset cause and the validity of the image by their codes. -/
theorem identReportsPartAndResetRecord : Obligations.IdentReportsPartAndResetRecord := by
  intro s running
  refine serve_okay running rfl ?_
  have image : flag (!s.su.imageValidAtReset) = [if s.su.imageValidAtReset then 0#8 else 1#8] := by
    cases s.su.imageValidAtReset <;> rfl
  rw [State.identBytes, resetCauseCode_eq, image]
  rfl

end Sys2Proof.Machine
end

