-- ==== Sys2Proof/Proofs/Notices.lean ====
section
/-! PROOFS. The notice table: how a class is raised and reported (R180, R181), ATTN (R182), the class that NOTICE_FETCH
selects (R183), and what NOTICE_ACK and NOTICE_CONFIG do to one class (R184, R185). -/

namespace Sys2Proof.Machine

/-! ### The class numbers (R179) -/

theorem mem_allClasses (c : NoticeClass) : c ∈ allClasses := by cases c <;> decide

theorem allClasses_ascending : allClasses.Pairwise (fun c d => c.number < d.number) := by decide

theorem noticeClassOfCode_number (c : NoticeClass) : NoticeClass.ofCode (BitVec.ofNat 8 c.number).toNat = some c := by
  cases c <;> rfl

theorem noticeClassOfCode_none {n : Nat} (outside : n = 0 ∨ 14 < n) : NoticeClass.ofCode n = none := by
  obtain rfl | above := outside
  · rfl
  · rw [NoticeClass.ofCode, if_neg (by omega), List.getElem?_eq_none]
    show 14 ≤ n - 1
    omega

/-! ### The fields of a reply (R207) -/

theorem detailBytes_eq (d : Option Detail) : detailBytes d = (match d with
    | none => List.replicate 8 0#8
    | some d => 1#8 :: u32 d.uptime ++ u8 (match d.step with | none => 255 | some i => stepNo i)
        ++ u8 d.code1 ++ u8 d.code2) := by
  cases d with
  | none => rfl
  | some d =>
    obtain ⟨uptime, step, code1, code2⟩ := d
    cases step <;> rfl

theorem conditionByte_eq (c : NoticeClass) (n : Notice) : conditionByte c n
    = u8 (if c.isCondition then (if n.condition then 1 else 0) else 255) := by
  unfold conditionByte
  split <;> rfl

section
variable {s : State}

/-! ### One class changes -/

/-- An update of a class puts its changed record in the table, and changes nothing else. -/
theorem onNotice_put {c : NoticeClass} {f : Notice → Notice} {n : Notice} (changed : f (s.notice c) = n) :
    s.onNotice c f = { s with hlk := { s.hlk with notices := Tab.put s.hlk.notices c.ix n } } :=
  changed ▸ rfl

/-! ### The pending classes (R182, R183) -/

theorem mem_unmaskedPending (c : NoticeClass) :
    c ∈ s.unmaskedPending ↔ (s.notice c).pending = true ∧ (s.notice c).masked = false := by
  simp [State.unmaskedPending, mem_allClasses]

theorem attn_iff : s.attn = true ↔ ∃ c, (s.notice c).pending = true ∧ (s.notice c).masked = false := by
  rw [State.attn, Bool.not_eq_true', List.isEmpty_eq_false_iff_exists_mem]
  exact exists_congr mem_unmaskedPending

theorem unmaskedPending_ascending : s.unmaskedPending.Pairwise (fun c d => c.number < d.number) :=
  allClasses_ascending.filter _

/-- No pending unmasked class has a lower priority number: the test by which NOTICE_FETCH selects. -/
def State.leastPriority (s : State) (c : NoticeClass) : Bool :=
  s.unmaskedPending.all (fun d => decide ((s.notice c).priority ≤ (s.notice d).priority))

theorem leastPriority_iff (c : NoticeClass) : s.leastPriority c = true
    ↔ ∀ d ∈ s.unmaskedPending, (s.notice c).priority ≤ (s.notice d).priority := by
  simp only [State.leastPriority, List.all_eq_true, decide_eq_true_eq]

theorem fetched_find : s.fetched = s.unmaskedPending.find? s.leastPriority := rfl

/-- The first of an ordered list that a test takes comes before every other one that it takes. -/
theorem find?_first {α : Type} {R : α → α → Prop} {p : α → Bool} {xs : List α} {x y : α} (ordered : xs.Pairwise R)
    (found : xs.find? p = some x) (mem : y ∈ xs) (takes : p y = true) : x = y ∨ R x y := by
  obtain ⟨-, before, after, rfl, skipped⟩ := List.find?_eq_some_iff_append.mp found
  obtain early | late := List.mem_append.mp mem
  · exact absurd takes (by simpa using skipped y early)
  · obtain rfl | behind := List.mem_cons.mp late
    · exact .inl rfl
    · exact .inr ((List.pairwise_cons.mp (List.pairwise_append.mp ordered).2.1).1 y behind)

theorem fetched_none (nothing : s.unmaskedPending = []) : s.fetched = none := by
  rw [fetched_find, nothing]
  rfl

/-- NOTICE_FETCH selects the class before which none comes by priority number and then by class number. -/
theorem fetched_eq {c : NoticeClass} (listed : c ∈ s.unmaskedPending)
    (first : ∀ d ∈ s.unmaskedPending, (s.notice c).priority < (s.notice d).priority
      ∨ (s.notice c).priority = (s.notice d).priority ∧ c.number ≤ d.number) : s.fetched = some c := by
  have least : ∀ d ∈ s.unmaskedPending, (s.notice c).priority ≤ (s.notice d).priority :=
    fun d mem => (first d mem).elim Nat.le_of_lt (fun same => same.1.le)
  have takes := (leastPriority_iff c).mpr least
  obtain ⟨d, found⟩ := Option.isSome_iff_exists.mp (List.find?_isSome.mpr ⟨c, listed, takes⟩)
  have mem := List.mem_of_find?_eq_some found
  have below := (leastPriority_iff d).mp (List.find?_some found) c listed
  obtain rfl | lower := find?_first unmaskedPending_ascending found listed takes
  · exact found
  · have := first d mem
    omega

/-! ### The requests (R184, R185) -/

theorem flagOfCode_byte {m : Byte} (small : m.toNat ≤ 1) : flagOfCode m.toNat = some (decide (m = 1#8)) := by
  obtain zero | one : m = 0#8 ∨ m = 1#8 := by
    obtain h | h : m.toNat = 0 ∨ m.toNat = 1 := by omega
    · exact .inl (BitVec.eq_of_toNat_eq h)
    · exact .inr (BitVec.eq_of_toNat_eq h)
  · subst zero
    rfl
  · subst one
    rfl

theorem noticeAck_outside {n : Byte} (outside : n.toNat = 0 ∨ 14 < n.toNat) :
    takeNoticeAck n s = refuse .outOfRange s := by
  rw [takeNoticeAck, noticeClassOfCode_none outside]

theorem noticeAck_named (c : NoticeClass) : takeNoticeAck (BitVec.ofNat 8 c.number) s
    = (s.onNotice c Notice.acknowledge,
      .okay (u8 (s.notice c).occurrences ++ detailBytes (s.notice c).detail)) := by
  rw [takeNoticeAck, noticeClassOfCode_number]

theorem noticeConfig_outside {n p m : Byte} (outside : n.toNat = 0 ∨ 14 < n.toNat ∨ 3 < p.toNat ∨ 1 < m.toNat) :
    takeNoticeConfig n p m s = refuse .outOfRange s := by
  unfold takeNoticeConfig
  split
  · next c mask named masked =>
    refine if_neg fun low => ?_
    obtain zero | above | high | wide := outside
    · simp [noticeClassOfCode_none (.inl zero)] at named
    · simp [noticeClassOfCode_none (.inr above)] at named
    · omega
    · simp [flagOfCode_none wide] at masked
  · rfl

theorem noticeConfig_named (c : NoticeClass) {p m : Byte} (low : p.toNat ≤ 3) (small : m.toNat ≤ 1) :
    takeNoticeConfig (BitVec.ofNat 8 c.number) p m s
      = (s.onNotice c (fun n => n.configure p.toNat (decide (m = 1#8))),
        .okay (noticeRecord c ((s.notice c).configure p.toNat (decide (m = 1#8))))) := by
  simp only [takeNoticeConfig, noticeClassOfCode_number, flagOfCode_byte small, low, if_true, onNotice_notice]

end

/-- Settles O24: the pending unmasked classes stand in number order, and the first with the least priority number is
selected. -/
theorem noticeFetchSelectsTheMostUrgent : Obligations.NoticeFetchSelectsTheMostUrgent := by
  intro s running listed count
  have counted : s.unmaskedPending.length = count :=
    congrArg List.length (List.filter_congr fun c _ => by simp [listed, Bool.decide_and])
  clear_value count
  subst counted
  have listed_iff (c : NoticeClass) : c ∈ s.unmaskedPending ↔ listed c := mem_unmaskedPending c
  refine ⟨fun nothing => ?_, fun c isListed first => ?_⟩
  · have empty : s.unmaskedPending = [] :=
      List.eq_nil_iff_forall_not_mem.mpr fun c => mt (listed_iff c).mp (nothing c)
    refine ⟨congrArg List.length empty, serve_okay running rfl ?_⟩
    rw [State.fetchBytes, fetched_none empty]
    rfl
  · have selected : s.fetched = some c :=
      fetched_eq ((listed_iff c).mpr isListed) fun d mem => first d ((listed_iff d).mp mem)
    refine serve_okay running rfl ?_
    rw [State.fetchBytes, selected]
    exact append_congr (append_congr (append_congr rfl (conditionByte_eq ..)) (detailBytes_eq _)) rfl

/-- Settles O25: each request by its operands, as an update of the record of one class. -/
theorem noticesAreAcknowledgedAndConfigured : Obligations.NoticesAreAcknowledgedAndConfigured := by
  intro s running
  refine ⟨⟨fun n outside => serve_refuse running (noticeAck_outside outside), fun c => ?ack⟩,
    fun n p m outside => serve_refuse running (noticeConfig_outside outside), fun c p m low small => ?config⟩
  case ack =>
    have written : s.onNotice c Notice.acknowledge = _ := onNotice_put rfl
    refine (serve_eq _ running).trans ?_
    rw [noticeAck_named, written, detailBytes_eq]
    rfl
  case config =>
    intro n
    have written : s.onNotice c (fun n => n.configure p.toNat (decide (m = 1#8))) = _ := onNotice_put rfl
    refine ⟨(serve_eq _ running).trans ?_, noticeRecord_length c n⟩
    rw [noticeConfig_named c low small, written]
    rfl

/-- Settles O26: each report is an update of the record of its class. -/
theorem noticesAreRaisedAndReported : Obligations.NoticesAreRaisedAndReported := by
  intro c i a b s n d put raised
  have starts : reportClass c true i a b s
      = put (if n.condition then n else { raised with condition := true }) := onNotice_put rfl
  refine ⟨onNotice_put rfl, fun inactive => ?_, fun active => ?_, onNotice_put rfl, onNotice_put rfl, attn_iff⟩
  · rw [starts, inactive]
    rfl
  · rw [starts, active]
    rfl

end Sys2Proof.Machine
end

