-- ==== Sys2Proof/Proofs/StoreCommit.lean ====
section
/-! PROOFS. The commit of the store image: what STORE_COMMIT and BASELINE_UNLOCK answer (R194 to R198), and what the end
of a commit leaves (R197, R199). -/

namespace Sys2Proof.Machine

section
variable {s : State}

/-! ### The requests (R195, R196, R198) -/

theorem committing_of_runs (runs : s.su.store ≠ .idle) : s.committing = true :=
  committing_eq.trans (decide_eq_true runs)

theorem committing_of_idle (idle : s.su.store = .idle) : s.committing = false :=
  committing_eq.trans (decide_eq_false (not_not.mpr idle))

/-- The baseline lock is on and not unlocked, and some baseline differs from the image's (R195). -/
theorem commitLocked_iff : s.commitLocked = true ↔ s.y .baselineLock = 1 ∧ s.su.unlock = false
    ∧ ∃ i, (s.ub i).baseline.map Baseline.components ≠ s.imageBaseline i := by
  simp [State.commitLocked, Settings.lockOn, State.y, State.baselineDiffers, and_assoc]

theorem takeStoreCommit_busy (runs : s.su.store ≠ .idle) : takeStoreCommit s = refuse .busy s :=
  if_pos (committing_of_runs runs)

theorem takeStoreCommit_idle (idle : s.su.store = .idle) : takeStoreCommit s
    = if s.commitLocked then (reportDetail .store none 2 0 s, .just .protected_)
      else (startCommit s, .just .accepted) := by
  rw [takeStoreCommit, committing_of_idle idle]
  rfl

theorem takeBaselineUnlock_busy (runs : s.su.store ≠ .idle) : takeBaselineUnlock s = refuse .busy s :=
  if_pos (committing_of_runs runs)

theorem takeBaselineUnlock_idle (idle : s.su.store = .idle) :
    takeBaselineUnlock s = ({ s with su := { s.su with unlock := true } }, .just .ok) := by
  rw [takeBaselineUnlock, committing_of_idle idle]
  rfl

/-! ### The snapshot (R194, R196) -/

theorem snapshotImage_notice (c : NoticeClass) :
    s.snapshotImage.notices.get c.ix = ((s.notice c).priority, (s.notice c).masked) := Tab.get_build ..

theorem snapshotImage_step (i : StepIx) :
    s.snapshotImage.baselines.get i = (s.ub i).baseline.map Baseline.components
      ∧ s.snapshotImage.rises.get i = (s.vrg.steps.get i).rise
      ∧ s.snapshotImage.opCounts.get i = (s.sw i).opCount :=
  ⟨Tab.get_build .., Tab.get_build .., Tab.get_build ..⟩

/-! ### The end of a commit (R197, R199) -/

theorem endCommit_idle (idle : s.su.store = .idle) (r : CommitResult) : endCommit r s = s := by
  rw [endCommit, idle]

section
variable {since : Nat} {img : StoreImage} (runs : s.su.store = .committing since img)
include runs

theorem endCommit_complete : endCommit .complete s = completeCommit img s := by
  rw [endCommit, runs]

/-- A commit that fails while STORE_FAULT stands has its detail reported, and starts nothing. -/
theorem endCommit_failed_again (stands : s.su.fault = true) :
    endCommit .failed s = reportDetail .store none 1 0 (closeCommit .failed s) := by
  rw [endCommit, runs]
  exact if_pos stands

theorem endCommit_failed_first (absent : s.su.fault = false) :
    endCommit .failed s = storeFault true 1 (closeCommit .failed s) := by
  rw [endCommit, runs]
  exact if_neg (ne_true_of_eq_false absent)

end

end

/-- Settles O29: each request by whether a commit is in progress, and STORE_COMMIT then by the baseline lock. -/
theorem storeCommitAndUnlock : Obligations.StoreCommitAndUnlock := by
  intro s running
  refine ⟨fun runs => ⟨serve_just running (takeStoreCommit_busy runs),
    serve_just running (takeBaselineUnlock_busy runs)⟩, fun idle => ?_⟩
  refine ⟨serve_just running (takeBaselineUnlock_idle idle), fun locked => ?refused, fun free => ?accepted⟩
  case refused =>
    exact serve_just running ((takeStoreCommit_idle idle).trans (if_pos (commitLocked_iff.mpr locked)))
  case accepted =>
    exact ⟨s.snapshotImage,
      serve_just running ((takeStoreCommit_idle idle).trans (if_neg (mt commitLocked_iff.mp free))),
      rfl, rfl, snapshotImage_notice, snapshotImage_step⟩

/-- Settles O30: a commit in progress ends by its result, and a failed one by whether STORE_FAULT stands. -/
theorem commitEndClosesTheCommit : Obligations.CommitEndClosesTheCommit := by
  intro s running
  have ends (r : CommitResult) : exec (.commitEnd r) s = .next (endCommit r s) := live_eq (endCommit r) running
  refine ⟨fun idle r => (ends r).trans (congrArg _ (endCommit_idle idle r)), fun since img runs => ?_⟩
  intro closed flagged
  refine ⟨?complete, fun stands => ?again, fun absent => ?first⟩
  case complete =>
    rw [ends, endCommit_complete runs]
    rfl
  case again =>
    rw [ends, endCommit_failed_again runs stands, ← stands]
    rfl
  case first =>
    rw [ends, endCommit_failed_first runs absent]
    rfl

end Sys2Proof.Machine
end

