-- ==== Sys2Proof/Proofs/ResetState.lean ====
section
/-! PROOFS. What is taken while a reset is held (R201, R202, log entry 12), and the reset state: it is the end of its
own full reset, so that what every full reset ends in holds of it. -/

namespace Sys2Proof.Machine

/-- Settles O4: a request, and every occurrence but the three named, is taken only where no reset is held. -/
theorem nothingIsTakenWhileAResetIsHeld : Obligations.NothingIsTakenWhileAResetIsHeld := by
  intro c s held
  cases c with
  | fullReset | fullResetHeld | contactLevelChange => trivial
  | ident | yardStatus | stepRead | measRead | linkRead | linkStats | harmRead | unbRead | queueRead | noticeList
  | modeSet | orderStage | orderExecute | orderCancel | stepEnable | stepDisable | stepRelease | marksClear
  | baselineCapture | captureCancel | settingWrite | settingRead | settingsApply | settingsDiscard | routeSet
  | routeRead | storeCommit | storeStatus | baselineUnlock | noticeFetch | noticeAck | noticeConfig | linkReset =>
    exact serve_held _ held
  | _ => exact live_held _ held

/-! ### The end of every full reset is sound -/

section
variable (cause : ResetCause) (b1 b0 : Bool) (s : State)

theorem restart_coilsSafe : (restart cause b1 b0 s).coilsSafe := by
  intro i
  rw [restart_sw]
  exact CoilsOk.of_off rfl rfl rfl

theorem restart_queueSound : (restart cause b1 b0 s).queueSound := queueSound_of_empty rfl

theorem restart_slotSound : (restart cause b1 b0 s).slotSound :=
  slotSound_of_idle (fun i => congrArg SwuStep.op (restart_sw cause b1 b0 s i))

/-- No link is active, and nothing has been compared (R20). -/
theorem restart_sourcesSound : (restart cause b1 b0 s).sourcesSound :=
  ⟨fun _ active => (nomatch active), fun _ => ⟨rfl, rfl, rfl⟩⟩

theorem restart_stagesSound : (restart cause b1 b0 s).stagesSound :=
  fun i _ => restart_stagesOff cause b1 b0 s i

end

/-! ### The reset state -/

theorem factory_installed (i : StepIx) : Settings.factory.installed i = false := by
  revert i
  decide

/-- With the factory settings every step restarts as a step that is not installed (R42, R45). -/
theorem stepTable_restart_factory : Reset.stepTable.restart Settings.factory = Reset.stepTable := by
  have steps (i : StepIx) :
      (Reset.stepTable.steps.get i).restart (Settings.factory.installed i) = Reset.step := by
    rw [Reset.stepTable, Tab.get_build, factory_installed]
    rfl
  rw [StepTable.restart, funext steps]
  rfl

/-- With no image to load, every block but the Step Table is loaded with the constants of the reset state. -/
theorem restart_reset : restart .powerOn false false State.reset = State.reset := by
  show { State.reset with st := Reset.stepTable.restart Settings.factory } = State.reset
  rw [stepTable_restart_factory]
  rfl

/-- What every full reset ends in holds of the reset state. -/
theorem reset_of_restart {P : State → Prop} (ends : ∀ cause b1 b0 s, P (restart cause b1 b0 s)) : P State.reset :=
  restart_reset ▸ ends .powerOn false false State.reset

/-- Settles O8: each predicate holds at the end of every full reset, and the reset state is the end of one. -/
theorem resetStateIsSoundAndItsOwnReset : Obligations.ResetStateIsSoundAndItsOwnReset :=
  ⟨reset_of_restart restart_coilsSafe, reset_of_restart restart_listsAgree, reset_of_restart restart_queueSound,
    reset_of_restart restart_slotSound, reset_of_restart restart_fieldsFollow, reset_of_restart restart_holdSound,
    reset_of_restart restart_sourcesSound, reset_of_restart restart_stagesSound, reset_of_restart restart_levels,
    congrArg Host.Outcome.next restart_reset⟩

end Sys2Proof.Machine
end

