-- ==== Sys2Proof/Proofs/RequestFrames.lean ====
section
/-! PROOFS. The frame of a request is the host frame of its type, its tag and its operands (R205, R206), so its fields
are those of a host frame, and its operands are read back from its payload. -/

namespace Sys2Proof.Machine

/-- A request's type fits the type byte of its frame. -/
theorem requestFrame_type (r : Request) (tag : Byte) : hostType (requestFrame r tag) = requestType r :=
  hostFrameOf_type (Nat.lt_trans (requestType_lt r) (by decide))

/-- Settles O18: a request's payload is short enough for a host frame, and such a frame gives its fields back. -/
theorem requestFramesSpellTheirRequests : Obligations.RequestFramesSpellTheirRequests := by
  intro r tag
  have short := requestPayload_short r
  exact ⟨requestFrame_complete r tag, hostFrameOf_checkOk short, requestFrame_type r tag, hostFrameOf_tag,
    hostFrameOf_payload short, decodeRequest_request r⟩

end Sys2Proof.Machine
end

section
/-! PROOFS. Every command answers a next state and leaves the queue of commands as it is, and a step takes the command
at the front of that queue. -/

namespace Sys2Proof.Machine

/-! ### Every command answers -/

/-- What waits for the end of a reset answers whether one is held or not. -/
theorem live_answers (s : State) (f : State → State) : ∃ t, live s f = .next t := by
  cases held : s.resetHeld with
  | none => exact ⟨f s, live_eq f held⟩
  | some cause => exact ⟨s, live_held f (held ▸ rfl)⟩

theorem serve_answers (s : State) (f : State → Taken) : ∃ t, serve s f = .next t := live_answers s _

/-- The two resets and the levels of the contacts are taken in every state; requests are served by their owners, and
the other events wait for the end of a reset. -/
theorem exec_answers (c : Instr) (s : State) : ∃ t, exec c s = .next t := by
  cases c with
  | fullReset cause b1 b0 => exact ⟨restart cause b1 b0 s, rfl⟩
  | fullResetHeld cause => exact ⟨holdReset cause s, rfl⟩
  | contactLevelChange => exact ⟨_, rfl⟩
  | ident | yardStatus | stepRead | measRead | linkRead | linkStats | harmRead | unbRead | queueRead
  | noticeList | noticeFetch | noticeAck | noticeConfig
  | modeSet | orderStage | orderExecute | orderCancel | stepEnable | stepDisable | stepRelease
  | marksClear | baselineCapture | captureCancel
  | settingWrite | settingRead | settingsApply | settingsDiscard | routeSet | routeRead
  | storeCommit | storeStatus | baselineUnlock | linkReset => exact serve_answers s _
  | _ => exact live_answers s _

/-! ### The queue of commands -/

/-- A reset carries the queue over, and no effect of another command changes it. -/
theorem exec_pending {c : Instr} {s t : State} (h : exec c s = .next t) : t.pending = s.pending := by
  cases c with
  | fullReset => cases h; rfl
  | fullResetHeld => cases h; rfl
  | _ =>
    have effects : Run True True True s t := exec_run _ s t h id (fun _ => trivial)
    obtain ⟨-, pending, -⟩ := effects.outside
    exact pending

/-- Settles O3: the answer command by command, and the queue from the effects a command is made of. -/
theorem everyCommandAnswersNextAndKeepsTheQueue : Obligations.EveryCommandAnswersNextAndKeepsTheQueue := by
  intro c s
  obtain ⟨t, answers⟩ := exec_answers c s
  exact ⟨t, answers, exec_pending answers⟩

/-- Settles O1: the queue of the state has the command at its front. -/
theorem stepTakesTheFrontCommand : Obligations.StepTakesTheFrontCommand :=
  fun _ _ _ => step_front rfl

end Sys2Proof.Machine
end
